-- ==== Sys2Proof/Word.lean ====
section
/-! DEFINITION. The words the part moves: link bytes, memory words, byte addresses. -/

namespace Sys2Proof

/-- One byte on the maintenance link (R155). -/
abbrev Byte := BitVec 8

/-- A word: 4 bytes at an address that is a multiple of 4 (00, Terms). -/
abbrev Word := BitVec 32

/-- A 32-bit byte address (00, Conventions). -/
abbrev Addr := BitVec 32

end Sys2Proof
end

