-- ==== Sys2Proof/Config.lean ====
section
/-! DEFINITION. What is fixed for the part (R167), and the words the spec leaves unstated. -/

namespace Sys2Proof.Config

/-- IDENTIFY's part code (R167). -/
def partCode : BitVec 16 := 0x4160#16

/-- IDENTIFY's revision code (R167). -/
def revision : Byte := 1#8

/-- Rings, capture records, map entries and event queue records, as IDENTIFY counts them (R167). -/
def ringCount : Byte := 8#8
def captureCount : Byte := 16#8
def mapEntryCount : BitVec 16 := 512#16
def eventRecordCount : Byte := 64#8

/-- FREE VALUE (DESIGN CHOICE, log 7; safe: nothing can be proved of it). The n-th data word whose
value the spec does not state: a word that a matching read response does not carry (R15), or the
data lines of a home-write word that carries no strobe (R124). -/
opaque freeWord : Nat → Word

end Sys2Proof.Config
end

