-- ==== Sys2Proof/Syntax.lean ====
section
/-! DEFINITION. The commands and events of the part: one constructor of `Instr` per row of
spec/opcode_table.json. Link parameters stand as the bytes carry them (R174), undecoded, so that a
value that is out of range can be sent and refused by the command's own rule (R175). -/

namespace Sys2Proof

/-- A word of a write burst: data and one strobe per byte; strobe i enables bits 8i+7..8i (1.1). -/
structure WriteWord where
  data    : Word
  strobes : BitVec 4
  deriving DecidableEq, Repr

/-- Direction and length of a burst, with the words of a write (1.1). -/
inductive Burst where
  | read  (length : Nat)
  | write (words : List WriteWord)
  deriving DecidableEq, Repr

/-- An upstream request: master ID, start address, burst (1.1). -/
structure UpRequest where
  master : Fin 16
  addr   : Addr
  burst  : Burst
  deriving DecidableEq, Repr

/-- OKAY or ERROR, on UP and on DN (1.1, 1.4). -/
inductive BusStatus where
  | okay
  | error
  deriving DecidableEq, Repr

/-- The 27-byte configuration record of SET RING as carried on the link (9.4). -/
structure RingParams where
  base          : BitVec 32
  sizeBlocks    : BitVec 24
  producer      : Byte
  format        : Byte
  shift         : Byte
  offset        : BitVec 24
  high          : BitVec 24
  low           : BitVec 24
  stuckLimit    : Byte
  markerKey     : Byte
  markerEnable  : Byte
  preBlocks     : Byte
  postWords     : BitVec 16
  triggerEnable : Byte
  eventEnable   : Byte
  deriving DecidableEq, Repr

/-- An edge of SCK: a rising one with the level of SDI at it, or a falling one (R155). -/
inductive SckEdge where
  | rise (sdi : Bool)
  | fall
  deriving DecidableEq, Repr

/-- One constructor per row of the table of operations and events. The rows of link commands stand
for the receipt of a good frame that carries the command (R161). -/
inductive Instr where
  /-- A request is presented at UP (R1). -/
  | upstreamRequest (req : UpRequest)
  /-- A response arrives on DN with this tag, status and data words (R15). -/
  | dnResponse (tag : BitVec 4) (status : BusStatus) (data : List Word)
  /-- The path unit's outstanding transaction expires (R16). -/
  | dnTimeout
  /-- The merge engine's outstanding transaction expires (R128). -/
  | copyTimeout
  /-- The input stage takes a level at a TRIG input (R54). -/
  | trigLevelChange (line : Fin 4) (level : Bool)
  /-- RSTN goes low, or power-up (R18). -/
  | rstnLow
  /-- RSTN returns high (R178). -/
  | rstnHigh
  /-- SCS falls (R159). -/
  | scsFall
  /-- The host clocks SCK: the bits of a request frame are clocked in, its check byte last, or a part of
  them, or the bytes after it (R155, R156, R160; log 12). -/
  | requestFrame (edges : List SckEdge)
  /-- The last bit of the reply check byte is sampled (R162). -/
  | replyCommit
  /-- SCS rises (R163, R164). -/
  | scsRise
  | identify
  | clear
  | setPath (timeout : BitVec 16) (share : Byte)
  | getPath
  | setView (master view : Byte)
  | setRing (ring : Byte) (params : RingParams)
  | getRing (ring : Byte)
  | ringMode (ring mode : Byte)
  | setMarker (first last action : Byte)
  | setLine (line reference mask route : Byte)
  | getLines
  | setPool (base : BitVec 32) (slotCount lowWater : BitVec 16)
  | getPool
  | force (ring : Byte)
  | release (capture : Byte)
  | getCapture (capture : Byte)
  | listCaptures
  | readExtremes (ring : Byte)
  | popEvent
  | peekEvent
  | setEvents (watermark mask : Byte)
  | readAttention
  | resume
  | skip
  | getFault
  | getMap (ring : Byte) (block : BitVec 24)
  /-- The turnaround byte completes (R159). -/
  | turnaroundByte
  deriving DecidableEq, Repr

end Sys2Proof
end

