-- ==== Sys2Proof/WellFormed.lean ====
section
/-! DEFINITION. Which operands the ports can carry: a UP burst is word aligned and 1 to 16 words
long (1.1); a DN response carries at most 16 words (1.4); rising and falling edges of SCK alternate
(R155). Link parameters need no check: every byte can be sent, and the command refuses what is out
of range. -/

namespace Sys2Proof

/-- Length in words of a burst. -/
def Burst.length : Burst → Nat
  | .read n   => n
  | .write ws => ws.length

/-- A burst the UP port accepts: a start address that is a multiple of 4, 1 to 16 words (1.1). -/
def UpRequest.wf (q : UpRequest) : Bool :=
  q.addr.toNat % 4 == 0 && decide (1 ≤ q.burst.length) && decide (q.burst.length ≤ 16)

/-- Rising and falling edges take turns (R155). -/
def sckAlternates : List SckEdge → Bool
  | .rise _ :: .rise _ :: _ => false
  | .fall :: .fall :: _ => false
  | _ :: rest => sckAlternates rest
  | [] => true

/-- The operands of a command that its port can carry. -/
def Instr.wf : Instr → Bool
  | .upstreamRequest q  => q.wf
  | .dnResponse _ _ ws  => decide (ws.length ≤ 16)
  | .requestFrame edges => sckAlternates edges
  | .dnTimeout | .copyTimeout | .trigLevelChange _ _ | .rstnLow | .rstnHigh | .scsFall
  | .replyCommit | .scsRise | .identify | .clear | .setPath _ _ | .getPath | .setView _ _
  | .setRing _ _ | .getRing _ | .ringMode _ _ | .setMarker _ _ _ | .setLine _ _ _ _ | .getLines
  | .setPool _ _ _ | .getPool | .force _ | .release _ | .getCapture _ | .listCaptures
  | .readExtremes _ | .popEvent | .peekEvent | .setEvents _ _ | .readAttention | .resume | .skip
  | .getFault | .getMap _ _ | .turnaroundByte => true

end Sys2Proof
end

