-- ==== Sys2Proof/Decode.lean ====
section
/-! DEFINITION. The link's encoding of commands (9.3, 9.4): bit and byte order, command codes, parameter
counts, the parameters of each command, and the check byte (R157). `decodeTableWord` answers none:
no row of the table of operations has bits. -/

namespace Sys2Proof

/-- Values wider than one byte, most significant byte first (R174). -/
def be16 (b1 b0 : Byte) : BitVec 16 := b1 ++ b0

def be24 (b2 b1 b0 : Byte) : BitVec 24 := b2 ++ b1 ++ b0

def be32 (b3 b2 b1 b0 : Byte) : BitVec 32 := b3 ++ b2 ++ b1 ++ b0

def bytes16 (x : BitVec 16) : List Byte := [x.extractLsb' 8 8, x.extractLsb' 0 8]

def bytes24 (x : BitVec 24) : List Byte :=
  [x.extractLsb' 16 8, x.extractLsb' 8 8, x.extractLsb' 0 8]

def bytes32 (x : BitVec 32) : List Byte :=
  [x.extractLsb' 24 8, x.extractLsb' 16 8, x.extractLsb' 8 8, x.extractLsb' 0 8]

/-- The bits of a byte in the order they pass on the link, most significant first (R155). -/
def byteBits (b : Byte) : List Bool := (List.range 8).map fun i => b.getLsbD (7 - i)

/-- The byte that eight sampled bits make: the first is bit 7 (R155). -/
def byteOfBits (bits : List Bool) : Byte :=
  bits.foldl (fun v x => (v <<< 1) ||| (if x then 1#8 else 0#8)) 0#8

/-- The edges of SCK that carry some bits from the host: one period of SCK for each, SDI sampled at the
rising edge (R155). -/
def clockBits (bits : List Bool) : List SckEdge := bits.flatMap fun x => [.rise x, .fall]

/-- The edges of SCK that carry some bytes from the host (R155). -/
def clockBytes (bytes : List Byte) : List SckEdge := bytes.flatMap fun b => clockBits (byteBits b)

/-- One shift of the check value (R157, step 3). -/
def crcShift (v : Byte) : Byte := if v.msb then (v <<< 1) ^^^ 0x07#8 else v <<< 1

/-- The check value after one more byte (R157, steps 2 and 3). -/
def crcByte (v b : Byte) : Byte :=
  crcShift (crcShift (crcShift (crcShift (crcShift (crcShift (crcShift (crcShift (v ^^^ b))))))))

/-- The check byte over a string of bytes: CRC-8, initial value 00H (R157). -/
def crc8 (bytes : List Byte) : Byte := bytes.foldl crcByte 0#8

/-- Parameter count of a command code; none for a code not in the table (8.6, 9.3). -/
def paramCount (code : Byte) : Option Nat :=
  match code.toNat with
  | 0x01 => some 0 | 0x02 => some 1 | 0x03 => some 0 | 0x04 => some 0 | 0x05 => some 0
  | 0x06 => some 1 | 0x07 => some 0 | 0x08 => some 4 | 0x09 => some 0 | 0x0A => some 0
  | 0x0B => some 0 | 0x10 => some 0 | 0x11 => some 1
  | 0x20 => some 3 | 0x21 => some 2 | 0x22 => some 28 | 0x23 => some 2 | 0x24 => some 3
  | 0x25 => some 4 | 0x26 => some 8 | 0x27 => some 2
  | 0x30 => some 1 | 0x31 => some 1 | 0x32 => some 0 | 0x33 => some 0 | 0x3F => some 0
  | _ => none

/-- SET RING's configuration record from its parameter bytes, which start at offset 1 (9.4). -/
def decodeRingParams (p : Nat → Byte) : RingParams where
  base          := be32 (p 1) (p 2) (p 3) (p 4)
  sizeBlocks    := be24 (p 5) (p 6) (p 7)
  producer      := p 8
  format        := p 9
  shift         := p 10
  offset        := be24 (p 11) (p 12) (p 13)
  high          := be24 (p 14) (p 15) (p 16)
  low           := be24 (p 17) (p 18) (p 19)
  stuckLimit    := p 20
  markerKey     := p 21
  markerEnable  := p 22
  preBlocks     := p 23
  postWords     := be16 (p 24) (p 25)
  triggerEnable := p 26
  eventEnable   := p 27

/-- The command that a code and its parameter bytes carry; none for a code not in the table or a
wrong number of parameter bytes (9.3, 9.4). -/
def decodeCommand (code : Byte) (params : List Byte) : Option Instr :=
  if paramCount code = some params.length then
    let p := fun i => params.getD i 0#8
    match code.toNat with
    | 0x01 => some .identify
    | 0x02 => some (.getRing (p 0))
    | 0x03 => some .getPath
    | 0x04 => some .getLines
    | 0x05 => some .getPool
    | 0x06 => some (.getCapture (p 0))
    | 0x07 => some .listCaptures
    | 0x08 => some (.getMap (p 0) (be24 (p 1) (p 2) (p 3)))
    | 0x09 => some .getFault
    | 0x0A => some .readAttention
    | 0x0B => some .peekEvent
    | 0x10 => some .popEvent
    | 0x11 => some (.readExtremes (p 0))
    | 0x20 => some (.setPath (be16 (p 0) (p 1)) (p 2))
    | 0x21 => some (.setView (p 0) (p 1))
    | 0x22 => some (.setRing (p 0) (decodeRingParams p))
    | 0x23 => some (.ringMode (p 0) (p 1))
    | 0x24 => some (.setMarker (p 0) (p 1) (p 2))
    | 0x25 => some (.setLine (p 0) (p 1) (p 2) (p 3))
    | 0x26 => some (.setPool (be32 (p 0) (p 1) (p 2) (p 3)) (be16 (p 4) (p 5)) (be16 (p 6) (p 7)))
    | 0x27 => some (.setEvents (p 0) (p 1))
    | 0x30 => some (.force (p 0))
    | 0x31 => some (.release (p 0))
    | 0x32 => some .resume
    | 0x33 => some .skip
    | 0x3F => some .clear
    | _ => none
  else none

/-- The 27 bytes of a configuration record (9.4). -/
def encodeRingParams (r : RingParams) : List Byte :=
  bytes32 r.base ++ bytes24 r.sizeBlocks ++ [r.producer, r.format, r.shift] ++ bytes24 r.offset ++
  bytes24 r.high ++ bytes24 r.low ++ [r.stuckLimit, r.markerKey, r.markerEnable, r.preBlocks] ++
  bytes16 r.postWords ++ [r.triggerEnable, r.eventEnable]

/-- The code and parameter bytes of a link command; none for the rows that are not link commands
(9.3, 9.4). -/
def encodeCommand : Instr → Option (Byte × List Byte)
  | .identify           => some (0x01#8, [])
  | .getRing r          => some (0x02#8, [r])
  | .getPath            => some (0x03#8, [])
  | .getLines           => some (0x04#8, [])
  | .getPool            => some (0x05#8, [])
  | .getCapture c       => some (0x06#8, [c])
  | .listCaptures       => some (0x07#8, [])
  | .getMap r b         => some (0x08#8, r :: bytes24 b)
  | .getFault           => some (0x09#8, [])
  | .readAttention      => some (0x0A#8, [])
  | .peekEvent          => some (0x0B#8, [])
  | .popEvent           => some (0x10#8, [])
  | .readExtremes r     => some (0x11#8, [r])
  | .setPath t s        => some (0x20#8, bytes16 t ++ [s])
  | .setView m v        => some (0x21#8, [m, v])
  | .setRing r c        => some (0x22#8, r :: encodeRingParams c)
  | .ringMode r m       => some (0x23#8, [r, m])
  | .setMarker f l a    => some (0x24#8, [f, l, a])
  | .setLine n e m r    => some (0x25#8, [n, e, m, r])
  | .setPool b n w      => some (0x26#8, bytes32 b ++ bytes16 n ++ bytes16 w)
  | .setEvents w m      => some (0x27#8, [w, m])
  | .force r            => some (0x30#8, [r])
  | .release c          => some (0x31#8, [c])
  | .resume             => some (0x32#8, [])
  | .skip               => some (0x33#8, [])
  | .clear              => some (0x3F#8, [])
  | .upstreamRequest _ | .dnResponse _ _ _ | .dnTimeout | .copyTimeout | .trigLevelChange _ _
  | .rstnLow | .rstnHigh | .scsFall | .requestFrame _ | .replyCommit | .scsRise
  | .turnaroundByte => none

/-- The whole request frame of a link command: code, length byte, parameters, check byte (R156). -/
def encodeFrame (c : Instr) : Option (List Byte) :=
  match encodeCommand c with
  | some (code, params) =>
    let front := code :: BitVec.ofNat 8 params.length :: params
    some (front ++ [crc8 front])
  | none => none

/-- The command that a table word spells. No row of spec/opcode_table.json gives bits (each has an
empty list of fields), so no word spells a command. -/
def decodeTableWord (_nbits _w : Nat) : Option Instr := none

end Sys2Proof
end

