-- ==== Sys2Proof/Machine/State.lean ====
section
/-! DEFINITION. The state of the part as plain data, grouped by the block that owns it (00, Block
summary), and the state right after reset. -/

namespace Sys2Proof.Machine

/-! ### Names -/

/-- The view of a master (R3). -/
inductive View where
  | live
  | review
  deriving DecidableEq, Repr

/-- Sample format of a ring (2.1). -/
inductive Format where
  | s24
  | p16
  deriving DecidableEq, Repr

/-- Mode of a ring (R24). -/
inductive Mode where
  | off
  | safe
  | armed
  deriving DecidableEq, Repr

/-- Limit zone of a ring (R36). -/
inductive Zone where
  | unset
  | inside
  | above
  | below
  deriving DecidableEq, Repr

/-- Action of a marker table entry (R51). -/
inductive MarkerAction where
  | pass
  | note
  | trigger
  | arm
  | safe
  deriving DecidableEq, Repr

/-- Source of a trigger request (3.3). -/
inductive Source where
  | limitHigh
  | limitLow
  | stuck
  | marker
  | line
  | forced
  deriving DecidableEq, Repr

/-- State of a capture record (R67). -/
inductive CaptureState where
  | free
  | post
  | held
  | releasing
  | merging
  deriving DecidableEq, Repr

/-- State of a map entry (R100). -/
inductive EntryState where
  | mapped
  | copying
  deriving DecidableEq, Repr

/-- State of the merge engine (R119). -/
inductive EngineStatus where
  | idle
  | copying
  | halted
  deriving DecidableEq, Repr

/-- Phase of a block copy (6.2). -/
inductive CopyPhase where
  | readWait
  | read
  | writeWait
  | write
  deriving DecidableEq, Repr

/-- Kind of a merge fault (R129). -/
inductive FaultKind where
  | slotReadError
  | homeWriteError
  | copyTimeout
  deriving DecidableEq, Repr

/-- Kind of a path-unit transaction (1.4). -/
inductive PathKind where
  | forwardRead
  | forwardWrite
  | fillRead
  | slotRead
  | slotWrite
  deriving DecidableEq, Repr

/-- Direction of a DN transaction (1.4). -/
inductive Dir where
  | read
  | write
  deriving DecidableEq, Repr

/-- Kind of an event record (R138). -/
inductive EventKind where
  | limitHigh
  | limitLow
  | limitClear
  | stuck
  | markerNote
  | ringArmed
  | ringSafe
  | line
  | captureOpen
  | captureReady
  | captureFree
  | triggerRefused
  | spill
  | poolLow
  | guard
  | boundary
  | dnTimeout
  | mergeFault
  | overflow
  deriving DecidableEq, Repr

/-- State of the maintenance link (R159). -/
inductive LinkPhase where
  | idle
  | request
  | turn
  | reply
  | discard
  deriving DecidableEq, Repr

/-- Reply status (R165). -/
inductive Status where
  | ok
  | busy
  | state
  | range
  | overlap
  | noCapture
  | empty
  | check
  | unknown
  deriving DecidableEq, Repr

/-! ### Pins and the UP port -/

/-- Input levels: true is high. `trig` is what the input stage has taken (R178). -/
structure Pins where
  rstn : Bool
  scs  : Bool
  trig : Vector Bool 4
  deriving DecidableEq, Repr

/-- A response sent at UP, with the words of an OKAY read (R2). -/
structure UpResponse where
  master : Fin 16
  status : BusStatus
  data   : List Word
  deriving DecidableEq, Repr

/-- The UP port: requests presented and not yet taken, in the order presented (R1), and the
responses the part has sent, oldest first (R2; a record of the port's output, log 6). -/
structure UpPort where
  waiting   : List UpRequest
  responses : List UpResponse
  deriving DecidableEq, Repr

/-! ### Path unit and DN port -/

/-- Class of a request that is taken into TRANSFER: the refused classes are answered at the take and
never current (R2, R4). -/
inductive ReqClass where
  | outside
  | ring (ring : Fin 8) (block : Nat)
  deriving DecidableEq, Repr

/-- One transaction of a transfer plan (R9). `first` is the burst index of its first word; `serves`
are the burst indices it supplies (R12) or fills (R11). -/
structure PlanTxn where
  kind   : PathKind
  addr   : Addr
  length : Nat
  first  : Nat
  serves : List Nat
  words  : List WriteWord
  deriving DecidableEq, Repr

/-- The current request record (R1). `plan` holds the transactions not yet completed, the first of
them waiting or outstanding; `readData` the words read so far, by burst index. -/
structure Current where
  req        : UpRequest
  view       : View
  cls        : ReqClass
  plan       : List PlanTxn
  readData   : List (Option Word)
  slotTarget : Option (Fin 8 × Nat)
  deriving DecidableEq, Repr

/-- The path unit (chapter 1): no current request is IDLE, one is TRANSFER. -/
structure PathUnit where
  current   : Option Current
  views     : Vector View 16
  dnTimeout : Nat
  share     : Nat
  deriving DecidableEq, Repr

/-- Who issued a DN transaction. -/
inductive Side where
  | path (kind : PathKind)
  | engine
  deriving DecidableEq, Repr

/-- A transaction issued on DN (1.4), with the timeout value current at its issue (R16, R128). -/
structure DnTxn where
  side       : Side
  master     : Fin 16
  partIssued : Bool
  tag        : BitVec 4
  dir        : Dir
  addr       : Addr
  length     : Nat
  words      : List WriteWord
  timeout    : Nat
  deriving DecidableEq, Repr

/-- The DN port and its arbiter (R14, R15). -/
structure DnPort where
  outstanding : Option DnTxn
  tagCounter  : BitVec 4
  shareCount  : Nat
  deriving DecidableEq, Repr

/-! ### Ring block -/

/-- The set trigger_enable of a ring (2.1). -/
structure TriggerEnable where
  limitHigh : Bool
  limitLow  : Bool
  stuck     : Bool
  marker    : Bool
  line      : Bool
  deriving DecidableEq, Repr

/-- The set event_enable of a ring (2.1). -/
structure EventEnable where
  limit      : Bool
  stuck      : Bool
  markerNote : Bool
  deriving DecidableEq, Repr

/-- The configuration record of a ring (2.1, R19). -/
structure RingConfig where
  base          : Addr
  sizeBlocks    : Nat
  producer      : Fin 16
  format        : Format
  shift         : Nat
  offset        : Int
  high          : Int
  low           : Int
  stuckLimit    : Nat
  markerKey     : Byte
  markerEnable  : Bool
  preBlocks     : Nat
  postWords     : Nat
  triggerEnable : TriggerEnable
  eventEnable   : EventEnable
  deriving DecidableEq, Repr

/-- A ring's stuck run (R36). -/
structure StuckRun where
  last     : Option Int
  count    : Nat
  reported : Bool
  deriving DecidableEq, Repr

/-- An extremes record (R37). -/
structure Extremes where
  count : Nat
  min   : Option Int
  max   : Option Int
  deriving DecidableEq, Repr

/-- A ring record: configuration, mode and runtime state (chapter 2). -/
structure Ring where
  cfg             : RingConfig
  mode            : Mode
  head            : Option Addr
  zone            : Zone
  stuck           : StuckRun
  extremes        : Extremes
  pendingExtremes : Option Extremes
  deriving DecidableEq, Repr

/-! ### Detector bank -/

/-- One line of the line table (3.7); `route` holds ring n at bit n. -/
structure Line where
  reference : Bool
  mask      : Bool
  route     : BitVec 8
  level     : Bool
  condition : Bool
  deriving DecidableEq, Repr

/-- The detector bank's own tables (R41). -/
structure DetectorBank where
  markers : Vector MarkerAction 256
  lines   : Vector Line 4
  deriving DecidableEq, Repr

/-! ### Capture table -/

/-- A capture record (4.1). -/
structure Capture where
  state          : CaptureState
  ring           : Fin 8
  serial         : BitVec 16
  source         : Option Source
  sourceDetail   : Option Byte
  triggerAddress : Addr
  triggerValue   : Option Int
  firstBlock     : Nat
  triggerBlock   : Nat
  lastBlock      : Nat
  postRemaining  : Nat
  absorbed       : Nat
  entries        : Nat
  divertedBlocks : Nat
  spilledWords   : Nat
  lostWords      : Nat
  restarts       : Nat
  cut            : Bool
  isPartial      : Bool
  deriving DecidableEq, Repr

/-- The capture table: sixteen records and the serial counter (R65). -/
structure CaptureTable where
  records : Vector Capture 16
  serial  : BitVec 16
  deriving DecidableEq, Repr

/-! ### Divert map and slot pool -/

/-- A map entry (5.2); `written` holds word position k at bit k. -/
structure MapEntry where
  ring           : Fin 8
  block          : Nat
  capture        : Fin 16
  slot           : Nat
  written        : BitVec 16
  state          : EntryState
  restartPending : Bool
  deriving DecidableEq, Repr

/-- Pool settings, free list and divert map (R94, R96, R98). -/
structure Pool where
  areaBase  : Addr
  slotCount : Nat
  lowWater  : Nat
  freeList  : List Nat
  map       : List MapEntry
  deriving DecidableEq, Repr

/-! ### Merge engine -/

/-- The copy record (6.2). -/
structure CopyRecord where
  ring     : Fin 8
  block    : Nat
  home     : Addr
  slot     : Nat
  phase    : CopyPhase
  slotData : List Word
  copySet  : BitVec 16
  deriving DecidableEq, Repr

/-- The fault record (R129). -/
structure FaultRecord where
  kind    : FaultKind
  capture : Fin 16
  ring    : Fin 8
  address : Addr
  slot    : Nat
  deriving DecidableEq, Repr

/-- The merge engine (chapter 6). -/
structure Engine where
  queue   : List (Fin 16)
  status  : EngineStatus
  merging : Option (Fin 16)
  cursor  : Option Nat
  copy    : Option CopyRecord
  fault   : Option FaultRecord
  deriving DecidableEq, Repr

/-! ### Event queue and attention unit -/

/-- What a raising rule gives of an event (R137). A field no rule names is absent, detail 0. -/
structure Event where
  kind    : EventKind
  ring    : Option (Fin 8) := none
  capture : Option (Fin 16) := none
  address : Option Addr := none
  value   : Option Int := none
  detail  : Byte := 0#8
  deriving DecidableEq, Repr

/-- An event record: an event with the seq it got when appended (R137, R140). -/
structure EventRecord where
  seq   : BitVec 16
  event : Event
  deriving DecidableEq, Repr

/-- The event queue, head first; `overflowOpen` says that the last record is an open OVERFLOW record
(R139). -/
structure EventQueue where
  records      : List EventRecord
  overflowOpen : Bool
  nextSeq      : BitVec 16
  deriving DecidableEq, Repr

/-- A set of the four attention conditions (7.6). -/
structure CondSet where
  fault    : Bool
  overflow : Bool
  poolLow  : Bool
  queue    : Bool
  deriving DecidableEq, Repr

/-- The attention unit's settings (R151). -/
structure Attention where
  watermark : Nat
  mask      : CondSet
  deriving DecidableEq, Repr

/-! ### Maintenance link -/

/-- The request buffer: code, length byte, the first 40 parameter bytes (R156). -/
structure RequestBuffer where
  code   : Option Byte
  length : Option Byte
  params : List Byte
  deriving DecidableEq, Repr

/-- The reply buffer: status, data and the check byte over them (R158). -/
structure Reply where
  status : Status
  data   : List Byte
  check  : Byte
  deriving DecidableEq, Repr

/-- A commit pending (R162). -/
inductive Commit where
  | popEvent
  | readExtremes (ring : Fin 8)
  deriving DecidableEq, Repr

/-- The maintenance link (chapter 8). `bits` holds the bits of the byte under way, in the order sampled
(R155); `sent` counts the bytes of the reply sent in full (R159); `out` is the level at SDO, none for
high-impedance (R155, R158). -/
structure Link where
  phase     : LinkPhase
  buffer    : RequestBuffer
  byteCount : Nat
  check     : Byte
  reply     : Option Reply
  commit    : Option Commit
  bits      : List Bool
  sent      : Nat
  out       : Option Bool
  deriving DecidableEq, Repr

/-! ### The whole part -/

/-- The state of the part. `pending` (commands waiting to be taken, log 2) and `unstated` (the counter
that `Config.freeWord` is applied to, log 7) are the model's own. -/
structure State where
  pending  : List Instr
  pins     : Pins
  up       : UpPort
  path     : PathUnit
  dn       : DnPort
  rings    : Vector Ring 8
  det      : DetectorBank
  caps     : CaptureTable
  pool     : Pool
  engine   : Engine
  queue    : EventQueue
  attn     : Attention
  link     : Link
  unstated : Nat
  deriving DecidableEq, Repr

/-- Reasons to stop with a fault. None: the spec names no event that stops the part, so no command
raises one and the type has no constructor (INVENTORY.md, Faults). -/
inductive Fault where
  deriving DecidableEq, Repr

/-- Reasons to refuse a command. -/
inductive Refusal where
  /-- Raised by `exec` for a command that has no meaning in the model yet (safe). No command is. -/
  | notModelled (mnemonic : String)
  deriving DecidableEq, Repr

/-! ### Reset values -/

/-- Reset values of a configuration record (2.1, R19). -/
def RingConfig.reset : RingConfig where
  base          := 0#32
  sizeBlocks    := 0
  producer      := 0
  format        := .s24
  shift         := 0
  offset        := 0
  high          := 8388607
  low           := -8388608
  stuckLimit    := 0
  markerKey     := 0#8
  markerEnable  := false
  preBlocks     := 0
  postWords     := 0
  triggerEnable := ⟨false, false, false, false, false⟩
  eventEnable   := ⟨false, false, false⟩

/-- The empty stuck run (R36). -/
def StuckRun.empty : StuckRun := ⟨none, 0, false⟩

/-- The empty extremes record (R37). -/
def Extremes.empty : Extremes := ⟨0, none, none⟩

/-- A ring after reset (R40). -/
def Ring.reset : Ring where
  cfg             := RingConfig.reset
  mode            := .off
  head            := none
  zone            := .unset
  stuck           := StuckRun.empty
  extremes        := Extremes.empty
  pendingExtremes := none

/-- A capture record after reset (R66). -/
def Capture.reset : Capture where
  state          := .free
  ring           := 0
  serial         := 0#16
  source         := none
  sourceDetail   := none
  triggerAddress := 0#32
  triggerValue   := none
  firstBlock     := 0
  triggerBlock   := 0
  lastBlock      := 0
  postRemaining  := 0
  absorbed       := 0
  entries        := 0
  divertedBlocks := 0
  spilledWords   := 0
  lostWords      := 0
  restarts       := 0
  cut            := false
  isPartial      := false

/-- A line after reset, at a given input level (R41). -/
def Line.reset (level : Bool) : Line := ⟨false, false, 0#8, level, false⟩

/-- The empty request buffer (R159, R166). -/
def RequestBuffer.empty : RequestBuffer := ⟨none, none, []⟩

/-- The part right after reset (R18, R40, R41, R66, R102, R136, R154, R166), RSTN high again, with
quiet inputs: the levels of RSTN, SCS and TRIG0..3 are the model's (logs 3, 4, 5). -/
def State.reset : State where
  pending  := []
  pins     := ⟨true, true, Vector.replicate 4 false⟩
  up       := ⟨[], []⟩
  path     := ⟨none, Vector.replicate 16 .live, 4096, 16⟩
  dn       := ⟨none, 0#4, 0⟩
  rings    := Vector.replicate 8 Ring.reset
  det      := ⟨Vector.replicate 256 .pass, Vector.replicate 4 (Line.reset false)⟩
  caps     := ⟨Vector.replicate 16 Capture.reset, 0#16⟩
  pool     := ⟨0#32, 0, 0, [], []⟩
  engine   := ⟨[], .idle, none, none, none, none⟩
  queue    := ⟨[], false, 0#16⟩
  attn     := ⟨1, ⟨false, false, false, false⟩⟩
  link     := ⟨.idle, RequestBuffer.empty, 0, 0#8, none, none, [], 0, none⟩
  unstated := 0

end Sys2Proof.Machine
end

