-- ==== Sys2Proof/Machine/Operands.lean ====
section
/-! DEFINITION. Operand forms: code tables (9.3), byte layouts of values (R174), samples in words
(R33), bursts, blocks, word positions and strobes (1.1, 1.3). -/

namespace Sys2Proof.Machine

/-! ### Code tables (9.3) -/

def modeCode : Mode → Byte
  | .off => 0#8 | .safe => 1#8 | .armed => 2#8

def modeOf (b : Byte) : Option Mode :=
  if b = 0#8 then some .off else if b = 1#8 then some .safe else if b = 2#8 then some .armed
  else none

def formatCode : Format → Byte
  | .s24 => 0#8 | .p16 => 1#8

def formatOf (b : Byte) : Option Format :=
  if b = 0#8 then some .s24 else if b = 1#8 then some .p16 else none

def zoneCode : Zone → Byte
  | .unset => 0#8 | .inside => 1#8 | .above => 2#8 | .below => 3#8

def viewOf (b : Byte) : Option View :=
  if b = 0#8 then some .live else if b = 1#8 then some .review else none

def markerActionOf (b : Byte) : Option MarkerAction :=
  if b = 0#8 then some .pass else if b = 1#8 then some .note else if b = 2#8 then some .trigger
  else if b = 3#8 then some .arm else if b = 4#8 then some .safe else none

def captureStateCode : CaptureState → Byte
  | .free => 0#8 | .post => 1#8 | .held => 2#8 | .releasing => 3#8 | .merging => 4#8

/-- Source numbers (3.3). -/
def sourceCode : Source → Byte
  | .limitHigh => 1#8 | .limitLow => 2#8 | .stuck => 3#8
  | .marker => 4#8 | .line => 5#8 | .forced => 6#8

def entryStateCode : EntryState → Byte
  | .mapped => 0#8 | .copying => 1#8

/-- Fault kind numbers (R129). -/
def faultCode : FaultKind → Byte
  | .slotReadError => 1#8 | .homeWriteError => 2#8 | .copyTimeout => 3#8

/-- Kind numbers of path-unit transactions (1.4). -/
def pathKindNumber : PathKind → Nat
  | .forwardRead => 1 | .forwardWrite => 2 | .fillRead => 3 | .slotRead => 4 | .slotWrite => 5

/-- Event kind numbers (R138). -/
def eventCode : EventKind → Byte
  | .limitHigh => 1#8 | .limitLow => 2#8 | .limitClear => 3#8 | .stuck => 4#8
  | .markerNote => 5#8 | .ringArmed => 6#8 | .ringSafe => 7#8 | .line => 8#8
  | .captureOpen => 9#8 | .captureReady => 10#8 | .captureFree => 11#8 | .triggerRefused => 12#8
  | .spill => 13#8 | .poolLow => 14#8 | .guard => 15#8 | .boundary => 16#8
  | .dnTimeout => 17#8 | .mergeFault => 18#8 | .overflow => 19#8

/-- Status codes (9.3). -/
def statusCode : Status → Byte
  | .ok => 0#8 | .busy => 1#8 | .state => 2#8 | .range => 3#8 | .overlap => 4#8
  | .noCapture => 5#8 | .empty => 6#8 | .check => 7#8 | .unknown => 8#8

/-- The number a byte of a two-valued field names (R175). -/
def flagOf (b : Byte) : Option Bool :=
  if b = 0#8 then some false else if b = 1#8 then some true else none

def flagCode (x : Bool) : Byte := if x then 1#8 else 0#8

/-- A byte with the given bits, bit 0 first (R174, Sets). -/
def bitsByte (bits : List Bool) : Byte :=
  bits.foldr (fun x acc => (acc <<< 1) ||| (if x then 1#8 else 0#8)) 0#8

def triggerEnableCode (t : TriggerEnable) : Byte :=
  bitsByte [t.limitHigh, t.limitLow, t.stuck, t.marker, t.line]

/-- trigger_enable names members at bits 0 to 4 only (9.3, R175). -/
def triggerEnableOf (b : Byte) : Option TriggerEnable :=
  if b.toNat < 32 then
    some ⟨b.getLsbD 0, b.getLsbD 1, b.getLsbD 2, b.getLsbD 3, b.getLsbD 4⟩
  else none

def eventEnableCode (t : EventEnable) : Byte := bitsByte [t.limit, t.stuck, t.markerNote]

/-- event_enable names members at bits 0 to 2 only (9.3, R175). -/
def eventEnableOf (b : Byte) : Option EventEnable :=
  if b.toNat < 8 then some ⟨b.getLsbD 0, b.getLsbD 1, b.getLsbD 2⟩ else none

def condSetCode (c : CondSet) : Byte := bitsByte [c.fault, c.overflow, c.poolLow, c.queue]

/-- An attention mask names the four conditions only (9.3, R172). -/
def condSetOf (b : Byte) : Option CondSet :=
  if b.toNat < 16 then some ⟨b.getLsbD 0, b.getLsbD 1, b.getLsbD 2, b.getLsbD 3⟩ else none

/-- A ring number, master ID, capture number or line number below n, from its byte. -/
def indexOf (n : Nat) (b : Byte) : Option (Fin n) :=
  if h : b.toNat < n then some ⟨b.toNat, h⟩ else none

def ringOf : Byte → Option (Fin 8) := indexOf 8
def masterOf : Byte → Option (Fin 16) := indexOf 16
def captureOf : Byte → Option (Fin 16) := indexOf 16
def lineOf : Byte → Option (Fin 4) := indexOf 4

/-- Every ring, capture and line number in ascending order. -/
def ringIds : List (Fin 8) := [0, 1, 2, 3, 4, 5, 6, 7]
def captureIds : List (Fin 16) := [0, 1, 2, 3, 4, 5, 6, 7, 8, 9, 10, 11, 12, 13, 14, 15]
def lineIds : List (Fin 4) := [0, 1, 2, 3]

/-! ### Byte layouts (R174) -/

def nat8 (n : Nat) : Byte := BitVec.ofNat 8 n
def nat16 (n : Nat) : List Byte := bytes16 (BitVec.ofNat 16 n)
def nat24 (n : Nat) : List Byte := bytes24 (BitVec.ofNat 24 n)
def nat32 (n : Nat) : List Byte := bytes32 (BitVec.ofNat 32 n)

/-- A signed value in 3 bytes, 24-bit two's complement (R174). -/
def signed24 (v : Int) : List Byte := bytes24 (BitVec.ofInt 24 v)

/-- An absent optional field reads 00H in each of its bytes (R174). -/
def optByte (x : Option Byte) : Byte := x.getD 0#8
def optAddr (x : Option Addr) : List Byte := bytes32 (x.getD 0#32)
def optSigned24 (x : Option Int) : List Byte := signed24 (x.getD 0)

/-- A configuration record as its 27 bytes (9.4). -/
def ringConfigBytes (c : RingConfig) : List Byte :=
  bytes32 c.base ++ nat24 c.sizeBlocks ++
  [nat8 c.producer.val, formatCode c.format, nat8 c.shift] ++
  signed24 c.offset ++ signed24 c.high ++ signed24 c.low ++
  [nat8 c.stuckLimit, c.markerKey, flagCode c.markerEnable, nat8 c.preBlocks] ++
  nat16 c.postWords ++ [triggerEnableCode c.triggerEnable, eventEnableCode c.eventEnable]

/-- A capture record as its 34 bytes (9.4). -/
def captureBytes (x : Capture) : List Byte :=
  [captureStateCode x.state, nat8 x.ring.val] ++ bytes16 x.serial ++
  [bitsByte [x.source.isSome, x.sourceDetail.isSome, x.triggerValue.isSome],
   optByte (x.source.map sourceCode), optByte x.sourceDetail] ++
  bytes32 x.triggerAddress ++ optSigned24 x.triggerValue ++
  nat16 x.firstBlock ++ nat16 x.triggerBlock ++ nat16 x.lastBlock ++ nat16 x.postRemaining ++
  [nat8 x.absorbed] ++ nat16 x.entries ++ nat16 x.divertedBlocks ++ nat16 x.spilledWords ++
  nat16 x.lostWords ++ nat16 x.restarts ++ [bitsByte [x.cut, x.isPartial]]

/-- An event record as its 14 bytes (9.4, R176). -/
def eventBytes (e : EventRecord) : List Byte :=
  bytes16 e.seq ++
  [eventCode e.event.kind,
   bitsByte [e.event.ring.isSome, e.event.capture.isSome, e.event.address.isSome,
     e.event.value.isSome],
   optByte (e.event.ring.map fun r => nat8 r.val),
   optByte (e.event.capture.map fun c => nat8 c.val)] ++
  optAddr e.event.address ++ optSigned24 e.event.value ++ [e.event.detail]

/-- A reply, with its check byte over status, M and data (R157, R158). -/
def mkReply (status : Status) (data : List Byte) : Reply where
  status := status
  data   := data
  check  := crc8 (statusCode status :: nat8 data.length :: data)

/-- The reply frame's bytes in the order sent (R158). -/
def replyBytes (r : Reply) : List Byte :=
  statusCode r.status :: nat8 r.data.length :: (r.data ++ [r.check])

/-- OK with data; a refusal carries M equal to 0 (R161, R165). -/
def replyOk (data : List Byte) : Reply := mkReply .ok data
def refuse (status : Status) : Reply := mkReply status []

/-! ### Sample formats (R32, R33) -/

/-- Format maximum and minimum (R32). -/
def formatMax : Format → Int
  | .s24 => 8388607 | .p16 => 32767

def formatMin : Format → Int
  | .s24 => -8388608 | .p16 => -32768

/-- The samples of a word in lane order (R33). -/
def samplesOf (f : Format) (w : Word) : List Int :=
  match f with
  | .s24 => [(w.extractLsb' 0 24).toInt]
  | .p16 => [(w.extractLsb' 0 16).toInt, (w.extractLsb' 16 16).toInt]

/-- Conditioning: rounding arithmetic shift, offset, saturation, all exact (R32). `/` on `Int` rounds
toward minus infinity for a positive divisor. -/
def condition (c : RingConfig) (v : Int) : Int :=
  let u := if c.shift = 0 then v else (v + 2 ^ (c.shift - 1)) / 2 ^ c.shift
  let w := u + c.offset
  if formatMax c.format < w then formatMax c.format
  else if w < formatMin c.format then formatMin c.format
  else w

/-- The word written in place of a sample word (R33). -/
def conditionedWord (c : RingConfig) (w : Word) : Word :=
  match c.format with
  | .s24 => BitVec.ofInt 32 (condition c (w.extractLsb' 0 24).toInt)
  | .p16 =>
    BitVec.ofInt 16 (condition c (w.extractLsb' 16 16).toInt) ++
    BitVec.ofInt 16 (condition c (w.extractLsb' 0 16).toInt)

/-! ### Addresses, blocks and word positions (1.3, 1.4) -/

/-- Start address of block b of a ring (00, Terms). -/
def homeOf (c : RingConfig) (b : Nat) : Addr := BitVec.ofNat 32 (c.base.toNat + 64 * b)

/-- Start address of slot n of the divert area; word position k lies 4k bytes above it (1.4). -/
def slotAddr (areaBase : Addr) (slot k : Nat) : Addr :=
  BitVec.ofNat 32 (areaBase.toNat + 64 * slot + 4 * k)

/-- The block of a ring that holds an address of it (R8, R71). -/
def blockOf (c : RingConfig) (a : Addr) : Nat := (a.toNat - c.base.toNat) / 64

/-- Word position of an address within its block: blocks start at multiples of 40H (00, Terms). -/
def wordPos (a : Addr) : Nat := a.toNat % 64 / 4

/-- The address n words above a. -/
def addWords (a : Addr) (n : Nat) : Addr := BitVec.ofNat 32 (a.toNat + 4 * n)

/-- First byte above a burst. -/
def burstEnd (q : UpRequest) : Nat := q.addr.toNat + 4 * q.burst.length

/-- A burst touches a region of `size` bytes when any byte of its words lies in it; an empty region
is touched by none (1.3). -/
def touches (q : UpRequest) (base size : Nat) : Bool :=
  size != 0 && decide (q.addr.toNat < base + size) && decide (base < burstEnd q)

/-- Two regions share a byte; an empty region shares none (R22, R95). -/
def regionsMeet (base size base' size' : Nat) : Bool :=
  size != 0 && size' != 0 && decide (base < base' + size') && decide (base' < base + size)

/-- A burst crosses a block boundary when its first and last words lie in different blocks (1.3). -/
def crossesBlock (q : UpRequest) : Bool :=
  q.addr.toNat / 64 != (q.addr.toNat + 4 * (q.burst.length - 1)) / 64

/-- The set of word positions in a list (R174: position k at bit k). -/
def posSet (ks : List Nat) : BitVec 16 := ks.foldr (fun k m => m ||| (1#16 <<< k)) 0#16

/-- The word positions in a set, ascending. -/
def positions (m : BitVec 16) : List Nat := (List.range 16).filter fun k => m.getLsbD k

/-- Burst indices of the words with at least one strobe set (R99). -/
def strobed (ws : List WriteWord) : List Nat :=
  (ws.zipIdx.filter fun p => p.1.strobes != 0#4).map (·.2)

/-- Burst indices of the words with one, two or three strobes set whose position is not yet in the
written set: the words marked for fill (R110). -/
def toFill (k0 : Nat) (written : BitVec 16) (ws : List WriteWord) : List Nat :=
  (ws.zipIdx.filter fun p =>
    p.1.strobes != 0#4 && p.1.strobes != 15#4 && !written.getLsbD (k0 + p.2)).map (·.2)

/-- The bytes that strobes enable, as a mask (1.1). -/
def strobeMask (st : BitVec 4) : Word :=
  (if st.getLsbD 3 then 0xFF#8 else 0#8) ++ (if st.getLsbD 2 then 0xFF#8 else 0#8) ++
  (if st.getLsbD 1 then 0xFF#8 else 0#8) ++ (if st.getLsbD 0 then 0xFF#8 else 0#8)

/-- A filled word: strobed bytes from the request word, the others from home, all strobes set (R11). -/
def fillWord (w : WriteWord) (home : Word) : WriteWord where
  data    := (w.data &&& strobeMask w.strobes) ||| (home &&& ~~~(strobeMask w.strobes))
  strobes := 15#4

/-- Saturating counts (00, Conventions). -/
def satAdd (limit a b : Nat) : Nat := min (a + b) limit

end Sys2Proof.Machine
end

