-- ==== Sys2Proof/Machine/Flags.lean ====
section
/-! DEFINITION. What is derived from the state at every moment and never stored: the attention
conditions, the attention code, ATTN, SDO and DNPI (R150 to R153, R158, R177). -/

namespace Sys2Proof.Machine

/-- The number of slots in the free list (5.1). -/
def Pool.freeCount (p : Pool) : Nat := p.freeList.length

/-- POOL_LOW is present while the free count is below low_water (R115). -/
def Pool.low (p : Pool) : Bool := decide (p.freeCount < p.lowWater)

/-- The four attention conditions (R150). -/
def State.conditions (s : State) : CondSet where
  fault    := s.engine.status == .halted
  overflow := s.queue.overflowOpen
  poolLow  := s.pool.low
  queue    := decide (s.attn.watermark ≤ s.queue.records.length)

/-- The number of the first present condition (R152). -/
def CondSet.code (c : CondSet) : Nat :=
  if c.fault then 1 else if c.overflow then 2 else if c.poolLow then 3 else if c.queue then 4 else 0

def State.attentionCode (s : State) : Nat := s.conditions.code

/-- Some member of both sets. -/
def CondSet.meets (a b : CondSet) : Bool :=
  a.fault && b.fault || a.overflow && b.overflow || a.poolLow && b.poolLow || a.queue && b.queue

/-- ATTN is asserted while a present condition is in the mask (R153). -/
def State.attnAsserted (s : State) : Bool := s.conditions.meets s.attn.mask

/-- The level at the ATTN pin: low while asserted (R177). -/
def State.attnPin (s : State) : Bool := !s.attnAsserted

/-- The link takes account of SCS, SCK and SDI: RSTN is high and SCS low (R155, R166). -/
def State.selected (s : State) : Bool := s.pins.rstn && !s.pins.scs

/-- The byte the part sends in each link state, none in IDLE; in REPLY the next byte of the reply buffer
(R158, R159). -/
def Link.sdoByte (l : Link) : Option Byte :=
  match l.phase with
  | .idle    => none
  | .request => some 0xFF#8
  | .turn    => some 0x00#8
  | .reply   => l.reply.bind fun r => (replyBytes r)[l.sent]?
  | .discard => some 0xFF#8

/-- The level at SDO, none for high-impedance: high-impedance while SCS is high and while RSTN is low
(R155, R158, R177). -/
def State.sdo (s : State) : Option Bool := if s.selected then s.link.out else none

/-- DNPI during a transaction: high on the merge engine's, low on the path unit's; none between
transactions, where its level carries no meaning (R177). -/
def State.dnpi (s : State) : Option Bool := s.dn.outstanding.map fun t => t.partIssued

end Sys2Proof.Machine
end

