-- ==== Sys2Proof/Machine/Ops.lean ====
section
/-! DEFINITION. The shared operations: accessors of the indexed state, the event queue's arrivals,
spans and capture transitions, the map and the free list, UP responses, and the DN arbiter. -/

namespace Sys2Proof.Machine

/-! ### Indexed state -/

def State.ring (s : State) (r : Fin 8) : Ring := s.rings[r.val]'r.isLt

def State.putRing (s : State) (r : Fin 8) (x : Ring) : State :=
  { s with rings := s.rings.set r.val x r.isLt }

def State.capture (s : State) (c : Fin 16) : Capture := s.caps.records[c.val]'c.isLt

def State.putCapture (s : State) (c : Fin 16) (x : Capture) : State :=
  { s with caps := { s.caps with records := s.caps.records.set c.val x c.isLt } }

def State.line (s : State) (n : Fin 4) : Line := s.det.lines[n.val]'n.isLt

def State.putLine (s : State) (n : Fin 4) (x : Line) : State :=
  { s with det := { s.det with lines := s.det.lines.set n.val x n.isLt } }

def State.marker (s : State) (code : Byte) : MarkerAction := s.det.markers[code.toNat]'code.isLt

def State.view (s : State) (m : Fin 16) : View := s.path.views[m.val]'m.isLt

/-- A ring is configured while its size_blocks is not 0 (2.1). -/
def RingConfig.configured (c : RingConfig) : Bool := c.sizeBlocks != 0

/-! ### Events (R140 to R142) -/

/-- One more event dropped into an open OVERFLOW record, saturating at 65535 (R142). -/
def bumpDropped (e : EventRecord) : EventRecord :=
  { e with event := { e.event with value := some (min (e.event.value.getD 0 + 1) 65535) } }

/-- Bump the last record of the list. -/
def bumpLast : List EventRecord → List EventRecord
  | [] => []
  | [e] => [bumpDropped e]
  | e :: e' :: es => e :: bumpLast (e' :: es)

/-- The arrival of an event at the queue: counted into an open OVERFLOW record (R142), appended at 62
records or fewer (R140), else dropped and an open OVERFLOW record appended (R141). -/
def arrive (e : Event) (q : EventQueue) : EventQueue :=
  if q.overflowOpen then { q with records := bumpLast q.records }
  else if q.records.length ≤ 62 then
    { q with records := q.records ++ [⟨q.nextSeq, e⟩], nextSeq := q.nextSeq + 1#16 }
  else
    { records      := q.records ++ [⟨q.nextSeq, { kind := .overflow, value := some 1 }⟩]
      overflowOpen := true
      nextSeq      := q.nextSeq + 1#16 }

/-- Hand an event to the queue (R140). -/
def raise (e : Event) (s : State) : State := { s with queue := arrive e s.queue }

/-! ### Spans (R68, R69) -/

/-- Distance from block a forward to block b in circular order (R68). -/
def forward (size a b : Nat) : Nat := (b + size - a) % size

/-- The block n before block b, and n after it, in circular order. -/
def stepBack (size b n : Nat) : Nat := (b + size - n) % size
def stepOn (size b n : Nat) : Nat := (b + n) % size

/-- Length in blocks of a record's span (R68). -/
def Capture.spanLength (x : Capture) (size : Nat) : Nat := forward size x.firstBlock x.lastBlock + 1

/-- Block b lies between a record's first_block and last_block (R68). -/
def Capture.inSpan (x : Capture) (size b : Nat) : Bool :=
  decide (forward size x.firstBlock b ≤ forward size x.firstBlock x.lastBlock)

/-- Block b lies in the pre part: before trigger_block (R68). -/
def Capture.inPre (x : Capture) (size b : Nat) : Bool :=
  decide (forward size x.firstBlock b < forward size x.firstBlock x.triggerBlock)

/-- The capture, not FREE, in whose span block b of ring r lies (R68, R70). -/
def State.coveredBy (s : State) (r : Fin 8) (b : Nat) : Option (Fin 16) :=
  captureIds.find? fun c =>
    (s.capture c).state != .free && (s.capture c).ring == r &&
    (s.capture c).inSpan (s.ring r).cfg.sizeBlocks b

/-- The capture in POST on ring r (R70). -/
def State.postOn (s : State) (r : Fin 8) : Option (Fin 16) :=
  captureIds.find? fun c => (s.capture c).state == .post && (s.capture c).ring == r

/-- The lowest-numbered FREE record (R76). -/
def State.freeRecord (s : State) : Option (Fin 16) :=
  captureIds.find? fun c => (s.capture c).state == .free

/-- Some capture on ring r is not FREE (R25). -/
def State.ringBusy (s : State) (r : Fin 8) : Bool :=
  captureIds.any fun c => (s.capture c).state != .free && (s.capture c).ring == r

/-- The capture table's answer to the divert map (R69). -/
inductive Hold where
  | notHeld
  | filling
  | held (capture : Fin 16)
  deriving DecidableEq, Repr

/-- The hold state of block b of ring r (R69). -/
def State.holdOf (s : State) (r : Fin 8) (b : Nat) : Hold :=
  match s.coveredBy r b with
  | none => .notHeld
  | some c =>
    match (s.capture c).state with
    | .free | .merging => .notHeld
    | .held | .releasing => .held c
    | .post => if (s.capture c).inPre (s.ring r).cfg.sizeBlocks b then .held c else .filling

/-! ### Capture transitions -/

/-- Cause numbers of CAPTURE_READY (R84). -/
inductive ReadyCause where
  | postDone
  | outrun
  | released
  | noPost
  deriving DecidableEq, Repr

def ReadyCause.code : ReadyCause → Byte
  | .postDone => 1#8 | .outrun => 2#8 | .released => 3#8 | .noPost => 4#8

/-- CUT is set by OUTRUN and RELEASED and kept by POST_DONE and NO_POST (R79, R82, R83, R87). -/
def ReadyCause.cuts : ReadyCause → Bool
  | .outrun | .released => true
  | .postDone | .noPost => false

/-- The CAPTURE_READY event of a record (R84). -/
def readyEvent (c : Fin 16) (x : Capture) (cfg : RingConfig) (cause : ReadyCause) : Event where
  kind    := .captureReady
  ring    := some x.ring
  capture := some c
  address := some (homeOf cfg x.firstBlock)
  value   := some (x.spanLength cfg.sizeBlocks : Int)
  detail  := cause.code

/-- A capture becomes HELD and its CAPTURE_READY is queued (R79, R82, R83, R84, R87). -/
def becomeHeld (c : Fin 16) (cause : ReadyCause) (s : State) : State :=
  let x := s.capture c
  raise (readyEvent c x (s.ring x.ring).cfg cause)
    (s.putCapture c { x with state := .held, cut := x.cut || cause.cuts })

/-- The CAPTURE_FREE event of a record (R90). -/
def freeEvent (c : Fin 16) (x : Capture) : Event where
  kind    := .captureFree
  ring    := some x.ring
  capture := some c
  address := some (BitVec.ofNat 32 (65536 * x.spilledWords + x.lostWords))
  value   := some (x.divertedBlocks : Int)
  detail  := bitsByte [x.cut, x.isPartial]

/-- A capture returns to FREE and its CAPTURE_FREE is queued; its other fields stay (R65, R90). -/
def becomeFree (c : Fin 16) (s : State) : State :=
  let x := s.capture c
  raise (freeEvent c x) (s.putCapture c { x with state := .free })

/-! ### Map and free list -/

/-- The map entry of block b of ring r (R98). -/
def findEntry (map : List MapEntry) (r : Fin 8) (b : Nat) : Option MapEntry :=
  map.find? fun e => e.ring == r && e.block == b

/-- Change the map entry of block b of ring r. -/
def changeEntry (map : List MapEntry) (r : Fin 8) (b : Nat) (f : MapEntry → MapEntry) :
    List MapEntry :=
  map.map fun e => if e.ring == r && e.block == b then f e else e

/-- The map without the entry of block b of ring r. -/
def dropEntry (map : List MapEntry) (r : Fin 8) (b : Nat) : List MapEntry :=
  map.filter fun e => !(e.ring == r && e.block == b)

def State.entry (s : State) (r : Fin 8) (b : Nat) : Option MapEntry := findEntry s.pool.map r b

/-- The removal of a map entry: it leaves the map, its slot is appended to the free list, its
capture's entries count falls, and a MERGING capture without entries becomes FREE (R90, R101).
POOL_LOW follows the free list; leaving it queues no event (R115). -/
def removeEntry (e : MapEntry) (s : State) : State :=
  let x := s.capture e.capture
  let s1 := { s with pool := { s.pool with map      := dropEntry s.pool.map e.ring e.block
                                           freeList := s.pool.freeList ++ [e.slot] } }
  let s2 := s1.putCapture e.capture { x with entries := x.entries - 1 }
  if x.state = .merging ∧ x.entries - 1 = 0 then becomeFree e.capture s2 else s2

/-- The POOL_LOW event, queued when the condition passes from absent to present (R115). -/
def poolLowEvent (r : Option (Fin 8)) (c : Option (Fin 16)) (freeCount : Nat) : Event where
  kind    := .poolLow
  ring    := r
  capture := c
  value   := some (freeCount : Int)

/-- Replace the pool and queue POOL_LOW when the condition enters (R115). -/
def changePool (p : Pool) (r : Option (Fin 8)) (c : Option (Fin 16)) (s : State) : State :=
  if !s.pool.low && p.low then raise (poolLowEvent r c p.freeCount) { s with pool := p }
  else { s with pool := p }

/-! ### UP responses (R2) -/

/-- Send a response at UP (R2). An ERROR carries no data. -/
def respond (master : Fin 16) (status : BusStatus) (data : List Word) (s : State) : State :=
  { s with up := { s.up with responses := s.up.responses ++ [⟨master, status, data⟩] } }

/-! ### The DN arbiter (R14, R15) -/

/-- The path unit waits while its plan has a transaction not yet granted (R9, R14); meant on a free
port, where the first transaction of the plan is never outstanding. -/
def State.pathWaits (s : State) : Bool :=
  match s.path.current with
  | some q => !q.plan.isEmpty
  | none => false

/-- The engine waits in phases READ WAIT and WRITE WAIT of a running copy, and in no other (R128). -/
def State.engineWaits (s : State) : Bool :=
  s.engine.status == .copying &&
  match s.engine.copy with
  | some k => k.phase == .readWait || k.phase == .writeWait
  | none => false

/-- Issue a transaction with the next tag and the DN timeout current at issue (R15, R16, R128). -/
def issue (t : DnTxn) (s : State) : State :=
  { s with dn := { s.dn with outstanding := some { t with tag := s.dn.tagCounter
                                                          timeout := s.path.dnTimeout }
                             tagCounter  := s.dn.tagCounter + 1#4 } }

/-- The DN direction of a path-unit transaction (1.4). -/
def PathKind.dir : PathKind → Dir
  | .forwardRead | .fillRead | .slotRead => .read
  | .forwardWrite | .slotWrite => .write

/-- Grant the port to the path unit: the first transaction of its plan is issued with the master ID
of the current request, part-issued clear (1.4, R9). -/
def grantPath (s : State) : State :=
  match s.path.current with
  | some q =>
    match q.plan with
    | t :: _ =>
      issue { side := .path t.kind, master := q.req.master, partIssued := false, tag := 0#4,
              dir := t.kind.dir, addr := t.addr, length := t.length, words := t.words,
              timeout := 0 } s
    | [] => s
  | none => s

/-- The words of a home write: at the positions of the copy set the slot data with all strobes set, at
the others no strobe set (R124). Their data, and slot data that the record does not hold, is not
stated: free words (log 7). -/
def homeWriteWords (k : CopyRecord) (unstated : Nat) : List WriteWord :=
  (List.range 16).map fun i =>
    if k.copySet.getLsbD i then
      { data := k.slotData.getD i (Config.freeWord (unstated + i)), strobes := 15#4 }
    else { data := Config.freeWord (unstated + i), strobes := 0#4 }

/-- Grant the port to the merge engine: the slot read (R123) or the home write (R124). The share count
becomes 0 (R14). -/
def grantEngine (s : State) : State :=
  match s.engine.copy with
  | some k =>
    let s0 := { s with dn := { s.dn with shareCount := 0 } }
    match k.phase with
    | .readWait =>
      issue { side := .engine, master := 15, partIssued := true, tag := 0#4, dir := .read,
              addr := slotAddr s.pool.areaBase k.slot 0, length := 16, words := [], timeout := 0 }
        { s0 with engine := { s.engine with copy := some { k with phase := .read } } }
    | .writeWait =>
      issue { side := .engine, master := 15, partIssued := true, tag := 0#4, dir := .write,
              addr := k.home, length := 16, words := homeWriteWords k s.unstated, timeout := 0 }
        { s0 with engine   := { s.engine with copy := some { k with phase := .write } }
                  unstated := s.unstated + 16 }
    | .read | .write => s
  | none => s

/-- The arbiter's decision at the end of an event (R14; log 11): on a free port, and with RSTN high
(R18), one waiting side is granted; with both waiting, the share rule decides. -/
def arbitrate (s : State) : State :=
  if s.pins.rstn && s.dn.outstanding.isNone then
    match s.pathWaits, s.engineWaits with
    | true, false => grantPath s
    | false, true => grantEngine s
    | true, true =>
      if s.path.share ≠ 0 ∧ s.path.share ≤ s.dn.shareCount then grantEngine s
      else grantPath { s with dn := { s.dn with shareCount := satAdd 255 s.dn.shareCount 1 } }
    | false, false => s
  else s

/-- The engine begins to wait at the arbiter: the share count is set to 0 (R14, R128). -/
def beginWait (s : State) : State := { s with dn := { s.dn with shareCount := 0 } }

end Sys2Proof.Machine
end

