-- ==== Sys2Proof/Machine/Frame.lean ====
section
/-! DEFINITION. A command row of the link: the receipt of a good frame that carries the command
(R156, R160, R161). Each link command's own meaning is this operation over the command's execution
at its owning block. -/

namespace Sys2Proof.Machine

/-- A command's execution at its owning block: the new state and the reply (R161). -/
abbrev Execution := State → State × Reply

/-- SDO takes the next bit of the byte being sent, most significant bit first (R155, R158). -/
def present (s : State) : State :=
  { s with link := { s.link with
      out := s.link.sdoByte.map fun b => b.getLsbD (7 - s.link.bits.length) } }

/-- Fill the reply buffer with the result of an execution, none of its bytes sent, and enter TURN (R160,
R161). -/
def finishFrame (run : Execution) (s : State) : State :=
  let result := run s
  { result.1 with link := { result.1.link with reply := some result.2, phase := .turn, sent := 0 } }

/-- The link as a whole frame of code, L and parameters leaves it just before evaluation: the request
buffer filled, the bytes counted, the running check over all but the check byte (R156, R157). -/
def frameReceived (code : Byte) (params : List Byte) (l : Link) : Link :=
  { l with
    buffer    := { code   := some code
                   length := some (nat8 params.length)
                   params := params.take 40 }
    bits      := []
    byteCount := params.length + 3
    check     := crc8 (code :: nat8 params.length :: params) }

/-- A frame can begin: the link is selected and in REQUEST with no bit received yet (R155, R159, R166). -/
def State.atFrameStart (s : State) : Bool :=
  s.selected && s.link.phase == .request && s.link.byteCount == 0 && s.link.bits == []

/-- The receipt of the good frame of command c, whose execution is `run`, through the falling edge of SCK
that ends its last bit, at which SDO takes the first bit of the turnaround byte. Where no frame can
begin, nothing happens (R155, R159, R166; log 9). -/
def goodFrame (c : Instr) (run : Execution) (s : State) : State :=
  if s.atFrameStart then
    match encodeCommand c with
    | some (code, params) =>
      present (finishFrame run { s with link := frameReceived code params s.link })
    | none => s
  else s

end Sys2Proof.Machine
end

