-- ==== Sys2Proof/Machine/Merge.lean ====
section
/-! DEFINITION. The merge engine (chapter 6): taking captures, choosing entries, the block copy, its
completions and faults, RESUME, SKIP and GET FAULT. -/

namespace Sys2Proof.Machine

/-- The path unit's current request holds a slot target naming block b of ring r (R13). -/
def State.targets (s : State) (r : Fin 8) (b : Nat) : Bool :=
  match s.path.current with
  | some q => q.slotTarget == some (r, b)
  | none => false

/-- Begin a block copy of an entry: COPYING, restart_pending written from the slot target, the copy
record filled at phase READ WAIT, the engine waiting (R13, R100, R122). -/
def beginCopy (e : MapEntry) (s : State) : State :=
  let pending := s.targets e.ring e.block
  beginWait
    { s with
      pool := { s.pool with map := changeEntry s.pool.map e.ring e.block fun x =>
        { x with state := .copying, restartPending := pending } }
      engine := { s.engine with
        status := .copying
        copy   := some { ring := e.ring, block := e.block,
                         home := homeOf (s.ring e.ring).cfg e.block, slot := e.slot,
                         phase := .readWait, slotData := [], copySet := 0#16 } } }

/-- Of the entries of a list on ring r within `limit` blocks of the cursor, the nearest (R121). -/
def nearestEntry (r : Fin 8) (size cursor limit : Nat) : List MapEntry → Option MapEntry
  | [] => none
  | e :: es =>
    let rest := nearestEntry r size cursor limit es
    if e.ring = r ∧ forward size cursor e.block ≤ limit then
      match rest with
      | some e' => if forward size cursor e'.block < forward size cursor e.block then rest else some e
      | none => some e
    else rest

/-- The next entry of capture c to copy: the first block with an entry from the cursor to last_block in
circular order (R121). -/
def nextEntry (s : State) (c : Fin 16) (cursor : Nat) : Option MapEntry :=
  let x    := s.capture c
  let size := (s.ring x.ring).cfg.sizeBlocks
  nearestEntry x.ring size cursor (forward size cursor x.lastBlock) s.pool.map

/-- Begin the copy of the chosen entry, the cursor set to the block after it (R121, R122). -/
def copyEntry (e : MapEntry) (s : State) : State :=
  let size := (s.ring e.ring).cfg.sizeBlocks
  beginCopy e { s with engine := { s.engine with cursor := some (stepOn size e.block 1) } }

/-- The engine back in IDLE: no capture in MERGING, no copy record (R119). -/
def engineIdle (s : State) : State :=
  { s with engine := { s.engine with status := .idle, merging := none, copy := none } }

/-- The capture at the head leaves the queue and becomes MERGING (R89, R120). -/
def takeCapture (c : Fin 16) (rest : List (Fin 16)) (s : State) : State :=
  let s1 := s.putCapture c { s.capture c with state := .merging }
  { s1 with engine := { s1.engine with queue := rest } }

/-- The IDLE engine takes captures from the head of the release queue: one without an entry becomes
FREE at once and the next head is taken; one with entries starts at its first_block (R120, R121). -/
def takeQueue : List (Fin 16) → State → State
  | [], s => { s with engine := { s.engine with queue := [] } }
  | c :: rest, s =>
    let s1 := takeCapture c rest s
    if (s1.capture c).entries = 0 then takeQueue rest (becomeFree c s1)
    else
      let first := (s1.capture c).firstBlock
      match nextEntry s1 c first with
      | some e => copyEntry e { s1 with engine := { s1.engine with merging := some c } }
      | none => takeQueue rest s1

/-- The engine returns to IDLE and takes the next capture, if one waits (R120). -/
def engineNext (s : State) : State :=
  let s1 := engineIdle s
  takeQueue s1.engine.queue s1

/-- After an entry of capture c was removed: the next entry's copy, or with none left the next capture
(R119, R121, R125, R132). -/
def continueMerge (c : Fin 16) (s : State) : State :=
  if (s.capture c).state = .merging then
    match s.engine.cursor with
    | some cursor =>
      match nextEntry s c cursor with
      | some e => copyEntry e s
      | none => engineNext s
    | none => engineNext s
  else engineNext s

/-- The MERGE_FAULT event (R130). -/
def mergeFaultEvent (f : FaultRecord) : Event where
  kind    := .mergeFault
  ring    := some f.ring
  capture := some f.capture
  address := some f.address
  value   := some (f.slot : Int)
  detail  := faultCode f.kind

/-- A copy transaction fails: the fault record, HALTED, one MERGE_FAULT event (R129). The slot data of
a failed slot read is empty already (R122). -/
def mergeFault (kind : FaultKind) (s : State) : State :=
  match s.engine.copy, s.engine.merging with
  | some k, some c =>
    let f : FaultRecord := { kind := kind, capture := c, ring := k.ring, address := k.home,
                             slot := k.slot }
    raise (mergeFaultEvent f)
      { s with engine := { s.engine with status := .halted, fault := some f } }
  | _, _ => s

/-- One more restart of a capture, saturating at 65535 (R91, R125). -/
def countRestart (c : Fin 16) (s : State) : State :=
  s.putCapture c { s.capture c with restarts := satAdd 65535 (s.capture c).restarts 1 }

/-- The home write completes with OKAY: the copy restarts when restart_pending is set, else the entry
is removed and the engine goes on (R125). -/
def homeWriteDone (k : CopyRecord) (c : Fin 16) (s : State) : State :=
  match s.entry k.ring k.block with
  | some e =>
    if e.restartPending then beginCopy e (countRestart c s)
    else continueMerge c (removeEntry e s)
  | none => engineNext s

/-- The slot read completes with OKAY: the slot data, the copy set from the written set as it stands,
and the engine waits with its home write (R123). -/
def slotReadDone (k : CopyRecord) (data : List Word) (s : State) : State :=
  match s.entry k.ring k.block with
  | some e =>
    beginWait { s with engine := { s.engine with
      copy := some { k with phase := .writeWait, slotData := data, copySet := e.written } } }
  | none => engineNext s

/-- The engine's outstanding transaction completes with a status and data (R123, R124, R129). -/
def engineResponse (status : BusStatus) (data : List Word) (s : State) : State :=
  match s.engine.copy, s.engine.merging with
  | some k, some c =>
    match k.phase, status with
    | .read, .okay   => slotReadDone k data s
    | .read, .error  => mergeFault .slotReadError s
    | .write, .okay  => homeWriteDone k c s
    | .write, .error => mergeFault .homeWriteError s
    | .readWait, _ | .writeWait, _ => s
  | _, _ => s

/-- COPY_TIMEOUT: the engine's outstanding transaction expires, unless it was issued with the timeout
off; the port frees and the engine halts (R128, R129). With no such transaction nothing can expire
(log 9). -/
def execCopyTimeout (s : State) : Host.Outcome State Fault Refusal :=
  .next
    (match s.dn.outstanding with
     | some t =>
       if t.side = .engine ∧ t.timeout ≠ 0 then
         arbitrate (mergeFault .copyTimeout { s with dn := { s.dn with outstanding := none } })
       else s
     | none => s)

/-- RESUME (R131). -/
def runResume : Execution := fun s =>
  if s.engine.status = .halted then
    match s.engine.copy with
    | some k =>
      let s1 := { s with engine := { s.engine with fault := none } }
      match s1.entry k.ring k.block with
      | some e => (arbitrate (beginCopy e s1), replyOk [])
      | none => (arbitrate (engineNext s1), replyOk [])
    | none => (s, replyOk [])
  else (s, refuse .state)

/-- The lost words of a skipped entry: its written set's size, and PARTIAL when the count is above 0
(R91, R132). -/
def countLost (e : MapEntry) (s : State) : State :=
  let x := s.capture e.capture
  let n := (positions e.written).length
  s.putCapture e.capture
    { x with lostWords := satAdd 65535 x.lostWords n
             isPartial := x.isPartial || decide (0 < x.lostWords + n) }

/-- SKIP (R132). -/
def runSkip : Execution := fun s =>
  if s.engine.status = .halted then
    match s.engine.copy with
    | some k =>
      match s.entry k.ring k.block with
      | some e =>
        let s1 := removeEntry e (countLost e s)
        let s2 := { s1 with engine := { s1.engine with fault := none } }
        (arbitrate (continueMerge e.capture s2), replyOk [])
      | none =>
        (arbitrate (engineNext { s with engine := { s.engine with fault := none } }), replyOk [])
    | none => (s, replyOk [])
  else (s, refuse .state)

/-- A fault record as GET FAULT reports it (9.4). -/
def faultBytes (f : FaultRecord) : List Byte :=
  [faultCode f.kind, nat8 f.capture.val, nat8 f.ring.val] ++ bytes32 f.address ++ nat16 f.slot

/-- GET FAULT (R133). -/
def runGetFault : Execution := fun s =>
  match s.engine.fault with
  | some f => (s, replyOk (faultBytes f))
  | none => (s, refuse .empty)

def execResume (s : State) : Host.Outcome State Fault Refusal :=
  .next (goodFrame .resume runResume s)

def execSkip (s : State) : Host.Outcome State Fault Refusal :=
  .next (goodFrame .skip runSkip s)

def execGetFault (s : State) : Host.Outcome State Fault Refusal :=
  .next (goodFrame .getFault runGetFault s)

end Sys2Proof.Machine
end

