-- ==== Sys2Proof/Machine/Triggers.lean ====
section
/-! DEFINITION. Trigger requests at the capture table: acceptance and refusal, span computation, the
opening of a capture, outrun and post counting (chapter 4). -/

namespace Sys2Proof.Machine

/-- A trigger request for a ring (3.3). -/
structure TriggerReq where
  source  : Source
  detail  : Option Byte
  address : Option Addr
  value   : Option Int
  deriving DecidableEq, Repr

/-- What the capture table did with a trigger request (R60, R71); `ignored` is the SAFE ring's (R72). -/
inductive TriggerOutcome where
  | ignored
  | absorbed (capture : Fin 16)
  | blocked (capture : Fin 16)
  | noRecord
  | noPosition
  | opened (capture : Fin 16)
  deriving DecidableEq, Repr

/-- The TRIGGER_REFUSED event (R62, R74, R75). -/
def refusedEvent (r : Fin 8) (src : Source) (by' : Option (Fin 16)) (a : Option Addr)
    (reason : Byte) : Event where
  kind    := .triggerRefused
  ring    := some r
  capture := by'
  address := a
  value   := some ((sourceCode src).toNat : Int)
  detail  := reason

/-- Reasons of TRIGGER_REFUSED (R138). -/
def reasonBlocked : Byte := 1#8
def reasonNoRecord : Byte := 2#8
def reasonNoPosition : Byte := 3#8

/-- The pre count: step back from the trigger block while the ring's pre_blocks (the fuel), the ring
size and the other spans allow (R77). -/
def preCount (s : State) (r : Fin 8) (size tb : Nat) : Nat → Nat → Nat
  | 0, p => p
  | fuel + 1, p =>
    if p + 1 < size ∧ s.coveredBy r (stepBack size tb (p + 1)) = none then
      preCount s r size tb fuel (p + 1)
    else p

/-- The post walk from the trigger block, at most d steps (the fuel), `j` of them passed: last_block,
and whether the walk stopped before d (R78). -/
def postWalk (s : State) (r : Fin 8) (size tb first : Nat) : Nat → Nat → Nat × Bool
  | 0, j => (stepOn size tb j, false)
  | fuel + 1, j =>
    if stepOn size tb (j + 1) = first ∨ s.coveredBy r (stepOn size tb (j + 1)) ≠ none then
      (stepOn size tb j, true)
    else postWalk s r size tb first fuel (j + 1)

/-- The record of a capture that opens, before its state is set (R76 steps 1 to 3; R77, R78). -/
def openRecord (s : State) (r : Fin 8) (t : TriggerReq) (a : Addr) : Capture :=
  let cfg   := (s.ring r).cfg
  let size  := cfg.sizeBlocks
  let tb    := blockOf cfg a
  let p     := preCount s r size tb cfg.preBlocks 0
  let first := stepBack size tb p
  let walk  := postWalk s r size tb first ((wordPos a + cfg.postWords) / 16) 0
  { state          := .free
    ring           := r
    serial         := s.caps.serial
    source         := some t.source
    sourceDetail   := t.detail
    triggerAddress := a
    triggerValue   := t.value
    firstBlock     := first
    triggerBlock   := tb
    lastBlock      := walk.1
    postRemaining  := cfg.postWords
    absorbed       := 0
    entries        := 0
    divertedBlocks := 0
    spilledWords   := 0
    lostWords      := 0
    restarts       := 0
    cut            := decide (p < cfg.preBlocks) || walk.2
    isPartial      := false }

/-- The CAPTURE_OPEN event (R76). -/
def openEvent (r : Fin 8) (c : Fin 16) (t : TriggerReq) (a : Addr) : Event where
  kind    := .captureOpen
  ring    := some r
  capture := some c
  address := some a
  value   := t.value
  detail  := sourceCode t.source

/-- Open record c for a trigger request at address a: POST, or HELD at once with cause NO_POST when
post_words is 0 (R76, R79). -/
def openCapture (r : Fin 8) (t : TriggerReq) (a : Addr) (c : Fin 16) (s : State) : State :=
  let x  := openRecord s r t a
  let s1 := { s with caps := { s.caps with serial := s.caps.serial + 1#16 } }
  let s2 := raise (openEvent r c t a) (s1.putCapture c x)
  if x.postRemaining = 0 then becomeHeld c .noPost s2
  else s2.putCapture c { x with state := .post }

/-- One more trigger absorbed, saturating at 255 (R73). -/
def absorb (c : Fin 16) (s : State) : State :=
  s.putCapture c { s.capture c with absorbed := satAdd 255 (s.capture c).absorbed 1 }

/-- The capture table's action on a request for an ARMED ring at an address: absorbed, refused
BLOCKED, refused NO_RECORD, or a capture opens (R71, R73 to R76). -/
def captureTrigger (r : Fin 8) (t : TriggerReq) (a : Addr) (s : State) : State × TriggerOutcome :=
  match s.postOn r with
  | some c => (absorb c s, .absorbed c)
  | none =>
    match s.coveredBy r (blockOf (s.ring r).cfg a) with
    | some b => (raise (refusedEvent r t.source (some b) (some a) reasonBlocked) s, .blocked b)
    | none =>
      match s.freeRecord with
      | none => (raise (refusedEvent r t.source none (some a) reasonNoRecord) s, .noRecord)
      | some c => (openCapture r t a c s, .opened c)

/-- Form a trigger request for ring r and hand it over: a ring that is not ARMED opens nothing (R44,
R72); an ARMED ring without a position refuses it (R61, R62); otherwise the capture table acts. -/
def handTrigger (r : Fin 8) (t : TriggerReq) (s : State) : State × TriggerOutcome :=
  match (s.ring r).mode with
  | .off | .safe => (s, .ignored)
  | .armed =>
    match t.address with
    | none => (raise (refusedEvent r t.source none none reasonNoPosition) s, .noPosition)
    | some a => captureTrigger r t a s

/-- A producer word at address a of ring r meets the capture in POST: outrun when it lies outside the
span (R83), else a sample word counts one (R81). -/
def postWord (r : Fin 8) (a : Addr) (isSample : Bool) (s : State) : State :=
  match s.postOn r with
  | none => s
  | some c =>
    let x := s.capture c
    if x.inSpan (s.ring r).cfg.sizeBlocks (blockOf (s.ring r).cfg a) then
      if isSample then s.putCapture c { x with postRemaining := x.postRemaining - 1 } else s
    else becomeHeld c .outrun s

end Sys2Proof.Machine
end

