-- ==== Sys2Proof/Machine/Captures.lean ====
section
/-! DEFINITION. The capture table's link commands: RELEASE, GET CAPTURE, LIST CAPTURES (chapter 4). -/

namespace Sys2Proof.Machine

/-- A HELD capture becomes RELEASING, is appended to the release queue, and is taken at once by an IDLE
engine (R86, R118, R120). -/
def appendRelease (c : Fin 16) (s : State) : State :=
  let s1 := s.putCapture c { s.capture c with state := .releasing }
  let s2 := { s1 with engine := { s1.engine with queue := s1.engine.queue ++ [c] } }
  if s2.engine.status = .idle then takeQueue s2.engine.queue s2 else s2

/-- RELEASE (R86, R87). -/
def runRelease (capture : Byte) : Execution := fun s =>
  match captureOf capture with
  | none => (s, refuse .range)
  | some c =>
    match (s.capture c).state with
    | .free => (s, refuse .noCapture)
    | .post => (arbitrate (appendRelease c (becomeHeld c .released s)), replyOk [])
    | .held => (arbitrate (appendRelease c s), replyOk [])
    | .releasing | .merging => (s, refuse .state)

/-- GET CAPTURE (R92). -/
def runGetCapture (capture : Byte) : Execution := fun s =>
  match captureOf capture with
  | none => (s, refuse .range)
  | some c => (s, replyOk (captureBytes (s.capture c)))

/-- One record as LIST CAPTURES reports it (9.4). -/
def listBytes (x : Capture) : List Byte :=
  [captureStateCode x.state, nat8 x.ring.val] ++ bytes16 x.serial

/-- LIST CAPTURES (R93). -/
def runListCaptures : Execution := fun s =>
  (s, replyOk (captureIds.flatMap fun c => listBytes (s.capture c)))

def execRelease (capture : Byte) (s : State) : Host.Outcome State Fault Refusal :=
  .next (goodFrame (.release capture) (runRelease capture) s)

def execGetCapture (capture : Byte) (s : State) : Host.Outcome State Fault Refusal :=
  .next (goodFrame (.getCapture capture) (runGetCapture capture) s)

def execListCaptures (s : State) : Host.Outcome State Fault Refusal :=
  .next (goodFrame .listCaptures runListCaptures s)

end Sys2Proof.Machine
end

