-- ==== Sys2Proof/Machine/Events.lean ====
section
/-! DEFINITION. The event queue's and the link's own commands: PEEK EVENT, POP EVENT, CLEAR, SET
EVENTS, READ ATTENTION, IDENTIFY (7.4, 7.5, 8.6). -/

namespace Sys2Proof.Machine

/-- The head record and the list's length, 15 bytes (9.4, R176). -/
def headBytes (e : EventRecord) (length : Nat) : List Byte := eventBytes e ++ [nat8 length]

/-- PEEK EVENT (R146). -/
def runPeekEvent : Execution := fun s =>
  match s.queue.records with
  | [] => (s, refuse .empty)
  | e :: es => (s, replyOk (headBytes e (es.length + 1)))

/-- POP EVENT: the reply, and the commit pending when there is a head (R147, R162). -/
def runPopEvent : Execution := fun s =>
  match s.queue.records with
  | [] => (s, refuse .empty)
  | e :: es =>
    ({ s with link := { s.link with commit := some .popEvent } },
     replyOk (headBytes e (es.length + 1)))

/-- The commit of a POP EVENT: the head leaves, an open OVERFLOW record is closed (R143, R147). -/
def popCommit (q : EventQueue) : EventQueue :=
  { q with records := q.records.tail, overflowOpen := false }

/-- A ring with its extremes emptied (R39). -/
def Ring.clearedExtremes (x : Ring) : Ring := { x with extremes := Extremes.empty }

/-- CLEAR: the event list emptied, the sequence counter 0, every ring's extremes emptied (R39, R149,
R168). -/
def runClear : Execution := fun s =>
  ({ s with queue := { records := [], overflowOpen := false, nextSeq := 0#16 }
            rings := Vector.ofFn fun r => (s.ring r).clearedExtremes },
   replyOk [])

/-- SET EVENTS (R172). -/
def runSetEvents (watermark mask : Byte) : Execution := fun s =>
  match condSetOf mask with
  | none => (s, refuse .range)
  | some m =>
    if watermark.toNat = 0 ∨ 64 < watermark.toNat then (s, refuse .range)
    else ({ s with attn := { watermark := watermark.toNat, mask := m } }, replyOk [])

/-- READ ATTENTION (R173). -/
def runReadAttention : Execution := fun s =>
  (s, replyOk [nat8 s.attentionCode, condSetCode s.conditions])

/-- IDENTIFY (R167). -/
def runIdentify : Execution := fun s =>
  (s, replyOk (bytes16 Config.partCode ++
    [Config.revision, Config.ringCount, Config.captureCount] ++ bytes16 Config.mapEntryCount ++
    [Config.eventRecordCount]))

def execPeekEvent (s : State) : Host.Outcome State Fault Refusal :=
  .next (goodFrame .peekEvent runPeekEvent s)

def execPopEvent (s : State) : Host.Outcome State Fault Refusal :=
  .next (goodFrame .popEvent runPopEvent s)

def execClear (s : State) : Host.Outcome State Fault Refusal :=
  .next (goodFrame .clear runClear s)

def execSetEvents (watermark mask : Byte) (s : State) : Host.Outcome State Fault Refusal :=
  .next (goodFrame (.setEvents watermark mask) (runSetEvents watermark mask) s)

def execReadAttention (s : State) : Host.Outcome State Fault Refusal :=
  .next (goodFrame .readAttention runReadAttention s)

def execIdentify (s : State) : Host.Outcome State Fault Refusal :=
  .next (goodFrame .identify runIdentify s)

end Sys2Proof.Machine
end

