-- ==== Sys2Proof/Machine/Pool.lean ====
section
/-! DEFINITION. The divert map and slot pool (chapter 5): the routing of a RING request, its effects
and the transfer plan it gives, SET POOL, GET POOL and GET MAP. -/

namespace Sys2Proof.Machine

/-! ### Transactions of a plan (R10 to R12) -/

/-- A read of the words at the given burst indices, from the lowest to the highest; left out when there
are none. `addr` gives the address of a burst index (R11, R12). -/
def readTxn (kind : PathKind) (addr : Nat → Addr) (idxs : List Nat) : List PlanTxn :=
  match idxs.head?, idxs.getLast? with
  | some lo, some hi =>
    [{ kind := kind, addr := addr lo, length := hi - lo + 1, first := lo, serves := idxs,
       words := [] }]
  | _, _ => []

/-- FORWARD READ of a whole burst (R7, R10). -/
def forwardRead (q : UpRequest) : PlanTxn where
  kind   := .forwardRead
  addr   := q.addr
  length := q.burst.length
  first  := 0
  serves := List.range q.burst.length
  words  := []

/-- FORWARD WRITE of a whole burst with the given words (R7, R10). -/
def forwardWrite (q : UpRequest) (words : List WriteWord) : PlanTxn where
  kind   := .forwardWrite
  addr   := q.addr
  length := words.length
  first  := 0
  serves := []
  words  := words

/-- SLOT WRITE of the words to slot positions equal to their block positions (R11). -/
def slotWrite (q : UpRequest) (areaBase : Addr) (slot : Nat) (words : List WriteWord) :
    PlanTxn where
  kind   := .slotWrite
  addr   := slotAddr areaBase slot (wordPos q.addr)
  length := words.length
  first  := 0
  serves := []
  words  := words

/-! ### Routing (R103 to R113) -/

/-- The positions of a write's words with at least one strobe set (R99). -/
def strobedSet (q : UpRequest) (words : List WriteWord) : BitVec 16 :=
  posSet ((strobed words).map fun i => wordPos q.addr + i)

/-- The plan of a write routed to a slot: a FILL READ of home when a word needs one, then the SLOT
WRITE (R9, R11, R110). -/
def slotPlan (q : UpRequest) (areaBase : Addr) (slot : Nat) (words : List WriteWord)
    (fill : List Nat) : List PlanTxn :=
  readTxn .fillRead (addWords q.addr) fill ++ [slotWrite q areaBase slot words]

/-- What the routing of a request gives: the plan, and the slot target of a SLOT WRITE (R13). -/
structure Routing where
  plan       : List PlanTxn
  slotTarget : Option (Fin 8 × Nat)
  deriving DecidableEq, Repr

/-- Routing of a read: home, or split between the entry's slot and home for a live view (R104, R112). -/
def routeRead (q : UpRequest) (view : View) (r : Fin 8) (b : Nat) (s : State) : Routing :=
  match view, s.entry r b with
  | .live, some e =>
    let idxs   := List.range q.burst.length
    let inSlot := idxs.filter fun i => e.written.getLsbD (wordPos q.addr + i)
    let atHome := idxs.filter fun i => !e.written.getLsbD (wordPos q.addr + i)
    { plan := readTxn .slotRead (fun i => slotAddr s.pool.areaBase e.slot (wordPos q.addr + i)) inSlot
        ++ readTxn .forwardRead (addWords q.addr) atHome
      slotTarget := none }
  | .live, none => { plan := [forwardRead q], slotTarget := none }
  | .review, _ => { plan := [forwardRead q], slotTarget := none }

/-- A write routed home whole (R105, R108, R109, R113). -/
def routeHome (q : UpRequest) (words : List WriteWord) : Routing :=
  { plan := [forwardWrite q words], slotTarget := none }

/-- A live write to a block with an entry: to its slot, the written set extended, restart_pending set on
a COPYING entry (R106). -/
def routeToEntry (q : UpRequest) (words : List WriteWord) (e : MapEntry) (s : State) :
    State × Routing :=
  let map := changeEntry s.pool.map e.ring e.block fun x =>
    { x with written := x.written ||| strobedSet q words
             restartPending := x.restartPending || x.state == .copying }
  ({ s with pool := { s.pool with map := map } },
   { plan := slotPlan q s.pool.areaBase e.slot words (toFill (wordPos q.addr) e.written words)
     slotTarget := some (e.ring, e.block) })

/-- The map entry that an allocation creates (R107). -/
def newEntry (q : UpRequest) (words : List WriteWord) (r : Fin 8) (b : Nat) (h : Fin 16)
    (slot : Nat) : MapEntry where
  ring           := r
  block          := b
  capture        := h
  slot           := slot
  written        := strobedSet q words
  state          := .mapped
  restartPending := false

/-- One more map entry of a capture (R90, R91, R107). -/
def countEntry (h : Fin 16) (s : State) : State :=
  let x := s.capture h
  s.putCapture h { x with entries        := x.entries + 1
                          divertedBlocks := satAdd 65535 x.divertedBlocks 1 }

/-- A live write to a held block without an entry takes the head slot of the free list (R107). -/
def routeAllocate (q : UpRequest) (words : List WriteWord) (r : Fin 8) (b : Nat) (h : Fin 16)
    (slot : Nat) (rest : List Nat) (s : State) : State × Routing :=
  let pool := { s.pool with map := s.pool.map ++ [newEntry q words r b h slot], freeList := rest }
  (changePool pool (some r) (some h) (countEntry h s),
   { plan := slotPlan q s.pool.areaBase slot words (toFill (wordPos q.addr) 0#16 words)
     slotTarget := some (r, b) })

/-- The SPILL event (R114). -/
def spillEvent (q : UpRequest) (r : Fin 8) (h : Fin 16) (n : Nat) : Event where
  kind    := .spill
  ring    := some r
  capture := some h
  address := some q.addr
  value   := some (n : Int)
  detail  := nat8 q.master.val

/-- A spill: the words counted, PARTIAL set, one SPILL event at the capture's first (R91, R113). -/
def spill (q : UpRequest) (words : List WriteWord) (r : Fin 8) (h : Fin 16) (s : State) : State :=
  let x  := s.capture h
  let n  := (strobed words).length
  let s1 := s.putCapture h { x with spilledWords := satAdd 65535 x.spilledWords n, isPartial := true }
  raiseSpill (x.spilledWords = 0) (spillEvent q r h n) s1
where
  /-- Only the first spill of a capture queues an event (R113). -/
  raiseSpill (first : Bool) (e : Event) (s : State) : State := if first then raise e s else s

/-- Routing of a write by the table of 5.3, first row that matches (R103). -/
def routeWrite (q : UpRequest) (words : List WriteWord) (view : View) (r : Fin 8) (b : Nat)
    (s : State) : State × Routing :=
  match view with
  | .review => (s, routeHome q words)
  | .live =>
    if strobed words = [] then (s, routeHome q words)
    else
      match s.entry r b with
      | some e => routeToEntry q words e s
      | none =>
        match s.holdOf r b with
        | .notHeld | .filling => (s, routeHome q words)
        | .held h =>
          if (s.capture h).state = .post ∧ (s.capture h).postRemaining = 0 then
            (s, routeHome q words)
          else
            match s.pool.freeList with
            | slot :: rest => routeAllocate q words r b h slot rest s
            | [] => (spill q words r h s, routeHome q words)

/-! ### SET POOL, GET POOL, GET MAP -/

/-- The area of SET POOL meets a configured ring or the end of the address space (R95). -/
def areaOverlaps (s : State) (base slotCount : Nat) : Bool :=
  slotCount != 0 &&
  (decide (4294967296 < base + 64 * slotCount) ||
   ringIds.any fun r =>
     regionsMeet base (64 * slotCount)
       (s.ring r).cfg.base.toNat (64 * (s.ring r).cfg.sizeBlocks))

/-- The current request holds a slot target (R13, R95). -/
def State.hasSlotTarget (s : State) : Bool :=
  match s.path.current with
  | some q => q.slotTarget.isSome
  | none => false

/-- SET POOL: busy, range, overlap, in this order; on acceptance the free list is rebuilt ascending and
POOL_LOW worked out again (R95, R115). -/
def runSetPool (base : BitVec 32) (slotCount lowWater : BitVec 16) : Execution := fun s =>
  if s.pool.map ≠ [] ∨ s.hasSlotTarget = true then (s, refuse .busy)
  else if base.toNat % 64 ≠ 0 ∨ 512 < slotCount.toNat ∨ 512 < lowWater.toNat then
    (s, refuse .range)
  else if areaOverlaps s base.toNat slotCount.toNat then (s, refuse .overlap)
  else
    (changePool { s.pool with areaBase := base, slotCount := slotCount.toNat,
                              lowWater := lowWater.toNat,
                              freeList := List.range slotCount.toNat } none none s,
     replyOk [])

/-- GET POOL's 13 bytes (9.4). -/
def poolBytes (p : Pool) : List Byte :=
  bytes32 p.areaBase ++ nat16 p.slotCount ++ nat16 p.lowWater ++ nat16 p.freeCount ++
  nat16 p.map.length ++ [flagCode p.low]

/-- GET POOL (R116). -/
def runGetPool : Execution := fun s => (s, replyOk (poolBytes s.pool))

/-- A map entry as GET MAP reports it (9.4). -/
def entryBytes (e : MapEntry) : List Byte :=
  [nat8 e.capture.val] ++ nat16 e.slot ++ bytes16 e.written ++
  [entryStateCode e.state, flagCode e.restartPending]

/-- GET MAP (R117). -/
def runGetMap (ring : Byte) (block : BitVec 24) : Execution := fun s =>
  match ringOf ring with
  | none => (s, refuse .range)
  | some r =>
    if 65535 < block.toNat then (s, refuse .range)
    else
      match s.entry r block.toNat with
      | some e => (s, replyOk (entryBytes e))
      | none => (s, refuse .empty)

def execSetPool (base : BitVec 32) (slotCount lowWater : BitVec 16) (s : State) :
    Host.Outcome State Fault Refusal :=
  .next (goodFrame (.setPool base slotCount lowWater) (runSetPool base slotCount lowWater) s)

def execGetPool (s : State) : Host.Outcome State Fault Refusal :=
  .next (goodFrame .getPool runGetPool s)

def execGetMap (ring : Byte) (block : BitVec 24) (s : State) : Host.Outcome State Fault Refusal :=
  .next (goodFrame (.getMap ring block) (runGetMap ring block) s)

end Sys2Proof.Machine
end

