-- ==== Sys2Proof/Machine/Detectors.lean ====
section
/-! DEFINITION. The detector bank (chapter 3): limit, stuck, extremes and marker steps, the trigger
lines, SET MARKER, SET LINE, GET LINES, FORCE and TRIG level changes. -/

namespace Sys2Proof.Machine

/-! ### Sample steps (R42) -/

/-- Class of a conditioned sample against the thresholds, both comparisons strict (R45). -/
def classOf (c : RingConfig) (v : Int) : Zone :=
  if c.high < v then .above else if v < c.low then .below else .inside

/-- The event kind and trigger source of a zone change, none where R46 gives none. -/
def zoneChange : Zone → Zone → Option (EventKind × Option Source)
  | .unset, _ => none
  | .inside, .above | .below, .above => some (.limitHigh, some .limitHigh)
  | .inside, .below | .above, .below => some (.limitLow, some .limitLow)
  | .above, .inside | .below, .inside => some (.limitClear, none)
  | _, _ => none

/-- The ring's trigger_enable holds a detector's source (R44). FORCED has no member. -/
def TriggerEnable.holds (t : TriggerEnable) : Source → Bool
  | .limitHigh => t.limitHigh
  | .limitLow  => t.limitLow
  | .stuck     => t.stuck
  | .marker    => t.marker
  | .line      => t.line
  | .forced    => false

/-- A detector event of a word: ring, address, value, detail (R47, R50, R53). -/
def wordEvent (k : EventKind) (r : Fin 8) (a : Addr) (v : Option Int) (detail : Byte) : Event where
  kind    := k
  ring    := some r
  address := some a
  value   := v
  detail  := detail

/-- Raise an event when its enable lets it (R63). -/
def raiseIf (on : Bool) (e : Event) (s : State) : State := if on then raise e s else s

/-- Form and hand a detector trigger when trigger_enable holds its source (R44). -/
def triggerIf (r : Fin 8) (src : Source) (detail : Byte) (a : Addr) (v : Option Int) (s : State) :
    State :=
  if (s.ring r).cfg.triggerEnable.holds src then
    (handTrigger r ⟨src, some detail, some a, v⟩ s).1
  else s

/-- The limit step: zone first, then the event, then the trigger (R46, R47). -/
def limitStep (r : Fin 8) (a : Addr) (lane : Byte) (v : Int) (s : State) : State :=
  let x    := s.ring r
  let zone := classOf x.cfg v
  let s1   := s.putRing r { x with zone := zone }
  match zoneChange x.zone zone with
  | none => s1
  | some (kind, src) =>
    let s2 := raiseIf x.cfg.eventEnable.limit (wordEvent kind r a (some v) lane) s1
    match src with
    | none => s2
    | some src => triggerIf r src lane a (some v) s2

/-- The stuck run after one more sample (R48). -/
def StuckRun.next (k : StuckRun) (v : Int) : StuckRun :=
  if k.last = some v then { k with count := satAdd 255 k.count 1 } else ⟨some v, 1, false⟩

/-- The stuck step: the run, then the report when the run reaches stuck_limit unreported (R48, R49,
R50). -/
def stuckStep (r : Fin 8) (a : Addr) (lane : Byte) (v : Int) (s : State) : State :=
  let x   := s.ring r
  let run := x.stuck.next v
  if x.cfg.stuckLimit ≠ 0 ∧ run.count = x.cfg.stuckLimit ∧ run.reported = false then
    let s1 := s.putRing r { x with stuck := { run with reported := true } }
    let s2 := raiseIf x.cfg.eventEnable.stuck (wordEvent .stuck r a (some v) lane) s1
    triggerIf r .stuck lane a (some v) s2
  else s.putRing r { x with stuck := run }

/-- An extremes record after one more sample (R37). -/
def Extremes.add (e : Extremes) (v : Int) : Extremes where
  count := satAdd 4294967295 e.count 1
  min   := some (match e.min with | some m => if v < m then v else m | none => v)
  max   := some (match e.max with | some m => if m < v then v else m | none => v)

/-- The extremes update, of the pending record too while a READ EXTREMES is pending (R37, R38). -/
def extremesStep (r : Fin 8) (v : Int) (s : State) : State :=
  let x := s.ring r
  s.putRing r { x with extremes        := x.extremes.add v
                       pendingExtremes := x.pendingExtremes.map fun p => p.add v }

/-- The three steps of one conditioned sample (R42). -/
def sampleSteps (r : Fin 8) (a : Addr) (lane : Byte) (v : Int) (s : State) : State :=
  extremesStep r v (stuckStep r a lane v (limitStep r a lane v s))

/-- The samples of a word in lane order (R42). -/
def samplesSteps (r : Fin 8) (a : Addr) : Byte → List Int → State → State
  | _, [], s => s
  | lane, v :: vs, s => samplesSteps r a (lane + 1#8) vs (sampleSteps r a lane v s)

/-! ### Markers (R52) -/

/-- A marker's mode change and its event, only when the ring is in the mode the action leaves (R27). -/
def markerMode (r : Fin 8) (a : Addr) (code : Byte) (source target : Mode) (k : EventKind)
    (s : State) : State :=
  let x := s.ring r
  if x.mode = source then raise (wordEvent k r a none code) (s.putRing r { x with mode := target })
  else s

/-- The action of a marker word with this code on ring r (R52, R53, R27). -/
def markerStep (r : Fin 8) (a : Addr) (code : Byte) (s : State) : State :=
  match s.marker code with
  | .pass    => s
  | .note    => raiseIf (s.ring r).cfg.eventEnable.markerNote (wordEvent .markerNote r a none code) s
  | .trigger => triggerIf r .marker code a none s
  | .arm     => markerMode r a code .safe .armed .ringArmed s
  | .safe    => markerMode r a code .armed .safe .ringSafe s

/-! ### Lines (R54 to R57) -/

/-- A line's condition: mask enabled and level differs from reference (3.7, R54). -/
def Line.holds (x : Line) : Bool := x.mask && x.level != x.reference

/-- The LINE event (R57). -/
def lineEvent (n : Fin 4) (route : BitVec 8) : Event where
  kind   := .line
  value  := some (route.toNat : Int)
  detail := nat8 n.val

/-- The request of a firing line to one ring: SAFE or ARMED, LINE enabled, at the ring's head (R56,
R61). -/
def lineTrigger (n : Fin 4) (r : Fin 8) (s : State) : State :=
  if (s.ring r).mode ≠ .off ∧ (s.ring r).cfg.triggerEnable.line then
    (handTrigger r ⟨.line, some (nat8 n.val), (s.ring r).head, none⟩ s).1
  else s

/-- Hand the requests of a firing line to the rings of its route in the order given (R55). -/
def lineTriggers (n : Fin 4) (route : BitVec 8) : List (Fin 8) → State → State
  | [], s => s
  | r :: rs, s => lineTriggers n route rs (if route.getLsbD r.val then lineTrigger n r s else s)

/-- Replace a line's settings or level, work out its condition, and fire it when the condition goes
from false to true (R54, R55, R58). -/
def changeLine (n : Fin 4) (x : Line) (s : State) : State :=
  let y  := { x with condition := x.holds }
  let s1 := s.putLine n y
  if !(s.line n).condition && y.condition then
    lineTriggers n y.route ringIds (raise (lineEvent n y.route) s1)
  else s1

/-- TRIG_LEVEL_CHANGE: the input stage takes a level at TRIGn. While RSTN is low only the input stage
follows; else the line takes the level and works out its condition (R41, R54, R55, R178). -/
def execTrigLevelChange (n : Fin 4) (level : Bool) (s : State) :
    Host.Outcome State Fault Refusal :=
  let s1 := { s with pins := { s.pins with trig := s.pins.trig.set n.val level n.isLt } }
  .next (if s.pins.rstn then changeLine n { s.line n with level := level } s1 else s1)

/-! ### Link commands of the detector bank -/

/-- SET MARKER: the action of every code from first to last (R51). -/
def runSetMarker (first last action : Byte) : Execution := fun s =>
  match markerActionOf action with
  | none => (s, refuse .range)
  | some act =>
    if last.toNat < first.toNat then (s, refuse .range)
    else
      ({ s with det := { s.det with markers := Vector.ofFn fun i : Fin 256 =>
          if first.toNat ≤ i.val ∧ i.val ≤ last.toNat then act else s.det.markers[i.val]'i.isLt } },
       replyOk [])

/-- SET LINE: reference, mask and route replaced together, the condition worked out again (R58). -/
def runSetLine (line reference mask route : Byte) : Execution := fun s =>
  match lineOf line, flagOf reference, flagOf mask with
  | some n, some ref, some m =>
    (changeLine n { s.line n with reference := ref, mask := m, route := route } s, replyOk [])
  | _, _, _ => (s, refuse .range)

/-- One line as GET LINES reports it (9.4). -/
def lineBytes (x : Line) : List Byte :=
  [flagCode x.reference, flagCode x.mask, x.route, flagCode x.level, flagCode x.condition]

/-- GET LINES (R59). -/
def runGetLines : Execution := fun s =>
  (s, replyOk (lineIds.flatMap fun n => lineBytes (s.line n)))

/-- FORCE's outcome number, presence byte and capture number (R60, 9.4). `ignored` does not arise: the
ring is ARMED. -/
def outcomeBytes : TriggerOutcome → List Byte
  | .ignored    => [0#8, 0#8, 0#8]
  | .opened c   => [1#8, 1#8, nat8 c.val]
  | .absorbed c => [2#8, 1#8, nat8 c.val]
  | .blocked _  => [3#8, 0#8, 0#8]
  | .noRecord   => [4#8, 0#8, 0#8]
  | .noPosition => [5#8, 0#8, 0#8]

/-- FORCE: a FORCED request at the head of an ARMED ring (R60, R61). -/
def runForce (ring : Byte) : Execution := fun s =>
  match ringOf ring with
  | none => (s, refuse .range)
  | some r =>
    if (s.ring r).mode = .armed then
      let result := handTrigger r ⟨.forced, none, (s.ring r).head, none⟩ s
      (result.1, replyOk (outcomeBytes result.2))
    else (s, refuse .state)

def execSetMarker (first last action : Byte) (s : State) : Host.Outcome State Fault Refusal :=
  .next (goodFrame (.setMarker first last action) (runSetMarker first last action) s)

def execSetLine (line reference mask route : Byte) (s : State) :
    Host.Outcome State Fault Refusal :=
  .next (goodFrame (.setLine line reference mask route) (runSetLine line reference mask route) s)

def execGetLines (s : State) : Host.Outcome State Fault Refusal :=
  .next (goodFrame .getLines runGetLines s)

def execForce (ring : Byte) (s : State) : Host.Outcome State Fault Refusal :=
  .next (goodFrame (.force ring) (runForce ring) s)

end Sys2Proof.Machine
end

