-- ==== Sys2Proof/Machine/Rings.lean ====
section
/-! DEFINITION. The ring block (chapter 2): evaluation of the words of a ring write, SET RING, GET
RING, RING MODE and READ EXTREMES. -/

namespace Sys2Proof.Machine

/-! ### Words of a ring write (R28 to R31) -/

/-- Class of a write word (R29, R30). -/
inductive WordClass where
  | plain
  | foreign
  | ofPart
  | marker
  | sample
  deriving DecidableEq, Repr

/-- Classify a write word of master m into a ring as it stands (R29, R30). -/
def classifyWord (x : Ring) (m : Fin 16) (w : WriteWord) : WordClass :=
  if x.mode = .off then .plain
  else if m ≠ x.cfg.producer then .foreign
  else if w.strobes ≠ 15#4 then .ofPart
  else if x.cfg.markerEnable ∧ w.data.extractLsb' 24 8 = x.cfg.markerKey then .marker
  else .sample

/-- The ring's head moves to a sample or marker word (R35). -/
def moveHead (r : Fin 8) (a : Addr) (s : State) : State :=
  s.putRing r { s.ring r with head := some a }

/-- Evaluate one write word at address a of ring r; the word as it is to be written (R28, R31, R34).
Order: head, then the capture in POST (R81), then the detector bank (R42). -/
def evalWord (r : Fin 8) (m : Fin 16) (a : Addr) (w : WriteWord) (s : State) : State × WriteWord :=
  match classifyWord (s.ring r) m w with
  | .plain | .foreign | .ofPart => (s, w)
  | .marker =>
    (markerStep r a (w.data.extractLsb' 0 8) (postWord r a false (moveHead r a s)), w)
  | .sample =>
    let cfg  := (s.ring r).cfg
    let vals := (samplesOf cfg.format w.data).map (condition cfg)
    (samplesSteps r a 0#8 vals (postWord r a true (moveHead r a s)),
     { data := conditionedWord cfg w.data, strobes := 15#4 })

/-- Evaluate the words of a burst in address order, each whole before the next (R28). -/
def evalWords (r : Fin 8) (m : Fin 16) : Addr → List WriteWord → State → State × List WriteWord
  | _, [], s => (s, [])
  | a, w :: ws, s =>
    let one  := evalWord r m a w s
    let rest := evalWords r m (a + 4#32) ws one.1
    (rest.1, one.2 :: rest.2)

/-! ### SET RING (R20 to R22) -/

/-- A signed 24-bit parameter in the range of a format (R21). -/
def inFormat (f : Format) (v : Int) : Bool := decide (formatMin f ≤ v) && decide (v ≤ formatMax f)

/-- The configuration record that SET RING's parameters name; none when a range check of R21 fails. -/
def ringConfigOf (p : RingParams) : Option RingConfig :=
  match masterOf p.producer, formatOf p.format, flagOf p.markerEnable,
    triggerEnableOf p.triggerEnable, eventEnableOf p.eventEnable with
  | some producer, some format, some markerEnable, some triggerEnable, some eventEnable =>
    if p.base.toNat % 64 = 0 ∧
       (p.sizeBlocks.toNat = 0 ∨ 2 ≤ p.sizeBlocks.toNat ∧ p.sizeBlocks.toNat ≤ 65536) ∧
       p.shift.toNat ≤ 15 ∧
       inFormat format p.offset.toInt ∧ inFormat format p.high.toInt ∧
       inFormat format p.low.toInt ∧ p.low.toInt ≤ p.high.toInt ∧
       p.stuckLimit.toNat ≠ 1 ∧
       ¬(markerEnable = true ∧ format = .p16) then
      some { base := p.base, sizeBlocks := p.sizeBlocks.toNat, producer := producer,
             format := format, shift := p.shift.toNat, offset := p.offset.toInt,
             high := p.high.toInt, low := p.low.toInt, stuckLimit := p.stuckLimit.toNat,
             markerKey := p.markerKey, markerEnable := markerEnable,
             preBlocks := p.preBlocks.toNat, postWords := p.postWords.toNat,
             triggerEnable := triggerEnable, eventEnable := eventEnable }
    else none
  | _, _, _, _, _ => none

/-- The region of ring r meets another region or the end of the address space (R22). -/
def ringOverlaps (s : State) (r : Fin 8) (c : RingConfig) : Bool :=
  c.configured &&
  (decide (4294967296 < c.base.toNat + 64 * c.sizeBlocks) ||
   (ringIds.any fun r' => r' != r &&
     regionsMeet c.base.toNat (64 * c.sizeBlocks)
       (s.ring r').cfg.base.toNat (64 * (s.ring r').cfg.sizeBlocks)) ||
   regionsMeet c.base.toNat (64 * c.sizeBlocks) s.pool.areaBase.toNat (64 * s.pool.slotCount))

/-- SET RING: ring number, state, range, overlap, in this order (R20, R175). -/
def runSetRing (ring : Byte) (p : RingParams) : Execution := fun s =>
  match ringOf ring with
  | none => (s, refuse .range)
  | some r =>
    if (s.ring r).mode ≠ .off then (s, refuse .state)
    else
      match ringConfigOf p with
      | none => (s, refuse .range)
      | some cfg =>
        if ringOverlaps s r cfg then (s, refuse .overlap)
        else (s.putRing r { s.ring r with cfg := cfg }, replyOk [])

/-! ### GET RING, RING MODE, READ EXTREMES -/

/-- GET RING's 34 bytes (9.4). -/
def ringBytes (x : Ring) : List Byte :=
  ringConfigBytes x.cfg ++ [modeCode x.mode, bitsByte [x.head.isSome]] ++ optAddr x.head ++
  [zoneCode x.zone]

/-- GET RING (R23). -/
def runGetRing (ring : Byte) : Execution := fun s =>
  match ringOf ring with
  | none => (s, refuse .range)
  | some r => (s, replyOk (ringBytes (s.ring r)))

/-- The runtime state initialised as a ring leaves OFF (R26). -/
def Ring.started (x : Ring) : Ring :=
  { x with head := none, zone := .unset, stuck := StuckRun.empty, extremes := Extremes.empty,
           pendingExtremes := none }

/-- The ring with its new mode: initialised on leaving OFF, kept otherwise (R25, R26). -/
def Ring.withMode (x : Ring) (target : Mode) : Ring :=
  if x.mode = .off ∧ target ≠ .off then { x.started with mode := target }
  else { x with mode := target }

/-- RING MODE (R25). -/
def runRingMode (ring mode : Byte) : Execution := fun s =>
  match ringOf ring, modeOf mode with
  | some r, some target =>
    let x := s.ring r
    if target ≠ .off ∧ x.cfg.configured = false then (s, refuse .state)
    else if target = .off ∧ x.mode ≠ .off ∧ s.ringBusy r = true then (s, refuse .busy)
    else (s.putRing r (x.withMode target), replyOk [])
  | _, _ => (s, refuse .range)

/-- READ EXTREMES' reply: count, presence, min, max (9.4). -/
def extremesBytes (e : Extremes) : List Byte :=
  nat32 e.count ++ [bitsByte [e.min.isSome]] ++ optSigned24 e.min ++ optSigned24 e.max

/-- READ EXTREMES: the reply from the record as it stands, an empty pending record, and the commit
pending (R38, R162). -/
def runReadExtremes (ring : Byte) : Execution := fun s =>
  match ringOf ring with
  | none => (s, refuse .range)
  | some r =>
    let s1 := s.putRing r { s.ring r with pendingExtremes := some Extremes.empty }
    ({ s1 with link := { s1.link with commit := some (.readExtremes r) } },
     replyOk (extremesBytes (s.ring r).extremes))

def execSetRing (ring : Byte) (p : RingParams) (s : State) : Host.Outcome State Fault Refusal :=
  .next (goodFrame (.setRing ring p) (runSetRing ring p) s)

def execGetRing (ring : Byte) (s : State) : Host.Outcome State Fault Refusal :=
  .next (goodFrame (.getRing ring) (runGetRing ring) s)

def execRingMode (ring mode : Byte) (s : State) : Host.Outcome State Fault Refusal :=
  .next (goodFrame (.ringMode ring mode) (runRingMode ring mode) s)

def execReadExtremes (ring : Byte) (s : State) : Host.Outcome State Fault Refusal :=
  .next (goodFrame (.readExtremes ring) (runReadExtremes ring) s)

end Sys2Proof.Machine
end

