-- ==== Sys2Proof/Machine/Path.lean ====
section
/-! DEFINITION. The path unit (chapter 1): classification, the take of a request, completion and
expiry of its transactions, the UP port, and SET PATH, GET PATH, SET VIEW. -/

namespace Sys2Proof.Machine

/-! ### Classification (R4 to R8) -/

/-- The class of a request, the refused classes among them (1.3). -/
inductive TakeClass where
  | pastEnd
  | guard
  | boundary (lowestRing : Fin 8)
  | outside
  | ring (ring : Fin 8) (block : Nat)
  deriving DecidableEq, Repr

/-- The lowest-numbered configured ring that a burst touches (R6). -/
def State.ringTouched (s : State) (q : UpRequest) : Option (Fin 8) :=
  ringIds.find? fun r => touches q (s.ring r).cfg.base.toNat (64 * (s.ring r).cfg.sizeBlocks)

/-- Classify a request: the tests of 1.3 in order, the first that holds (R4 to R8). -/
def classify (q : UpRequest) (s : State) : TakeClass :=
  if 4294967296 < burstEnd q then .pastEnd
  else if touches q s.pool.areaBase.toNat (64 * s.pool.slotCount) then .guard
  else
    match s.ringTouched q with
    | none => .outside
    | some r => if crossesBlock q then .boundary r else .ring r (blockOf (s.ring r).cfg q.addr)

/-- The GUARD or BOUNDARY event (R5, R6). -/
def refusalEvent (k : EventKind) (r : Option (Fin 8)) (q : UpRequest) : Event where
  kind    := k
  ring    := r
  address := some q.addr
  value   := some (q.burst.length : Int)
  detail  := nat8 q.master.val

/-! ### The take (R1, R8) -/

/-- A capture on the ring whose post count the request brought to 0 becomes HELD at the end of the
routing step (R82). -/
def postDone (r : Fin 8) (s : State) : State :=
  match s.postOn r with
  | some c => if (s.capture c).postRemaining = 0 then becomeHeld c .postDone s else s
  | none => s

/-- Make a request current with its view, class, plan and slot target (R1). -/
def startTransfer (q : UpRequest) (view : View) (cls : ReqClass) (routing : Routing) (s : State) :
    State :=
  let record : Current :=
    { req := q, view := view, cls := cls, plan := routing.plan,
      readData := List.replicate q.burst.length none, slotTarget := routing.slotTarget }
  { s with path := { s.path with current := some record } }

/-- The take of a RING request: a write's words are evaluated, then routed, then a completed post count
takes effect; a read goes to the routing directly (R8). -/
def takeRing (q : UpRequest) (r : Fin 8) (b : Nat) (s : State) : State :=
  let view := s.view q.master
  match q.burst with
  | .read _ => startTransfer q view (.ring r b) (routeRead q view r b s) s
  | .write ws =>
    let evald  := evalWords r q.master q.addr ws s
    let routed := routeWrite q evald.2 view r b evald.1
    startTransfer q view (.ring r b) routed.2 (postDone r routed.1)

/-- The plan of an OUTSIDE request: one FORWARD READ or FORWARD WRITE, unchanged (R7). -/
def outsideRouting (q : UpRequest) : Routing :=
  match q.burst with
  | .read _ => { plan := [forwardRead q], slotTarget := none }
  | .write ws => { plan := [forwardWrite q ws], slotTarget := none }

/-- Take a request: refused ones are answered ERROR at once with their event (R2, R4 to R6), the
others become the current request (R7, R8). -/
def take (q : UpRequest) (s : State) : State :=
  match classify q s with
  | .pastEnd    => respond q.master .error [] s
  | .guard      => respond q.master .error [] (raise (refusalEvent .guard none q) s)
  | .boundary r => respond q.master .error [] (raise (refusalEvent .boundary (some r) q) s)
  | .outside    => startTransfer q (s.view q.master) .outside (outsideRouting q) s
  | .ring r b   => takeRing q r b s

/-- Take waiting requests in the order presented while the path unit is IDLE (R1, R2). -/
def takeWaiting : List UpRequest → State → State
  | [], s => { s with up := { s.up with waiting := [] } }
  | q :: rest, s =>
    if s.path.current.isSome then { s with up := { s.up with waiting := q :: rest } }
    else takeWaiting rest (take q s)

/-- The end of an event at the path unit: with RSTN high, waiting requests are taken, then the arbiter
decides (R1, R2, R14, R18; log 11). -/
def settle (s : State) : State :=
  if s.pins.rstn then arbitrate (takeWaiting s.up.waiting s) else s

/-- A request presented now is taken at once: RSTN is high, the path unit is IDLE and no request waits
before it (R1, R18). -/
def State.takesNow (s : State) : Bool :=
  s.pins.rstn && s.path.current.isNone && s.up.waiting.isEmpty

/-- UPSTREAM_REQUEST: a request is presented at UP. It is taken at once, or it stays there behind those
that wait (R1, R18). What is no burst of the port's is not accepted (1.1; log 10). -/
def execUpstreamRequest (q : UpRequest) (s : State) : Host.Outcome State Fault Refusal :=
  .next
    (if q.wf then
       if s.takesNow then arbitrate (take q s)
       else settle { s with up := { s.up with waiting := s.up.waiting ++ [q] } }
     else s)

/-! ### Completion of a path transaction (R2, R10 to R12, R17) -/

/-- The read data with the word of each served burst index put in its place (R10, R12). -/
def placeWords (t : PlanTxn) (data : List Word) (acc : List (Option Word)) : List (Option Word) :=
  acc.zipIdx.map fun p => if p.2 ∈ t.serves then data[p.2 - t.first]? else p.1

/-- The words of a SLOT WRITE with the marked words filled from the FILL READ (R11). -/
def fillWords (t : PlanTxn) (data : List Word) (ws : List WriteWord) : List WriteWord :=
  ws.zipIdx.map fun p =>
    if p.2 ∈ t.serves then
      match data[p.2 - t.first]? with
      | some home => fillWord p.1 home
      | none => p.1
    else p.1

/-- The current request after its transaction t completed with OKAY and the rest of the plan stands. -/
def afterTxn (q : Current) (t : PlanTxn) (rest : List PlanTxn) (data : List Word) : Current :=
  match t.kind with
  | .forwardRead | .slotRead => { q with plan := rest, readData := placeWords t data q.readData }
  | .fillRead =>
    { q with plan := rest.map fun w => { w with words := fillWords t data w.words } }
  | .forwardWrite | .slotWrite => { q with plan := rest }

/-- Discard the current request and send its response: the path unit is IDLE (R2). -/
def endRequest (q : Current) (status : BusStatus) (data : List Word) (s : State) : State :=
  respond q.req.master status data { s with path := { s.path with current := none } }

/-- The path unit's outstanding transaction completes: ERROR ends the plan (R2, R17); OKAY goes on with
the plan, or sends the response when it was the last (R2, R9). -/
def pathResponse (status : BusStatus) (data : List Word) (s : State) : State :=
  match s.path.current with
  | none => s
  | some q =>
    match status, q.plan with
    | .error, _ => endRequest q .error [] s
    | .okay, [] => s
    | .okay, t :: rest =>
      let q' := afterTxn q t rest data
      if rest = [] then endRequest q' .okay (q'.readData.filterMap id) s
      else { s with path := { s.path with current := some q' } }

/-- The words a transaction takes from a response: those it asked for; one the response does not carry
is a free word (R15; log 7). A write takes none. -/
def takenWords (t : DnTxn) (data : List Word) (unstated : Nat) : List Word :=
  match t.dir with
  | .write => []
  | .read => (List.range t.length).map fun i => data.getD i (Config.freeWord (unstated + i))

/-- The counter of free words moves on when a read response carried too few words. -/
def unstatedAfter (t : DnTxn) (data : List Word) (unstated : Nat) : Nat :=
  match t.dir with
  | .write => unstated
  | .read => if data.length < t.length then unstated + t.length else unstated

/-- DN_RESPONSE: a response with the tag of the outstanding transaction completes it and frees the
port; any other is discarded (R15, R17). -/
def execDnResponse (tag : BitVec 4) (status : BusStatus) (data : List Word) (s : State) :
    Host.Outcome State Fault Refusal :=
  .next
    (match s.dn.outstanding with
     | none => s
     | some t =>
       if t.tag ≠ tag then s
       else
         let freed := { s with dn := { s.dn with outstanding := none } }
         match status, t.side with
         | .error, .path _ => settle (pathResponse .error [] freed)
         | .error, .engine => settle (engineResponse .error [] freed)
         | .okay, side =>
           let s1 := { freed with unstated := unstatedAfter t data s.unstated }
           match side with
           | .path _ => settle (pathResponse .okay (takenWords t data s.unstated) s1)
           | .engine => settle (engineResponse .okay (takenWords t data s.unstated) s1))

/-- The DN_TIMEOUT event (R16). -/
def dnTimeoutEvent (q : Current) (t : DnTxn) (kind : PathKind) : Event where
  kind    := .dnTimeout
  ring    := match q.cls with | .ring r _ => some r | .outside => none
  address := some t.addr
  value   := some (pathKindNumber kind : Int)
  detail  := nat8 q.req.master.val

/-- DN_TIMEOUT: the path unit's outstanding transaction expires, unless it was issued with the timeout
off; the plan ends with ERROR, the port frees, one event (R16). With no such transaction nothing can
expire (log 9). -/
def execDnTimeout (s : State) : Host.Outcome State Fault Refusal :=
  .next
    (match s.dn.outstanding, s.path.current with
     | some t, some q =>
       match t.side with
       | .path kind =>
         if t.timeout ≠ 0 then
           settle (endRequest q .error []
             (raise (dnTimeoutEvent q t kind) { s with dn := { s.dn with outstanding := none } }))
         else s
       | .engine => s
     | _, _ => s)

/-! ### Path settings and views -/

/-- SET PATH (R169). -/
def runSetPath (timeout : BitVec 16) (share : Byte) : Execution := fun s =>
  if 1 ≤ timeout.toNat ∧ timeout.toNat ≤ 255 then (s, refuse .range)
  else ({ s with path := { s.path with dnTimeout := timeout.toNat, share := share.toNat } },
        replyOk [])

/-- GET PATH (R170). -/
def runGetPath : Execution := fun s =>
  (s, replyOk (nat16 s.path.dnTimeout ++ [nat8 s.path.share]))

/-- SET VIEW (R171). -/
def runSetView (master view : Byte) : Execution := fun s =>
  match masterOf master, viewOf view with
  | some m, some v =>
    ({ s with path := { s.path with views := s.path.views.set m.val v m.isLt } }, replyOk [])
  | _, _ => (s, refuse .range)

def execSetPath (timeout : BitVec 16) (share : Byte) (s : State) :
    Host.Outcome State Fault Refusal :=
  .next (goodFrame (.setPath timeout share) (runSetPath timeout share) s)

def execGetPath (s : State) : Host.Outcome State Fault Refusal :=
  .next (goodFrame .getPath runGetPath s)

def execSetView (master view : Byte) (s : State) : Host.Outcome State Fault Refusal :=
  .next (goodFrame (.setView master view) (runSetView master view) s)

end Sys2Proof.Machine
end

