-- ==== Sys2Proof/Machine/Link.lean ====
section
/-! DEFINITION. The maintenance link (chapter 8): edges of SCK and SCS, the receipt and evaluation of
a request frame, the bytes of a reply and its commit. -/

namespace Sys2Proof.Machine

/-! ### Execution of a decoded command (R161) -/

/-- The execution of a link command at its owning block (8.6). The rows that are not link commands are
never decoded from a frame. -/
def runCommand : Instr → Execution
  | .identify           => runIdentify
  | .clear              => runClear
  | .setPath t h        => runSetPath t h
  | .getPath            => runGetPath
  | .setView m v        => runSetView m v
  | .setRing r p        => runSetRing r p
  | .getRing r          => runGetRing r
  | .ringMode r m       => runRingMode r m
  | .setMarker f l a    => runSetMarker f l a
  | .setLine n e m r    => runSetLine n e m r
  | .getLines           => runGetLines
  | .setPool b n w      => runSetPool b n w
  | .getPool            => runGetPool
  | .force r            => runForce r
  | .release c          => runRelease c
  | .getCapture c       => runGetCapture c
  | .listCaptures       => runListCaptures
  | .readExtremes r     => runReadExtremes r
  | .popEvent           => runPopEvent
  | .peekEvent          => runPeekEvent
  | .setEvents w m      => runSetEvents w m
  | .readAttention      => runReadAttention
  | .resume             => runResume
  | .skip               => runSkip
  | .getFault           => runGetFault
  | .getMap r b         => runGetMap r b
  | .upstreamRequest _ | .dnResponse _ _ _ | .dnTimeout | .copyTimeout | .trigLevelChange _ _
  | .rstnLow | .rstnHigh | .scsFall | .requestFrame _ | .replyCommit | .scsRise
  | .turnaroundByte => fun s => (s, refuse .unknown)

/-! ### Receipt and evaluation of a frame (R156, R159, R160) -/

/-- The evaluation of a complete frame whose check byte is b: CHECK, UNKNOWN, RANGE, else the command's
execution (R160). -/
def evaluate (b : Byte) : Execution := fun s =>
  if b ≠ s.link.check then (s, refuse .check)
  else
    match s.link.buffer.code, s.link.buffer.length with
    | some code, some len =>
      match paramCount code with
      | none => (s, refuse .unknown)
      | some n =>
        if 40 < len.toNat ∨ len.toNat ≠ n then (s, refuse .range)
        else
          match decodeCommand code s.link.buffer.params with
          | some c => runCommand c s
          | none => (s, refuse .range)
    | _, _ => (s, refuse .check)

/-- A byte that comes before the check byte: stored (of the parameters the first 40) and entered into
the running check value (R156, R157). -/
def storeByte (b : Byte) (l : Link) : Link :=
  let buffer :=
    if l.byteCount = 0 then { l.buffer with code := some b }
    else if l.byteCount = 1 then { l.buffer with length := some b }
    else if l.buffer.params.length < 40 then { l.buffer with params := l.buffer.params ++ [b] }
    else l.buffer
  { l with buffer := buffer, byteCount := l.byteCount + 1, check := crcByte l.check b }

/-- The next byte is the check byte: all L parameter bytes have been received (R156). -/
def Link.checkByteNext (l : Link) : Bool :=
  decide (2 ≤ l.byteCount) && l.byteCount == 2 + (l.buffer.length.getD 0#8).toNat

/-- A byte received in REQUEST is stored, or ends the frame, which is evaluated at once (R156, R159,
R160). -/
def receiveByte (b : Byte) (s : State) : State :=
  if s.link.checkByteNext then
    finishFrame (evaluate b) { s with link := { s.link with byteCount := s.link.byteCount + 1 } }
  else { s with link := storeByte b s.link }

/-! ### The end of a reply (R38, R162, R164) -/

/-- The commit of READ EXTREMES on ring r: the record replaced by the pending one, which is removed
(R38). -/
def extremesCommit (r : Fin 8) (s : State) : State :=
  match (s.ring r).pendingExtremes with
  | some p => s.putRing r { s.ring r with extremes := p, pendingExtremes := none }
  | none => s

/-- The abandonment of READ EXTREMES on ring r: the pending record removed, the record kept (R38). -/
def extremesAbandon (r : Fin 8) (s : State) : State :=
  s.putRing r { s.ring r with pendingExtremes := none }

/-- What the commit pending brings at the commit point (R162). -/
def commitPending (s : State) : State :=
  match s.link.commit with
  | some .popEvent => { s with queue := popCommit s.queue }
  | some (.readExtremes r) => extremesCommit r s
  | none => s

/-- The last bit of the reply is sampled: the commit, then DISCARD (R162). -/
def commitReply (s : State) : State :=
  let s1 := commitPending s
  { s1 with link := { s1.link with commit := none, phase := .discard, sent := 0 } }

/-- What an SCS rise drops with the commit pending (R148, R164). -/
def dropPending (s : State) : State :=
  match s.link.commit with
  | some (.readExtremes r) => extremesAbandon r s
  | some .popEvent | none => s

/-! ### Bytes and bits on the link (R155, R158, R159) -/

/-- The number of bytes of the reply frame in the reply buffer (R158). -/
def Link.replyLength (l : Link) : Nat :=
  match l.reply with
  | some r => (replyBytes r).length
  | none => 0

/-- The turnaround byte is complete: the link enters REPLY, at the first byte of the reply (R159). -/
def enterReply (s : State) : State := { s with link := { s.link with phase := .reply, sent := 0 } }

/-- A byte has completed in both directions at once: `b` is the one received. It is taken in REQUEST
alone; in TURN, REPLY and DISCARD the byte sent decides (R155, R159). -/
def completeByte (b : Byte) (s : State) : State :=
  match s.link.phase with
  | .idle | .discard => s
  | .request => receiveByte b s
  | .turn => enterReply s
  | .reply =>
    if s.link.sent + 1 < s.link.replyLength then
      { s with link := { s.link with sent := s.link.sent + 1 } }
    else commitReply s

/-- A rising edge of SCK samples SDI; the eighth of a byte completes it. While SCS is high, in IDLE and
while RSTN is low no account is taken of it (R155, R166). -/
def sckRise (sdi : Bool) (s : State) : State :=
  if s.selected && s.link.phase != .idle then
    let bits := s.link.bits ++ [sdi]
    if bits.length < 8 then { s with link := { s.link with bits := bits } }
    else completeByte (byteOfBits bits) { s with link := { s.link with bits := [] } }
  else s

/-- A falling edge of SCK changes SDO to the next bit (R155). -/
def sckFall (s : State) : State := if s.selected then present s else s

/-- Edges of SCK in order. -/
def clockEdges : List SckEdge → State → State
  | [], s => s
  | .rise sdi :: es, s => clockEdges es (sckRise sdi s)
  | .fall :: es, s => clockEdges es (sckFall s)

/-- REQUEST_FRAME: the host clocks SCK with the bits of a request frame; the check byte ends the frame
(R155, R156, R160; log 12). -/
def execRequestFrame (edges : List SckEdge) (s : State) : Host.Outcome State Fault Refusal :=
  .next (clockEdges edges s)

/-! ### Link transaction events (R159, R162 to R164) -/

/-- SCS_FALL: a fall of SCS in IDLE begins a transaction, with bytes counted afresh and the first bit of
the first byte at SDO; SCS that is already low does not fall (R155, R159, R166). While RSTN is low the
link takes no account of it. -/
def execScsFall (s : State) : Host.Outcome State Fault Refusal :=
  .next
    (if s.pins.scs then
       let s1 := { s with pins := { s.pins with scs := false } }
       if s.pins.rstn ∧ s.link.phase = .idle then
         present { s1 with link := { s.link with
           phase := .request, buffer := RequestBuffer.empty, byteCount := 0, check := 0#8
           commit := none, bits := [], sent := 0 } }
       else s1
     else s)

/-- TURNAROUND_BYTE: what is left of the turnaround byte is clocked, through the falling edge that ends its
last bit; the link enters REPLY and SDO takes the first bit of the reply (R155, R159; log 12). -/
def execTurnaroundByte (s : State) : Host.Outcome State Fault Refusal :=
  .next
    (if s.selected ∧ s.link.phase = .turn then
       present (enterReply { s with link := { s.link with bits := [] } })
     else s)

/-- REPLY_COMMIT: what is left of the reply is clocked, through the falling edge that ends its last bit;
the commit, then DISCARD (R155, R162; log 12). -/
def execReplyCommit (s : State) : Host.Outcome State Fault Refusal :=
  .next
    (if s.selected ∧ s.link.phase = .reply then
       present (commitReply { s with link := { s.link with bits := [] } })
     else s)

/-- SCS_RISE: the link returns to IDLE from any state; the bits of an incomplete byte are dropped, a partial
frame is discarded, an unfinished reply abandoned without its commit (R155, R159, R163, R164). While RSTN
is low only the pin follows (R166). -/
def execScsRise (s : State) : Host.Outcome State Fault Refusal :=
  .next
    (let s1 := { s with pins := { s.pins with scs := true } }
     if s.pins.rstn then
       let s2 := dropPending s1
       { s2 with link := { s2.link with
           phase := .idle, commit := none, bits := [], sent := 0, out := none } }
     else s1)

end Sys2Proof.Machine
end

