-- ==== Sys2Proof/Machine/Reset.lean ====
section
/-! DEFINITION. RSTN (R18, R40, R41, R66, R102, R136, R154, R166, R178). -/

namespace Sys2Proof.Machine

/-- The lines while RSTN is low: reset, their levels those of the inputs as taken (R41). -/
def resetLines (trig : Vector Bool 4) : Vector Line 4 := Vector.ofFn fun n => Line.reset (trig[n.val]'n.isLt)

/-- Every block in its reset state. What lies outside the part stays: the input levels, the requests
that UP presents and the responses already sent (R18; log 6), and the model's own fields. -/
def inReset (s : State) : State :=
  { State.reset with
    pending  := s.pending
    pins     := { s.pins with rstn := false }
    up       := s.up
    det      := { State.reset.det with lines := resetLines s.pins.trig }
    unstated := s.unstated }

/-- RSTN_LOW: RSTN low, or power-up (R18, R40, R41, R66, R102, R136, R154, R166). -/
def execRstnLow (s : State) : Host.Outcome State Fault Refusal := .next (inReset s)

/-- Every line takes the level its input presents, without an event (R178). -/
def linesTakeLevels (s : State) : State :=
  { s with det := { s.det with lines := Vector.ofFn fun n =>
      { s.line n with level := (s.pins.trig[n.val]'n.isLt) } } }

/-- RSTN_HIGH: RSTN returns high; the input levels become the line levels, and the path unit takes what
UP presents (R18, R178). RSTN that is high already does not return high (log 9). -/
def execRstnHigh (s : State) : Host.Outcome State Fault Refusal :=
  .next
    (if s.pins.rstn then s
     else settle (linesTakeLevels { s with pins := { s.pins with rstn := true } }))

end Sys2Proof.Machine
end

