-- ==== Sys2Proof/Machine/Dispatch.lean ====
section
/-! DEFINITION. exec: one arm per constructor of Instr, each one direct call of its meaning. -/

namespace Sys2Proof.Machine

def exec (i : Instr) (s : State) : Host.Outcome State Fault Refusal :=
  match i with
  | .upstreamRequest req => Sys2Proof.Machine.execUpstreamRequest req s
  | .dnResponse tag status data => Sys2Proof.Machine.execDnResponse tag status data s
  | .dnTimeout => Sys2Proof.Machine.execDnTimeout s
  | .copyTimeout => Sys2Proof.Machine.execCopyTimeout s
  | .trigLevelChange line level => Sys2Proof.Machine.execTrigLevelChange line level s
  | .rstnLow => Sys2Proof.Machine.execRstnLow s
  | .rstnHigh => Sys2Proof.Machine.execRstnHigh s
  | .scsFall => Sys2Proof.Machine.execScsFall s
  | .requestFrame edges => Sys2Proof.Machine.execRequestFrame edges s
  | .replyCommit => Sys2Proof.Machine.execReplyCommit s
  | .scsRise => Sys2Proof.Machine.execScsRise s
  | .identify => Sys2Proof.Machine.execIdentify s
  | .clear => Sys2Proof.Machine.execClear s
  | .setPath timeout share => Sys2Proof.Machine.execSetPath timeout share s
  | .getPath => Sys2Proof.Machine.execGetPath s
  | .setView master view => Sys2Proof.Machine.execSetView master view s
  | .setRing ring params => Sys2Proof.Machine.execSetRing ring params s
  | .getRing ring => Sys2Proof.Machine.execGetRing ring s
  | .ringMode ring mode => Sys2Proof.Machine.execRingMode ring mode s
  | .setMarker first last action => Sys2Proof.Machine.execSetMarker first last action s
  | .setLine line reference mask route => Sys2Proof.Machine.execSetLine line reference mask route s
  | .getLines => Sys2Proof.Machine.execGetLines s
  | .setPool base slotCount lowWater => Sys2Proof.Machine.execSetPool base slotCount lowWater s
  | .getPool => Sys2Proof.Machine.execGetPool s
  | .force ring => Sys2Proof.Machine.execForce ring s
  | .release capture => Sys2Proof.Machine.execRelease capture s
  | .getCapture capture => Sys2Proof.Machine.execGetCapture capture s
  | .listCaptures => Sys2Proof.Machine.execListCaptures s
  | .readExtremes ring => Sys2Proof.Machine.execReadExtremes ring s
  | .popEvent => Sys2Proof.Machine.execPopEvent s
  | .peekEvent => Sys2Proof.Machine.execPeekEvent s
  | .setEvents watermark mask => Sys2Proof.Machine.execSetEvents watermark mask s
  | .readAttention => Sys2Proof.Machine.execReadAttention s
  | .resume => Sys2Proof.Machine.execResume s
  | .skip => Sys2Proof.Machine.execSkip s
  | .getFault => Sys2Proof.Machine.execGetFault s
  | .getMap ring block => Sys2Proof.Machine.execGetMap ring block s
  | .turnaroundByte => Sys2Proof.Machine.execTurnaroundByte s

end Sys2Proof.Machine
end

