-- ==== Sys2Proof/Safety.lean ====
section
/-! DEFINITION. What a sound state of the part is: the invariants the spec's rules state, in the terms
the claims use. -/

namespace Sys2Proof.Machine

/-! ### Event queue (R139) -/

/-- Each record's seq is one less, modulo 65536, than that of the record after it, and the last one's
than the sequence counter (R139). -/
def seqsRun (next : BitVec 16) : List EventRecord → Prop
  | [] => True
  | [e] => e.seq + 1#16 = next
  | e :: e' :: es => e.seq + 1#16 = e'.seq ∧ seqsRun next (e' :: es)

/-- The queue holds 0 to 64 records with running seqs; an OVERFLOW record is open exactly while it holds
64, it is then the last, and it counts 1 to 65535 drops (R139, R141, R142). -/
structure EventQueue.Sound (q : EventQueue) : Prop where
  length : q.records.length ≤ 64
  isOpen : q.overflowOpen = true ↔ q.records.length = 64
  seqs   : seqsRun q.nextSeq q.records
  last   : q.overflowOpen = true → ∃ e n, q.records.getLast? = some e ∧ e.event.kind = .overflow ∧
             e.event.value = some n ∧ 1 ≤ n ∧ n ≤ 65535

/-! ### Slot pool (R96, R98) -/

/-- Every slot number below slot_count is in the free list exactly once or the slot of exactly one map
entry, never both, and no other number is in either (R96); no two entries share a block (R98). -/
structure Pool.Sound (p : Pool) : Prop where
  slots : (p.freeList ++ p.map.map fun e => e.slot).Perm (List.range p.slotCount)
  keys  : (p.map.map fun e => (e.ring, e.block)).Nodup

/-! ### Release queue (R118), OFF rings (R25) and map entries (R90, R98) -/

/-- The release queue holds exactly the captures in RELEASING, each once (R118). -/
structure State.ReleaseSound (s : State) : Prop where
  nodup : s.engine.queue.Nodup
  holds : ∀ c, c ∈ s.engine.queue ↔ (s.capture c).state = .releasing

/-- An OFF ring has no capture that is not FREE (R25). -/
def State.OffSound (s : State) : Prop :=
  ∀ r c, (s.ring r).mode = .off → (s.capture c).ring = r → (s.capture c).state = .free

/-- Every map entry's capture is not FREE and on the entry's ring (R98), no two entries share a block
(R98), and entries counts the map entries a capture owns (R90). -/
structure State.MapSound (s : State) : Prop where
  owner : ∀ e ∈ s.pool.map, (s.capture e.capture).state ≠ .free ∧ (s.capture e.capture).ring = e.ring
  keys  : (s.pool.map.map fun e => (e.ring, e.block)).Nodup
  count : ∀ c, (s.capture c).entries = s.pool.map.countP fun e => e.capture = c

/-! ### Spans (R68, R70) -/

/-- Address a lies in the ring's region (2.1). -/
def RingConfig.holdsAddr (c : RingConfig) (a : Addr) : Prop :=
  c.base.toNat ≤ a.toNat ∧ a.toNat < c.base.toNat + 64 * c.sizeBlocks

/-- The region of a ring starts on a block boundary and ends within the address space; a ring that is
not OFF is configured, and its head lies in it (R21, R22, R25, R26, R35). -/
structure Ring.Sound (x : Ring) : Prop where
  base       : x.cfg.base.toNat % 64 = 0
  region     : x.cfg.base.toNat + 64 * x.cfg.sizeBlocks ≤ 4294967296
  configured : x.mode ≠ .off → x.cfg.sizeBlocks ≠ 0
  head       : x.mode ≠ .off → ∀ a, x.head = some a → x.cfg.holdsAddr a

/-- Every ring is sound, and what waits at UP is a burst of the port's (1.1). -/
structure State.RingsSound (s : State) : Prop where
  rings   : ∀ r, (s.ring r).Sound
  waiting : ∀ q ∈ s.up.waiting, q.wf = true

/-- On any ring, no block lies in the spans of two captures that are not FREE (R70). -/
def State.SpansDisjoint (s : State) : Prop :=
  ∀ c c' b, c ≠ c' → (s.capture c).state ≠ .free → (s.capture c').state ≠ .free →
    (s.capture c).ring = (s.capture c').ring →
    b < (s.ring (s.capture c).ring).cfg.sizeBlocks →
    (s.capture c).inSpan (s.ring (s.capture c).ring).cfg.sizeBlocks b = true →
    (s.capture c').inSpan (s.ring (s.capture c).ring).cfg.sizeBlocks b = false

/-! ### DN port (R14), merge engine (R119, R133) and link (R159, R162) -/

/-- With RSTN high, no side waits for a free port: a waiting side is granted at once (R14). -/
def State.PortServed (s : State) : Prop :=
  s.pins.rstn = true → s.dn.outstanding = none → s.pathWaits = false ∧ s.engineWaits = false

/-- The merge engine's records fit its state: a capture in MERGING and a copy record outside IDLE only
(R119), the fault record filled exactly while HALTED (R133), a DN transaction of the engine's
outstanding exactly in phases READ and WRITE of a running copy (6.2). -/
structure State.EngineSound (s : State) : Prop where
  merging : s.engine.merging = none ↔ s.engine.status = .idle
  copy    : s.engine.copy = none ↔ s.engine.status = .idle
  fault   : s.engine.fault ≠ none ↔ s.engine.status = .halted
  port    : (∃ t, s.dn.outstanding = some t ∧ t.side = .engine) ↔
              s.engine.status = .copying ∧
              ∃ k, s.engine.copy = some k ∧ (k.phase = .read ∨ k.phase = .write)

/-- The link outside IDLE has SCS low and RSTN high (R159, R166); a commit is pending in TURN and REPLY
only, where the reply buffer is filled (R160, R162); a ring has a pending extremes record exactly while
its READ EXTREMES is the commit pending (R38, R162); REQUEST begins with an empty buffer (R159). SDO is
high-impedance exactly in IDLE, and sends ones in REQUEST (R158); fewer than eight bits of a byte stand,
none in IDLE (R155); fewer bytes of the reply are sent than it has, none outside REPLY (R158, R159). -/
structure State.LinkSound (s : State) : Prop where
  selected : s.link.phase ≠ .idle → s.pins.scs = false ∧ s.pins.rstn = true
  commit   : s.link.commit ≠ none → s.link.phase = .turn ∨ s.link.phase = .reply
  reply    : s.link.phase = .turn ∨ s.link.phase = .reply → s.link.reply ≠ none
  extremes : ∀ r, (s.ring r).pendingExtremes ≠ none ↔ s.link.commit = some (.readExtremes r)
  fresh    : s.link.phase = .request → s.link.byteCount = 0 →
               s.link.buffer = ⟨none, none, []⟩ ∧ s.link.check = 0#8
  driven   : s.link.out = none ↔ s.link.phase = .idle
  ones     : s.link.phase = .request → s.link.out = some true
  bits     : s.link.bits.length < 8 ∧ (s.link.phase = .idle → s.link.bits = [])
  sent     : (s.link.phase = .reply → s.link.sent < s.link.replyLength) ∧
               (s.link.phase ≠ .reply → s.link.sent = 0)

/-! ### What a link command leaves of the link (R156 to R161) -/

/-- The link after a whole frame of code, length byte and parameters was evaluated and answered: the
request buffer holds the frame (the first 40 parameter bytes), the byte counter and the running check
stand at its end, the reply buffer holds the reply with its check byte, and the link is in TURN, no bit
of a byte under way and the first bit of the turnaround byte, a zero, at SDO (R155 to R161). -/
def Link.replied (code len : Byte) (params : List Byte) (status : Status) (data : List Byte)
    (l : Link) : Link where
  phase     := .turn
  buffer    := ⟨some code, some len, params.take 40⟩
  byteCount := params.length + 3
  check     := crc8 (code :: len :: params)
  reply     := some ⟨status, data, crc8 (statusCode status :: BitVec.ofNat 8 data.length :: data)⟩
  commit    := l.commit
  bits      := []
  sent      := 0
  out       := some false

/-- s with its link as the good frame of link command c and this answer leave it. -/
def State.answers (c : Instr) (status : Status) (data : List Byte) (s : State) : State :=
  match encodeCommand c with
  | some (code, params) =>
    { s with link := s.link.replied code (BitVec.ofNat 8 params.length) params status data }
  | none => s

/-! ### The part while RSTN is low (R18, R40, R41, R66, R102, R136, R154, R166) -/

/-- RSTN is low and every block stands in its reset state. The line levels are the inputs' (R41). -/
structure State.HeldInReset (s : State) : Prop where
  rstn    : s.pins.rstn = false
  path    : s.path = ⟨none, Vector.replicate 16 .live, 4096, 16⟩
  dn      : s.dn = ⟨none, 0#4, 0⟩
  rings   : s.rings = Vector.replicate 8 Ring.reset
  markers : s.det.markers = Vector.replicate 256 .pass
  lines   : ∀ n, (s.line n).reference = false ∧ (s.line n).mask = false ∧ (s.line n).route = 0#8 ∧
              (s.line n).condition = false
  caps    : s.caps = ⟨Vector.replicate 16 Capture.reset, 0#16⟩
  pool    : s.pool = ⟨0#32, 0, 0, [], []⟩
  engine  : s.engine = ⟨[], .idle, none, none, none, none⟩
  queue   : s.queue = ⟨[], false, 0#16⟩
  attn    : s.attn = ⟨1, ⟨false, false, false, false⟩⟩
  link    : s.link = ⟨.idle, ⟨none, none, []⟩, 0, 0#8, none, none, [], 0, none⟩

end Sys2Proof.Machine
end

