-- ==== Sys2Proof/Certificates/Slice0/Obligations.lean ====
section
/-! DEFINITION. The statements for the provers, from the numbered rules of spec/. Where a conclusion is
an equation exec … = .next t, t is written out as the state before with the fields that change, so that
it says the whole frame: nothing else changes. -/

section
open Sys2Proof Sys2Proof.Machine

/-! ### The queue of commands and the link -/

/-- A step runs the command at the front of the queue on the state with the queue's rest. On an empty
queue the part idles: the model's choice (log 2). -/
def Obligations.StepRunsFront : Prop :=
  (∀ (c : Instr) (rest : List Instr) (s : State),
    step { s with pending := c :: rest } = exec c { s with pending := rest }) ∧
  ∀ s : State, step { s with pending := [] } = .next { s with pending := [] }

/-- No command stops the part: each has a next state from every state (INVENTORY.md, Faults). -/
def Obligations.EveryCommandAnswersNext : Prop :=
  ∀ (c : Instr) (s : State), ∃ t, exec c s = .next t

/-- The bytes of every link command, with every operand value, have the parameter count of its code and
decode to that command (R174, 9.3, 9.4). -/
def Obligations.LinkCommandsDecodeBack : Prop :=
  ∀ (c : Instr) (code : Byte) (params : List Byte), encodeCommand c = some (code, params) →
    paramCount code = some params.length ∧ params.length ≤ 40 ∧
    decodeCommand code params = some c

/-- Clocking in the whole frame of a link command bit by bit, each byte's most significant bit first, from a
link that is sound and stands at the start of a frame, answers the next state of that command itself, with
the link in TURN (R155, R156, R157, R160, R161). -/
def Obligations.FrameRunsItsCommand : Prop :=
  ∀ (c : Instr) (frame : List Byte) (s : State), encodeFrame c = some frame →
    s.atFrameStart = true → s.LinkSound →
    ∃ t, exec (.requestFrame (clockBytes frame)) s = .next t ∧ exec c s = .next t ∧
      t.link.phase = .turn

/-- The three tests of R160 in their order: a bad check byte, a code not in the table, a length that is
not the command's. Each refused frame is answered with its status and no data, and changes the link
alone. -/
def Obligations.RefusedFramesChangeNothing : Prop :=
  ∀ (code len b : Byte) (params : List Byte) (status : Status) (s : State),
    s.atFrameStart = true → s.LinkSound → params.length = len.toNat →
    (b ≠ crc8 (code :: len :: params) ∧ status = .check ∨
     b = crc8 (code :: len :: params) ∧ paramCount code = none ∧ status = .unknown ∨
     b = crc8 (code :: len :: params) ∧
       (∃ n, paramCount code = some n ∧ (40 < len.toNat ∨ len.toNat ≠ n)) ∧ status = .range) →
    exec (.requestFrame (clockBytes (code :: len :: (params ++ [b])))) s =
      .next { s with link := s.link.replied code len params status [] }

/-- A frame cut off before its check byte is complete, at any bit of any byte, and then an SCS rise: the bits
of the incomplete byte and the frame are dropped, there is no reply, nothing outside the link and the SCS
level changes, and the link is IDLE (R155, R163). Edges of SCK while SCS is high, while RSTN is low, or in
IDLE change nothing (R155, R166). -/
def Obligations.PartialFrameDropped : Prop :=
  (∀ (bytes : List Byte) (bits : List Bool) (s : State), s.atFrameStart = true → s.LinkSound →
    bits.length < 8 →
    (bytes.length < 2 ∨
      ∃ code len params, bytes = code :: len :: params ∧ params.length ≤ len.toNat) →
    ∃ u, exec (.requestFrame (clockBytes bytes ++ clockBits bits)) s = .next u ∧
      u.link.phase = .request ∧ u.link.byteCount = bytes.length ∧ u.link.bits = bits ∧
      u.sdo = some true ∧ u = { s with link := u.link } ∧
      exec .scsRise u =
        .next { s with pins := { s.pins with scs := true }
                       link := { u.link with phase := .idle, commit := none, bits := [], sent := 0
                                             out := none } }) ∧
  ∀ (edges : List SckEdge) (s : State),
    s.pins.scs = true ∨ s.pins.rstn = false ∨ s.link.phase = .idle ∧ s.link.out = none →
    exec (.requestFrame edges) s = .next s

/-- SCS falls in IDLE: REQUEST with an empty buffer, byte counter 0, check value 00H, no commit pending and
no bit received, and SDO presents its first one. A rising edge of SCK keeps the bit of SDI; a falling one
presents the bit of the byte being sent that comes next, most significant first: FFH in REQUEST and
DISCARD, 00H in TURN, the reply buffer's bytes in REPLY. The eight bits of a byte complete it: in TURN that
is the turnaround byte and the link enters REPLY at the reply's first byte; in REPLY the next byte of the
reply is presented, and after its check byte the commit takes place and the link enters DISCARD; in
DISCARD nothing else changes. The commit is that of POP EVENT (the head leaves, an open OVERFLOW record is
closed), of READ EXTREMES (the pending record replaces the record), or none (R38, R143, R147, R155, R158,
R159, R162). That TURNAROUND_BYTE and REPLY_COMMIT stand for what is left of those bytes is log 12. -/
def Obligations.LinkPhaseSteps : Prop :=
  (∀ (b : Byte) (i : Nat), i < 8 →
    (clockBytes [b])[2 * i]? = some (.rise (b.getLsbD (7 - i))) ∧
    (clockBytes [b])[2 * i + 1]? = some .fall) ∧
  (∀ s : State, s.pins.rstn = true → s.pins.scs = true → s.link.phase = .idle →
    exec .scsFall s =
      .next { s with pins := { s.pins with scs := false }
                     link := { s.link with phase := .request, buffer := ⟨none, none, []⟩,
                                           byteCount := 0, check := 0#8, commit := none, bits := [],
                                           sent := 0, out := some true } }) ∧
  ∀ s : State, s.pins.rstn = true → s.pins.scs = false →
    (∀ sdi, s.link.phase ≠ .idle → s.link.bits.length < 7 →
      exec (.requestFrame [.rise sdi]) s =
        .next { s with link := { s.link with bits := s.link.bits ++ [sdi] } }) ∧
    (∀ b : Byte,
      ((s.link.phase = .request ∨ s.link.phase = .discard) ∧ b = 0xFF#8 ∨
        s.link.phase = .turn ∧ b = 0x00#8 ∨
        s.link.phase = .reply ∧ ∃ r, s.link.reply = some r ∧
          (statusCode r.status :: BitVec.ofNat 8 r.data.length :: (r.data ++ [r.check]))[s.link.sent]? =
            some b) →
      exec (.requestFrame [.fall]) s =
        .next { s with link := { s.link with out := some (b.getLsbD (7 - s.link.bits.length)) } }) ∧
    (∀ r, s.link.phase = .turn → s.link.reply = some r →
      exec .turnaroundByte s =
        .next { s with link := { s.link with phase := .reply, bits := [], sent := 0
                                             out := some ((statusCode r.status).getLsbD 7) } } ∧
      ∀ b, s.link.bits = [] →
        exec (.requestFrame (clockBytes [b])) s = exec .turnaroundByte s) ∧
    (∀ r b next, s.link.phase = .reply → s.link.reply = some r → s.link.bits = [] →
      (statusCode r.status :: BitVec.ofNat 8 r.data.length ::
        (r.data ++ [r.check]))[s.link.sent + 1]? = some next →
      exec (.requestFrame (clockBytes [b])) s =
        .next { s with link := { s.link with sent := s.link.sent + 1
                                             out := some (next.getLsbD 7) } }) ∧
    (∀ r b, s.link.phase = .reply → s.link.reply = some r → s.link.bits = [] →
      s.link.sent + 1 = r.data.length + 3 →
      exec (.requestFrame (clockBytes [b])) s = exec .replyCommit s) ∧
    (∀ b, s.link.phase = .discard → s.link.bits = [] →
      exec (.requestFrame (clockBytes [b])) s =
        .next { s with link := { s.link with out := some true } }) ∧
    ∀ l : Link, l = { s.link with phase := .discard, commit := none, bits := [], sent := 0
                                  out := some true } →
      s.link.phase = .reply →
      (s.link.commit = none → exec .replyCommit s = .next { s with link := l }) ∧
      (s.link.commit = some .popEvent →
        exec .replyCommit s =
          .next { s with
            queue := { s.queue with records := s.queue.records.tail, overflowOpen := false }
            link := l }) ∧
      ∀ r e, s.link.commit = some (.readExtremes r) → (s.ring r).pendingExtremes = some e →
        exec .replyCommit s =
          .next { s.putRing r { s.ring r with extremes := e, pendingExtremes := none } with link := l }

/-- SCS rises in TURN or REPLY before the commit point: the link is IDLE, the rest of the reply is not sent,
and the commit does not happen. A POP EVENT keeps its head record and an open OVERFLOW record stays open;
a READ EXTREMES keeps the extremes record and loses the pending one; with nothing pending nothing further
is done. A rise in DISCARD, where no commit is pending, only returns the link to IDLE (R164). -/
def Obligations.ScsRiseAbandons : Prop :=
  ∀ (s : State) (l : Link), s.pins.rstn = true →
    s.link.phase = .turn ∨ s.link.phase = .reply ∨ s.link.phase = .discard →
    l = { s.link with phase := .idle, commit := none, bits := [], sent := 0, out := none } →
    (s.link.commit = none ∨ s.link.commit = some .popEvent →
      exec .scsRise s = .next { s with pins := { s.pins with scs := true }, link := l }) ∧
    ∀ r, s.link.commit = some (.readExtremes r) →
      exec .scsRise s =
        .next { s.putRing r { s.ring r with pendingExtremes := none } with
                pins := { s.pins with scs := true }
                link := l }

/-! ### RSTN -/

/-- RSTN low: every block takes its reset values, line levels being those the inputs present (R18, R40,
R41, R66, R102, R136, R154, R166). That what waits at UP and what was answered stay is log 6; `pending`
and `unstated` are the model's own. -/
def Obligations.RstnLowResets : Prop :=
  ∀ s : State, ∃ t, exec .rstnLow s = .next t ∧ t.HeldInReset ∧
    (∀ n : Fin 4, (t.line n).level = s.pins.trig[n.val]'n.isLt) ∧
    t.pins = { s.pins with rstn := false } ∧
    t.up = s.up ∧ t.pending = s.pending ∧ t.unstated = s.unstated ∧
    t.conditions = ⟨false, false, false, false⟩ ∧ t.attentionCode = 0 ∧ t.attnAsserted = false ∧
    t.pool.freeCount = 0 ∧ t.pool.low = false ∧ t.sdo = none

/-- While RSTN is low every command but RSTN's return leaves the part in its reset state, and sends no
response at UP (R18, R41, R166, R177). -/
def Obligations.NothingHappensInReset : Prop :=
  ∀ (c : Instr) (s t : State), s.HeldInReset → c ≠ .rstnHigh → exec c s = .next t →
    t.HeldInReset ∧ t.up.responses = s.up.responses

/-- RSTN returns high: the input levels become the line levels, without an event; then the path unit takes
what waits at UP, in the order presented, and the arbiter decides (R178, R1, R18; log 11). With nothing
presented at UP nothing else changes. -/
def Obligations.RstnHighTakesLevels : Prop :=
  ∀ s u : State, s.HeldInReset →
    u = { s with pins := { s.pins with rstn := true }
                 det := { s.det with lines := Vector.ofFn fun n =>
                   ⟨false, false, 0#8, s.pins.trig[n.val]'n.isLt, false⟩ } } →
    exec .rstnHigh s = .next (arbitrate (takeWaiting s.up.waiting u)) ∧
    (s.up.waiting = [] → exec .rstnHigh s = .next u)

/-! ### UP, the path unit and DN -/

/-- A burst that ends within the address space and touches neither the divert area nor a configured ring is
forwarded unchanged as one FORWARD READ or FORWARD WRITE; no event, no detector, no view. The arbiter
decides at the end of the event: on a free port with the engine not waiting it is issued at once, with its
own master ID, the next tag and the timeout of that moment; while a transaction is outstanding, the merge
engine's, it waits for the port (R1, R7, R9, R14 to R16). -/
def Obligations.OutsideForwarded : Prop :=
  ∀ (q : UpRequest) (s : State), q.wf = true → s.takesNow = true →
    q.addr.toNat + 4 * q.burst.length ≤ 4294967296 →
    touches q s.pool.areaBase.toNat (64 * s.pool.slotCount) = false →
    (∀ r, touches q (s.ring r).cfg.base.toNat (64 * (s.ring r).cfg.sizeBlocks) = false) →
    ∃ (x : PlanTxn) (u : State),
      (∀ n, q.burst = .read n →
        x = ⟨.forwardRead, q.addr, n, 0, List.range n, []⟩) ∧
      (∀ ws, q.burst = .write ws → x = ⟨.forwardWrite, q.addr, ws.length, 0, [], ws⟩) ∧
      u = { s with path := { s.path with
        current := some ⟨q, s.view q.master, .outside, [x],
                         List.replicate q.burst.length none, none⟩ } } ∧
      exec (.upstreamRequest q) s = .next (arbitrate u) ∧
      (s.dn.outstanding ≠ none → exec (.upstreamRequest q) s = .next u) ∧
      (s.dn.outstanding = none → s.engineWaits = false →
        exec (.upstreamRequest q) s =
          .next { u with dn := { s.dn with
            outstanding := some ⟨.path x.kind, q.master, false, s.dn.tagCounter, x.kind.dir, q.addr,
                                 q.burst.length, x.words, s.path.dnTimeout⟩
            tagCounter := s.dn.tagCounter + 1#4 } })

/-- The refused classes, in the order of the tests: past the end of the address space, no event; into the
divert area, one GUARD event; across a block boundary and touching a configured ring, one BOUNDARY event
with the lowest-numbered ring touched. Each is answered ERROR at once; nothing is issued on DN (R4, R5,
R6). -/
def Obligations.RefusedRequests : Prop :=
  ∀ (q : UpRequest) (s : State), q.wf = true → s.takesNow = true → s.PortServed →
    (4294967296 < q.addr.toNat + 4 * q.burst.length →
      exec (.upstreamRequest q) s =
        .next { s with up := { s.up with
          responses := s.up.responses ++ [⟨q.master, .error, []⟩] } }) ∧
    (q.addr.toNat + 4 * q.burst.length ≤ 4294967296 →
      touches q s.pool.areaBase.toNat (64 * s.pool.slotCount) = true →
      exec (.upstreamRequest q) s =
        .next { s with
          up := { s.up with responses := s.up.responses ++ [⟨q.master, .error, []⟩] }
          queue := arrive ⟨.guard, none, none, some q.addr, some (q.burst.length : Int),
                           BitVec.ofNat 8 q.master.val⟩ s.queue }) ∧
    ∀ r, q.addr.toNat + 4 * q.burst.length ≤ 4294967296 →
      touches q s.pool.areaBase.toNat (64 * s.pool.slotCount) = false →
      touches q (s.ring r).cfg.base.toNat (64 * (s.ring r).cfg.sizeBlocks) = true →
      (∀ r' : Fin 8, r' < r →
        touches q (s.ring r').cfg.base.toNat (64 * (s.ring r').cfg.sizeBlocks) = false) →
      q.addr.toNat / 64 ≠ (q.addr.toNat + 4 * (q.burst.length - 1)) / 64 →
      exec (.upstreamRequest q) s =
        .next { s with
          up := { s.up with responses := s.up.responses ++ [⟨q.master, .error, []⟩] }
          queue := arrive ⟨.boundary, some r, none, some q.addr, some (q.burst.length : Int),
                           BitVec.ofNat 8 q.master.val⟩ s.queue }

/-- A request presented while the path unit is in TRANSFER stays at UP, behind those that wait. A request
within one block of the lowest-numbered ring that it touches, outside the divert area, is taken: a read is
routed; a write has its words evaluated in address order, each whole before the next, is routed with the
words that result, and then a completed post count takes effect (R1, R8, R28, R82); then the arbiter
decides, at the end of the event (log 11). -/
def Obligations.RingRequestTaken : Prop :=
  (∀ (q : UpRequest) (s : State), q.wf = true → s.pins.rstn = true → s.path.current ≠ none →
    s.PortServed →
    exec (.upstreamRequest q) s =
      .next { s with up := { s.up with waiting := s.up.waiting ++ [q] } }) ∧
  (∀ (q : UpRequest) (r : Fin 8) (b : Nat) (s : State), q.wf = true → s.takesNow = true →
    q.addr.toNat + 4 * q.burst.length ≤ 4294967296 →
    touches q s.pool.areaBase.toNat (64 * s.pool.slotCount) = false →
    touches q (s.ring r).cfg.base.toNat (64 * (s.ring r).cfg.sizeBlocks) = true →
    (∀ r' : Fin 8, r' < r →
      touches q (s.ring r').cfg.base.toNat (64 * (s.ring r').cfg.sizeBlocks) = false) →
    q.addr.toNat / 64 = (q.addr.toNat + 4 * (q.burst.length - 1)) / 64 →
    b = (q.addr.toNat - (s.ring r).cfg.base.toNat) / 64 →
    (∀ n, q.burst = .read n →
      exec (.upstreamRequest q) s =
        .next (arbitrate { s with path := { s.path with
          current := some ⟨q, s.view q.master, .ring r b,
            (routeRead q (s.view q.master) r b s).plan, List.replicate n none, none⟩ } })) ∧
    ∀ ws evald routed, q.burst = .write ws →
      evald = evalWords r q.master q.addr ws s →
      routed = routeWrite q evald.2 (s.view q.master) r b evald.1 →
      exec (.upstreamRequest q) s =
        .next (arbitrate { postDone r routed.1 with path := { s.path with
          current := some ⟨q, s.view q.master, .ring r b, routed.2.plan,
            List.replicate ws.length none, routed.2.slotTarget⟩ } })) ∧
  ∀ (r : Fin 8) (m : Fin 16) (a : Addr) (w : WriteWord) (ws : List WriteWord) (s : State),
    evalWords r m a [] s = (s, []) ∧
    evalWords r m a (w :: ws) s =
      ((evalWords r m (a + 4#32) ws (evalWord r m a w s).1).1,
       (evalWord r m a w s).2 :: (evalWords r m (a + 4#32) ws (evalWord r m a w s).1).2)

/-- The OKAY response to a path transaction. The last one of a plan, whatever its kind: the port and the path
unit are free, and the response goes up, with the words of a read, each from this transaction where it
serves the word and else from the one before it; then the path unit takes the requests that wait at UP, in
the order presented, while it is IDLE, each as UPSTREAM_REQUEST takes it, and the arbiter decides (log 11).
One with another behind it: the read words are put in their places, or the words of a FILL READ fill those
of the write behind it; the port is free for the arbiter's decision, which, where the merge engine does not
wait, issues the next transaction of the plan (R1, R2, R9 to R12, R14, R15). -/
def Obligations.PathTransactionCompletes : Prop :=
  (∀ (q : Current) (x : PlanTxn) (t : DnTxn) (data words : List Word) (s u : State),
    s.pins.rstn = true → s.dn.outstanding = some t → s.path.current = some q → q.plan = [x] →
    t.side = .path x.kind →
    ((x.kind = .forwardRead ∨ x.kind = .slotRead) ∧ t.dir = .read ∧ data.length = t.length ∧
        words.length = q.readData.length ∧
        (∀ i, i < words.length → if i ∈ x.serves then words[i]? = data[i - x.first]?
          else q.readData[i]? = some words[i]?) ∨
      (x.kind = .forwardWrite ∨ x.kind = .slotWrite) ∧ t.dir = .write ∧ data = [] ∧ words = [] ∧
        ∀ w ∈ q.readData, w = none) →
    u = { s with
      dn := { s.dn with outstanding := none }
      path := { s.path with current := none }
      up := { s.up with responses := s.up.responses ++ [⟨q.req.master, .okay, words⟩] } } →
    exec (.dnResponse t.tag .okay data) s = .next (arbitrate (takeWaiting s.up.waiting u)) ∧
    (s.up.waiting = [] → s.engineWaits = false →
      exec (.dnResponse t.tag .okay data) s = .next u)) ∧
  (∀ (q q' : Current) (x y : PlanTxn) (t : DnTxn) (data : List Word) (s u : State),
    s.pins.rstn = true → s.dn.outstanding = some t → s.path.current = some q → q.plan = [x, y] →
    t.side = .path x.kind → t.dir = .read → data.length = t.length →
    (x.kind = .fillRead ∧
        q' = { q with plan := [{ y with words := fillWords x data y.words }] } ∨
      x.kind = .slotRead ∧
        q' = { q with plan := [y], readData := placeWords x data q.readData }) →
    u = { s with
      path := { s.path with current := some q' }
      dn := { s.dn with outstanding := none } } →
    exec (.dnResponse t.tag .okay data) s = .next (arbitrate u) ∧
    (s.engineWaits = false →
      exec (.dnResponse t.tag .okay data) s =
        .next { u with dn := { s.dn with
          outstanding := some ⟨.path y.kind, q.req.master, false, s.dn.tagCounter, y.kind.dir, y.addr,
                               y.length, if x.kind = .fillRead then fillWords x data y.words
                                         else y.words, s.path.dnTimeout⟩
          tagCounter := s.dn.tagCounter + 1#4 } })) ∧
  ∀ u : State,
    takeWaiting [] u = { u with up := { u.up with waiting := [] } } ∧
    ∀ (p : UpRequest) (rest : List UpRequest),
      (u.path.current ≠ none →
        takeWaiting (p :: rest) u = { u with up := { u.up with waiting := p :: rest } }) ∧
      (u.path.current = none → takeWaiting (p :: rest) u = takeWaiting rest (take p u)) ∧
      (p.wf = true → u.takesNow = true →
        exec (.upstreamRequest p) u = .next (arbitrate (take p u)))

/-- A response with another tag, or with nothing outstanding, is discarded. One with status ERROR ends a
path transaction's request with ERROR and no event; a merge transaction's is the fault SLOT_READ_ERROR or
HOME_WRITE_ERROR, which halts the engine. Either frees the port: the path unit, while it is IDLE, takes the
requests that wait at UP (PathTransactionCompletes), and the arbiter decides (R2, R14, R15, R17, R129,
R130; log 11). -/
def Obligations.DnResponseRules : Prop :=
  (∀ (tag : BitVec 4) (status : BusStatus) (data : List Word) (s : State),
    (∀ t, s.dn.outstanding = some t → t.tag ≠ tag) →
    exec (.dnResponse tag status data) s = .next s) ∧
  (∀ (q : Current) (t : DnTxn) (k : PathKind) (data : List Word) (s u : State),
    s.pins.rstn = true → s.dn.outstanding = some t → t.side = .path k → s.path.current = some q →
    u = { s with
      dn := { s.dn with outstanding := none }
      path := { s.path with current := none }
      up := { s.up with responses := s.up.responses ++ [⟨q.req.master, .error, []⟩] } } →
    exec (.dnResponse t.tag .error data) s = .next (arbitrate (takeWaiting s.up.waiting u)) ∧
    (s.up.waiting = [] → s.engineWaits = false →
      exec (.dnResponse t.tag .error data) s = .next u)) ∧
  ∀ (t : DnTxn) (k : CopyRecord) (c : Fin 16) (fault : FaultKind) (data : List Word) (s u : State),
    s.pins.rstn = true → s.dn.outstanding = some t → t.side = .engine →
    s.engine.copy = some k → s.engine.merging = some c →
    (k.phase = .read ∧ fault = .slotReadError ∨ k.phase = .write ∧ fault = .homeWriteError) →
    u = { s with
      dn := { s.dn with outstanding := none }
      engine := { s.engine with status := .halted
                                fault := some ⟨fault, c, k.ring, k.home, k.slot⟩ }
      queue := arrive ⟨.mergeFault, some k.ring, some c, some k.home, some (k.slot : Int),
                       faultCode fault⟩ s.queue } →
    exec (.dnResponse t.tag .error data) s = .next (arbitrate (takeWaiting s.up.waiting u)) ∧
    (s.path.current ≠ none ∨ s.up.waiting = [] →
      exec (.dnResponse t.tag .error data) s = .next (arbitrate u)) ∧
    (s.path.current = none → s.up.waiting = [] →
      exec (.dnResponse t.tag .error data) s = .next u)

/-- Expiry. Of a path transaction: its request is answered ERROR, the path unit is free, and one DN_TIMEOUT
event gives the ring of a RING request, the transaction's address, its kind number and the master. Of a
copy transaction: the fault COPY_TIMEOUT, the request under way untouched. Each frees the port: after the
first the requests that wait at UP are taken (PathTransactionCompletes), after both the arbiter decides. A
transaction issued with timeout 0 does not expire (R2, R14, R16, R128, R129, R130, R169; log 11). When a
transaction expires is the environment's choice (log 8). -/
def Obligations.ExpiryResults : Prop :=
  (∀ (q : Current) (t : DnTxn) (k : PathKind) (ring : Option (Fin 8)) (s u : State),
    s.pins.rstn = true → s.dn.outstanding = some t → t.side = .path k → t.timeout ≠ 0 →
    s.path.current = some q →
    (q.cls = .outside ∧ ring = none ∨ ∃ r b, q.cls = .ring r b ∧ ring = some r) →
    u = { s with
      dn := { s.dn with outstanding := none }
      path := { s.path with current := none }
      up := { s.up with responses := s.up.responses ++ [⟨q.req.master, .error, []⟩] }
      queue := arrive ⟨.dnTimeout, ring, none, some t.addr, some (pathKindNumber k : Int),
                       BitVec.ofNat 8 q.req.master.val⟩ s.queue } →
    exec .dnTimeout s = .next (arbitrate (takeWaiting s.up.waiting u)) ∧
    (s.up.waiting = [] → s.engineWaits = false → exec .dnTimeout s = .next u)) ∧
  (∀ (t : DnTxn) (k : CopyRecord) (c : Fin 16) (s u : State),
    s.dn.outstanding = some t → t.side = .engine → t.timeout ≠ 0 →
    s.engine.copy = some k → s.engine.merging = some c →
    u = { s with
      dn := { s.dn with outstanding := none }
      engine := { s.engine with status := .halted
                                fault := some ⟨.copyTimeout, c, k.ring, k.home, k.slot⟩ }
      queue := arrive ⟨.mergeFault, some k.ring, some c, some k.home, some (k.slot : Int), 3#8⟩
                 s.queue } →
    exec .copyTimeout s = .next (arbitrate u) ∧
    (s.path.current = none → exec .copyTimeout s = .next u)) ∧
  ∀ s : State, (∀ t, s.dn.outstanding = some t → t.timeout = 0) →
    exec .dnTimeout s = .next s ∧ exec .copyTimeout s = .next s

/-- The arbiter's decision on a free port: one waiting side alone is granted; of two, the merge engine
when the share is not 0 and the count has reached it, else the path unit. A grant issues the side's
transaction with the next tag and the timeout of that moment, part-issued and with master ID 15 for the
engine alone; the share count is 0 after an engine grant, one more (at most 255) after a path grant while
the engine waits, unchanged after a path grant alone (R14, R15, R16, R123, R124, R128). The data lines of
home-write words without a strobe, and slot data that the copy record does not hold, are free words, the
model's choice (log 7). -/
def Obligations.ArbiterTable : Prop :=
  ∀ s : State, s.pins.rstn = true → s.dn.outstanding = none →
    (s.pathWaits = false → s.engineWaits = false → arbitrate s = s) ∧
    (∀ n q x rest, s.path.current = some q → q.plan = x :: rest →
      (s.engineWaits = false ∧ n = s.dn.shareCount ∨
        s.engineWaits = true ∧ (s.path.share = 0 ∨ s.dn.shareCount < s.path.share) ∧
          n = min (s.dn.shareCount + 1) 255) →
      arbitrate s = { s with dn :=
        ⟨some ⟨.path x.kind, q.req.master, false, s.dn.tagCounter, x.kind.dir, x.addr, x.length,
               x.words, s.path.dnTimeout⟩, s.dn.tagCounter + 1#4, n⟩ }) ∧
    ∀ k, s.engine.status = .copying → s.engine.copy = some k →
      s.pathWaits = false ∨ s.path.share ≠ 0 ∧ s.path.share ≤ s.dn.shareCount →
      (k.phase = .readWait →
        arbitrate s = { s with
          engine := { s.engine with copy := some { k with phase := .read } }
          dn := ⟨some ⟨.engine, 15, true, s.dn.tagCounter, .read, slotAddr s.pool.areaBase k.slot 0, 16,
                       [], s.path.dnTimeout⟩, s.dn.tagCounter + 1#4, 0⟩ }) ∧
      (k.phase = .writeWait →
        arbitrate s = { s with
          engine := { s.engine with copy := some { k with phase := .write } }
          dn := ⟨some ⟨.engine, 15, true, s.dn.tagCounter, .write, k.home, 16,
                       homeWriteWords k s.unstated, s.path.dnTimeout⟩, s.dn.tagCounter + 1#4, 0⟩
          unstated := s.unstated + 16 })

/-! ### Routing through the divert map -/

/-- The rows of the routing table, block b of ring r. A review-view request goes home whole, whatever the
map and the hold state, and changes no record. A live-view read of a block without an entry goes home
whole. A live-view write: no strobe, home; an entry, its slot, with the positions added and restart_pending
set on a COPYING entry; not held or filling, home; held with a free slot, a new entry in that slot, the
capture's entries and diverted_blocks counted, and a POOL_LOW event when the free count falls below
low_water; held with none, a spill, with an event at the capture's first; the completing request of R82,
home (R103 to R109, R113 to R115). -/
def Obligations.RoutingTable : Prop :=
  ∀ (q : UpRequest) (ws : List WriteWord) (r : Fin 8) (b : Nat) (s : State),
    routeWrite q ws .review r b s =
      (s, ⟨[⟨.forwardWrite, q.addr, ws.length, 0, [], ws⟩], none⟩) ∧
    (∀ n, q.burst = .read n →
      routeRead q .review r b s = ⟨[⟨.forwardRead, q.addr, n, 0, List.range n, []⟩], none⟩ ∧
      (s.entry r b = none →
        routeRead q .live r b s = ⟨[⟨.forwardRead, q.addr, n, 0, List.range n, []⟩], none⟩)) ∧
    ((strobed ws = [] ∨
        s.entry r b = none ∧ (s.holdOf r b = .notHeld ∨ s.holdOf r b = .filling)) →
      routeWrite q ws .live r b s =
        (s, ⟨[⟨.forwardWrite, q.addr, ws.length, 0, [], ws⟩], none⟩)) ∧
    (∀ e, strobed ws ≠ [] → s.entry r b = some e →
      routeWrite q ws .live r b s =
        ({ s with pool := { s.pool with map := changeEntry s.pool.map r b fun x =>
            { x with written := x.written ||| strobedSet q ws
                     restartPending := x.restartPending || x.state == .copying } } },
         ⟨slotPlan q s.pool.areaBase e.slot ws (toFill (wordPos q.addr) e.written ws),
          some (r, b)⟩)) ∧
    (∀ h slot rest queue, strobed ws ≠ [] → s.entry r b = none → s.holdOf r b = .held h →
      ¬((s.capture h).state = .post ∧ (s.capture h).postRemaining = 0) →
      s.pool.freeList = slot :: rest →
      (rest.length < s.pool.lowWater ∧ s.pool.lowWater ≤ s.pool.freeList.length ∧
          queue = arrive ⟨.poolLow, some r, some h, none, some (rest.length : Int), 0#8⟩ s.queue ∨
        (s.pool.lowWater ≤ rest.length ∨ s.pool.freeList.length < s.pool.lowWater) ∧
          queue = s.queue) →
      routeWrite q ws .live r b s =
        ({ s.putCapture h { s.capture h with
             entries := (s.capture h).entries + 1
             divertedBlocks := min ((s.capture h).divertedBlocks + 1) 65535 } with
           pool := { s.pool with
             freeList := rest
             map := s.pool.map ++ [⟨r, b, h, slot, strobedSet q ws, .mapped, false⟩] }
           queue := queue },
         ⟨slotPlan q s.pool.areaBase slot ws (toFill (wordPos q.addr) 0#16 ws), some (r, b)⟩)) ∧
    (∀ h, strobed ws ≠ [] → s.entry r b = none → s.holdOf r b = .held h →
      ¬((s.capture h).state = .post ∧ (s.capture h).postRemaining = 0) → s.pool.freeList = [] →
      (s.capture h).spilledWords ≠ 0 →
      routeWrite q ws .live r b s =
        (s.putCapture h { s.capture h with
          spilledWords := min ((s.capture h).spilledWords + (strobed ws).length) 65535
          isPartial := true }, ⟨[⟨.forwardWrite, q.addr, ws.length, 0, [], ws⟩], none⟩)) ∧
    (∀ h, strobed ws ≠ [] → s.entry r b = none → s.holdOf r b = .held h →
      ¬((s.capture h).state = .post ∧ (s.capture h).postRemaining = 0) → s.pool.freeList = [] →
      (s.capture h).spilledWords = 0 →
      routeWrite q ws .live r b s =
        (raise ⟨.spill, some r, some h, some q.addr, some ((strobed ws).length : Int),
            BitVec.ofNat 8 q.master.val⟩
          (s.putCapture h { s.capture h with
            spilledWords := min (strobed ws).length 65535, isPartial := true }),
         ⟨[⟨.forwardWrite, q.addr, ws.length, 0, [], ws⟩], none⟩)) ∧
    ∀ h, strobed ws ≠ [] → s.entry r b = none → s.holdOf r b = .held h →
      (s.capture h).state = .post → (s.capture h).postRemaining = 0 →
      routeWrite q ws .live r b s =
        (s, ⟨[⟨.forwardWrite, q.addr, ws.length, 0, [], ws⟩], none⟩)

/-- The positions a write adds to a written set are those of its words with a strobe set (R99); its words
to fill are those with one, two or three strobes whose position was not in the set (R110). A write to a
slot with words to fill reads home from the lowest to the highest of them first; without, it writes the
slot alone, at the slot position of its first word (R9, R11). -/
def Obligations.SlotWritePlan : Prop :=
  ∀ (q : UpRequest) (ws : List WriteWord) (written : BitVec 16) (areaBase : Addr) (slot : Nat),
    (∀ k, k < 16 → ((strobedSet q ws).getLsbD k = true ↔
      ∃ i w, ws[i]? = some w ∧ w.strobes ≠ 0#4 ∧ wordPos q.addr + i = k)) ∧
    (∀ k0 i, i ∈ toFill k0 written ws ↔
      ∃ w, ws[i]? = some w ∧ w.strobes ≠ 0#4 ∧ w.strobes ≠ 15#4 ∧
        written.getLsbD (k0 + i) = false) ∧
    (toFill (wordPos q.addr) written ws = [] →
      slotPlan q areaBase slot ws (toFill (wordPos q.addr) written ws) =
        [⟨.slotWrite, slotAddr areaBase slot (wordPos q.addr), ws.length, 0, [], ws⟩]) ∧
    (toFill (wordPos q.addr) written ws ≠ [] →
      ∃ lo hi, lo ∈ toFill (wordPos q.addr) written ws ∧ hi ∈ toFill (wordPos q.addr) written ws ∧
        (∀ i ∈ toFill (wordPos q.addr) written ws, lo ≤ i ∧ i ≤ hi) ∧
        slotPlan q areaBase slot ws (toFill (wordPos q.addr) written ws) =
          [⟨.fillRead, addWords q.addr lo, hi - lo + 1, lo,
              toFill (wordPos q.addr) written ws, []⟩,
           ⟨.slotWrite, slotAddr areaBase slot (wordPos q.addr), ws.length, 0, [], ws⟩])

/-- A filled word: of each byte, the request's where its strobe is set, else home's; all strobes set (R11;
that strobe i is byte i's is log 1).
Of a SLOT WRITE's words exactly those the FILL READ serves are filled, each from the home word of its own
position; the others are carried as they were. -/
def Obligations.FilledWords : Prop :=
  (∀ (w : WriteWord) (home : Word), (fillWord w home).strobes = 15#4 ∧
    ∀ i, i < 4 → (fillWord w home).data.extractLsb' (8 * i) 8 =
      if w.strobes.getLsbD i then w.data.extractLsb' (8 * i) 8 else home.extractLsb' (8 * i) 8) ∧
  ∀ (t : PlanTxn) (home : Nat → Word) (ws : List WriteWord) (i : Nat) (w : WriteWord),
    (∀ j ∈ t.serves, t.first ≤ j ∧ j < t.first + t.length) → ws[i]? = some w →
    (fillWords t ((List.range t.length).map fun j => home (t.first + j)) ws)[i]? =
      some (if i ∈ t.serves then fillWord w (home i) else w)

/-- A live-view read of a block with a map entry: when every transaction of its plan is answered from a
memory, each word of the burst is the slot's at a position in the written set, and home's at any other
(R9, R12, R104, R112). -/
def Obligations.SplitReadServes : Prop :=
  ∀ (q : UpRequest) (n : Nat) (r : Fin 8) (b : Nat) (e : MapEntry) (mem : Addr → Word) (s : State),
    q.burst = .read n → s.entry r b = some e →
    (routeRead q .live r b s).plan.foldl
      (fun acc t => placeWords t ((List.range t.length).map fun j => mem (addWords t.addr j)) acc)
      (List.replicate n none) =
    (List.range n).map fun i => some
      (if e.written.getLsbD (wordPos q.addr + i) then
        mem (slotAddr s.pool.areaBase e.slot (wordPos q.addr + i))
       else mem (addWords q.addr i))

/-! ### Words, conditioning, detectors -/

/-- Conditioning is exact: u is v itself with shift 0, else (v + 2^(s−1))/2^s rounded toward minus
infinity; the result is u + offset saturated to the format (R32). -/
def Obligations.ConditioningExact : Prop :=
  ∀ (c : RingConfig) (v : Int), ∃ u : Int,
    (c.shift = 0 → u = v) ∧
    (0 < c.shift → 2 ^ c.shift * u ≤ v + 2 ^ (c.shift - 1) ∧
      v + 2 ^ (c.shift - 1) < 2 ^ c.shift * (u + 1)) ∧
    (c.format = .s24 → condition c v =
      if 8388607 < u + c.offset then 8388607
      else if u + c.offset < -8388608 then -8388608 else u + c.offset) ∧
    (c.format = .p16 → condition c v =
      if 32767 < u + c.offset then 32767
      else if u + c.offset < -32768 then -32768 else u + c.offset)

/-- The word written in place of a sample word holds the conditioned samples in their lanes, and an S24
word is the conditioned sample sign-extended: bits 31 to 24 copy bit 23 (R33). -/
def Obligations.ConditionedWordHoldsSamples : Prop :=
  ∀ (c : RingConfig) (w : Word),
    (c.format = .s24 →
      samplesOf .s24 w = [(w.extractLsb' 0 24).toInt] ∧
      samplesOf .s24 (conditionedWord c w) = [condition c (w.extractLsb' 0 24).toInt] ∧
      (conditionedWord c w).toInt = condition c (w.extractLsb' 0 24).toInt) ∧
    (c.format = .p16 →
      samplesOf .p16 w = [(w.extractLsb' 0 16).toInt, (w.extractLsb' 16 16).toInt] ∧
      samplesOf .p16 (conditionedWord c w) =
        [condition c (w.extractLsb' 0 16).toInt, condition c (w.extractLsb' 16 16).toInt])

/-- Plain, foreign and partial words pass as received and change no record. A word of the producer with
all four strobes is a marker word when marker_enable is on and its top byte is the key, else a sample
word (R24, R29 to R31). -/
def Obligations.WordClasses : Prop :=
  ∀ (r : Fin 8) (m : Fin 16) (a : Addr) (w : WriteWord) (s : State),
    ((s.ring r).mode = .off ∨ m ≠ (s.ring r).cfg.producer ∨ w.strobes ≠ 15#4 →
      evalWord r m a w s = (s, w)) ∧
    ((s.ring r).mode ≠ .off → m = (s.ring r).cfg.producer → w.strobes = 15#4 →
      ((s.ring r).cfg.markerEnable = true →
        w.data.extractLsb' 24 8 = (s.ring r).cfg.markerKey →
        classifyWord (s.ring r) m w = .marker) ∧
      ((s.ring r).cfg.markerEnable = false ∨
          w.data.extractLsb' 24 8 ≠ (s.ring r).cfg.markerKey →
        classifyWord (s.ring r) m w = .sample))

/-- The evaluation of a producer word, each part whole before the next: the ring's head moves to the word's
address; the capture in POST meets it (PostCounting); then the detectors. A sample word gives, lane by
lane, the limit, the stuck and the extremes step of each conditioned sample, one lane in S24 and two in
P16, and is written conditioned with all strobes set; a marker word gives its code's action and is written
as received (R28, R30, R31, R34, R35, R42, R52, R81). A marker word leaves the ring's zone, stuck run and
extremes. -/
def Obligations.ProducerWords : Prop :=
  ∀ (r : Fin 8) (m : Fin 16) (a : Addr) (w : WriteWord) (s : State) (c : RingConfig)
    (lane : Byte → Int → State → State) (met : Bool → State), c = (s.ring r).cfg →
    (∀ k v u, lane k v u = extremesStep r v (stuckStep r a k v (limitStep r a k v u))) →
    (∀ sample, met sample = postWord r a sample (s.putRing r { s.ring r with head := some a })) →
    (classifyWord (s.ring r) m w = .sample →
      (c.format = .s24 → evalWord r m a w s =
        (lane 0#8 (condition c (w.data.extractLsb' 0 24).toInt) (met true),
         ⟨conditionedWord c w.data, 15#4⟩)) ∧
      (c.format = .p16 → evalWord r m a w s =
        (lane 1#8 (condition c (w.data.extractLsb' 16 16).toInt)
           (lane 0#8 (condition c (w.data.extractLsb' 0 16).toInt) (met true)),
         ⟨conditionedWord c w.data, 15#4⟩)) ∧
      ((evalWord r m a w s).1.ring r).head = some a) ∧
    (classifyWord (s.ring r) m w = .marker →
      evalWord r m a w s = (markerStep r a (w.data.extractLsb' 0 8) (met false), w) ∧
      ((evalWord r m a w s).1.ring r).head = some a ∧
      ((evalWord r m a w s).1.ring r).zone = (s.ring r).zone ∧
      ((evalWord r m a w s).1.ring r).stuck = (s.ring r).stuck ∧
      ((evalWord r m a w s).1.ring r).extremes = (s.ring r).extremes)

/-- The extremes of a run of samples: their number, saturating, and their least and greatest value; each
sample's step updates the ring's record, and the pending one while there is one, so (R37, R38). -/
def Obligations.ExtremesOfSamples : Prop :=
  (∀ vs : List Int, vs ≠ [] →
    (vs.foldl Extremes.add ⟨0, none, none⟩).count = min vs.length 4294967295 ∧
    (∃ m ∈ vs, (vs.foldl Extremes.add ⟨0, none, none⟩).min = some m ∧ ∀ v ∈ vs, m ≤ v) ∧
    ∃ m ∈ vs, (vs.foldl Extremes.add ⟨0, none, none⟩).max = some m ∧ ∀ v ∈ vs, v ≤ m) ∧
  ∀ (r : Fin 8) (v : Int) (s : State),
    extremesStep r v s = s.putRing r { s.ring r with
      extremes := (s.ring r).extremes.add v
      pendingExtremes := (s.ring r).pendingExtremes.map fun p => p.add v }

/-- The limit step: the zone becomes the sample's class. From UNSET, or with no change, nothing more. A
change to INSIDE queues LIMIT_CLEAR; to ABOVE or BELOW queues LIMIT_HIGH or LIMIT_LOW and then hands the
trigger request of that source; events only with LIMIT in event_enable, requests only with the source in
trigger_enable (R44 to R47). -/
def Obligations.LimitStepTable : Prop :=
  ∀ (r : Fin 8) (a : Addr) (lane : Byte) (v : Int) (z : Zone) (s s1 : State),
    ((s.ring r).cfg.high < v ∧ z = .above ∨
      v ≤ (s.ring r).cfg.high ∧ v < (s.ring r).cfg.low ∧ z = .below ∨
      v ≤ (s.ring r).cfg.high ∧ (s.ring r).cfg.low ≤ v ∧ z = .inside) →
    s1 = s.putRing r { s.ring r with zone := z } →
    ((s.ring r).zone = .unset ∨ (s.ring r).zone = z → limitStep r a lane v s = s1) ∧
    ((s.ring r).zone ≠ .unset → (s.ring r).zone ≠ z → z = .inside →
      limitStep r a lane v s =
        if (s.ring r).cfg.eventEnable.limit then
          raise ⟨.limitClear, some r, none, some a, some v, lane⟩ s1 else s1) ∧
    ∀ kind src, (s.ring r).zone ≠ .unset → (s.ring r).zone ≠ z →
      (z = .above ∧ kind = .limitHigh ∧ src = .limitHigh ∨
        z = .below ∧ kind = .limitLow ∧ src = .limitLow) →
      ∃ s2, s2 = (if (s.ring r).cfg.eventEnable.limit then
          raise ⟨kind, some r, none, some a, some v, lane⟩ s1 else s1) ∧
        ((s.ring r).cfg.triggerEnable.holds src = false → limitStep r a lane v s = s2) ∧
        ((s.ring r).cfg.triggerEnable.holds src = true →
          limitStep r a lane v s = (handTrigger r ⟨src, some lane, some a, some v⟩ s2).1)

/-- The stuck step: the run counts a sample equal to the last one, saturating at 255, else starts anew; a
run whose count equals a stuck_limit other than 0, unreported, is reported once: STUCK event when enabled,
then the STUCK request when enabled (R48 to R50, R44). -/
def Obligations.StuckStepRule : Prop :=
  ∀ (r : Fin 8) (a : Addr) (lane : Byte) (v : Int) (k : StuckRun) (s s1 : State),
    ((s.ring r).stuck.last = some v ∧
        k = ⟨some v, min ((s.ring r).stuck.count + 1) 255, (s.ring r).stuck.reported⟩ ∨
      (s.ring r).stuck.last ≠ some v ∧ k = ⟨some v, 1, false⟩) →
    s1 = s.putRing r { s.ring r with stuck := ⟨k.last, k.count, true⟩ } →
    ((s.ring r).cfg.stuckLimit = 0 ∨ k.count ≠ (s.ring r).cfg.stuckLimit ∨ k.reported = true →
      stuckStep r a lane v s = s.putRing r { s.ring r with stuck := k }) ∧
    ((s.ring r).cfg.stuckLimit ≠ 0 → k.count = (s.ring r).cfg.stuckLimit → k.reported = false →
      ∃ s2, s2 = (if (s.ring r).cfg.eventEnable.stuck then
          raise ⟨.stuck, some r, none, some a, some v, lane⟩ s1 else s1) ∧
        ((s.ring r).cfg.triggerEnable.stuck = false → stuckStep r a lane v s = s2) ∧
        ((s.ring r).cfg.triggerEnable.stuck = true →
          stuckStep r a lane v s = (handTrigger r ⟨.stuck, some lane, some a, some v⟩ s2).1))

/-- The actions of a marker word: PASS nothing; NOTE a MARKER_NOTE event when enabled; TRIGGER a MARKER
request when enabled; ARM a SAFE ring becomes ARMED, SAFE an ARMED ring becomes SAFE, with the event of
the change, and nothing in any other mode (R52, R53, R27). -/
def Obligations.MarkerActions : Prop :=
  ∀ (r : Fin 8) (a : Addr) (code : Byte) (s : State),
    (s.marker code = .pass → markerStep r a code s = s) ∧
    (s.marker code = .note → markerStep r a code s =
      if (s.ring r).cfg.eventEnable.markerNote then
        raise ⟨.markerNote, some r, none, some a, none, code⟩ s else s) ∧
    (s.marker code = .trigger → (s.ring r).cfg.triggerEnable.marker = false →
      markerStep r a code s = s) ∧
    (s.marker code = .trigger → (s.ring r).cfg.triggerEnable.marker = true →
      markerStep r a code s = (handTrigger r ⟨.marker, some code, some a, none⟩ s).1) ∧
    (s.marker code = .arm → (s.ring r).mode = .safe → markerStep r a code s =
      raise ⟨.ringArmed, some r, none, some a, none, code⟩
        (s.putRing r { s.ring r with mode := .armed })) ∧
    (s.marker code = .arm → (s.ring r).mode ≠ .safe → markerStep r a code s = s) ∧
    (s.marker code = .safe → (s.ring r).mode = .armed → markerStep r a code s =
      raise ⟨.ringSafe, some r, none, some a, none, code⟩
        (s.putRing r { s.ring r with mode := .safe })) ∧
    (s.marker code = .safe → (s.ring r).mode ≠ .armed → markerStep r a code s = s)

/-- TRIG_LEVEL_CHANGE: the line takes the level and its condition is mask and level unlike reference. A
line whose condition goes from false to true fires: one LINE event with the route and the line number,
then, in ascending ring number, on each ring of the route that holds LINE and is ARMED, a LINE request at
its head, each acted on before the next is formed; a SAFE ring's request opens nothing. While RSTN is low
the input stage alone takes the level (R41, R43, R54 to R57, R72, R178). -/
def Obligations.TrigLevelChangeResults : Prop :=
  ∀ (n : Fin 4) (level : Bool) (y : Line) (s s1 : State),
    y = ⟨(s.line n).reference, (s.line n).mask, (s.line n).route, level,
         (s.line n).mask && level != (s.line n).reference⟩ →
    s1 = { s.putLine n y with
           pins := { s.pins with trig := s.pins.trig.set n.val level n.isLt } } →
    (s.pins.rstn = false → exec (.trigLevelChange n level) s =
      .next { s with pins := s1.pins }) ∧
    (s.pins.rstn = true → (s.line n).condition = true ∨ y.condition = false →
      exec (.trigLevelChange n level) s = .next s1) ∧
    (s.pins.rstn = true → (s.line n).condition = false → y.condition = true →
      exec (.trigLevelChange n level) s =
        .next ((([0, 1, 2, 3, 4, 5, 6, 7] : List (Fin 8)).filter fun r =>
            y.route.getLsbD r.val && (s.ring r).cfg.triggerEnable.line &&
            (s.ring r).mode == .armed).foldl
          (fun u r =>
            (handTrigger r ⟨.line, some (BitVec.ofNat 8 n.val), (s.ring r).head, none⟩ u).1)
          (raise ⟨.line, none, none, none, some (y.route.toNat : Int), BitVec.ofNat 8 n.val⟩ s1)))

/-- SET LINE: a line number above 3, or a reference or mask byte other than 0 or 1, is refused with RANGE;
else the three settings are replaced and the condition worked out again from the level. When it goes from
false to true the line fires: one LINE event, then a LINE request at its head on each ring of the route
that holds LINE and is ARMED, in ascending ring number (R43, R55, R57, R58, R72, R175). -/
def Obligations.SetLineResults : Prop :=
  ∀ (line reference mask route : Byte) (s : State), s.atFrameStart = true →
    (3 < line.toNat ∨ 1 < reference.toNat ∨ 1 < mask.toNat →
      exec (.setLine line reference mask route) s =
        .next (s.answers (.setLine line reference mask route) .range [])) ∧
    ∀ (n : Fin 4) (ref m : Bool) (y : Line), line = BitVec.ofNat 8 n.val →
      reference = (if ref then 1#8 else 0#8) → mask = (if m then 1#8 else 0#8) →
      y = ⟨ref, m, route, (s.line n).level, m && (s.line n).level != ref⟩ →
      ((s.line n).condition = true ∨ y.condition = false →
        exec (.setLine line reference mask route) s =
          .next ((s.putLine n y).answers (.setLine line reference mask route) .ok [])) ∧
      ((s.line n).condition = false → y.condition = true →
        exec (.setLine line reference mask route) s =
          .next (State.answers (.setLine line reference mask route) .ok []
            ((([0, 1, 2, 3, 4, 5, 6, 7] : List (Fin 8)).filter fun r =>
                route.getLsbD r.val && (s.ring r).cfg.triggerEnable.line &&
                (s.ring r).mode == .armed).foldl
              (fun u r =>
                (handTrigger r ⟨.line, some (BitVec.ofNat 8 n.val), (s.ring r).head, none⟩ u).1)
              (raise ⟨.line, none, none, none, some (route.toNat : Int), BitVec.ofNat 8 n.val⟩
                (s.putLine n y)))))

/-- SET MARKER: first above last, or an action number above 4, is refused with RANGE and changes no entry;
else every entry from first to last takes the action and no other entry or state changes (R51). -/
def Obligations.SetMarkerResults : Prop :=
  ∀ (first last action : Byte) (s : State), s.atFrameStart = true →
    (last.toNat < first.toNat ∨ 4 < action.toNat →
      exec (.setMarker first last action) s =
        .next (s.answers (.setMarker first last action) .range [])) ∧
    ∀ act : MarkerAction, first.toNat ≤ last.toNat →
      (action = 0#8 ∧ act = .pass ∨ action = 1#8 ∧ act = .note ∨ action = 2#8 ∧ act = .trigger ∨
        action = 3#8 ∧ act = .arm ∨ action = 4#8 ∧ act = .safe) →
      ∃ t : State, exec (.setMarker first last action) s =
          .next (t.answers (.setMarker first last action) .ok []) ∧
        t = { s with det := { s.det with markers := t.det.markers } } ∧
        ∀ code : Byte, t.marker code =
          if first.toNat ≤ code.toNat ∧ code.toNat ≤ last.toNat then act else s.marker code

/-! ### Captures -/

/-- A trigger request of any source, detail and value, handed over for a ring: it does nothing unless the
ring is ARMED; without an address it is refused NO_POSITION; else it is absorbed by the capture in POST,
refused BLOCKED by the capture whose span holds the block, refused NO_RECORD, or opens the lowest FREE
record, which takes the request's fields, with CAPTURE_OPEN and, when post_words is 0, HELD at once with
CAPTURE_READY. FORCE is RANGE, then STATE for a ring not ARMED, then the request FORCED at the ring's head,
and its reply gives the outcome, presence and capture (R44, R60 to R62, R71 to R76, R79). -/
def Obligations.ForceOutcomes : Prop :=
  [Source.limitHigh, .limitLow, .stuck, .marker, .line, .forced].map sourceCode =
    [1#8, 2#8, 3#8, 4#8, 5#8, 6#8] ∧
  (∀ (r : Fin 8) (t : TriggerReq) (s : State),
    ((s.ring r).mode ≠ .armed → handTrigger r t s = (s, .ignored)) ∧
    ((s.ring r).mode = .armed → t.address = none →
      handTrigger r t s =
        (raise ⟨.triggerRefused, some r, none, none, some ((sourceCode t.source).toNat : Int), 3#8⟩ s,
         .noPosition)) ∧
    ∀ a, (s.ring r).mode = .armed → t.address = some a →
      (∀ c, s.postOn r = some c →
        handTrigger r t s =
          (s.putCapture c { s.capture c with absorbed := min ((s.capture c).absorbed + 1) 255 },
           .absorbed c)) ∧
      (∀ c, s.postOn r = none → s.coveredBy r (blockOf (s.ring r).cfg a) = some c →
        handTrigger r t s =
          (raise ⟨.triggerRefused, some r, some c, some a, some ((sourceCode t.source).toNat : Int),
                  1#8⟩ s, .blocked c)) ∧
      (s.postOn r = none → s.coveredBy r (blockOf (s.ring r).cfg a) = none → s.freeRecord = none →
        handTrigger r t s =
          (raise ⟨.triggerRefused, some r, none, some a, some ((sourceCode t.source).toNat : Int), 2#8⟩ s,
           .noRecord)) ∧
      ∀ c, s.postOn r = none → s.coveredBy r (blockOf (s.ring r).cfg a) = none →
        s.freeRecord = some c →
        ∃ (x : Capture) (q : EventQueue),
          x = { openRecord s r t a with
                  state := if (s.ring r).cfg.postWords = 0 then .held else .post } ∧
          x.ring = r ∧ x.serial = s.caps.serial ∧ x.source = some t.source ∧
          x.sourceDetail = t.detail ∧ x.triggerAddress = a ∧ x.triggerValue = t.value ∧
          x.triggerBlock = blockOf (s.ring r).cfg a ∧
          x.postRemaining = (s.ring r).cfg.postWords ∧ x.absorbed = 0 ∧ x.entries = 0 ∧
          x.divertedBlocks = 0 ∧ x.spilledWords = 0 ∧ x.lostWords = 0 ∧ x.restarts = 0 ∧
          x.isPartial = false ∧
          ((s.ring r).cfg.postWords ≠ 0 →
            q = arrive ⟨.captureOpen, some r, some c, some a, t.value, sourceCode t.source⟩ s.queue) ∧
          ((s.ring r).cfg.postWords = 0 →
            q = arrive ⟨.captureReady, some r, some c, some (homeOf (s.ring r).cfg x.firstBlock),
                  some (x.spanLength (s.ring r).cfg.sizeBlocks : Int), 4#8⟩
                (arrive ⟨.captureOpen, some r, some c, some a, t.value, sourceCode t.source⟩
                  s.queue)) ∧
          handTrigger r t s =
            ({ s.putCapture c x with
              caps := { (s.putCapture c x).caps with serial := s.caps.serial + 1#16 }
              queue := q }, .opened c)) ∧
  ∀ (r : Fin 8) (ring : Byte) (s : State), s.atFrameStart = true →
    (7 < ring.toNat → exec (.force ring) s = .next (s.answers (.force ring) .range [])) ∧
    (ring = BitVec.ofNat 8 r.val → (s.ring r).mode ≠ .armed →
      exec (.force ring) s = .next (s.answers (.force ring) .state [])) ∧
    ∀ (u : State) (outcome : TriggerOutcome) (data : List Byte),
      ring = BitVec.ofNat 8 r.val → (s.ring r).mode = .armed →
      handTrigger r ⟨.forced, none, (s.ring r).head, none⟩ s = (u, outcome) →
      ((∃ c, outcome = .opened c ∧ data = [1#8, 1#8, BitVec.ofNat 8 c.val]) ∨
        (∃ c, outcome = .absorbed c ∧ data = [2#8, 1#8, BitVec.ofNat 8 c.val]) ∨
        (∃ c, outcome = .blocked c ∧ data = [3#8, 0#8, 0#8]) ∨
        outcome = .noRecord ∧ data = [4#8, 0#8, 0#8] ∨
        outcome = .noPosition ∧ data = [5#8, 0#8, 0#8]) →
      exec (.force ring) s = .next (u.answers (.force ring) .ok data)

/-- A span that opens holds its trigger block, at most pre_blocks blocks before it, and no block of the
span of another capture that is not FREE. The pre part stops short of pre_blocks only where it has gone
round the ring or the block before it is in such a span; the forward part stops short of its distance
d = (k + post_words)/16 only where the block after it is the span's first or is in such a span; CUT is set
exactly when one of them stopped short (R70, R77, R78). -/
def Obligations.OpeningSpanClear : Prop :=
  ∀ (r : Fin 8) (t : TriggerReq) (a : Addr) (s : State) (x : Capture) (size tb p j d : Nat),
    (s.ring r).cfg.holdsAddr a → s.coveredBy r (blockOf (s.ring r).cfg a) = none →
    x = openRecord s r t a → size = (s.ring r).cfg.sizeBlocks →
    tb = (a.toNat - (s.ring r).cfg.base.toNat) / 64 →
    p = forward size x.firstBlock tb → j = forward size tb x.lastBlock →
    d = (a.toNat % 64 / 4 + (s.ring r).cfg.postWords) / 16 →
    x.triggerBlock = tb ∧ x.inSpan size tb = true ∧
    (∀ c b, (s.capture c).state ≠ .free → (s.capture c).ring = r → b < size →
      x.inSpan size b = true → (s.capture c).inSpan size b = false) ∧
    (p = (s.ring r).cfg.preBlocks ∨ p < (s.ring r).cfg.preBlocks ∧
      (p + 1 = size ∨ ∃ c, (s.capture c).state ≠ .free ∧ (s.capture c).ring = r ∧
        (s.capture c).inSpan size ((x.firstBlock + size - 1) % size) = true)) ∧
    (j = d ∨ j < d ∧
      ((x.lastBlock + 1) % size = x.firstBlock ∨
        ∃ c, (s.capture c).state ≠ .free ∧ (s.capture c).ring = r ∧
          (s.capture c).inSpan size ((x.lastBlock + 1) % size) = true)) ∧
    (x.cut = true ↔ p < (s.ring r).cfg.preBlocks ∨ j < d)

/-- On a ring without captures whose pre blocks and forward distance d = (k + post_words)/16 fit, the span
runs from pre_blocks before the trigger block to d after it, round the ring, and CUT is clear (R76 to
R78). -/
def Obligations.OpeningSpanNominal : Prop :=
  ∀ (r : Fin 8) (t : TriggerReq) (a : Addr) (d : Nat) (s : State),
    (s.ring r).cfg.holdsAddr a → (∀ c, (s.capture c).ring = r → (s.capture c).state = .free) →
    d = (a.toNat % 64 / 4 + (s.ring r).cfg.postWords) / 16 →
    (s.ring r).cfg.preBlocks + d < (s.ring r).cfg.sizeBlocks →
    (openRecord s r t a).triggerBlock = (a.toNat - (s.ring r).cfg.base.toNat) / 64 ∧
    (openRecord s r t a).firstBlock =
      ((a.toNat - (s.ring r).cfg.base.toNat) / 64 + (s.ring r).cfg.sizeBlocks -
        (s.ring r).cfg.preBlocks) % (s.ring r).cfg.sizeBlocks ∧
    (openRecord s r t a).lastBlock =
      ((a.toNat - (s.ring r).cfg.base.toNat) / 64 + d) % (s.ring r).cfg.sizeBlocks ∧
    (openRecord s r t a).cut = false

/-- A producer word in a block outside the span of the capture in POST cuts it: HELD, CUT, CAPTURE_READY
with cause OUTRUN. In the span, a sample word counts post_remaining down while it is above 0 and a marker
word does not. At the end of a request's routing a capture in POST at 0 becomes HELD with cause
POST_DONE, its CUT as it was (R81 to R84). -/
def Obligations.PostCounting : Prop :=
  ∀ (r : Fin 8) (c : Fin 16) (a : Addr) (s : State), s.postOn r = some c →
    ((s.capture c).inSpan (s.ring r).cfg.sizeBlocks (blockOf (s.ring r).cfg a) = false →
      ∀ sample, postWord r a sample s =
        raise ⟨.captureReady, some r, some c, some (homeOf (s.ring r).cfg (s.capture c).firstBlock),
            some ((s.capture c).spanLength (s.ring r).cfg.sizeBlocks : Int), 2#8⟩
          (s.putCapture c { s.capture c with state := .held, cut := true })) ∧
    ((s.capture c).inSpan (s.ring r).cfg.sizeBlocks (blockOf (s.ring r).cfg a) = true →
      postWord r a false s = s ∧
      postWord r a true s =
        s.putCapture c { s.capture c with postRemaining := (s.capture c).postRemaining - 1 }) ∧
    ((s.capture c).postRemaining = 0 → postDone r s =
      raise ⟨.captureReady, some r, some c, some (homeOf (s.ring r).cfg (s.capture c).firstBlock),
          some ((s.capture c).spanLength (s.ring r).cfg.sizeBlocks : Int), 1#8⟩
        (s.putCapture c { s.capture c with state := .held })) ∧
    ((s.capture c).postRemaining ≠ 0 → postDone r s = s)

/-- The hold state of a block. No capture that is not FREE covers it: NOT HELD. One does: HELD by it in
HELD and RELEASING, and in POST for the blocks before the trigger block; FILLING in POST from the trigger
block on; NOT HELD in MERGING (R68, R69). -/
def Obligations.HoldStates : Prop :=
  ∀ (r : Fin 8) (b : Nat) (s : State), s.SpansDisjoint → b < (s.ring r).cfg.sizeBlocks →
    ((∀ c, (s.capture c).ring = r →
        (s.capture c).inSpan (s.ring r).cfg.sizeBlocks b = true → (s.capture c).state = .free) →
      s.holdOf r b = .notHeld) ∧
    ∀ c before, (s.capture c).ring = r → (s.capture c).inSpan (s.ring r).cfg.sizeBlocks b = true →
      before = forward (s.ring r).cfg.sizeBlocks (s.capture c).firstBlock b →
      ((s.capture c).state = .held ∨ (s.capture c).state = .releasing → s.holdOf r b = .held c) ∧
      ((s.capture c).state = .merging → s.holdOf r b = .notHeld) ∧
      ((s.capture c).state = .post →
        before < forward (s.ring r).cfg.sizeBlocks (s.capture c).firstBlock
          (s.capture c).triggerBlock → s.holdOf r b = .held c) ∧
      ((s.capture c).state = .post →
        forward (s.ring r).cfg.sizeBlocks (s.capture c).firstBlock (s.capture c).triggerBlock
          ≤ before → s.holdOf r b = .filling)

/-- RELEASE: RANGE above 15, NOCAPTURE when FREE, STATE when RELEASING or MERGING. A HELD capture becomes
RELEASING at the tail of the release queue; one in POST first becomes HELD with CUT and CAPTURE_READY
cause RELEASED. An IDLE engine takes the capture at once, one from POST as well: without entries it becomes
FREE with CAPTURE_FREE; with entries it becomes MERGING and the copy of its next entry begins (R86, R87,
R90, R118, R120 to R122), the arbiter deciding at the end of the event (log 11). -/
def Obligations.ReleaseOutcomes : Prop :=
  ∀ (c : Fin 16) (s : State), s.atFrameStart = true → s.PortServed →
    (∀ capture : Byte, 15 < capture.toNat →
      exec (.release capture) s = .next (s.answers (.release capture) .range [])) ∧
    ∀ capture : Byte, capture = BitVec.ofNat 8 c.val →
      ((s.capture c).state = .free →
        exec (.release capture) s = .next (s.answers (.release capture) .noCapture [])) ∧
      ((s.capture c).state = .releasing ∨ (s.capture c).state = .merging →
        exec (.release capture) s = .next (s.answers (.release capture) .state [])) ∧
      ∀ (x : Capture) (q : EventQueue),
        ((s.capture c).state = .held ∧ x = s.capture c ∧ q = s.queue ∨
          (s.capture c).state = .post ∧ x = { s.capture c with cut := true } ∧
            q = arrive ⟨.captureReady, some x.ring, some c,
              some (homeOf (s.ring x.ring).cfg x.firstBlock),
              some (x.spanLength (s.ring x.ring).cfg.sizeBlocks : Int), 3#8⟩ s.queue) →
        (s.engine.status ≠ .idle →
          exec (.release capture) s =
            .next ({ s.putCapture c { x with state := .releasing } with
              engine := { s.engine with queue := s.engine.queue ++ [c] }
              queue := q }.answers (.release capture) .ok [])) ∧
        (s.engine.status = .idle → s.engine.queue = [] → x.entries = 0 →
          exec (.release capture) s =
            .next ({ s.putCapture c { x with state := .free } with
              queue := arrive ⟨.captureFree, some x.ring, some c,
                some (BitVec.ofNat 32 (65536 * x.spilledWords + x.lostWords)),
                some (x.divertedBlocks : Int),
                (if x.isPartial then 2#8 else 0#8) ||| (if x.cut then 1#8 else 0#8)⟩
                q }.answers (.release capture) .ok [])) ∧
        ∀ e, s.engine.status = .idle → s.engine.queue = [] → x.entries ≠ 0 →
          nextEntry s c x.firstBlock = some e →
          exec (.release capture) s =
            .next ((arbitrate { s.putCapture c { x with state := .merging } with
              pool := { s.pool with map := changeEntry s.pool.map e.ring e.block fun y =>
                { y with state := .copying, restartPending := s.targets e.ring e.block } }
              engine := { s.engine with
                status := .copying, merging := some c
                cursor := some ((e.block + 1) % (s.ring e.ring).cfg.sizeBlocks)
                copy := some ⟨e.ring, e.block, homeOf (s.ring e.ring).cfg e.block, e.slot, .readWait,
                              [], 0#16⟩ }
              dn := { s.dn with shareCount := 0 }
              queue := q }).answers (.release capture) .ok [])

/-! ### Link commands that report -/

/-- IDENTIFY, GET PATH, GET LINES, GET POOL, READ ATTENTION, LIST CAPTURES: the data each answers with, byte
by byte, and no change but the link's (R59, R93, R116, R167, R170, R173). -/
def Obligations.ReportCommands : Prop :=
  ∀ s : State, s.atFrameStart = true →
    exec .identify s = .next (s.answers .identify .ok
      [0x41#8, 0x60#8, 1#8, 8#8, 16#8, 0x02#8, 0x00#8, 64#8]) ∧
    exec .getPath s = .next (s.answers .getPath .ok
      (bytes16 (BitVec.ofNat 16 s.path.dnTimeout) ++ [BitVec.ofNat 8 s.path.share])) ∧
    exec .getLines s = .next (s.answers .getLines .ok
      ([0, 1, 2, 3].flatMap fun n : Fin 4 =>
        [if (s.line n).reference then 1#8 else 0#8, if (s.line n).mask then 1#8 else 0#8,
         (s.line n).route, if (s.line n).level then 1#8 else 0#8,
         if (s.line n).condition then 1#8 else 0#8])) ∧
    exec .getPool s = .next (s.answers .getPool .ok
      (bytes32 s.pool.areaBase ++ bytes16 (BitVec.ofNat 16 s.pool.slotCount) ++
       bytes16 (BitVec.ofNat 16 s.pool.lowWater) ++
       bytes16 (BitVec.ofNat 16 s.pool.freeList.length) ++
       bytes16 (BitVec.ofNat 16 s.pool.map.length) ++
       [if s.pool.freeList.length < s.pool.lowWater then 1#8 else 0#8])) ∧
    exec .readAttention s = .next (s.answers .readAttention .ok
      [BitVec.ofNat 8 s.attentionCode,
       (if s.engine.status = .halted then 1#8 else 0#8) |||
       (if s.queue.overflowOpen then 2#8 else 0#8) |||
       (if s.pool.freeList.length < s.pool.lowWater then 4#8 else 0#8) |||
       (if s.attn.watermark ≤ s.queue.records.length then 8#8 else 0#8)]) ∧
    exec .listCaptures s = .next (s.answers .listCaptures .ok
      (captureIds.flatMap fun c =>
        [captureStateCode (s.capture c).state, BitVec.ofNat 8 (s.capture c).ring.val] ++
        bytes16 (s.capture c).serial))

/-- GET RING, GET CAPTURE, GET MAP and GET FAULT: RANGE above the last ring or capture number (or block index
65535), EMPTY where there is nothing to report, else the record's bytes; no change but the link's (R23,
R92, R117, R133). -/
def Obligations.RecordCommands : Prop :=
  ∀ s : State, s.atFrameStart = true →
    (∀ ring : Byte, 7 < ring.toNat →
      exec (.getRing ring) s = .next (s.answers (.getRing ring) .range []) ∧
      ∀ block, exec (.getMap ring block) s = .next (s.answers (.getMap ring block) .range [])) ∧
    (∀ (r : Fin 8) (ring : Byte), ring = BitVec.ofNat 8 r.val →
      exec (.getRing ring) s = .next (s.answers (.getRing ring) .ok
        (ringConfigBytes (s.ring r).cfg ++
         [modeCode (s.ring r).mode, if (s.ring r).head.isSome then 1#8 else 0#8] ++
         bytes32 ((s.ring r).head.getD 0#32) ++ [zoneCode (s.ring r).zone])) ∧
      ∀ block : BitVec 24,
        (65535 < block.toNat →
          exec (.getMap ring block) s = .next (s.answers (.getMap ring block) .range [])) ∧
        (block.toNat ≤ 65535 → s.entry r block.toNat = none →
          exec (.getMap ring block) s = .next (s.answers (.getMap ring block) .empty [])) ∧
        ∀ e, block.toNat ≤ 65535 → s.entry r block.toNat = some e →
          exec (.getMap ring block) s = .next (s.answers (.getMap ring block) .ok
            ([BitVec.ofNat 8 e.capture.val] ++ bytes16 (BitVec.ofNat 16 e.slot) ++
             bytes16 e.written ++ [if e.state = .copying then 1#8 else 0#8,
                                   if e.restartPending then 1#8 else 0#8]))) ∧
    (∀ capture : Byte, 15 < capture.toNat →
      exec (.getCapture capture) s = .next (s.answers (.getCapture capture) .range [])) ∧
    (∀ (c : Fin 16) (capture : Byte) (x : Capture), capture = BitVec.ofNat 8 c.val →
      x = s.capture c →
      exec (.getCapture capture) s = .next (s.answers (.getCapture capture) .ok
        ([captureStateCode x.state, BitVec.ofNat 8 x.ring.val] ++ bytes16 x.serial ++
         [(if x.source.isSome then 1#8 else 0#8) ||| (if x.sourceDetail.isSome then 2#8 else 0#8) |||
            (if x.triggerValue.isSome then 4#8 else 0#8),
          (x.source.map sourceCode).getD 0#8, x.sourceDetail.getD 0#8] ++
         bytes32 x.triggerAddress ++ bytes24 (BitVec.ofInt 24 (x.triggerValue.getD 0)) ++
         bytes16 (BitVec.ofNat 16 x.firstBlock) ++ bytes16 (BitVec.ofNat 16 x.triggerBlock) ++
         bytes16 (BitVec.ofNat 16 x.lastBlock) ++ bytes16 (BitVec.ofNat 16 x.postRemaining) ++
         [BitVec.ofNat 8 x.absorbed] ++
         bytes16 (BitVec.ofNat 16 x.entries) ++ bytes16 (BitVec.ofNat 16 x.divertedBlocks) ++
         bytes16 (BitVec.ofNat 16 x.spilledWords) ++ bytes16 (BitVec.ofNat 16 x.lostWords) ++
         bytes16 (BitVec.ofNat 16 x.restarts) ++
         [(if x.cut then 1#8 else 0#8) ||| (if x.isPartial then 2#8 else 0#8)]))) ∧
    (s.engine.fault = none → exec .getFault s = .next (s.answers .getFault .empty [])) ∧
    ∀ f, s.engine.fault = some f →
      exec .getFault s = .next (s.answers .getFault .ok
        ([faultCode f.kind, BitVec.ofNat 8 f.capture.val, BitVec.ofNat 8 f.ring.val] ++
         bytes32 f.address ++ bytes16 (BitVec.ofNat 16 f.slot)))

/-! ### Ring commands -/

/-- SET RING, in order: RANGE for a ring number above 7, STATE for a ring not OFF, RANGE for a field out of
range, OVERLAP for a region that meets another, else the record replaced, the ring still OFF and nothing
else changed. The record then has the 27 bytes that were sent, which GET RING reports (R20 to R23). -/
def Obligations.SetRingResults : Prop :=
  ∀ (ring : Byte) (p : RingParams) (s : State), s.atFrameStart = true →
    (7 < ring.toNat → exec (.setRing ring p) s = .next (s.answers (.setRing ring p) .range [])) ∧
    ∀ r : Fin 8, ring = BitVec.ofNat 8 r.val →
      ((s.ring r).mode ≠ .off →
        exec (.setRing ring p) s = .next (s.answers (.setRing ring p) .state [])) ∧
      ∀ (lo hi : Int) (inRange overlap : Prop),
        (p.format = 1#8 → lo = -32768 ∧ hi = 32767) →
        (p.format ≠ 1#8 → lo = -8388608 ∧ hi = 8388607) →
        (inRange ↔ p.base.toNat % 64 = 0 ∧
          (p.sizeBlocks = 0#24 ∨ 2 ≤ p.sizeBlocks.toNat ∧ p.sizeBlocks.toNat ≤ 65536) ∧
          p.producer.toNat ≤ 15 ∧ p.format.toNat ≤ 1 ∧ p.shift.toNat ≤ 15 ∧
          lo ≤ p.offset.toInt ∧ p.offset.toInt ≤ hi ∧ lo ≤ p.high.toInt ∧ p.high.toInt ≤ hi ∧
          lo ≤ p.low.toInt ∧ p.low.toInt ≤ hi ∧ p.low.toInt ≤ p.high.toInt ∧
          p.stuckLimit ≠ 1#8 ∧ p.markerEnable.toNat ≤ 1 ∧
          (p.format = 1#8 → p.markerEnable = 0#8) ∧
          p.triggerEnable.toNat < 32 ∧ p.eventEnable.toNat < 8) →
        (overlap ↔ p.sizeBlocks ≠ 0#24 ∧
          (4294967296 < p.base.toNat + 64 * p.sizeBlocks.toNat ∨
           (∃ r' : Fin 8, r' ≠ r ∧ (s.ring r').cfg.sizeBlocks ≠ 0 ∧
             p.base.toNat < (s.ring r').cfg.base.toNat + 64 * (s.ring r').cfg.sizeBlocks ∧
             (s.ring r').cfg.base.toNat < p.base.toNat + 64 * p.sizeBlocks.toNat) ∨
           s.pool.slotCount ≠ 0 ∧
             p.base.toNat < s.pool.areaBase.toNat + 64 * s.pool.slotCount ∧
             s.pool.areaBase.toNat < p.base.toNat + 64 * p.sizeBlocks.toNat)) →
        (s.ring r).mode = .off →
        (¬inRange →
          exec (.setRing ring p) s = .next (s.answers (.setRing ring p) .range [])) ∧
        (inRange → overlap →
          exec (.setRing ring p) s = .next (s.answers (.setRing ring p) .overlap [])) ∧
        (inRange → ¬overlap → ∃ cfg : RingConfig,
          exec (.setRing ring p) s =
            .next ((s.putRing r { s.ring r with cfg := cfg }).answers (.setRing ring p) .ok []) ∧
          ringConfigBytes cfg = encodeRingParams p ∧ (ringConfigBytes cfg).length = 27 ∧
          cfg.base = p.base ∧ cfg.sizeBlocks = p.sizeBlocks.toNat ∧
          cfg.producer.val = p.producer.toNat ∧ (cfg.format = .p16 ↔ p.format = 1#8) ∧
          cfg.shift = p.shift.toNat ∧ cfg.offset = p.offset.toInt ∧ cfg.high = p.high.toInt ∧
          cfg.low = p.low.toInt ∧ cfg.stuckLimit = p.stuckLimit.toNat ∧
          cfg.markerKey = p.markerKey ∧ (cfg.markerEnable = true ↔ p.markerEnable = 1#8) ∧
          cfg.preBlocks = p.preBlocks.toNat ∧ cfg.postWords = p.postWords.toNat)

/-- RING MODE: RANGE for a ring number above 7 or a mode above 2; STATE to SAFE or ARMED when unconfigured;
BUSY to OFF while a capture on the ring is not FREE; else the mode is set, the runtime state initialised
when the ring leaves OFF and kept otherwise (R25, R26). -/
def Obligations.RingModeResults : Prop :=
  ∀ (ring mode : Byte) (s : State), s.atFrameStart = true →
    (7 < ring.toNat ∨ 2 < mode.toNat →
      exec (.ringMode ring mode) s = .next (s.answers (.ringMode ring mode) .range [])) ∧
    ∀ (r : Fin 8) (target : Mode), ring = BitVec.ofNat 8 r.val →
      (mode = 0#8 ∧ target = .off ∨ mode = 1#8 ∧ target = .safe ∨ mode = 2#8 ∧ target = .armed) →
      (target ≠ .off → (s.ring r).cfg.sizeBlocks = 0 →
        exec (.ringMode ring mode) s = .next (s.answers (.ringMode ring mode) .state [])) ∧
      (target ≠ .off → (s.ring r).cfg.sizeBlocks ≠ 0 → (s.ring r).mode = .off →
        exec (.ringMode ring mode) s =
          .next ((s.putRing r ⟨(s.ring r).cfg, target, none, .unset, ⟨none, 0, false⟩,
            ⟨0, none, none⟩, none⟩).answers (.ringMode ring mode) .ok [])) ∧
      (target ≠ .off → (s.ring r).cfg.sizeBlocks ≠ 0 → (s.ring r).mode ≠ .off →
        exec (.ringMode ring mode) s =
          .next ((s.putRing r { s.ring r with mode := target }).answers (.ringMode ring mode)
            .ok [])) ∧
      (target = .off → (s.ring r).mode ≠ .off →
        (∃ c, (s.capture c).ring = r ∧ (s.capture c).state ≠ .free) →
        exec (.ringMode ring mode) s = .next (s.answers (.ringMode ring mode) .busy [])) ∧
      (target = .off →
        (s.ring r).mode = .off ∨ (∀ c, (s.capture c).ring = r → (s.capture c).state = .free) →
        exec (.ringMode ring mode) s =
          .next ((s.putRing r { s.ring r with mode := .off }).answers (.ringMode ring mode)
            .ok []))

/-- READ EXTREMES: RANGE above 7; else, in any mode, the reply holds the record as it stands, an empty
pending record is set up and the commit becomes pending. CLEAR empties the event queue, sets its sequence
counter to 0 and empties every ring's extremes, and changes nothing else (R38, R39, R149, R162, R168). -/
def Obligations.ReadExtremesAndClear : Prop :=
  (∀ s : State, s.atFrameStart = true →
    ∃ t : State, exec .clear s = .next (t.answers .clear .ok []) ∧
      t = { s with queue := ⟨[], false, 0#16⟩, rings := t.rings } ∧
      ∀ r, t.ring r = { s.ring r with extremes := ⟨0, none, none⟩ }) ∧
  ∀ (ring : Byte) (s : State), s.atFrameStart = true →
    (7 < ring.toNat →
      exec (.readExtremes ring) s = .next (s.answers (.readExtremes ring) .range [])) ∧
    ∀ r : Fin 8, ring = BitVec.ofNat 8 r.val →
      exec (.readExtremes ring) s =
        .next ({ s.putRing r { s.ring r with pendingExtremes := some ⟨0, none, none⟩ } with
          link := { s.link with commit := some (.readExtremes r) } }.answers (.readExtremes ring) .ok
          (bytes32 (BitVec.ofNat 32 (s.ring r).extremes.count) ++
           [if (s.ring r).extremes.min.isSome then 1#8 else 0#8] ++
           bytes24 (BitVec.ofInt 24 ((s.ring r).extremes.min.getD 0)) ++
           bytes24 (BitVec.ofInt 24 ((s.ring r).extremes.max.getD 0))))

/-! ### Settings, events -/

/-- SET POOL, in order: BUSY while the map holds an entry or the current request a slot target; RANGE for a
base off 40H or a number above 512; OVERLAP; else the settings replaced, the free list 0, 1, … rebuilt,
and POOL_LOW worked out again, with an event when it enters (R95, R96, R115). -/
def Obligations.SetPoolResults : Prop :=
  ∀ (base : BitVec 32) (n low : BitVec 16) (c : Instr) (busy overlap : Prop) (s : State),
    c = .setPool base n low → s.atFrameStart = true →
    (busy ↔ s.pool.map ≠ [] ∨ ∃ q, s.path.current = some q ∧ q.slotTarget ≠ none) →
    (overlap ↔ n ≠ 0#16 ∧ (4294967296 < base.toNat + 64 * n.toNat ∨
      ∃ r, (s.ring r).cfg.sizeBlocks ≠ 0 ∧
        base.toNat < (s.ring r).cfg.base.toNat + 64 * (s.ring r).cfg.sizeBlocks ∧
        (s.ring r).cfg.base.toNat < base.toNat + 64 * n.toNat)) →
    (busy → exec c s = .next (s.answers c .busy [])) ∧
    (¬busy → base.toNat % 64 ≠ 0 ∨ 512 < n.toNat ∨ 512 < low.toNat →
      exec c s = .next (s.answers c .range [])) ∧
    (¬busy → base.toNat % 64 = 0 → n.toNat ≤ 512 → low.toNat ≤ 512 →
      (overlap → exec c s = .next (s.answers c .overlap [])) ∧
      (¬overlap → ∃ q : EventQueue,
        (s.pool.low = false ∧ n.toNat < low.toNat →
          q = arrive ⟨.poolLow, none, none, none, some (n.toNat : Int), 0#8⟩ s.queue) ∧
        (s.pool.low = true ∨ low.toNat ≤ n.toNat → q = s.queue) ∧
        exec c s =
          .next ({ s with pool := ⟨base, n.toNat, low.toNat, List.range n.toNat, []⟩
                          queue := q }.answers c .ok [])))

/-- SET PATH, SET VIEW and SET EVENTS: the ranges each refuses with RANGE, changing nothing but the link;
else the settings they write, together, and no other (R169, R171, R172); SET PATH brings no decision of
the arbiter itself (log 11). -/
def Obligations.SettingsCommands : Prop :=
  ∀ s : State, s.atFrameStart = true →
    (∀ (timeout : BitVec 16) (share : Byte),
      (1 ≤ timeout.toNat ∧ timeout.toNat ≤ 255 →
        exec (.setPath timeout share) s = .next (s.answers (.setPath timeout share) .range [])) ∧
      (timeout = 0#16 ∨ 256 ≤ timeout.toNat →
        exec (.setPath timeout share) s =
          .next ({ s with path := { s.path with dnTimeout := timeout.toNat
                                                share := share.toNat } }.answers
            (.setPath timeout share) .ok []))) ∧
    (∀ master view : Byte,
      (15 < master.toNat ∨ 1 < view.toNat →
        exec (.setView master view) s = .next (s.answers (.setView master view) .range [])) ∧
      ∀ (m : Fin 16) (v : View), master = BitVec.ofNat 8 m.val →
        (view = 0#8 ∧ v = .live ∨ view = 1#8 ∧ v = .review) →
        ∃ t : State, exec (.setView master view) s =
            .next (t.answers (.setView master view) .ok []) ∧
          t = { s with path := { s.path with views := t.path.views } } ∧
          t.view m = v ∧ ∀ m', m' ≠ m → t.view m' = s.view m') ∧
    ∀ watermark mask : Byte,
      (watermark = 0#8 ∨ 64 < watermark.toNat ∨ 15 < mask.toNat →
        exec (.setEvents watermark mask) s =
          .next (s.answers (.setEvents watermark mask) .range [])) ∧
      (watermark ≠ 0#8 → watermark.toNat ≤ 64 → mask.toNat ≤ 15 →
        exec (.setEvents watermark mask) s =
          .next ({ s with attn := ⟨watermark.toNat, ⟨mask.getLsbD 0, mask.getLsbD 1,
            mask.getLsbD 2, mask.getLsbD 3⟩⟩ }.answers (.setEvents watermark mask) .ok []))

/-- The arrival of an event: appended with the next seq at 62 records or fewer; at 63 dropped, and an open
OVERFLOW record with count 1 appended in its place; while that record is open, dropped and counted up to
65535, with no seq taken (R140 to R142). -/
def Obligations.ArrivalRule : Prop :=
  ∀ (e : Event) (q : EventQueue),
    (q.overflowOpen = false → q.records.length ≤ 62 →
      arrive e q = ⟨q.records ++ [⟨q.nextSeq, e⟩], false, q.nextSeq + 1#16⟩) ∧
    (q.overflowOpen = false → q.records.length = 63 →
      arrive e q =
        ⟨q.records ++ [⟨q.nextSeq, ⟨.overflow, none, none, none, some 1, 0#8⟩⟩], true,
         q.nextSeq + 1#16⟩) ∧
    ∀ (front : List EventRecord) (seq : BitVec 16) (n : Int), q.overflowOpen = true →
      q.records = front ++ [⟨seq, ⟨.overflow, none, none, none, some n, 0#8⟩⟩] →
      arrive e q =
        ⟨front ++ [⟨seq, ⟨.overflow, none, none, none, some (min (n + 1) 65535), 0#8⟩⟩], true,
         q.nextSeq⟩

/-- PEEK EVENT and POP EVENT: EMPTY on an empty queue; else the head record's bytes and the length of the
list, the head staying in place; POP EVENT alone makes its commit pending (R146, R147, R162, R176). -/
def Obligations.PeekAndPop : Prop :=
  ∀ s : State, s.atFrameStart = true →
    (s.queue.records = [] →
      exec .peekEvent s = .next (s.answers .peekEvent .empty []) ∧
      exec .popEvent s = .next (s.answers .popEvent .empty [])) ∧
    ∀ (e : EventRecord) (es : List EventRecord) (data : List Byte),
      s.queue.records = e :: es →
      data = bytes16 e.seq ++
        [eventCode e.event.kind,
         (if e.event.value.isSome then 8#8 else 0#8) |||
         (if e.event.address.isSome then 4#8 else 0#8) |||
         (if e.event.capture.isSome then 2#8 else 0#8) |||
         (if e.event.ring.isSome then 1#8 else 0#8),
         BitVec.ofNat 8 ((e.event.ring.map fun r => r.val).getD 0),
         BitVec.ofNat 8 ((e.event.capture.map fun c => c.val).getD 0)] ++
        bytes32 (e.event.address.getD 0#32) ++
        bytes24 (BitVec.ofInt 24 (e.event.value.getD 0)) ++
        [e.event.detail, BitVec.ofNat 8 (es.length + 1)] →
      exec .peekEvent s = .next (s.answers .peekEvent .ok data) ∧
      exec .popEvent s =
        .next ({ s with link := { s.link with commit := some .popEvent } }.answers .popEvent .ok
          data)

/-- The attention code names the first present condition of FAULT, OVERFLOW, POOL_LOW, QUEUE, and is 0
exactly when none is present; ATTN is asserted exactly while a present condition is in the mask, and the
pin is low then (R150, R152, R153, R177). -/
def Obligations.AttentionRules : Prop :=
  ∀ s : State,
    (s.attentionCode = 0 ↔ s.engine.status ≠ .halted ∧ s.queue.overflowOpen = false ∧
      s.pool.lowWater ≤ s.pool.freeList.length ∧ s.queue.records.length < s.attn.watermark) ∧
    (s.attentionCode = 1 ↔ s.engine.status = .halted) ∧
    (s.attentionCode = 2 ↔ s.engine.status ≠ .halted ∧ s.queue.overflowOpen = true) ∧
    (s.attentionCode = 3 ↔ s.engine.status ≠ .halted ∧ s.queue.overflowOpen = false ∧
      s.pool.freeList.length < s.pool.lowWater) ∧
    (s.attentionCode = 4 ↔ s.engine.status ≠ .halted ∧ s.queue.overflowOpen = false ∧
      s.pool.lowWater ≤ s.pool.freeList.length ∧ s.attn.watermark ≤ s.queue.records.length) ∧
    (s.attnAsserted = true ↔
      s.attn.mask.fault = true ∧ s.engine.status = .halted ∨
      s.attn.mask.overflow = true ∧ s.queue.overflowOpen = true ∨
      s.attn.mask.poolLow = true ∧ s.pool.freeList.length < s.pool.lowWater ∨
      s.attn.mask.queue = true ∧ s.attn.watermark ≤ s.queue.records.length) ∧
    (s.attnPin = false ↔ s.attnAsserted = true)

/-! ### The merge engine -/

/-- RESUME and SKIP with the engine not HALTED are refused with STATE. HALTED: RESUME repeats the copy of
the faulted entry from its slot read, restart_pending as the slot target gives it. SKIP counts the entry's
words lost, sets PARTIAL for them and frees the slot; then the copy of the capture's next entry begins, or,
after its last, the capture is FREE with CAPTURE_FREE and the engine takes the next capture queued
(NextEntryAndHomeWords), IDLE when there is none. Both clear the fault record (R90, R91, R100, R101, R120
to R122, R131, R132); the arbiter decides at the end of the event (log 11). -/
def Obligations.ResumeAndSkip : Prop :=
  ∀ s : State, s.atFrameStart = true →
    (s.engine.status ≠ .halted →
      exec .resume s = .next (s.answers .resume .state []) ∧
      exec .skip s = .next (s.answers .skip .state [])) ∧
    ∀ (k : CopyRecord) (e : MapEntry), s.engine.status = .halted → s.engine.copy = some k →
      s.entry k.ring k.block = some e →
      exec .resume s =
        .next ((arbitrate { s with
          pool := { s.pool with map := changeEntry s.pool.map k.ring k.block fun x =>
            { x with state := .copying, restartPending := s.targets k.ring k.block } }
          engine := { s.engine with
            status := .copying, fault := none
            copy := some ⟨k.ring, k.block, homeOf (s.ring k.ring).cfg k.block, e.slot, .readWait, [],
                          0#16⟩ }
          dn := { s.dn with shareCount := 0 } }).answers .resume .ok []) ∧
      ∀ (x : Capture) (p : Pool), (s.capture e.capture).state = .merging →
        x = { s.capture e.capture with
          entries := (s.capture e.capture).entries - 1
          lostWords := min ((s.capture e.capture).lostWords + (positions e.written).length) 65535
          isPartial := (s.capture e.capture).isPartial ||
            decide (0 < (s.capture e.capture).lostWords + (positions e.written).length) } →
        p = { s.pool with map := dropEntry s.pool.map k.ring k.block
                          freeList := s.pool.freeList ++ [e.slot] } →
        (∀ n e', 2 ≤ (s.capture e.capture).entries → s.engine.cursor = some n →
          nextEntry { s with pool := p } e.capture n = some e' →
          exec .skip s =
            .next ((arbitrate { s.putCapture e.capture x with
              pool := { p with map := changeEntry p.map e'.ring e'.block fun y =>
                { y with state := .copying, restartPending := s.targets e'.ring e'.block } }
              engine := { s.engine with
                status := .copying, fault := none
                cursor := some ((e'.block + 1) % (s.ring e'.ring).cfg.sizeBlocks)
                copy := some ⟨e'.ring, e'.block, homeOf (s.ring e'.ring).cfg e'.block, e'.slot,
                              .readWait, [], 0#16⟩ }
              dn := { s.dn with shareCount := 0 } }).answers .skip .ok [])) ∧
        ∀ u : State, (s.capture e.capture).entries = 1 →
          u = { s.putCapture e.capture { x with state := .free } with
            pool := p
            engine := { s.engine with status := .idle, merging := none, copy := none, fault := none }
            queue := arrive ⟨.captureFree, some x.ring, some e.capture,
              some (BitVec.ofNat 32 (65536 * x.spilledWords + x.lostWords)),
              some (x.divertedBlocks : Int),
              (if x.isPartial then 2#8 else 0#8) ||| (if x.cut then 1#8 else 0#8)⟩ s.queue } →
          exec .skip s =
            .next ((arbitrate (takeQueue s.engine.queue u)).answers .skip .ok []) ∧
          (s.engine.queue = [] → s.PortServed → exec .skip s = .next (u.answers .skip .ok []))

/-- The transactions of a block copy complete with OKAY, whatever the path unit does. The slot read: the
slot data are the response's words, the copy set is the written set as it stands, the home write waits.
The home write, restart_pending set: the entry stays, the capture's restarts count goes up and a fresh
slot read waits. Clear: the entry is removed and its slot freed; the copy of the capture's next entry
begins, or, after its last entry, the capture is FREE with CAPTURE_FREE and the engine takes the next
capture queued (NextEntryAndHomeWords), IDLE when there is none. A copy that begins sets restart_pending as
the slot target of the path unit's request gives it. Then an IDLE path unit takes what waits at UP
(PathTransactionCompletes) and the arbiter decides (R13, R14, R90, R100, R101, R120 to R125; log 11); with
no path request, the repeated slot read is issued at once. -/
def Obligations.BlockCopyCompletes : Prop :=
  ∀ (t : DnTxn) (k : CopyRecord) (c : Fin 16) (e : MapEntry) (s : State),
    s.pins.rstn = true → s.dn.outstanding = some t → t.side = .engine →
    s.engine.status = .copying → s.engine.copy = some k →
    s.engine.merging = some c → s.entry k.ring k.block = some e → e.capture = c →
    (∀ data u, k.phase = .read → t.dir = .read → t.length = data.length →
      u = { s with
        engine := { s.engine with
          copy := some { k with phase := .writeWait, slotData := data, copySet := e.written } }
        dn := { s.dn with outstanding := none, shareCount := 0 } } →
      exec (.dnResponse t.tag .okay data) s = .next (arbitrate (takeWaiting s.up.waiting u)) ∧
      (s.path.current ≠ none ∨ s.up.waiting = [] →
        exec (.dnResponse t.tag .okay data) s = .next (arbitrate u))) ∧
    (∀ u : State, k.phase = .write → t.dir = .write → e.restartPending = true →
      u = { s.putCapture c { s.capture c with
          restarts := min ((s.capture c).restarts + 1) 65535 } with
        pool := { s.pool with map := changeEntry s.pool.map k.ring k.block fun x =>
          { x with state := .copying, restartPending := s.targets k.ring k.block } }
        engine := { s.engine with
          copy := some ⟨k.ring, k.block, homeOf (s.ring k.ring).cfg k.block, e.slot, .readWait, [],
                        0#16⟩ }
        dn := { s.dn with outstanding := none, shareCount := 0 } } →
      exec (.dnResponse t.tag .okay []) s = .next (arbitrate (takeWaiting s.up.waiting u)) ∧
      (s.path.current ≠ none ∨ s.up.waiting = [] →
        exec (.dnResponse t.tag .okay []) s = .next (arbitrate u)) ∧
      (s.path.current = none → s.up.waiting = [] →
        exec (.dnResponse t.tag .okay []) s =
          .next { u with
            engine := { s.engine with
              copy := some ⟨k.ring, k.block, homeOf (s.ring k.ring).cfg k.block, e.slot, .read, [],
                            0#16⟩ }
            dn := ⟨some ⟨.engine, 15, true, s.dn.tagCounter, .read,
                         slotAddr s.pool.areaBase e.slot 0, 16, [], s.path.dnTimeout⟩,
                   s.dn.tagCounter + 1#4, 0⟩ })) ∧
    (∀ n e' u, k.phase = .write → t.dir = .write → e.restartPending = false →
      (s.capture c).state = .merging → 2 ≤ (s.capture c).entries → s.engine.cursor = some n →
      nextEntry { s with pool := { s.pool with map := dropEntry s.pool.map k.ring k.block } } c n =
        some e' →
      u = { s.putCapture c { s.capture c with entries := (s.capture c).entries - 1 } with
        pool := { s.pool with
          map := changeEntry (dropEntry s.pool.map k.ring k.block) e'.ring e'.block fun x =>
            { x with state := .copying, restartPending := s.targets e'.ring e'.block }
          freeList := s.pool.freeList ++ [e.slot] }
        engine := { s.engine with
          cursor := some ((e'.block + 1) % (s.ring e'.ring).cfg.sizeBlocks)
          copy := some ⟨e'.ring, e'.block, homeOf (s.ring e'.ring).cfg e'.block, e'.slot, .readWait,
                        [], 0#16⟩ }
        dn := { s.dn with outstanding := none, shareCount := 0 } } →
      exec (.dnResponse t.tag .okay []) s = .next (arbitrate (takeWaiting s.up.waiting u)) ∧
      (s.path.current ≠ none ∨ s.up.waiting = [] →
        exec (.dnResponse t.tag .okay []) s = .next (arbitrate u))) ∧
    ∀ u : State, k.phase = .write → t.dir = .write → e.restartPending = false →
      (s.capture c).state = .merging → (s.capture c).entries = 1 →
      u = { s.putCapture c { s.capture c with state := .free, entries := 0 } with
          pool := { s.pool with map := dropEntry s.pool.map k.ring k.block
                                freeList := s.pool.freeList ++ [e.slot] }
          engine := { s.engine with status := .idle, merging := none, copy := none }
          dn := { s.dn with outstanding := none }
          queue := arrive ⟨.captureFree, some (s.capture c).ring, some c,
            some (BitVec.ofNat 32 (65536 * (s.capture c).spilledWords + (s.capture c).lostWords)),
            some ((s.capture c).divertedBlocks : Int),
            (if (s.capture c).isPartial then 2#8 else 0#8) |||
              (if (s.capture c).cut then 1#8 else 0#8)⟩ s.queue } →
      exec (.dnResponse t.tag .okay []) s =
        .next (arbitrate (takeWaiting s.up.waiting (takeQueue s.engine.queue u))) ∧
      (s.path.current ≠ none ∨ s.up.waiting = [] →
        exec (.dnResponse t.tag .okay []) s = .next (arbitrate (takeQueue s.engine.queue u))) ∧
      (s.engine.queue = [] → s.path.current = none → s.up.waiting = [] →
        exec (.dnResponse t.tag .okay []) s = .next u)

/-- The next entry to copy: of the map entries of the capture's ring from the cursor forward to its last
block, the one nearest the cursor; none exactly when there is none. The words of a home write: at the
positions of the copy set the slot data with all strobes, at the others no strobe. The take of queued
captures by an IDLE engine, from the head: one without entries becomes FREE with CAPTURE_FREE and the next
is taken; one with entries becomes MERGING, and the copy of its first entry begins (R90, R120 to R122,
R124). -/
def Obligations.NextEntryAndHomeWords : Prop :=
  (∀ (c : Fin 16) (cursor size reach : Nat) (s : State),
    size = (s.ring (s.capture c).ring).cfg.sizeBlocks →
    reach = forward size cursor (s.capture c).lastBlock →
    (nextEntry s c cursor = none ↔
      ∀ e ∈ s.pool.map, e.ring = (s.capture c).ring → reach < forward size cursor e.block) ∧
    ∀ e, nextEntry s c cursor = some e →
      e ∈ s.pool.map ∧ e.ring = (s.capture c).ring ∧ forward size cursor e.block ≤ reach ∧
      ∀ e' ∈ s.pool.map, e'.ring = (s.capture c).ring →
        forward size cursor e.block ≤ forward size cursor e'.block) ∧
  (∀ (k : CopyRecord) (n i : Nat), (homeWriteWords k n).length = 16 ∧
    ∀ w, (homeWriteWords k n)[i]? = some w →
      (k.copySet.getLsbD i = true →
        w.strobes = 15#4 ∧ ∀ d, k.slotData[i]? = some d → w.data = d) ∧
      (k.copySet.getLsbD i = false → w.strobes = 0#4)) ∧
  ∀ u : State, takeQueue [] u = { u with engine := { u.engine with queue := [] } } ∧
    ∀ (c : Fin 16) (rest : List (Fin 16)) (x : Capture), x = u.capture c →
      (x.entries = 0 →
        takeQueue (c :: rest) u = takeQueue rest { u.putCapture c { x with state := .free } with
          engine := { u.engine with queue := rest }
          queue := arrive ⟨.captureFree, some x.ring, some c,
            some (BitVec.ofNat 32 (65536 * x.spilledWords + x.lostWords)),
            some (x.divertedBlocks : Int),
            (if x.isPartial then 2#8 else 0#8) ||| (if x.cut then 1#8 else 0#8)⟩ u.queue }) ∧
      ∀ e, x.entries ≠ 0 → nextEntry u c x.firstBlock = some e →
        takeQueue (c :: rest) u = { u.putCapture c { x with state := .merging } with
          pool := { u.pool with map := changeEntry u.pool.map e.ring e.block fun y =>
            { y with state := .copying, restartPending := u.targets e.ring e.block } }
          engine := { u.engine with
            queue := rest, status := .copying, merging := some c
            cursor := some ((e.block + 1) % (u.ring e.ring).cfg.sizeBlocks)
            copy := some ⟨e.ring, e.block, homeOf (u.ring e.ring).cfg e.block, e.slot, .readWait, [],
                          0#16⟩ }
          dn := { u.dn with shareCount := 0 } }

/-! ### Invariants -/

/-- The state right after reset meets every invariant below. -/
def Obligations.ResetIsSound : Prop :=
  State.reset.queue.Sound ∧ State.reset.pool.Sound ∧ State.reset.MapSound ∧
  State.reset.ReleaseSound ∧ State.reset.OffSound ∧ State.reset.RingsSound ∧
  State.reset.SpansDisjoint ∧ State.reset.PortServed ∧ State.reset.EngineSound ∧
  State.reset.LinkSound

/-- Every step keeps the event queue sound: at most 64 records with running seqs, an OVERFLOW record open
exactly at 64, last, with a count from 1 to 65535 (R139 to R142). -/
def Obligations.StepKeepsQueueSound : Prop :=
  ∀ s t : State, step s = .next t → s.queue.Sound → t.queue.Sound

/-- Every step keeps every slot in exactly one place, free or in one map entry, the map's blocks distinct,
every entry with an owner that is not FREE and on its ring, and entries counting what a capture owns
(R90, R96, R98). -/
def Obligations.StepKeepsMapSound : Prop :=
  ∀ s t : State, step s = .next t →
    (s.pool.Sound → t.pool.Sound) ∧ (s.MapSound → t.MapSound)

/-- Every step keeps the release queue holding exactly the captures in RELEASING, each once, and, with
that, OFF rings without captures (R25, R86, R118). -/
def Obligations.StepKeepsReleaseSound : Prop :=
  ∀ s t : State, step s = .next t →
    (s.ReleaseSound → t.ReleaseSound) ∧ (s.ReleaseSound → s.OffSound → t.OffSound)

/-- Every step keeps the rings' regions and heads sound: a region on a block boundary within the address
space, a ring not OFF configured, its head in its region (R21, R22, R25, R35). -/
def Obligations.StepKeepsRingsSound : Prop :=
  ∀ s t : State, step s = .next t → s.RingsSound → t.RingsSound

/-- Every step keeps the spans on a ring apart: no block lies in the spans of two captures that are not
FREE (R70). -/
def Obligations.StepKeepsSpansDisjoint : Prop :=
  ∀ s t : State, step s = .next t → s.RingsSound → s.ReleaseSound → s.OffSound →
    s.SpansDisjoint → t.SpansDisjoint

/-- Every step leaves no side waiting on a free port, and keeps the merge engine's records fitting its state
and the DN port (R14, R119, R128, R133). -/
def Obligations.StepKeepsPortAndEngine : Prop :=
  ∀ s t : State, step s = .next t →
    (s.PortServed → t.PortServed) ∧ (s.EngineSound → t.EngineSound)

/-- Every step keeps the link sound: out of IDLE only with SCS low and RSTN high, a commit pending only in
TURN and REPLY, a pending extremes record exactly for a pending READ EXTREMES, SDO high-impedance exactly
in IDLE and at ones in REQUEST, fewer than eight bits of a byte kept, and the reply's position within the
reply (R38, R155, R158, R159, R162). -/
def Obligations.StepKeepsLinkSound : Prop :=
  ∀ s t : State, step s = .next t → s.LinkSound → t.LinkSound

end
end

