-- ==== Sys2Proof/Laws/Bytes.lean ====
section
/-! SUPPORT. Bytes: a value split into the bytes of R174, most significant first, and joined again. -/

namespace Sys2Proof

theorem be16_bytes16 (x : BitVec 16) : be16 (x.extractLsb' 8 8) (x.extractLsb' 0 8) = x := by
  apply BitVec.eq_of_getLsbD_eq
  intro i hi
  simp only [be16, BitVec.getLsbD_append, BitVec.getLsbD_extractLsb', Nat.zero_add]
  by_cases h : i < 8
  · simp [h]
  · simp only [h, if_false]
    rw [show 8 + (i - 8) = i by omega]; simp; omega

theorem be24_bytes24 (x : BitVec 24) :
    be24 (x.extractLsb' 16 8) (x.extractLsb' 8 8) (x.extractLsb' 0 8) = x := by
  apply BitVec.eq_of_getLsbD_eq
  intro i hi
  simp only [be24, BitVec.getLsbD_append, BitVec.getLsbD_extractLsb', Nat.zero_add]
  by_cases h : i < 8
  · simp [h]
  · by_cases h' : i - 8 < 8
    · simp only [h, h', if_false, if_true]
      rw [show 8 + (i - 8) = i by omega]; simp
    · simp only [h, h', if_false]
      rw [show 16 + (i - 8 - 8) = i by omega]; simp; omega

theorem be32_bytes32 (x : BitVec 32) :
    be32 (x.extractLsb' 24 8) (x.extractLsb' 16 8) (x.extractLsb' 8 8) (x.extractLsb' 0 8) = x := by
  apply BitVec.eq_of_getLsbD_eq
  intro i hi
  simp only [be32, BitVec.getLsbD_append, BitVec.getLsbD_extractLsb', Nat.zero_add]
  by_cases h : i < 8
  · simp [h]
  · by_cases h' : i - 8 < 8
    · simp only [h, h', if_false, if_true]
      rw [show 8 + (i - 8) = i by omega]; simp
    · by_cases h'' : i - 8 - 8 < 8
      · simp only [h, h', h'', if_false, if_true]
        rw [show 16 + (i - 8 - 8) = i by omega]; simp
      · simp only [h, h', h'', if_false]
        rw [show 24 + (i - 8 - 8 - 8) = i by omega]; simp; omega

end Sys2Proof
end

