-- ==== Sys2Proof/Laws/State.lean ====
section
/-! SUPPORT. Field-by-field lemmas of the updates: what each update leaves, one field at a time, true by
rfl, and reading back an indexed item after writing it. -/

namespace Sys2Proof.Machine

/-! ### putRing -/

@[simp] theorem putRing_pending (s : State) (r : Fin 8) (x : Ring) : (s.putRing r x).pending = s.pending := rfl
@[simp] theorem putRing_pins (s : State) (r : Fin 8) (x : Ring) : (s.putRing r x).pins = s.pins := rfl
@[simp] theorem putRing_up (s : State) (r : Fin 8) (x : Ring) : (s.putRing r x).up = s.up := rfl
@[simp] theorem putRing_path (s : State) (r : Fin 8) (x : Ring) : (s.putRing r x).path = s.path := rfl
@[simp] theorem putRing_dn (s : State) (r : Fin 8) (x : Ring) : (s.putRing r x).dn = s.dn := rfl
@[simp] theorem putRing_det (s : State) (r : Fin 8) (x : Ring) : (s.putRing r x).det = s.det := rfl
@[simp] theorem putRing_caps (s : State) (r : Fin 8) (x : Ring) : (s.putRing r x).caps = s.caps := rfl
@[simp] theorem putRing_pool (s : State) (r : Fin 8) (x : Ring) : (s.putRing r x).pool = s.pool := rfl
@[simp] theorem putRing_engine (s : State) (r : Fin 8) (x : Ring) : (s.putRing r x).engine = s.engine := rfl
@[simp] theorem putRing_queue (s : State) (r : Fin 8) (x : Ring) : (s.putRing r x).queue = s.queue := rfl
@[simp] theorem putRing_attn (s : State) (r : Fin 8) (x : Ring) : (s.putRing r x).attn = s.attn := rfl
@[simp] theorem putRing_link (s : State) (r : Fin 8) (x : Ring) : (s.putRing r x).link = s.link := rfl
@[simp] theorem putRing_unstated (s : State) (r : Fin 8) (x : Ring) : (s.putRing r x).unstated = s.unstated := rfl

/-! ### putCapture -/

@[simp] theorem putCapture_pending (s : State) (c : Fin 16) (x : Capture) : (s.putCapture c x).pending = s.pending := rfl
@[simp] theorem putCapture_pins (s : State) (c : Fin 16) (x : Capture) : (s.putCapture c x).pins = s.pins := rfl
@[simp] theorem putCapture_up (s : State) (c : Fin 16) (x : Capture) : (s.putCapture c x).up = s.up := rfl
@[simp] theorem putCapture_path (s : State) (c : Fin 16) (x : Capture) : (s.putCapture c x).path = s.path := rfl
@[simp] theorem putCapture_dn (s : State) (c : Fin 16) (x : Capture) : (s.putCapture c x).dn = s.dn := rfl
@[simp] theorem putCapture_rings (s : State) (c : Fin 16) (x : Capture) : (s.putCapture c x).rings = s.rings := rfl
@[simp] theorem putCapture_det (s : State) (c : Fin 16) (x : Capture) : (s.putCapture c x).det = s.det := rfl
@[simp] theorem putCapture_pool (s : State) (c : Fin 16) (x : Capture) : (s.putCapture c x).pool = s.pool := rfl
@[simp] theorem putCapture_engine (s : State) (c : Fin 16) (x : Capture) : (s.putCapture c x).engine = s.engine := rfl
@[simp] theorem putCapture_queue (s : State) (c : Fin 16) (x : Capture) : (s.putCapture c x).queue = s.queue := rfl
@[simp] theorem putCapture_attn (s : State) (c : Fin 16) (x : Capture) : (s.putCapture c x).attn = s.attn := rfl
@[simp] theorem putCapture_link (s : State) (c : Fin 16) (x : Capture) : (s.putCapture c x).link = s.link := rfl
@[simp] theorem putCapture_unstated (s : State) (c : Fin 16) (x : Capture) : (s.putCapture c x).unstated = s.unstated := rfl

/-! ### putLine -/

@[simp] theorem putLine_pending (s : State) (n : Fin 4) (x : Line) : (s.putLine n x).pending = s.pending := rfl
@[simp] theorem putLine_pins (s : State) (n : Fin 4) (x : Line) : (s.putLine n x).pins = s.pins := rfl
@[simp] theorem putLine_up (s : State) (n : Fin 4) (x : Line) : (s.putLine n x).up = s.up := rfl
@[simp] theorem putLine_path (s : State) (n : Fin 4) (x : Line) : (s.putLine n x).path = s.path := rfl
@[simp] theorem putLine_dn (s : State) (n : Fin 4) (x : Line) : (s.putLine n x).dn = s.dn := rfl
@[simp] theorem putLine_rings (s : State) (n : Fin 4) (x : Line) : (s.putLine n x).rings = s.rings := rfl
@[simp] theorem putLine_caps (s : State) (n : Fin 4) (x : Line) : (s.putLine n x).caps = s.caps := rfl
@[simp] theorem putLine_pool (s : State) (n : Fin 4) (x : Line) : (s.putLine n x).pool = s.pool := rfl
@[simp] theorem putLine_engine (s : State) (n : Fin 4) (x : Line) : (s.putLine n x).engine = s.engine := rfl
@[simp] theorem putLine_queue (s : State) (n : Fin 4) (x : Line) : (s.putLine n x).queue = s.queue := rfl
@[simp] theorem putLine_attn (s : State) (n : Fin 4) (x : Line) : (s.putLine n x).attn = s.attn := rfl
@[simp] theorem putLine_link (s : State) (n : Fin 4) (x : Line) : (s.putLine n x).link = s.link := rfl
@[simp] theorem putLine_unstated (s : State) (n : Fin 4) (x : Line) : (s.putLine n x).unstated = s.unstated := rfl

/-! ### raise -/

@[simp] theorem raise_pending (e : Event) (s : State) : (raise e s).pending = s.pending := rfl
@[simp] theorem raise_pins (e : Event) (s : State) : (raise e s).pins = s.pins := rfl
@[simp] theorem raise_up (e : Event) (s : State) : (raise e s).up = s.up := rfl
@[simp] theorem raise_path (e : Event) (s : State) : (raise e s).path = s.path := rfl
@[simp] theorem raise_dn (e : Event) (s : State) : (raise e s).dn = s.dn := rfl
@[simp] theorem raise_rings (e : Event) (s : State) : (raise e s).rings = s.rings := rfl
@[simp] theorem raise_det (e : Event) (s : State) : (raise e s).det = s.det := rfl
@[simp] theorem raise_caps (e : Event) (s : State) : (raise e s).caps = s.caps := rfl
@[simp] theorem raise_pool (e : Event) (s : State) : (raise e s).pool = s.pool := rfl
@[simp] theorem raise_engine (e : Event) (s : State) : (raise e s).engine = s.engine := rfl
@[simp] theorem raise_attn (e : Event) (s : State) : (raise e s).attn = s.attn := rfl
@[simp] theorem raise_link (e : Event) (s : State) : (raise e s).link = s.link := rfl
@[simp] theorem raise_unstated (e : Event) (s : State) : (raise e s).unstated = s.unstated := rfl

/-! ### respond -/

@[simp] theorem respond_pending (m : Fin 16) (st : BusStatus) (d : List Word) (s : State) : (respond m st d s).pending = s.pending := rfl
@[simp] theorem respond_pins (m : Fin 16) (st : BusStatus) (d : List Word) (s : State) : (respond m st d s).pins = s.pins := rfl
@[simp] theorem respond_path (m : Fin 16) (st : BusStatus) (d : List Word) (s : State) : (respond m st d s).path = s.path := rfl
@[simp] theorem respond_dn (m : Fin 16) (st : BusStatus) (d : List Word) (s : State) : (respond m st d s).dn = s.dn := rfl
@[simp] theorem respond_rings (m : Fin 16) (st : BusStatus) (d : List Word) (s : State) : (respond m st d s).rings = s.rings := rfl
@[simp] theorem respond_det (m : Fin 16) (st : BusStatus) (d : List Word) (s : State) : (respond m st d s).det = s.det := rfl
@[simp] theorem respond_caps (m : Fin 16) (st : BusStatus) (d : List Word) (s : State) : (respond m st d s).caps = s.caps := rfl
@[simp] theorem respond_pool (m : Fin 16) (st : BusStatus) (d : List Word) (s : State) : (respond m st d s).pool = s.pool := rfl
@[simp] theorem respond_engine (m : Fin 16) (st : BusStatus) (d : List Word) (s : State) : (respond m st d s).engine = s.engine := rfl
@[simp] theorem respond_queue (m : Fin 16) (st : BusStatus) (d : List Word) (s : State) : (respond m st d s).queue = s.queue := rfl
@[simp] theorem respond_attn (m : Fin 16) (st : BusStatus) (d : List Word) (s : State) : (respond m st d s).attn = s.attn := rfl
@[simp] theorem respond_link (m : Fin 16) (st : BusStatus) (d : List Word) (s : State) : (respond m st d s).link = s.link := rfl
@[simp] theorem respond_unstated (m : Fin 16) (st : BusStatus) (d : List Word) (s : State) : (respond m st d s).unstated = s.unstated := rfl

/-! ### issue -/

@[simp] theorem issue_pending (t : DnTxn) (s : State) : (issue t s).pending = s.pending := rfl
@[simp] theorem issue_pins (t : DnTxn) (s : State) : (issue t s).pins = s.pins := rfl
@[simp] theorem issue_up (t : DnTxn) (s : State) : (issue t s).up = s.up := rfl
@[simp] theorem issue_path (t : DnTxn) (s : State) : (issue t s).path = s.path := rfl
@[simp] theorem issue_rings (t : DnTxn) (s : State) : (issue t s).rings = s.rings := rfl
@[simp] theorem issue_det (t : DnTxn) (s : State) : (issue t s).det = s.det := rfl
@[simp] theorem issue_caps (t : DnTxn) (s : State) : (issue t s).caps = s.caps := rfl
@[simp] theorem issue_pool (t : DnTxn) (s : State) : (issue t s).pool = s.pool := rfl
@[simp] theorem issue_engine (t : DnTxn) (s : State) : (issue t s).engine = s.engine := rfl
@[simp] theorem issue_queue (t : DnTxn) (s : State) : (issue t s).queue = s.queue := rfl
@[simp] theorem issue_attn (t : DnTxn) (s : State) : (issue t s).attn = s.attn := rfl
@[simp] theorem issue_link (t : DnTxn) (s : State) : (issue t s).link = s.link := rfl
@[simp] theorem issue_unstated (t : DnTxn) (s : State) : (issue t s).unstated = s.unstated := rfl

/-! ### beginWait -/

@[simp] theorem beginWait_pending (s : State) : (beginWait s).pending = s.pending := rfl
@[simp] theorem beginWait_pins (s : State) : (beginWait s).pins = s.pins := rfl
@[simp] theorem beginWait_up (s : State) : (beginWait s).up = s.up := rfl
@[simp] theorem beginWait_path (s : State) : (beginWait s).path = s.path := rfl
@[simp] theorem beginWait_rings (s : State) : (beginWait s).rings = s.rings := rfl
@[simp] theorem beginWait_det (s : State) : (beginWait s).det = s.det := rfl
@[simp] theorem beginWait_caps (s : State) : (beginWait s).caps = s.caps := rfl
@[simp] theorem beginWait_pool (s : State) : (beginWait s).pool = s.pool := rfl
@[simp] theorem beginWait_engine (s : State) : (beginWait s).engine = s.engine := rfl
@[simp] theorem beginWait_queue (s : State) : (beginWait s).queue = s.queue := rfl
@[simp] theorem beginWait_attn (s : State) : (beginWait s).attn = s.attn := rfl
@[simp] theorem beginWait_link (s : State) : (beginWait s).link = s.link := rfl
@[simp] theorem beginWait_unstated (s : State) : (beginWait s).unstated = s.unstated := rfl

/-! ### engineIdle -/

@[simp] theorem engineIdle_pending (s : State) : (engineIdle s).pending = s.pending := rfl
@[simp] theorem engineIdle_pins (s : State) : (engineIdle s).pins = s.pins := rfl
@[simp] theorem engineIdle_up (s : State) : (engineIdle s).up = s.up := rfl
@[simp] theorem engineIdle_path (s : State) : (engineIdle s).path = s.path := rfl
@[simp] theorem engineIdle_dn (s : State) : (engineIdle s).dn = s.dn := rfl
@[simp] theorem engineIdle_rings (s : State) : (engineIdle s).rings = s.rings := rfl
@[simp] theorem engineIdle_det (s : State) : (engineIdle s).det = s.det := rfl
@[simp] theorem engineIdle_caps (s : State) : (engineIdle s).caps = s.caps := rfl
@[simp] theorem engineIdle_pool (s : State) : (engineIdle s).pool = s.pool := rfl
@[simp] theorem engineIdle_queue (s : State) : (engineIdle s).queue = s.queue := rfl
@[simp] theorem engineIdle_attn (s : State) : (engineIdle s).attn = s.attn := rfl
@[simp] theorem engineIdle_link (s : State) : (engineIdle s).link = s.link := rfl
@[simp] theorem engineIdle_unstated (s : State) : (engineIdle s).unstated = s.unstated := rfl

/-! ### takeCapture -/

@[simp] theorem takeCapture_pending (c : Fin 16) (rest : List (Fin 16)) (s : State) : (takeCapture c rest s).pending = s.pending := rfl
@[simp] theorem takeCapture_pins (c : Fin 16) (rest : List (Fin 16)) (s : State) : (takeCapture c rest s).pins = s.pins := rfl
@[simp] theorem takeCapture_up (c : Fin 16) (rest : List (Fin 16)) (s : State) : (takeCapture c rest s).up = s.up := rfl
@[simp] theorem takeCapture_path (c : Fin 16) (rest : List (Fin 16)) (s : State) : (takeCapture c rest s).path = s.path := rfl
@[simp] theorem takeCapture_dn (c : Fin 16) (rest : List (Fin 16)) (s : State) : (takeCapture c rest s).dn = s.dn := rfl
@[simp] theorem takeCapture_rings (c : Fin 16) (rest : List (Fin 16)) (s : State) : (takeCapture c rest s).rings = s.rings := rfl
@[simp] theorem takeCapture_det (c : Fin 16) (rest : List (Fin 16)) (s : State) : (takeCapture c rest s).det = s.det := rfl
@[simp] theorem takeCapture_pool (c : Fin 16) (rest : List (Fin 16)) (s : State) : (takeCapture c rest s).pool = s.pool := rfl
@[simp] theorem takeCapture_queue (c : Fin 16) (rest : List (Fin 16)) (s : State) : (takeCapture c rest s).queue = s.queue := rfl
@[simp] theorem takeCapture_attn (c : Fin 16) (rest : List (Fin 16)) (s : State) : (takeCapture c rest s).attn = s.attn := rfl
@[simp] theorem takeCapture_link (c : Fin 16) (rest : List (Fin 16)) (s : State) : (takeCapture c rest s).link = s.link := rfl
@[simp] theorem takeCapture_unstated (c : Fin 16) (rest : List (Fin 16)) (s : State) : (takeCapture c rest s).unstated = s.unstated := rfl

/-! ### becomeHeld -/

@[simp] theorem becomeHeld_pending (c : Fin 16) (k : ReadyCause) (s : State) : (becomeHeld c k s).pending = s.pending := rfl
@[simp] theorem becomeHeld_pins (c : Fin 16) (k : ReadyCause) (s : State) : (becomeHeld c k s).pins = s.pins := rfl
@[simp] theorem becomeHeld_up (c : Fin 16) (k : ReadyCause) (s : State) : (becomeHeld c k s).up = s.up := rfl
@[simp] theorem becomeHeld_path (c : Fin 16) (k : ReadyCause) (s : State) : (becomeHeld c k s).path = s.path := rfl
@[simp] theorem becomeHeld_dn (c : Fin 16) (k : ReadyCause) (s : State) : (becomeHeld c k s).dn = s.dn := rfl
@[simp] theorem becomeHeld_rings (c : Fin 16) (k : ReadyCause) (s : State) : (becomeHeld c k s).rings = s.rings := rfl
@[simp] theorem becomeHeld_det (c : Fin 16) (k : ReadyCause) (s : State) : (becomeHeld c k s).det = s.det := rfl
@[simp] theorem becomeHeld_pool (c : Fin 16) (k : ReadyCause) (s : State) : (becomeHeld c k s).pool = s.pool := rfl
@[simp] theorem becomeHeld_engine (c : Fin 16) (k : ReadyCause) (s : State) : (becomeHeld c k s).engine = s.engine := rfl
@[simp] theorem becomeHeld_attn (c : Fin 16) (k : ReadyCause) (s : State) : (becomeHeld c k s).attn = s.attn := rfl
@[simp] theorem becomeHeld_link (c : Fin 16) (k : ReadyCause) (s : State) : (becomeHeld c k s).link = s.link := rfl
@[simp] theorem becomeHeld_unstated (c : Fin 16) (k : ReadyCause) (s : State) : (becomeHeld c k s).unstated = s.unstated := rfl

/-! ### becomeFree -/

@[simp] theorem becomeFree_pending (c : Fin 16) (s : State) : (becomeFree c s).pending = s.pending := rfl
@[simp] theorem becomeFree_pins (c : Fin 16) (s : State) : (becomeFree c s).pins = s.pins := rfl
@[simp] theorem becomeFree_up (c : Fin 16) (s : State) : (becomeFree c s).up = s.up := rfl
@[simp] theorem becomeFree_path (c : Fin 16) (s : State) : (becomeFree c s).path = s.path := rfl
@[simp] theorem becomeFree_dn (c : Fin 16) (s : State) : (becomeFree c s).dn = s.dn := rfl
@[simp] theorem becomeFree_rings (c : Fin 16) (s : State) : (becomeFree c s).rings = s.rings := rfl
@[simp] theorem becomeFree_det (c : Fin 16) (s : State) : (becomeFree c s).det = s.det := rfl
@[simp] theorem becomeFree_pool (c : Fin 16) (s : State) : (becomeFree c s).pool = s.pool := rfl
@[simp] theorem becomeFree_engine (c : Fin 16) (s : State) : (becomeFree c s).engine = s.engine := rfl
@[simp] theorem becomeFree_attn (c : Fin 16) (s : State) : (becomeFree c s).attn = s.attn := rfl
@[simp] theorem becomeFree_link (c : Fin 16) (s : State) : (becomeFree c s).link = s.link := rfl
@[simp] theorem becomeFree_unstated (c : Fin 16) (s : State) : (becomeFree c s).unstated = s.unstated := rfl

/-! ### beginCopy -/

@[simp] theorem beginCopy_pending (e : MapEntry) (s : State) : (beginCopy e s).pending = s.pending := rfl
@[simp] theorem beginCopy_pins (e : MapEntry) (s : State) : (beginCopy e s).pins = s.pins := rfl
@[simp] theorem beginCopy_up (e : MapEntry) (s : State) : (beginCopy e s).up = s.up := rfl
@[simp] theorem beginCopy_path (e : MapEntry) (s : State) : (beginCopy e s).path = s.path := rfl
@[simp] theorem beginCopy_rings (e : MapEntry) (s : State) : (beginCopy e s).rings = s.rings := rfl
@[simp] theorem beginCopy_det (e : MapEntry) (s : State) : (beginCopy e s).det = s.det := rfl
@[simp] theorem beginCopy_caps (e : MapEntry) (s : State) : (beginCopy e s).caps = s.caps := rfl
@[simp] theorem beginCopy_queue (e : MapEntry) (s : State) : (beginCopy e s).queue = s.queue := rfl
@[simp] theorem beginCopy_attn (e : MapEntry) (s : State) : (beginCopy e s).attn = s.attn := rfl
@[simp] theorem beginCopy_link (e : MapEntry) (s : State) : (beginCopy e s).link = s.link := rfl
@[simp] theorem beginCopy_unstated (e : MapEntry) (s : State) : (beginCopy e s).unstated = s.unstated := rfl

/-! ### startTransfer -/

@[simp] theorem startTransfer_pending (q : UpRequest) (v : View) (k : ReqClass) (w : Routing) (s : State) : (startTransfer q v k w s).pending = s.pending := rfl
@[simp] theorem startTransfer_pins (q : UpRequest) (v : View) (k : ReqClass) (w : Routing) (s : State) : (startTransfer q v k w s).pins = s.pins := rfl
@[simp] theorem startTransfer_up (q : UpRequest) (v : View) (k : ReqClass) (w : Routing) (s : State) : (startTransfer q v k w s).up = s.up := rfl
@[simp] theorem startTransfer_dn (q : UpRequest) (v : View) (k : ReqClass) (w : Routing) (s : State) : (startTransfer q v k w s).dn = s.dn := rfl
@[simp] theorem startTransfer_rings (q : UpRequest) (v : View) (k : ReqClass) (w : Routing) (s : State) : (startTransfer q v k w s).rings = s.rings := rfl
@[simp] theorem startTransfer_det (q : UpRequest) (v : View) (k : ReqClass) (w : Routing) (s : State) : (startTransfer q v k w s).det = s.det := rfl
@[simp] theorem startTransfer_caps (q : UpRequest) (v : View) (k : ReqClass) (w : Routing) (s : State) : (startTransfer q v k w s).caps = s.caps := rfl
@[simp] theorem startTransfer_pool (q : UpRequest) (v : View) (k : ReqClass) (w : Routing) (s : State) : (startTransfer q v k w s).pool = s.pool := rfl
@[simp] theorem startTransfer_engine (q : UpRequest) (v : View) (k : ReqClass) (w : Routing) (s : State) : (startTransfer q v k w s).engine = s.engine := rfl
@[simp] theorem startTransfer_queue (q : UpRequest) (v : View) (k : ReqClass) (w : Routing) (s : State) : (startTransfer q v k w s).queue = s.queue := rfl
@[simp] theorem startTransfer_attn (q : UpRequest) (v : View) (k : ReqClass) (w : Routing) (s : State) : (startTransfer q v k w s).attn = s.attn := rfl
@[simp] theorem startTransfer_link (q : UpRequest) (v : View) (k : ReqClass) (w : Routing) (s : State) : (startTransfer q v k w s).link = s.link := rfl
@[simp] theorem startTransfer_unstated (q : UpRequest) (v : View) (k : ReqClass) (w : Routing) (s : State) : (startTransfer q v k w s).unstated = s.unstated := rfl

/-! ### Reading back -/

@[simp] theorem raise_queue (e : Event) (s : State) : (raise e s).queue = arrive e s.queue := rfl

@[simp] theorem ring_putRing_same (s : State) (r : Fin 8) (x : Ring) :
    (s.putRing r x).ring r = x := by
  simp [State.ring, State.putRing]

theorem ring_putRing_ne (s : State) (r r' : Fin 8) (x : Ring) (h : r' ≠ r) :
    (s.putRing r x).ring r' = s.ring r' := by
  have : r.val ≠ r'.val := fun e => h (Fin.ext e.symm)
  simp [State.ring, State.putRing, Vector.getElem_set_ne, this]

theorem ring_putRing (s : State) (r r' : Fin 8) (x : Ring) :
    (s.putRing r x).ring r' = if r' = r then x else s.ring r' := by
  split
  · next h => subst h; simp
  · next h => exact ring_putRing_ne s r r' x h

@[simp] theorem capture_putCapture_same (s : State) (c : Fin 16) (x : Capture) :
    (s.putCapture c x).capture c = x := by
  simp [State.capture, State.putCapture]

theorem capture_putCapture_ne (s : State) (c c' : Fin 16) (x : Capture) (h : c' ≠ c) :
    (s.putCapture c x).capture c' = s.capture c' := by
  have : c.val ≠ c'.val := fun e => h (Fin.ext e.symm)
  simp [State.capture, State.putCapture, Vector.getElem_set_ne, this]

theorem capture_putCapture (s : State) (c c' : Fin 16) (x : Capture) :
    (s.putCapture c x).capture c' = if c' = c then x else s.capture c' := by
  split
  · next h => subst h; simp
  · next h => exact capture_putCapture_ne s c c' x h

@[simp] theorem line_putLine_same (s : State) (n : Fin 4) (x : Line) :
    (s.putLine n x).line n = x := by
  simp [State.line, State.putLine]

theorem line_putLine_ne (s : State) (n n' : Fin 4) (x : Line) (h : n' ≠ n) :
    (s.putLine n x).line n' = s.line n' := by
  have : n.val ≠ n'.val := fun e => h (Fin.ext e.symm)
  simp [State.line, State.putLine, Vector.getElem_set_ne, this]

@[simp] theorem ring_putCapture (s : State) (c : Fin 16) (x : Capture) (r' : Fin 8) : (s.putCapture c x).ring r' = s.ring r' := rfl
@[simp] theorem ring_putLine (s : State) (n : Fin 4) (x : Line) (r' : Fin 8) : (s.putLine n x).ring r' = s.ring r' := rfl
@[simp] theorem ring_raise (e : Event) (s : State) (r' : Fin 8) : (raise e s).ring r' = s.ring r' := rfl
@[simp] theorem ring_respond (m : Fin 16) (st : BusStatus) (d : List Word) (s : State) (r' : Fin 8) : (respond m st d s).ring r' = s.ring r' := rfl
@[simp] theorem ring_beginWait (s : State) (r' : Fin 8) : (beginWait s).ring r' = s.ring r' := rfl
@[simp] theorem ring_engineIdle (s : State) (r' : Fin 8) : (engineIdle s).ring r' = s.ring r' := rfl
@[simp] theorem ring_takeCapture (c : Fin 16) (rest : List (Fin 16)) (s : State) (r' : Fin 8) : (takeCapture c rest s).ring r' = s.ring r' := rfl
@[simp] theorem ring_becomeHeld (c : Fin 16) (k : ReadyCause) (s : State) (r' : Fin 8) : (becomeHeld c k s).ring r' = s.ring r' := rfl
@[simp] theorem ring_becomeFree (c : Fin 16) (s : State) (r' : Fin 8) : (becomeFree c s).ring r' = s.ring r' := rfl
@[simp] theorem ring_beginCopy (e : MapEntry) (s : State) (r' : Fin 8) : (beginCopy e s).ring r' = s.ring r' := rfl
@[simp] theorem ring_startTransfer (q : UpRequest) (v : View) (k : ReqClass) (w : Routing) (s : State) (r' : Fin 8) : (startTransfer q v k w s).ring r' = s.ring r' := rfl

@[simp] theorem capture_putRing (s : State) (r : Fin 8) (x : Ring) (c' : Fin 16) : (s.putRing r x).capture c' = s.capture c' := rfl
@[simp] theorem capture_putLine (s : State) (n : Fin 4) (x : Line) (c' : Fin 16) : (s.putLine n x).capture c' = s.capture c' := rfl
@[simp] theorem capture_raise (e : Event) (s : State) (c' : Fin 16) : (raise e s).capture c' = s.capture c' := rfl
@[simp] theorem capture_respond (m : Fin 16) (st : BusStatus) (d : List Word) (s : State) (c' : Fin 16) : (respond m st d s).capture c' = s.capture c' := rfl
@[simp] theorem capture_beginWait (s : State) (c' : Fin 16) : (beginWait s).capture c' = s.capture c' := rfl
@[simp] theorem capture_engineIdle (s : State) (c' : Fin 16) : (engineIdle s).capture c' = s.capture c' := rfl
@[simp] theorem capture_beginCopy (e : MapEntry) (s : State) (c' : Fin 16) : (beginCopy e s).capture c' = s.capture c' := rfl
@[simp] theorem capture_startTransfer (q : UpRequest) (v : View) (k : ReqClass) (w : Routing) (s : State) (c' : Fin 16) : (startTransfer q v k w s).capture c' = s.capture c' := rfl

/-! ### Writing one item twice -/

@[simp] theorem putRing_putRing (s : State) (r : Fin 8) (x y : Ring) :
    (s.putRing r x).putRing r y = s.putRing r y := by
  simp [State.putRing]

@[simp] theorem putCapture_putCapture (s : State) (c : Fin 16) (x y : Capture) :
    (s.putCapture c x).putCapture c y = s.putCapture c y := by
  simp [State.putCapture]

@[simp] theorem putCapture_capture (s : State) (c : Fin 16) : s.putCapture c (s.capture c) = s := by
  simp [State.putCapture, State.capture]

/-! ### What the link's SDO leaves -/

@[simp] theorem present_pending (s : State) : (present s).pending = s.pending := rfl
@[simp] theorem present_pins (s : State) : (present s).pins = s.pins := rfl
@[simp] theorem present_up (s : State) : (present s).up = s.up := rfl
@[simp] theorem present_path (s : State) : (present s).path = s.path := rfl
@[simp] theorem present_dn (s : State) : (present s).dn = s.dn := rfl
@[simp] theorem present_rings (s : State) : (present s).rings = s.rings := rfl
@[simp] theorem present_det (s : State) : (present s).det = s.det := rfl
@[simp] theorem present_caps (s : State) : (present s).caps = s.caps := rfl
@[simp] theorem present_pool (s : State) : (present s).pool = s.pool := rfl
@[simp] theorem present_engine (s : State) : (present s).engine = s.engine := rfl
@[simp] theorem present_queue (s : State) : (present s).queue = s.queue := rfl
@[simp] theorem present_attn (s : State) : (present s).attn = s.attn := rfl
@[simp] theorem present_unstated (s : State) : (present s).unstated = s.unstated := rfl
@[simp] theorem present_phase (s : State) : (present s).link.phase = s.link.phase := rfl
@[simp] theorem present_bits (s : State) : (present s).link.bits = s.link.bits := rfl
@[simp] theorem present_sent (s : State) : (present s).link.sent = s.link.sent := rfl
@[simp] theorem present_commit (s : State) : (present s).link.commit = s.link.commit := rfl
@[simp] theorem present_reply (s : State) : (present s).link.reply = s.link.reply := rfl

end Sys2Proof.Machine
end

