-- ==== Sys2Proof/Laws/Moves.lean ====
section
/-! SUPPORT. What an event can do, said once: every command's effect on rings, captures, map, release
queue and event queue is a chain of the moves of `Core`. An invariant is then checked move by move. -/

namespace Sys2Proof.Machine

/-- One primitive change of the part's records. `A r a` says that a is an address the event may bring
to ring r (the address of a word of the request at hand). -/
inductive Core (A : Fin 8 → Addr → Prop) : State → State → Prop where
  /-- An event is handed to the queue. -/
  | raised (e : Event) (s : State) : Core A s (raise e s)
  /-- A ring's runtime state changes; mode only between SAFE and ARMED. -/
  | runtime (r : Fin 8) (x : Ring) (s : State)
      (cfg : x.cfg = (s.ring r).cfg)
      (mode : x.mode = (s.ring r).mode ∨ (s.ring r).mode ≠ .off ∧ x.mode ≠ .off)
      (head : x.head = (s.ring r).head)
      (pend : x.pendingExtremes.isSome = (s.ring r).pendingExtremes.isSome) :
      Core A s (s.putRing r x)
  /-- A ring's head moves to a word at hand. -/
  | head (r : Fin 8) (a : Addr) (s : State) (ok : A r a) : Core A s (moveHead r a s)
  /-- Counters of a capture change: absorbed, post_remaining, statistics, PARTIAL. -/
  | tally (c : Fin 16) (x : Capture) (s : State)
      (state : x.state = (s.capture c).state) (ring : x.ring = (s.capture c).ring)
      (first : x.firstBlock = (s.capture c).firstBlock)
      (trigger : x.triggerBlock = (s.capture c).triggerBlock)
      (last : x.lastBlock = (s.capture c).lastBlock)
      (entries : x.entries = (s.capture c).entries) :
      Core A s (s.putCapture c x)
  /-- A capture in POST becomes HELD. -/
  | held (c : Fin 16) (k : ReadyCause) (s : State) (post : (s.capture c).state = .post) :
      Core A s (becomeHeld c k s)
  /-- A FREE record opens on an ARMED ring, its trigger block in no span. -/
  | opened (r : Fin 8) (t : TriggerReq) (a : Addr) (c : Fin 16) (s : State)
      (armed : (s.ring r).mode = .armed)
      (addr : A r a ∨ (s.ring r).head = some a)
      (clear : s.coveredBy r (blockOf (s.ring r).cfg a) = none)
      (free : (s.capture c).state = .free) :
      Core A s (openCapture r t a c s)
  /-- A HELD capture becomes RELEASING and enters the release queue. -/
  | released (c : Fin 16) (s : State) (held : (s.capture c).state = .held) :
      Core A s
        { s.putCapture c { s.capture c with state := .releasing } with
          engine := { s.engine with queue := s.engine.queue ++ [c] } }
  /-- The head of the release queue becomes MERGING. -/
  | taken (c : Fin 16) (rest : List (Fin 16)) (s : State) (q : s.engine.queue = c :: rest) :
      Core A s (takeCapture c rest s)
  /-- A MERGING capture without entries becomes FREE. -/
  | freed (c : Fin 16) (s : State) (merging : (s.capture c).state = .merging)
      (none : (s.capture c).entries = 0) : Core A s (becomeFree c s)
  /-- A map entry leaves the map: its slot goes to the free list, its capture's count falls. -/
  | dropped (e : MapEntry) (s : State) (mem : e ∈ s.pool.map) :
      Core A s
        ({ s with pool := { s.pool with map      := dropEntry s.pool.map e.ring e.block
                                        freeList := s.pool.freeList ++ [e.slot] } }.putCapture
          e.capture { s.capture e.capture with entries := (s.capture e.capture).entries - 1 })
  /-- A new map entry takes the head slot of the free list, for the capture that holds its block. -/
  | allocated (e : MapEntry) (rest : List Nat) (s : State)
      (slot : s.pool.freeList = e.slot :: rest)
      (new : s.entry e.ring e.block = none)
      (owner : s.coveredBy e.ring e.block = some e.capture) (n : Nat) :
      Core A s
        ({ s with pool := { s.pool with map := s.pool.map ++ [e], freeList := rest } }.putCapture
          e.capture { s.capture e.capture with entries := (s.capture e.capture).entries + 1,
                                               divertedBlocks := n })
  /-- Entries of one block change in written set, state or restart_pending. -/
  | remapped (r : Fin 8) (b : Nat) (f : MapEntry → MapEntry) (s : State)
      (keep : ∀ e, (f e).ring = e.ring ∧ (f e).block = e.block ∧ (f e).capture = e.capture ∧
        (f e).slot = e.slot) :
      Core A s { s with pool := { s.pool with map := changeEntry s.pool.map r b f } }
  /-- Anything that leaves the rings, captures, pool, release queue, event queue, pins, link and what
  waits at UP. -/
  | aside (s t : State) (rings : t.rings = s.rings) (caps : t.caps = s.caps) (pool : t.pool = s.pool)
      (rq : t.engine.queue = s.engine.queue) (queue : t.queue = s.queue) (pins : t.pins = s.pins)
      (link : t.link = s.link) (waiting : t.up.waiting = s.up.waiting)
      (pending : t.pending = s.pending) : Core A s t

/-- A chain of primitive changes. -/
abbrev Cores (A : Fin 8 → Addr → Prop) : State → State → Prop := Relation.ReflTransGen (Core A)

variable {A : Fin 8 → Addr → Prop}

theorem Cores.refl (s : State) : Cores A s s := Relation.ReflTransGen.refl

theorem Cores.one {s t : State} (h : Core A s t) : Cores A s t := Relation.ReflTransGen.single h

theorem Cores.comp {s t u : State} (h : Cores A s t) (h' : Cores A t u) : Cores A s u :=
  Relation.ReflTransGen.trans h h'

/-- A property that every primitive change keeps, every chain keeps. -/
theorem Cores.keeps {P : State → Prop} (one : ∀ s t, Core A s t → P s → P t) {s t : State}
    (h : Cores A s t) (hs : P s) : P t := by
  induction h with
  | refl => exact hs
  | tail _ step ih => exact one _ _ step ih

/-! ### What no core move touches -/

theorem openCapture_rest (r : Fin 8) (q : TriggerReq) (a : Addr) (c : Fin 16) (s : State) :
    openCapture r q a c s =
      { s with caps := (openCapture r q a c s).caps, queue := (openCapture r q a c s).queue } := by
  unfold openCapture
  dsimp only
  split <;> rfl

theorem Core.frame {s t : State} (h : Core A s t) :
    t.pins = s.pins ∧ t.link = s.link ∧ t.up.waiting = s.up.waiting ∧ t.pending = s.pending := by
  cases h with
  | opened r q a c s => rw [openCapture_rest]; exact ⟨rfl, rfl, rfl, rfl⟩
  | aside s t rings caps pool rq queue pins link waiting pending =>
    exact ⟨pins, link, waiting, pending⟩
  | _ => exact ⟨rfl, rfl, rfl, rfl⟩

theorem Cores.frame {s t : State} (h : Cores A s t) :
    t.pins = s.pins ∧ t.link = s.link ∧ t.up.waiting = s.up.waiting ∧ t.pending = s.pending := by
  refine Cores.keeps (P := fun t => t.pins = s.pins ∧ t.link = s.link ∧
    t.up.waiting = s.up.waiting ∧ t.pending = s.pending) ?_ h ⟨rfl, rfl, rfl, rfl⟩
  intro u v huv ⟨h1, h2, h3, h4⟩
  obtain ⟨g1, g2, g3, g4⟩ := huv.frame
  exact ⟨g1.trans h1, g2.trans h2, g3.trans h3, g4.trans h4⟩

/-- A ring's configuration is fixed while events run, and its mode leaves OFF or enters it by no event. -/
theorem Core.ringCfg {s t : State} (h : Core A s t) (r : Fin 8) :
    (t.ring r).cfg = (s.ring r).cfg ∧ ((t.ring r).mode = .off ↔ (s.ring r).mode = .off) ∧
    (t.ring r).pendingExtremes.isSome = (s.ring r).pendingExtremes.isSome := by
  cases h with
  | runtime r' x s cfg mode head pend =>
    rw [ring_putRing]
    split
    · next h =>
      subst h
      refine ⟨cfg, ?_, pend⟩
      rcases mode with h | ⟨h, h'⟩
      · rw [h]
      · exact ⟨fun e => absurd e h', fun e => absurd e h⟩
    · exact ⟨rfl, Iff.rfl, rfl⟩
  | head r' a s ok =>
    unfold moveHead
    rw [ring_putRing]
    split
    · next h => subst h; exact ⟨rfl, Iff.rfl, rfl⟩
    · exact ⟨rfl, Iff.rfl, rfl⟩
  | opened r' q a c s => rw [openCapture_rest]; exact ⟨rfl, Iff.rfl, rfl⟩
  | aside s t rings => simp [State.ring, rings]
  | _ => exact ⟨rfl, Iff.rfl, rfl⟩

theorem Cores.ringCfg {s t : State} (h : Cores A s t) (r : Fin 8) :
    (t.ring r).cfg = (s.ring r).cfg ∧ ((t.ring r).mode = .off ↔ (s.ring r).mode = .off) ∧
    (t.ring r).pendingExtremes.isSome = (s.ring r).pendingExtremes.isSome := by
  refine Cores.keeps (P := fun t => (t.ring r).cfg = (s.ring r).cfg ∧
    ((t.ring r).mode = .off ↔ (s.ring r).mode = .off) ∧
    (t.ring r).pendingExtremes.isSome = (s.ring r).pendingExtremes.isSome) ?_ h
    ⟨rfl, Iff.rfl, rfl⟩
  intro u v huv ⟨h1, h2, h3⟩
  obtain ⟨g1, g2, g3⟩ := huv.ringCfg r
  exact ⟨g1.trans h1, g2.trans h2, g3.trans h3⟩

/-! ### Trigger requests -/

theorem postOn_post {s : State} {r : Fin 8} {c : Fin 16} (h : s.postOn r = some c) :
    (s.capture c).state = .post ∧ (s.capture c).ring = r := by
  have := List.find?_some h
  simpa using this

theorem freeRecord_free {s : State} {c : Fin 16} (h : s.freeRecord = some c) :
    (s.capture c).state = .free := by
  have := List.find?_some h
  simpa using this

theorem absorb_core (c : Fin 16) (s : State) : Core A s (absorb c s) :=
  Core.tally c _ s rfl rfl rfl rfl rfl rfl

/-- A request at a word at hand, or at the ring's head, is a chain of moves. -/
theorem handTrigger_cores (r : Fin 8) (t : TriggerReq) (s : State)
    (addr : ∀ a, t.address = some a → A r a ∨ (s.ring r).head = some a) :
    Cores A s (handTrigger r t s).1 := by
  unfold handTrigger
  split
  · exact Cores.refl s
  · exact Cores.refl s
  · next armed =>
    split
    · exact Cores.one (Core.raised _ s)
    · next a ha =>
      unfold captureTrigger
      split
      · exact Cores.one (absorb_core _ s)
      · split
        · exact Cores.one (Core.raised _ s)
        · next clear =>
          split
          · exact Cores.one (Core.raised _ s)
          · next c free =>
            exact Cores.one (Core.opened r t a c s armed (addr a ha) clear (freeRecord_free free))

theorem postWord_cores (r : Fin 8) (a : Addr) (b : Bool) (s : State) :
    Cores A s (postWord r a b s) := by
  unfold postWord
  split
  · exact Cores.refl s
  · next c hc =>
    dsimp only
    split
    · split
      · exact Cores.one (Core.tally c _ s rfl rfl rfl rfl rfl rfl)
      · exact Cores.refl s
    · exact Cores.one (Core.held c _ s (postOn_post hc).1)

/-! ### Detector steps -/

theorem raiseIf_cores (b : Bool) (e : Event) (s : State) : Cores A s (raiseIf b e s) := by
  unfold raiseIf
  split
  · exact Cores.one (Core.raised e s)
  · exact Cores.refl s

theorem triggerIf_cores (r : Fin 8) (k : Source) (d : Byte) (a : Addr) (v : Option Int) (s : State)
    (ok : A r a) : Cores A s (triggerIf r k d a v s) := by
  unfold triggerIf
  split
  · exact handTrigger_cores r _ s (by intro a' h; simp at h; subst h; exact Or.inl ok)
  · exact Cores.refl s

theorem limitStep_cores (r : Fin 8) (a : Addr) (d : Byte) (v : Int) (s : State) (ok : A r a) :
    Cores A s (limitStep r a d v s) := by
  unfold limitStep
  have h1 : Cores A s (s.putRing r { s.ring r with zone := classOf (s.ring r).cfg v }) :=
    Cores.one (Core.runtime r _ s rfl (Or.inl rfl) rfl rfl)
  dsimp only
  split
  · exact h1
  · next kind src _ =>
    have h2 := h1.comp (raiseIf_cores (A := A) (s.ring r).cfg.eventEnable.limit
      (wordEvent kind r a (some v) d) _)
    split
    · exact h2
    · exact h2.comp (triggerIf_cores r _ d a _ _ ok)

theorem stuckStep_cores (r : Fin 8) (a : Addr) (d : Byte) (v : Int) (s : State) (ok : A r a) :
    Cores A s (stuckStep r a d v s) := by
  unfold stuckStep
  dsimp only
  split
  · refine Cores.comp (Cores.one (Core.runtime r _ s ?_ ?_ ?_ ?_)) (Cores.comp (raiseIf_cores _ _ _)
      (triggerIf_cores r _ d a _ _ ok))
    · rfl
    · exact Or.inl rfl
    · rfl
    · rfl
  · exact Cores.one (Core.runtime r _ s rfl (Or.inl rfl) rfl rfl)

theorem sampleSteps_cores (r : Fin 8) (a : Addr) (d : Byte) (v : Int) (s : State) (ok : A r a) :
    Cores A s (sampleSteps r a d v s) := by
  unfold sampleSteps
  refine (limitStep_cores r a d v s ok).comp ((stuckStep_cores r a d v _ ok).comp (Cores.one ?_))
  exact Core.runtime r _ _ rfl (Or.inl rfl) rfl (by simp)

theorem samplesSteps_cores (r : Fin 8) (a : Addr) (ok : A r a) (vs : List Int) :
    ∀ (d : Byte) (s : State), Cores A s (samplesSteps r a d vs s) := by
  induction vs with
  | nil => intro d s; exact Cores.refl s
  | cons v vs ih => intro d s; exact (sampleSteps_cores r a d v s ok).comp (ih _ _)

theorem markerMode_cores (r : Fin 8) (a : Addr) (k : Byte) (m m' : Mode) (e : EventKind) (s : State)
    (hm : m ≠ .off) (hm' : m' ≠ .off) : Cores A s (markerMode r a k m m' e s) := by
  unfold markerMode
  dsimp only
  split
  · next h =>
    refine Cores.comp ?_ (Cores.one (Core.raised _ _))
    exact Cores.one (Core.runtime r { s.ring r with mode := m' } s rfl
      (Or.inr ⟨by rw [h]; exact hm, hm'⟩) rfl rfl)
  · exact Cores.refl s

theorem markerStep_cores (r : Fin 8) (a : Addr) (k : Byte) (s : State) (ok : A r a) :
    Cores A s (markerStep r a k s) := by
  unfold markerStep
  split
  · exact Cores.refl s
  · exact raiseIf_cores _ _ s
  · exact triggerIf_cores r _ k a _ s ok
  · exact markerMode_cores r a k _ _ _ s (by decide) (by decide)
  · exact markerMode_cores r a k _ _ _ s (by decide) (by decide)

/-! ### Words, routing, the take -/

theorem evalWord_cores (r : Fin 8) (m : Fin 16) (a : Addr) (w : WriteWord) (s : State) (ok : A r a) :
    Cores A s (evalWord r m a w s).1 := by
  unfold evalWord
  split
  · exact Cores.refl s
  · exact Cores.refl s
  · exact Cores.refl s
  · exact (Cores.one (Core.head r a s ok)).comp ((postWord_cores r a _ _).comp
      (markerStep_cores r a _ _ ok))
  · exact (Cores.one (Core.head r a s ok)).comp ((postWord_cores r a _ _).comp
      (samplesSteps_cores r a ok _ _ _))

/-- The addresses of the words of a burst that starts at a. -/
def wordAddrs (A : Fin 8 → Addr → Prop) (r : Fin 8) : Addr → List WriteWord → Prop
  | _, [] => True
  | a, _ :: ws => A r a ∧ wordAddrs A r (a + 4#32) ws

theorem evalWords_cores (r : Fin 8) (m : Fin 16) (ws : List WriteWord) :
    ∀ (a : Addr) (s : State), wordAddrs A r a ws → Cores A s (evalWords r m a ws s).1 := by
  induction ws with
  | nil => intro a s _; exact Cores.refl s
  | cons w ws ih =>
    intro a s h
    exact (evalWord_cores r m a w s h.1).comp (ih _ _ h.2)

theorem coveredBy_mem {s : State} {r : Fin 8} {b : Nat} {c : Fin 16}
    (h : s.coveredBy r b = some c) :
    (s.capture c).state ≠ .free ∧ (s.capture c).ring = r ∧
    (s.capture c).inSpan (s.ring r).cfg.sizeBlocks b = true := by
  have := List.find?_some h
  simpa [and_assoc] using this

theorem holdOf_held {s : State} {r : Fin 8} {b : Nat} {c : Fin 16} (h : s.holdOf r b = .held c) :
    s.coveredBy r b = some c := by
  unfold State.holdOf at h
  split at h
  · cases h
  · next c' hc =>
    split at h
    · cases h
    · cases h
    · cases h; exact hc
    · cases h; exact hc
    · split at h
      · cases h; exact hc
      · cases h

theorem spill_cores (q : UpRequest) (ws : List WriteWord) (r : Fin 8) (c : Fin 16) (s : State) :
    Cores A s (spill q ws r c s) := by
  unfold spill
  dsimp only
  unfold spill.raiseSpill
  split
  · refine Cores.comp ?_ (Cores.one (Core.raised _ _))
    exact Cores.one (Core.tally c _ s rfl rfl rfl rfl rfl rfl)
  · exact Cores.one (Core.tally c _ s rfl rfl rfl rfl rfl rfl)

theorem changePool_eq (p : Pool) (r : Option (Fin 8)) (c : Option (Fin 16)) (s : State) :
    changePool p r c s = { s with pool := p } ∨
    changePool p r c s = raise (poolLowEvent r c p.freeCount) { s with pool := p } := by
  unfold changePool
  split
  · exact Or.inr rfl
  · exact Or.inl rfl

theorem routeWrite_cores (q : UpRequest) (ws : List WriteWord) (v : View) (r : Fin 8) (b : Nat)
    (s : State) : Cores A s (routeWrite q ws v r b s).1 := by
  unfold routeWrite
  split
  · exact Cores.refl s
  · split
    · exact Cores.refl s
    · split
      · exact Cores.one (Core.remapped _ _ _ s fun e => ⟨rfl, rfl, rfl, rfl⟩)
      · next new =>
        split
        · exact Cores.refl s
        · exact Cores.refl s
        · next c hold =>
          split
          · exact Cores.refl s
          · split
            · next slot rest hf =>
              have key := Core.allocated (A := A) (newEntry q ws r b c slot) rest s hf new
                (holdOf_held hold) (satAdd 65535 (s.capture c).divertedBlocks 1)
              unfold routeAllocate
              dsimp only
              rcases changePool_eq { s.pool with map := s.pool.map ++ [newEntry q ws r b c slot],
                                                 freeList := rest } (some r) (some c)
                (countEntry c s) with h | h
              · rw [h]; exact Cores.one key
              · rw [h]; exact (Cores.one key).comp (Cores.one (Core.raised _ _))
            · exact spill_cores q ws r c s

theorem postDone_cores (r : Fin 8) (s : State) : Cores A s (postDone r s) := by
  unfold postDone
  split
  · next c hc =>
    split
    · exact Cores.one (Core.held c _ s (postOn_post hc).1)
    · exact Cores.refl s
  · exact Cores.refl s

theorem startTransfer_core (q : UpRequest) (v : View) (k : ReqClass) (w : Routing) (s : State) :
    Core A s (startTransfer q v k w s) :=
  Core.aside _ _ rfl rfl rfl rfl rfl rfl rfl rfl rfl

theorem respond_core (m : Fin 16) (k : BusStatus) (d : List Word) (s : State) :
    Core A s (respond m k d s) :=
  Core.aside _ _ rfl rfl rfl rfl rfl rfl rfl rfl rfl

/-- The words of a request classified RING are at hand. -/
def atHand (A : Fin 8 → Addr → Prop) (s : State) (q : UpRequest) : Prop :=
  ∀ r b ws, classify q s = .ring r b → q.burst = .write ws → wordAddrs A r q.addr ws

theorem take_cores (q : UpRequest) (s : State) (h : atHand A s q) : Cores A s (take q s) := by
  unfold take
  split
  · exact Cores.one (respond_core _ _ _ s)
  · exact (Cores.one (Core.raised _ s)).comp (Cores.one (respond_core _ _ _ _))
  · exact (Cores.one (Core.raised _ s)).comp (Cores.one (respond_core _ _ _ _))
  · exact Cores.one (startTransfer_core _ _ _ _ s)
  · next r b hc =>
    unfold takeRing
    dsimp only
    split
    · exact Cores.one (startTransfer_core _ _ _ _ s)
    · next ws hw =>
      exact (evalWords_cores r q.master ws q.addr s (h r b ws hc hw)).comp
        ((routeWrite_cores q _ _ r b _).comp ((postDone_cores r _).comp
          (Cores.one (startTransfer_core _ _ _ _ _))))

/-! ### The merge engine -/

theorem beginCopy_cores (e : MapEntry) (s : State) : Cores A s (beginCopy e s) := by
  refine Cores.comp (Cores.one (Core.remapped e.ring e.block
    (fun x => { x with state := .copying, restartPending := s.targets e.ring e.block }) s
    fun x => ⟨rfl, rfl, rfl, rfl⟩)) (Cores.one (Core.aside _ _ rfl rfl rfl rfl rfl rfl rfl rfl rfl))

theorem copyEntry_cores (e : MapEntry) (s : State) : Cores A s (copyEntry e s) := by
  unfold copyEntry
  dsimp only
  refine Cores.comp ?_ (beginCopy_cores e _)
  exact Cores.one (Core.aside s _ rfl rfl rfl rfl rfl rfl rfl rfl rfl)

theorem takeQueue_cores (l : List (Fin 16)) :
    ∀ s : State, s.engine.queue = l → Cores A s (takeQueue l s) := by
  induction l with
  | nil =>
    intro s h
    unfold takeQueue
    exact Cores.one (Core.aside _ _ rfl rfl rfl h.symm rfl rfl rfl rfl rfl)
  | cons c rest ih =>
    intro s h
    have h1 : Cores A s (takeCapture c rest s) := Cores.one (Core.taken c rest s h)
    unfold takeQueue
    dsimp only
    split
    · next h0 =>
      refine h1.comp (Cores.comp (Cores.one (Core.freed c _ ?_ h0)) (ih _ rfl))
      show ((s.putCapture c { s.capture c with state := .merging }).capture c).state = _
      simp
    · split
      · refine h1.comp (Cores.comp ?_ (copyEntry_cores _ _))
        exact Cores.one (Core.aside _ _ rfl rfl rfl rfl rfl rfl rfl rfl rfl)
      · exact h1.comp (ih _ rfl)

theorem engineNext_cores (s : State) : Cores A s (engineNext s) := by
  unfold engineNext
  dsimp only
  refine Cores.comp ?_ (takeQueue_cores _ _ rfl)
  exact Cores.one (Core.aside s _ rfl rfl rfl rfl rfl rfl rfl rfl rfl)

theorem continueMerge_cores (c : Fin 16) (s : State) : Cores A s (continueMerge c s) := by
  unfold continueMerge
  split
  · split
    · split
      · exact copyEntry_cores _ s
      · exact engineNext_cores s
    · exact engineNext_cores s
  · exact engineNext_cores s

theorem entry_mem {s : State} {r : Fin 8} {b : Nat} {e : MapEntry} (h : s.entry r b = some e) :
    e ∈ s.pool.map ∧ e.ring = r ∧ e.block = b := by
  have h1 := List.mem_of_find?_eq_some h
  have h2 := List.find?_some h
  simp at h2
  exact ⟨h1, h2.1, h2.2⟩

theorem removeEntry_cores (e : MapEntry) (s : State) (h : e ∈ s.pool.map) :
    Cores A s (removeEntry e s) := by
  have h1 := Core.dropped (A := A) e s h
  unfold removeEntry
  dsimp only
  split
  · next hm =>
    refine (Cores.one h1).comp (Cores.one (Core.freed e.capture _ ?_ ?_))
    · simp [hm.1]
    · simp [hm.2]
  · exact Cores.one h1

theorem mergeFault_cores (k : FaultKind) (s : State) : Cores A s (mergeFault k s) := by
  unfold mergeFault
  split
  · dsimp only
    refine Cores.comp ?_ (Cores.one (Core.raised _ _))
    exact Cores.one (Core.aside s _ rfl rfl rfl rfl rfl rfl rfl rfl rfl)
  · exact Cores.refl s

theorem engineResponse_cores (k : BusStatus) (d : List Word) (s : State) :
    Cores A s (engineResponse k d s) := by
  unfold engineResponse
  split
  · split
    · unfold slotReadDone
      split
      · exact Cores.one (Core.aside _ _ rfl rfl rfl rfl rfl rfl rfl rfl rfl)
      · exact engineNext_cores s
    · exact mergeFault_cores _ s
    · unfold homeWriteDone
      split
      · next e he =>
        split
        · refine Cores.comp ?_ (beginCopy_cores _ _)
          exact Cores.one (Core.tally _ _ s rfl rfl rfl rfl rfl rfl)
        · exact (removeEntry_cores e s (entry_mem he).1).comp (continueMerge_cores _ _)
      · exact engineNext_cores s
    · exact mergeFault_cores _ s
    · exact Cores.refl s
    · exact Cores.refl s
  · exact Cores.refl s

/-! ### The arbiter and the UP port -/

theorem grantPath_core (s : State) : Core A s (grantPath s) := by
  unfold grantPath
  split
  · split <;> exact Core.aside _ _ rfl rfl rfl rfl rfl rfl rfl rfl rfl
  · exact Core.aside _ _ rfl rfl rfl rfl rfl rfl rfl rfl rfl

theorem grantEngine_core (s : State) : Core A s (grantEngine s) := by
  unfold grantEngine
  split
  · dsimp only
    split <;> exact Core.aside _ _ rfl rfl rfl rfl rfl rfl rfl rfl rfl
  · exact Core.aside _ _ rfl rfl rfl rfl rfl rfl rfl rfl rfl

theorem arbitrate_cores (s : State) : Cores A s (arbitrate s) := by
  unfold arbitrate
  split
  · split
    · exact Cores.one (grantPath_core s)
    · exact Cores.one (grantEngine_core s)
    · split
      · exact Cores.one (grantEngine_core s)
      · refine Cores.comp ?_ (Cores.one (grantPath_core _))
        exact Cores.one (Core.aside s _ rfl rfl rfl rfl rfl rfl rfl rfl rfl)
    · exact Cores.refl s
  · exact Cores.refl s

theorem pathResponse_cores (k : BusStatus) (d : List Word) (s : State) :
    Cores A s (pathResponse k d s) := by
  unfold pathResponse
  split
  · exact Cores.refl s
  · split
    · exact Cores.one (Core.aside _ _ rfl rfl rfl rfl rfl rfl rfl rfl rfl)
    · exact Cores.refl s
    · dsimp only
      split <;> exact Cores.one (Core.aside _ _ rfl rfl rfl rfl rfl rfl rfl rfl rfl)

theorem lineTriggers_cores (n : Fin 4) (route : BitVec 8) (rs : List (Fin 8)) :
    ∀ s : State, Cores A s (lineTriggers n route rs s) := by
  induction rs with
  | nil => intro s; exact Cores.refl s
  | cons r rs ih =>
    intro s
    unfold lineTriggers
    refine Cores.comp ?_ (ih _)
    split
    · unfold lineTrigger
      split
      · exact handTrigger_cores r _ s (by intro a h; exact Or.inr h)
      · exact Cores.refl s
    · exact Cores.refl s

theorem changeLine_cores (n : Fin 4) (x : Line) (s : State) : Cores A s (changeLine n x s) := by
  unfold changeLine
  dsimp only
  have h1 : Core A s (s.putLine n { x with condition := x.holds }) :=
    Core.aside _ _ rfl rfl rfl rfl rfl rfl rfl rfl rfl
  split
  · exact (Cores.one h1).comp ((Cores.one (Core.raised _ _)).comp (lineTriggers_cores _ _ _ _))
  · exact Cores.one h1

end Sys2Proof.Machine
end

