-- ==== Sys2Proof/Laws/Captures.lean ====
section
/-! SUPPORT. Events and captures: what an arrival does to the list of records, what each transition
does to the sixteen capture records, and how a span that opens is walked. -/

namespace Sys2Proof.Machine

/-! ### Arrivals (R140 to R142) -/

/-- Bumping the last record keeps the number of records. -/
theorem bumpLast_length (l : List EventRecord) : (bumpLast l).length = l.length := by
  induction l with
  | nil => rfl
  | cons x xs ih => cases xs with
    | nil => rfl
    | cons y ys => simp [bumpLast, ih]

/-- The last record of a list is the one that is bumped. -/
theorem bumpLast_append (l : List EventRecord) (e : EventRecord) :
    bumpLast (l ++ [e]) = l ++ [bumpDropped e] := by
  induction l with
  | nil => rfl
  | cons x xs ih =>
    cases xs with
    | nil => rfl
    | cons y ys => simp only [List.cons_append, bumpLast] at ih ⊢; rw [ih]

/-- Only the last record is bumped. -/
theorem bumpLast_getLast (l : List EventRecord) :
    (bumpLast l).getLast? = l.getLast?.map bumpDropped := by
  induction l with
  | nil => rfl
  | cons x xs ih => cases xs with
    | nil => rfl
    | cons y ys =>
      rw [bumpLast]
      rw [List.getLast?_cons_cons]
      have : ∃ a b, bumpLast (y::ys) = a :: b := by
        cases ys <;> simp [bumpLast]
      obtain ⟨a, b, hab⟩ := this
      rw [hab, List.getLast?_cons_cons, ← hab, ih]

/-- An appended record takes the next seq (R139). -/
theorem seqsRun_append (next : BitVec 16) (l : List EventRecord) (e : Event) (h : seqsRun next l) :
    seqsRun (next + 1#16) (l ++ [⟨next, e⟩]) := by
  induction l with
  | nil => simp [seqsRun]
  | cons x xs ih =>
    cases xs with
    | nil => simp [seqsRun] at h ⊢; exact h
    | cons y ys =>
      simp only [seqsRun] at h
      have := ih h.2
      simp only [List.cons_append] at this ⊢
      exact ⟨h.1, this⟩

/-- A bump leaves the seqs running (R142: a counted drop takes no seq). -/
theorem seqsRun_bump (next : BitVec 16) (l : List EventRecord) (h : seqsRun next l) :
    seqsRun next (bumpLast l) := by
  induction l with
  | nil => exact h
  | cons x xs ih => cases xs with
    | nil => simpa [bumpLast, bumpDropped, seqsRun] using h
    | cons y ys =>
      simp only [seqsRun] at h
      have h2 := ih h.2
      cases ys with
      | nil => simp [bumpLast, seqsRun, bumpDropped] at h2 ⊢; exact h
      | cons z zs => simp only [bumpLast] at h2 ⊢; exact ⟨h.1, h2⟩

/-! ### Capture records -/

/-- The sixteen captures and the eight rings are all listed. -/
theorem mem_captureIds (c : Fin 16) : c ∈ captureIds := by revert c; decide

theorem mem_ringIds (r : Fin 8) : r ∈ ringIds := by revert r; decide

/-- What becoming HELD does to each record (R72, R82 to R86). -/
theorem capture_becomeHeld (c c' : Fin 16) (k : ReadyCause) (s : State) :
    (becomeHeld c k s).capture c' = if c' = c then
      { s.capture c with state := .held, cut := (s.capture c).cut || k.cuts }
      else s.capture c' := by
  unfold becomeHeld
  simp only [capture_raise, capture_putCapture]

/-- What becoming FREE does to each record (R90). -/
theorem capture_becomeFree (c c' : Fin 16) (s : State) :
    (becomeFree c s).capture c' =
      if c' = c then { s.capture c with state := .free } else s.capture c' := by
  unfold becomeFree
  simp only [capture_raise, capture_putCapture]

/-- What taking from the release queue does to each record (R120). -/
theorem capture_takeCapture (c c' : Fin 16) (rest) (s : State) :
    (takeCapture c rest s).capture c' =
      if c' = c then { s.capture c with state := .merging } else s.capture c' := by
  unfold takeCapture
  show (s.putCapture c _).capture c' = _
  rw [capture_putCapture]

/-- The record that opens is the computed one, in POST or HELD (R76, R79). -/
theorem openCapture_same (r : Fin 8) (q : TriggerReq) (a : Addr) (c : Fin 16) (s : State) :
    ∃ st cut, (st = .post ∨ st = .held) ∧
      (openCapture r q a c s).capture c = { openRecord s r q a with state := st, cut := cut } := by
  unfold openCapture
  dsimp only
  split
  · refine ⟨.held, (openRecord s r q a).cut || ReadyCause.noPost.cuts, Or.inr rfl, ?_⟩
    unfold becomeHeld
    simp only [capture_raise]
    simp only [capture_putCapture_same]
  · refine ⟨.post, (openRecord s r q a).cut, Or.inl rfl, ?_⟩
    rw [capture_putCapture_same]

/-- Opening a capture leaves the other records. -/
theorem openCapture_ne (r : Fin 8) (q : TriggerReq) (a : Addr) (c c' : Fin 16) (s : State)
    (h : c' ≠ c) : (openCapture r q a c s).capture c' = s.capture c' := by
  unfold openCapture
  dsimp only
  split
  · unfold becomeHeld
    simp only [capture_raise]
    rw [capture_putCapture_ne _ _ _ _ h]
    simp only [capture_raise]
    rw [capture_putCapture_ne _ _ _ _ h]
    rfl
  · rw [capture_putCapture_ne _ _ _ _ h]
    simp only [capture_raise]
    rw [capture_putCapture_ne _ _ _ _ h]
    rfl

/-- A block that no capture covers lies in no span of a capture that is not FREE (R68). -/
theorem inSpan_of_not_covered {s : State} {r b} (h : s.coveredBy r b = none) (c)
    (hf : (s.capture c).state ≠ .free) (hr : (s.capture c).ring = r) :
   (s.capture c).inSpan (s.ring r).cfg.sizeBlocks b = false := by
  unfold State.coveredBy at h
  rw [List.find?_eq_none] at h
  have := h c (mem_captureIds c)
  simp [hf, hr] at this
  exact this

/-! ### Spans (R77, R78) -/

/-- A remainder of less than twice the size. -/
theorem mod_of_lt_double (size x : Nat) (h : x < 2 * size) :
    x % size = if x < size then x else x - size := by
  split
  · next h => exact Nat.mod_eq_of_lt h
  · next hn => rw [Nat.mod_eq_sub_mod (by omega), Nat.mod_eq_of_lt (by omega)]

/-- The forward distance, and going back and on, without remainders. -/
theorem forward_spec (size a b : Nat) (ha : a < size) (hb : b < size) : forward size a b < size ∧
    (a + forward size a b = b ∨ a + forward size a b = b + size) := by
  unfold forward; rw [mod_of_lt_double _ _ (by omega)]; split <;> omega

/-- Going n blocks back, round the ring. -/
theorem stepBack_spec (size x n : Nat) (hx : x < size) (hn : n < size) :
    stepBack size x n < size ∧ (stepBack size x n + n = x ∨ stepBack size x n + n = x + size) := by
  unfold stepBack; rw [mod_of_lt_double _ _ (by omega)]; split <;> omega

/-- Going n blocks on, round the ring. -/
theorem stepOn_spec (size x n : Nat) (hx : x < size) (hn : n < size) : stepOn size x n < size ∧
    (x + n = stepOn size x n ∨ x + n = stepOn size x n + size) := by
  unfold stepOn; rw [mod_of_lt_double _ _ (by omega)]; split <;> omega

/-- The one block that is n blocks back. -/
theorem stepBack_eq (size x n y : Nat) (hx : x < size) (hn : n < size) (hy : y < size)
    (h : y + n = x ∨ y + n = x + size) : stepBack size x n = y := by
  unfold stepBack; rw [mod_of_lt_double _ _ (by omega)]; split <;> omega

/-- The one block that is n blocks on. -/
theorem stepOn_eq (size x n y : Nat) (hx : x < size) (hn : n < size) (hy : y < size)
    (h : x + n = y ∨ x + n = y + size) : stepOn size x n = y := by
  unfold stepOn; rw [mod_of_lt_double _ _ (by omega)]; split <;> omega

/-- Every block that the pre count steps over is in no span. -/
theorem preCount_spec (s : State) (r : Fin 8) (size tb : Nat) : ∀ (fuel p : Nat),
    p < size → (∀ i, 1 ≤ i → i ≤ p → s.coveredBy r (stepBack size tb i) = none) →
    preCount s r size tb fuel p < size ∧ ∀ i, 1 ≤ i → i ≤ preCount s r size tb fuel p →
        s.coveredBy r (stepBack size tb i) = none := by
  intro fuel
  induction fuel with
  | zero => intro p hp h; exact ⟨hp, h⟩
  | succ n ih =>
    intro p hp h
    unfold preCount
    split
    · next hc =>
      refine ih (p+1) hc.1 fun i h1 h2 => ?_
      by_cases hi : i = p + 1
      · subst hi; exact hc.2
      · exact h i h1 (by omega)
    · exact ⟨hp, h⟩

/-- The pre count steps no further than it may (R77). -/
theorem preCount_le (s : State) (r : Fin 8) (size tb : Nat) :
    ∀ fuel p, preCount s r size tb fuel p ≤ p + fuel := by
  intro fuel
  induction fuel with
  | zero => intro p; exact Nat.le_refl _
  | succ n ih => intro p; unfold preCount; split
                 · have := ih (p+1); omega
                 · omega

/-- A block that is covered lies in the span of a capture that is not FREE (R68). -/
theorem inSpan_of_covered {s : State} {r : Fin 8} {b : Nat} (h : s.coveredBy r b ≠ none) :
    ∃ c, (s.capture c).state ≠ .free ∧ (s.capture c).ring = r ∧
      (s.capture c).inSpan (s.ring r).cfg.sizeBlocks b = true := by
  obtain ⟨c, hc⟩ := Option.ne_none_iff_exists'.mp h
  unfold State.coveredBy at hc
  have := List.find?_some hc
  simp only [Bool.and_eq_true, bne_iff_ne, beq_iff_eq] at this
  exact ⟨c, this.1.1, this.1.2, this.2⟩

/-- Where the pre count stops short: it has gone round the ring, or the next block back is covered (R77). -/
theorem preCount_stop (s : State) (r : Fin 8) (size tb : Nat) : ∀ (fuel p : Nat),
    preCount s r size tb fuel p = p + fuel ∨
      preCount s r size tb fuel p < p + fuel ∧
      (size ≤ preCount s r size tb fuel p + 1 ∨
        s.coveredBy r (stepBack size tb (preCount s r size tb fuel p + 1)) ≠ none) := by
  intro fuel
  induction fuel with
  | zero => intro p; exact Or.inl rfl
  | succ n ih =>
    intro p
    unfold preCount
    split
    · have := ih (p + 1)
      rw [show p + (n + 1) = p + 1 + n by omega]; exact this
    · next hc =>
      right
      refine ⟨by omega, ?_⟩
      rw [not_and_or] at hc
      rcases hc with h | h
      · left; omega
      · right; exact h

/-- How far the post walk goes, what it passes, and where it stops short: the next block is the first or
covered (R78). -/
theorem postWalk_stop (s : State) (r : Fin 8) (size tb first : Nat) : ∀ (fuel j : Nat),
    (∀ i, 1 ≤ i → i ≤ j → stepOn size tb i ≠ first ∧ s.coveredBy r (stepOn size tb i) = none) →
    ∃ j', (postWalk s r size tb first fuel j).1 = stepOn size tb j' ∧
      (∀ i, 1 ≤ i → i ≤ j' → stepOn size tb i ≠ first ∧ s.coveredBy r (stepOn size tb i) = none) ∧
      ((postWalk s r size tb first fuel j).2 = false ∧ j' = j + fuel ∨
        (postWalk s r size tb first fuel j).2 = true ∧ j' < j + fuel ∧
          (stepOn size tb (j' + 1) = first ∨ s.coveredBy r (stepOn size tb (j' + 1)) ≠ none)) := by
  intro fuel
  induction fuel with
  | zero => intro j h; exact ⟨j, rfl, h, Or.inl ⟨rfl, rfl⟩⟩
  | succ n ih =>
    intro j h
    unfold postWalk
    split
    · next hc => exact ⟨j, rfl, h, Or.inr ⟨rfl, by omega, hc⟩⟩
    · next hc =>
      rw [not_or, not_not] at hc
      obtain ⟨j', h1, h2, h3⟩ := ih (j+1) fun i h1 h2 => by
        by_cases hi : i = j + 1
        · subst hi; exact hc
        · exact h i h1 (by omega)
      refine ⟨j', h1, h2, ?_⟩
      rw [show j + (n + 1) = j + 1 + n by omega]; exact h3

end Sys2Proof.Machine
end

