-- ==== Sys2Proof/Laws/Exec.lean ====
section
/-! SUPPORT. What a command can do, said once: a bus or pin event is a chain of the moves of `Flow`, a
link command or a reset a chain of the moves of `Move` that brings no word (`exec_flows`,
`exec_moves`). A property that every move keeps, every command keeps. -/

namespace Sys2Proof.Machine

variable {A : Fin 8 → Addr → Prop}

/-- One change that a bus or pin event makes. -/
inductive Flow (A : Fin 8 → Addr → Prop) : State → State → Prop where
  /-- A primitive change of an event. -/
  | core {s t : State} (h : Core A s t) : Flow A s t
  /-- A burst is presented at UP behind those that wait. -/
  | presented (q : UpRequest) (s : State) (wf : q.wf = true) :
      Flow A s { s with up := { s.up with waiting := s.up.waiting ++ [q] } }
  /-- The first of the bursts that wait at UP have been taken. -/
  | trimmed (rest : List UpRequest) (s : State) (suffix : rest <:+ s.up.waiting) :
      Flow A s { s with up := { s.up with waiting := rest } }
  /-- Pins, link or lines change. -/
  | outer (pins : Pins) (link : Link) (lines : Vector Line 4) (s : State) :
      Flow A s { s with pins := pins, link := link, det := { s.det with lines := lines } }

/-- One change that a command makes: one of an event, or one that only link commands and RSTN make. -/
inductive Move (A : Fin 8 → Addr → Prop) : State → State → Prop where
  /-- A change that events make too. -/
  | flow {s t : State} (h : Flow A s t) : Move A s t
  /-- An OFF ring takes a configuration in range that overlaps nothing. -/
  | ringSet (r : Fin 8) (p : RingParams) (cfg : RingConfig) (s : State)
      (off : (s.ring r).mode = .off) (ok : ringConfigOf p = some cfg)
      (room : ringOverlaps s r cfg = false) : Move A s (s.putRing r { s.ring r with cfg := cfg })
  /-- A ring's mode is commanded. -/
  | ringMode (r : Fin 8) (target : Mode) (s : State)
      (configured : target ≠ .off → (s.ring r).cfg.configured = true)
      (idle : target = .off → (s.ring r).mode ≠ .off → s.ringBusy r = false) :
      Move A s (s.putRing r ((s.ring r).withMode target))
  /-- The pool is set while no map entry exists. -/
  | poolSet (base : Addr) (n low : Nat) (s : State) (empty : s.pool.map = [])
      (room : areaOverlaps s base.toNat n = false) :
      Move A s { s with pool := { s.pool with areaBase := base, slotCount := n, lowWater := low,
                                              freeList := List.range n } }
  /-- CLEAR's effect. -/
  | cleared (s : State) : Move A s (runClear s).1
  /-- The commit of a POP EVENT. -/
  | popped (s : State) : Move A s { s with queue := popCommit s.queue }
  /-- The extremes records of a ring change. -/
  | extremes (r : Fin 8) (e : Extremes) (p : Option Extremes) (s : State) :
      Move A s (s.putRing r { s.ring r with extremes := e, pendingExtremes := p })
  /-- RSTN is low. -/
  | reset (s : State) : Move A s (inReset s)

/-- A chain of an event's changes. -/
abbrev Flows (A : Fin 8 → Addr → Prop) : State → State → Prop := Relation.ReflTransGen (Flow A)

theorem Flows.refl (s : State) : Flows A s s := Relation.ReflTransGen.refl

theorem Flows.one {s t : State} (h : Flow A s t) : Flows A s t := Relation.ReflTransGen.single h

theorem Flows.comp {s t u : State} (h : Flows A s t) (h' : Flows A t u) : Flows A s u :=
  Relation.ReflTransGen.trans h h'

theorem Cores.flows {s t : State} (h : Cores A s t) : Flows A s t := by
  induction h with
  | refl => exact Flows.refl _
  | tail _ step ih => exact ih.comp (Flows.one (Flow.core step))

/-- A property that every change of an event keeps, every event keeps. -/
theorem Flows.keeps {P : State → Prop} (one : ∀ s t, Flow A s t → P s → P t) {s t : State}
    (h : Flows A s t) (hs : P s) : P t := by
  induction h with
  | refl => exact hs
  | tail _ step ih => exact one _ _ step ih

/-- A chain of moves. -/
abbrev Moves (A : Fin 8 → Addr → Prop) : State → State → Prop := Relation.ReflTransGen (Move A)

theorem Moves.refl (s : State) : Moves A s s := Relation.ReflTransGen.refl

theorem Moves.one {s t : State} (h : Move A s t) : Moves A s t := Relation.ReflTransGen.single h

theorem Moves.comp {s t u : State} (h : Moves A s t) (h' : Moves A t u) : Moves A s u :=
  Relation.ReflTransGen.trans h h'

theorem Cores.moves {s t : State} (h : Cores A s t) : Moves A s t := by
  induction h with
  | refl => exact Moves.refl _
  | tail _ step ih => exact ih.comp (Moves.one (Move.flow (Flow.core step)))

theorem Flows.moves {s t : State} (h : Flows A s t) : Moves A s t := by
  induction h with
  | refl => exact Moves.refl _
  | tail _ step ih => exact ih.comp (Moves.one (Move.flow step))

/-- A property that every move keeps, every command keeps. -/
theorem Moves.keeps {P : State → Prop} (one : ∀ s t, Move A s t → P s → P t) {s t : State}
    (h : Moves A s t) (hs : P s) : P t := by
  induction h with
  | refl => exact hs
  | tail _ step ih => exact one _ _ step ih

/-! ### The classification of a burst outlives the moves of an event -/

theorem Core.poolArea {s t : State} (h : Core A s t) :
    t.pool.areaBase = s.pool.areaBase ∧ t.pool.slotCount = s.pool.slotCount := by
  cases h with
  | opened r q a c s => rw [openCapture_rest]; exact ⟨rfl, rfl⟩
  | aside s t rings caps pool => rw [pool]; exact ⟨rfl, rfl⟩
  | _ => exact ⟨rfl, rfl⟩

theorem Core.classify {s t : State} (h : Core A s t) (q : UpRequest) :
    classify q t = classify q s := by
  have hr : ∀ r, (t.ring r).cfg = (s.ring r).cfg := fun r => (h.ringCfg r).1
  unfold Machine.classify State.ringTouched
  simp only [hr, h.poolArea.1, h.poolArea.2]

theorem Core.atHand {s t : State} (h : Core A s t) (q : UpRequest) (hq : atHand A s q) :
    atHand A t q := by
  intro r b ws hc hw
  rw [h.classify q] at hc
  exact hq r b ws hc hw

theorem Cores.atHand {s t : State} (h : Cores A s t) (q : UpRequest) (hq : atHand A s q) :
    atHand A t q :=
  Cores.keeps (P := fun t => Machine.atHand A t q) (fun _ _ h => h.atHand q) h hq

/-! ### The end of an event at the path unit -/

theorem takeWaiting_flows (l : List UpRequest) :
    ∀ s : State, l <:+ s.up.waiting → (∀ q ∈ l, atHand A s q) → Flows A s (takeWaiting l s) := by
  induction l with
  | nil =>
    intro s hs _
    exact Flows.one (Flow.trimmed [] s hs)
  | cons q rest ih =>
    intro s hs hq
    unfold takeWaiting
    split
    · exact Flows.one (Flow.trimmed (q :: rest) s hs)
    · have h1 := take_cores q s (hq q (by simp))
      refine h1.flows.comp (ih _ ?_ ?_)
      · rw [h1.frame.2.2.1]
        exact (List.suffix_cons q rest).trans hs
      · intro q' hq'
        exact h1.atHand q' (hq q' (by simp [hq']))

theorem settle_flows (s : State) (hq : ∀ q ∈ s.up.waiting, atHand A s q) :
    Flows A s (settle s) := by
  unfold settle
  split
  · exact (takeWaiting_flows _ s (List.suffix_refl _) hq).comp (arbitrate_cores _).flows
  · exact Flows.refl s

theorem settle_after {s t : State} (h : Cores A s t) (hq : ∀ q ∈ s.up.waiting, atHand A s q) :
    Flows A s (settle t) := by
  refine h.flows.comp (settle_flows t ?_)
  intro q hm
  rw [h.frame.2.2.1] at hm
  exact h.atHand q (hq q hm)

/-! ### Link commands -/

theorem appendRelease_cores (c : Fin 16) (s : State) (h : (s.capture c).state = .held) :
    Cores A s (appendRelease c s) := by
  have h1 := Core.released (A := A) c s h
  unfold appendRelease
  dsimp only
  split
  · exact (Cores.one h1).comp (takeQueue_cores _ _ rfl)
  · exact Cores.one h1

theorem becomeHeld_held (c : Fin 16) (k : ReadyCause) (s : State) :
    ((becomeHeld c k s).capture c).state = .held := by
  show ((s.putCapture c { s.capture c with
    state := .held, cut := (s.capture c).cut || k.cuts }).capture c).state = .held
  rw [capture_putCapture_same]

theorem runCommand_moves (i : Instr) (s : State) : Moves A s (runCommand i s).1 := by
  cases i with
  | clear => exact Moves.one (Move.cleared s)
  | setPath t h =>
    dsimp only [runCommand, runSetPath]
    split
    · exact Moves.refl s
    · exact Moves.one (Move.flow (Flow.core (Core.aside s _ rfl rfl rfl rfl rfl rfl rfl rfl rfl)))
  | setView m v =>
    dsimp only [runCommand, runSetView]
    split
    · exact Moves.one (Move.flow (Flow.core (Core.aside s _ rfl rfl rfl rfl rfl rfl rfl rfl rfl)))
    · exact Moves.refl s
  | setRing ring p =>
    dsimp only [runCommand, runSetRing]
    split
    · exact Moves.refl s
    · next r hr =>
      split
      · exact Moves.refl s
      · next off =>
        split
        · exact Moves.refl s
        · next cfg ok =>
          split
          · exact Moves.refl s
          · next room =>
            exact Moves.one (Move.ringSet r p cfg s (by simpa using off) ok (by simpa using room))
  | getRing ring => dsimp only [runCommand, runGetRing]; split <;> exact Moves.refl s
  | ringMode ring mode =>
    dsimp only [runCommand, runRingMode]
    split
    · next r target _ _ =>
      split
      · exact Moves.refl s
      · next hc =>
        split
        · exact Moves.refl s
        · next hb =>
          refine Moves.one (Move.ringMode r target s ?_ ?_)
          · intro ht; simpa [ht] using hc
          · intro ht hm; simpa [ht, hm] using hb
    · exact Moves.refl s
  | setMarker f l a =>
    dsimp only [runCommand, runSetMarker]
    split
    · exact Moves.refl s
    · split
      · exact Moves.refl s
      · exact Moves.one (Move.flow (Flow.core (Core.aside s _ rfl rfl rfl rfl rfl rfl rfl rfl rfl)))
  | setLine n e m r =>
    dsimp only [runCommand, runSetLine]
    split
    · exact (changeLine_cores _ _ s).moves
    · exact Moves.refl s
  | setPool b n w =>
    dsimp only [runCommand, runSetPool]
    split
    · exact Moves.refl s
    · next busy =>
      split
      · exact Moves.refl s
      · split
        · exact Moves.refl s
        · next room =>
          have h1 := Move.poolSet (A := A) b n.toNat w.toNat s
            (by simpa using (not_or.mp busy).1) (by simpa using room)
          rcases changePool_eq
            { s.pool with
              areaBase := b, slotCount := n.toNat, lowWater := w.toNat
              freeList := List.range n.toNat } none none s with h | h
          · rw [h]; exact Moves.one h1
          · rw [h]; exact (Moves.one h1).comp (Moves.one (Move.flow (Flow.core (Core.raised _ _))))
  | force ring =>
    dsimp only [runCommand, runForce]
    split
    · exact Moves.refl s
    · next r _ =>
      split
      · exact (handTrigger_cores r _ s (fun a h => Or.inr h)).moves
      · exact Moves.refl s
  | release capture =>
    dsimp only [runCommand, runRelease]
    split
    · exact Moves.refl s
    · next c _ =>
      split
      · exact Moves.refl s
      · next h =>
        exact ((Cores.one (Core.held c .released s h)).comp
          ((appendRelease_cores c _ (becomeHeld_held c _ s)).comp (arbitrate_cores _))).moves
      · next h => exact ((appendRelease_cores c s h).comp (arbitrate_cores _)).moves
      · exact Moves.refl s
      · exact Moves.refl s
  | getCapture c => dsimp only [runCommand, runGetCapture]; split <;> exact Moves.refl s
  | readExtremes ring =>
    dsimp only [runCommand, runReadExtremes]
    split
    · exact Moves.refl s
    · next r _ =>
      refine (Moves.one (Move.extremes r (s.ring r).extremes (some Extremes.empty) s)).comp
        (Moves.one ?_)
      exact Move.flow
        (Flow.outer s.pins { s.link with commit := some (.readExtremes r) } s.det.lines _)
  | popEvent =>
    dsimp only [runCommand, runPopEvent]
    split
    · exact Moves.refl s
    · exact Moves.one
        (Move.flow (Flow.outer s.pins { s.link with commit := some .popEvent } s.det.lines s))
  | peekEvent => dsimp only [runCommand, runPeekEvent]; split <;> exact Moves.refl s
  | setEvents w m =>
    dsimp only [runCommand, runSetEvents]
    split
    · exact Moves.refl s
    · split
      · exact Moves.refl s
      · exact Moves.one (Move.flow (Flow.core (Core.aside s _ rfl rfl rfl rfl rfl rfl rfl rfl rfl)))
  | resume =>
    dsimp only [runCommand, runResume]
    split
    · split
      · have h1 : Cores A s { s with engine := { s.engine with fault := none } } :=
          Cores.one (Core.aside s _ rfl rfl rfl rfl rfl rfl rfl rfl rfl)
        split
        · exact (h1.comp ((beginCopy_cores _ _).comp (arbitrate_cores _))).moves
        · exact (h1.comp ((engineNext_cores _).comp (arbitrate_cores _))).moves
      · exact Moves.refl s
    · exact Moves.refl s
  | skip =>
    dsimp only [runCommand, runSkip]
    split
    · split
      · split
        · next k _ e he =>
          dsimp only
          have h1 : Cores A s (countLost e s) :=
            Cores.one (Core.tally e.capture _ s rfl rfl rfl rfl rfl rfl)
          have hm : e ∈ (countLost e s).pool.map := (entry_mem he).1
          refine (h1.comp ((removeEntry_cores e _ hm).comp (Cores.comp ?_
            ((continueMerge_cores e.capture _).comp (arbitrate_cores _))))).moves
          exact Cores.one (Core.aside _ _ rfl rfl rfl rfl rfl rfl rfl rfl rfl)
        · dsimp only
          have h1 : Cores A s { s with engine := { s.engine with fault := none } } :=
            Cores.one (Core.aside s _ rfl rfl rfl rfl rfl rfl rfl rfl rfl)
          exact (h1.comp ((engineNext_cores _).comp (arbitrate_cores _))).moves
      · exact Moves.refl s
    · exact Moves.refl s
  | getFault => dsimp only [runCommand, runGetFault]; split <;> exact Moves.refl s
  | getMap r b =>
    dsimp only [runCommand, runGetMap]
    split
    · exact Moves.refl s
    · split
      · exact Moves.refl s
      · split <;> exact Moves.refl s
  | _ => exact Moves.refl s

theorem link_move (s : State) (l : Link) : Move A s { s with link := l } :=
  Move.flow (Flow.outer s.pins l s.det.lines s)

theorem finishFrame_moves (run : Execution) (s : State) (h : Moves A s (run s).1) :
    Moves A s (finishFrame run s) :=
  h.comp (Moves.one (link_move _ _))

theorem goodFrame_moves (i : Instr) (s : State) : Moves A s (goodFrame i (runCommand i) s) := by
  unfold goodFrame
  split
  · split
    · exact (Moves.one (link_move _ _)).comp ((finishFrame_moves _ _ (runCommand_moves i _)).comp
        (Moves.one (link_move _ _)))
    · exact Moves.refl s
  · exact Moves.refl s

theorem evaluate_moves (b : Byte) (s : State) : Moves A s (evaluate b s).1 := by
  unfold evaluate
  split
  · exact Moves.refl s
  · split
    · split
      · exact Moves.refl s
      · split
        · exact Moves.refl s
        · split
          · exact runCommand_moves _ s
          · exact Moves.refl s
    · exact Moves.refl s

theorem receiveByte_moves (b : Byte) (s : State) : Moves A s (receiveByte b s) := by
  unfold receiveByte
  split
  · exact (Moves.one (link_move _ _)).comp (finishFrame_moves _ _ (evaluate_moves b _))
  · exact Moves.one (link_move _ _)

theorem commitReply_moves (s : State) : Moves A s (commitReply s) := by
  unfold commitReply
  refine Moves.comp ?_ (Moves.one (link_move _ _))
  unfold commitPending
  split
  · exact Moves.one (Move.popped s)
  · unfold extremesCommit
    split
    · exact Moves.one (Move.extremes _ _ none s)
    · exact Moves.refl s
  · exact Moves.refl s

theorem completeByte_moves (b : Byte) (s : State) : Moves A s (completeByte b s) := by
  unfold completeByte
  split
  · exact Moves.refl s
  · exact Moves.refl s
  · exact receiveByte_moves b s
  · exact Moves.one (link_move _ _)
  · split
    · exact Moves.one (link_move _ _)
    · exact commitReply_moves s

theorem sckRise_moves (x : Bool) (s : State) : Moves A s (sckRise x s) := by
  unfold sckRise
  split
  · dsimp only
    split
    · exact Moves.one (link_move _ _)
    · exact (Moves.one (link_move _ _)).comp (completeByte_moves _ _)
  · exact Moves.refl s

theorem sckFall_moves (s : State) : Moves A s (sckFall s) := by
  unfold sckFall
  split
  · exact Moves.one (link_move _ _)
  · exact Moves.refl s

theorem clockEdges_moves (es : List SckEdge) : ∀ s : State, Moves A s (clockEdges es s) := by
  induction es with
  | nil => intro s; exact Moves.refl s
  | cons e es ih =>
    intro s
    cases e with
    | rise x => exact (sckRise_moves x s).comp (ih _)
    | fall => exact (sckFall_moves s).comp (ih _)

/-! ### Every command -/

theorem endRequest_core (q : Current) (st : BusStatus) (d : List Word) (s : State) :
    Core A s (endRequest q st d s) :=
  Core.aside _ _ rfl rfl rfl rfl rfl rfl rfl rfl rfl

/-- Every burst the command can have taken brings addresses of A. -/
def bringsOnly (A : Fin 8 → Addr → Prop) (i : Instr) (s : State) : Prop :=
  (∀ q, i = .upstreamRequest q → q.wf = true → atHand A s q) ∧ ∀ q ∈ s.up.waiting, atHand A s q

/-- No word at hand: the moves of link commands and of RSTN. -/
abbrev noWord : Fin 8 → Addr → Prop := fun _ _ => False

/-- Every command, by kind: a bus or pin event is a chain of `Flow`, a link command or a reset a chain
of `Move` without a word at hand. -/
theorem exec_flows (i : Instr) (s t : State) (hA : bringsOnly A i s) (h : exec i s = .next t) :
    Flows A s t ∨ Moves noWord s t := by
  obtain ⟨hq, hw⟩ := hA
  have good : ∀ j : Instr, exec j s = .next (goodFrame j (runCommand j) s) →
      exec j s = .next t → Flows A s t ∨ Moves noWord s t := by
    intro j h1 h2
    rw [h1] at h2
    cases h2
    exact Or.inr (goodFrame_moves j s)
  cases i with
  | upstreamRequest q =>
    cases h
    refine Or.inl ?_
    split
    · next wf =>
      split
      · exact ((take_cores q s (hq q rfl wf)).comp (arbitrate_cores _)).flows
      · refine (Flows.one (Flow.presented q s wf)).comp (settle_flows _ ?_)
        intro q' hm
        rcases List.mem_append.mp hm with hm | hm
        · exact hw q' hm
        · have : q' = q := by simpa using hm
          subst this
          exact hq q' rfl wf
    · exact Flows.refl s
  | dnResponse tag st d =>
    cases h
    refine Or.inl ?_
    split
    · exact Flows.refl s
    · next x _ =>
      split
      · exact Flows.refl s
      · have h1 : Cores A s { s with dn := { s.dn with outstanding := none } } :=
          Cores.one (Core.aside s _ rfl rfl rfl rfl rfl rfl rfl rfl rfl)
        have h2 : Cores A s
            { s with
              dn := { s.dn with outstanding := none }
              unstated := unstatedAfter x d s.unstated } :=
          Cores.one (Core.aside s _ rfl rfl rfl rfl rfl rfl rfl rfl rfl)
        split
        · exact settle_after (h1.comp (pathResponse_cores _ _ _)) hw
        · exact settle_after (h1.comp (engineResponse_cores _ _ _)) hw
        · dsimp only
          split
          · exact settle_after (h2.comp (pathResponse_cores _ _ _)) hw
          · exact settle_after (h2.comp (engineResponse_cores _ _ _)) hw
  | dnTimeout =>
    cases h
    refine Or.inl ?_
    split
    · split
      · split
        · refine settle_after ?_ hw
          refine Cores.comp (Cores.comp ?_ (Cores.one (Core.raised _ _)))
            (Cores.one (endRequest_core _ _ _ _))
          exact Cores.one (Core.aside s _ rfl rfl rfl rfl rfl rfl rfl rfl rfl)
        · exact Flows.refl s
      · exact Flows.refl s
    · exact Flows.refl s
  | copyTimeout =>
    cases h
    refine Or.inl ?_
    split
    · split
      · have h1 : Cores A s { s with dn := { s.dn with outstanding := none } } :=
          Cores.one (Core.aside s _ rfl rfl rfl rfl rfl rfl rfl rfl rfl)
        exact (h1.comp ((mergeFault_cores _ _).comp (arbitrate_cores _))).flows
      · exact Flows.refl s
    · exact Flows.refl s
  | trigLevelChange n level =>
    cases h
    refine Or.inl ?_
    dsimp only
    have h1 : Flow A s { s with pins := { s.pins with trig := s.pins.trig.set n.val level n.isLt } } :=
      Flow.outer _ s.link s.det.lines s
    split
    · exact (Flows.one h1).comp (changeLine_cores _ _ _).flows
    · exact Flows.one h1
  | rstnLow => cases h; exact Or.inr (Moves.one (Move.reset s))
  | rstnHigh =>
    cases h
    refine Or.inl ?_
    split
    · exact Flows.refl s
    · refine Flows.comp (Flows.one ?_) (settle_flows _ hw)
      exact Flow.outer { s.pins with rstn := true } s.link _ s
  | scsFall =>
    cases h
    refine Or.inl ?_
    dsimp only
    split
    · split
      · exact Flows.one (Flow.outer _ _ s.det.lines s)
      · exact Flows.one (Flow.outer _ s.link s.det.lines s)
    · exact Flows.refl s
  | requestFrame edges => cases h; exact Or.inr (clockEdges_moves edges s)
  | replyCommit =>
    cases h
    refine Or.inr ?_
    split
    · exact (Moves.one (link_move _ _)).comp ((commitReply_moves _).comp (Moves.one (link_move _ _)))
    · exact Moves.refl s
  | scsRise =>
    cases h
    refine Or.inr ?_
    dsimp only
    have h1 : Move noWord s { s with pins := { s.pins with scs := true } } :=
      Move.flow (Flow.outer _ s.link s.det.lines s)
    split
    · refine (Moves.one h1).comp (Moves.comp ?_ (Moves.one (link_move _ _)))
      unfold dropPending
      split
      · exact Moves.one (Move.extremes _ _ none _)
      · exact Moves.refl _
      · exact Moves.refl _
    · exact Moves.one h1
  | turnaroundByte =>
    cases h
    refine Or.inr ?_
    split
    · exact Moves.one (link_move _ _)
    · exact Moves.refl s
  | _ => exact good _ rfl h

/-- A chain that brings no word is a chain whatever words are at hand. -/
theorem Moves.anyWord {s t : State} (h : Moves noWord s t) : Moves A s t := by
  have core : ∀ u v, Core noWord u v → Core A u v := by
    intro u v h
    cases h with
    | raised e s => exact .raised e _
    | runtime r x s a b c d => exact .runtime r x _ a b c d
    | head r a s ok => exact ok.elim
    | tally c x s a b d e f g => exact .tally c x _ a b d e f g
    | held c k s a => exact .held c k _ a
    | opened r t a c s armed addr clear free =>
      exact .opened r t a c _ armed (Or.inr (addr.resolve_left id)) clear free
    | released c s a => exact .released c _ a
    | taken c l s a => exact .taken c l _ a
    | freed c s a b => exact .freed c _ a b
    | dropped e s a => exact .dropped e _ a
    | allocated e l s a b c n => exact .allocated e l _ a b c n
    | remapped r b f s a => exact .remapped r b f _ a
    | aside s t a b c d e f g h i => exact .aside _ _ a b c d e f g h i
  have flow : ∀ u v, Flow noWord u v → Flow A u v := by
    intro u v h
    cases h with
    | core h => exact .core (core _ _ h)
    | presented q s wf => exact .presented q _ wf
    | trimmed l s a => exact .trimmed l _ a
    | outer p l d s => exact .outer p l d _
  refine Moves.keeps (P := Moves A s) ?_ h (Moves.refl s)
  intro u v huv hu
  refine hu.comp (Moves.one ?_)
  cases huv with
  | flow h => exact .flow (flow _ _ h)
  | ringSet r p cfg s a b c => exact .ringSet r p cfg _ a b c
  | ringMode r m s a b => exact .ringMode r m _ a b
  | poolSet b n l s a c => exact .poolSet b n l _ a c
  | cleared s => exact .cleared _
  | popped s => exact .popped _
  | extremes r e p s => exact .extremes r e p _
  | reset s => exact .reset _

/-- Every command is a chain of moves. -/
theorem exec_moves (i : Instr) (s t : State) (hA : bringsOnly A i s) (h : exec i s = .next t) :
    Moves A s t :=
  (exec_flows i s t hA h).elim Flows.moves Moves.anyWord

end Sys2Proof.Machine
end

