-- ==== Sys2Proof/Laws/Untouched.lean ====
section
/-! SUPPORT. What trigger requests, detectors, word evaluation and routing never touch: the merge engine, the
DN port, the path unit and the pins. -/

namespace Sys2Proof.Machine

/-- The merge engine, the DN port, the path unit and the pins are as before. -/
structure Untouched (s t : State) : Prop where
  engine : t.engine = s.engine
  dn : t.dn = s.dn
  path : t.path = s.path
  pins : t.pins = s.pins

theorem Untouched.refl (s) : Untouched s s := ⟨rfl, rfl, rfl, rfl⟩

theorem Untouched.trans {s t u} (h : Untouched s t) (h' : Untouched t u) : Untouched s u :=
    ⟨h'.engine.trans h.engine, h'.dn.trans h.dn, h'.path.trans h.path, h'.pins.trans h.pins⟩

theorem openCapture_untouched (r q a c s) : Untouched s (openCapture r q a c s) := by
  rw [openCapture_rest]; exact ⟨rfl, rfl, rfl, rfl⟩

theorem handTrigger_untouched (r q) (s : State) : Untouched s (handTrigger r q s).1 := by
  unfold handTrigger
  split
  · exact Untouched.refl s
  · exact Untouched.refl s
  · split
    · exact ⟨rfl, rfl, rfl, rfl⟩
    · unfold captureTrigger
      split
      · exact ⟨rfl, rfl, rfl, rfl⟩
      · split
        · exact ⟨rfl, rfl, rfl, rfl⟩
        · split
          · exact ⟨rfl, rfl, rfl, rfl⟩
          · exact openCapture_untouched _ _ _ _ _

theorem raiseIf_untouched (b e) (s : State) : Untouched s (raiseIf b e s) := by
  unfold raiseIf; split <;> exact ⟨rfl, rfl, rfl, rfl⟩

theorem triggerIf_untouched (r k d a v) (s : State) : Untouched s (triggerIf r k d a v s) := by
  unfold triggerIf; split
  · exact handTrigger_untouched _ _ _
  · exact Untouched.refl s

theorem postWord_untouched (r a b) (s : State) : Untouched s (postWord r a b s) := by
  unfold postWord
  split
  · exact Untouched.refl s
  · dsimp only; split
    · split <;> exact ⟨rfl, rfl, rfl, rfl⟩
    · exact ⟨rfl, rfl, rfl, rfl⟩

theorem limitStep_untouched (r a d v) (s : State) : Untouched s (limitStep r a d v s) := by
  unfold limitStep
  have h0 : ∀ x, Untouched s (s.putRing r x) := fun x => ⟨rfl, rfl, rfl, rfl⟩
  dsimp only
  split
  · exact h0 _
  · split
    · exact (h0 _).trans (raiseIf_untouched _ _ _)
    · exact ((h0 _).trans (raiseIf_untouched _ _ _)).trans (triggerIf_untouched _ _ _ _ _ _)

theorem stuckStep_untouched (r a d v) (s : State) : Untouched s (stuckStep r a d v s) := by
  unfold stuckStep
  have h0 : ∀ x, Untouched s (s.putRing r x) := fun x => ⟨rfl, rfl, rfl, rfl⟩
  dsimp only
  split
  · exact ((h0 _).trans (raiseIf_untouched _ _ _)).trans (triggerIf_untouched _ _ _ _ _ _)
  · exact h0 _

theorem sampleSteps_untouched (r a d v) (s : State) : Untouched s (sampleSteps r a d v s) := by
  unfold sampleSteps
  exact ((limitStep_untouched _ _ _ _ _).trans (stuckStep_untouched _ _ _ _ _)).trans
      ⟨rfl, rfl, rfl, rfl⟩

theorem samplesSteps_untouched (r a vs) : ∀ d (s : State), Untouched s (samplesSteps r a d vs s) := by
  induction vs with
  | nil => intro d s; exact Untouched.refl s
  | cons v vs ih => intro d s; exact (sampleSteps_untouched _ _ _ _ _).trans (ih _ _)

theorem markerStep_untouched (r a k) (s : State) : Untouched s (markerStep r a k s) := by
  unfold markerStep
  split
  · exact Untouched.refl s
  · exact raiseIf_untouched _ _ s
  · exact triggerIf_untouched _ _ _ _ _ s
  · unfold markerMode; dsimp only; split <;> exact ⟨rfl, rfl, rfl, rfl⟩
  · unfold markerMode; dsimp only; split <;> exact ⟨rfl, rfl, rfl, rfl⟩

theorem evalWord_untouched (r m a w) (s : State) : Untouched s (evalWord r m a w s).1 := by
  unfold evalWord
  have h0 : Untouched s (moveHead r a s) := ⟨rfl, rfl, rfl, rfl⟩
  split
  · exact Untouched.refl s
  · exact Untouched.refl s
  · exact Untouched.refl s
  · exact (h0.trans (postWord_untouched _ _ _ _)).trans (markerStep_untouched _ _ _ _)
  · exact (h0.trans (postWord_untouched _ _ _ _)).trans (samplesSteps_untouched _ _ _ _ _)

theorem evalWords_untouched (r m ws) : ∀ a (s : State), Untouched s (evalWords r m a ws s).1 := by
  induction ws with
  | nil => intro a s; exact Untouched.refl s
  | cons w ws ih => intro a s; exact (evalWord_untouched _ _ _ _ _).trans (ih _ _)

theorem changePool_untouched (p r c) (s : State) : Untouched s (changePool p r c s) := by
  rcases changePool_eq p r c s with h | h <;> rw [h] <;> exact ⟨rfl, rfl, rfl, rfl⟩

theorem routeWrite_untouched (q ws v r b) (s : State) : Untouched s (routeWrite q ws v r b s).1 := by
  unfold routeWrite
  split
  · exact Untouched.refl s
  · split
    · exact Untouched.refl s
    · split
      · exact ⟨rfl, rfl, rfl, rfl⟩
      · split
        · exact Untouched.refl s
        · exact Untouched.refl s
        · split
          · exact Untouched.refl s
          · split
            · unfold routeAllocate
              exact Untouched.trans (t := countEntry _ s) ⟨rfl, rfl, rfl, rfl⟩
                  (changePool_untouched _ _ _ _)
            · unfold spill spill.raiseSpill; dsimp only; split <;> exact ⟨rfl, rfl, rfl, rfl⟩

theorem postDone_untouched (r) (s : State) : Untouched s (postDone r s) := by
  unfold postDone
  split
  · split <;> exact ⟨rfl, rfl, rfl, rfl⟩
  · exact Untouched.refl s

theorem changeLine_untouched (n x) (s : State) : Untouched s (changeLine n x s) := by
  have lt : ∀ route rs (s : State), Untouched s (lineTriggers n route rs s) := by
    intro route rs
    induction rs with
    | nil => intro s; exact Untouched.refl s
    | cons r rs ih =>
      intro s
      unfold lineTriggers
      refine Untouched.trans ?_ (ih _)
      split
      · unfold lineTrigger
        split
        · exact handTrigger_untouched _ _ _
        · exact Untouched.refl s
      · exact Untouched.refl s
  unfold changeLine
  dsimp only
  split
  · refine Untouched.trans ?_ (lt _ _ _)
    exact ⟨rfl, rfl, rfl, rfl⟩
  · exact ⟨rfl, rfl, rfl, rfl⟩

/-- Taking a request changes no more than the path unit, the records and the queue. -/
theorem take_same (q) (s : State) : (take q s).engine = s.engine ∧ (take q s).dn = s.dn ∧
    (take q s).pins = s.pins := by
  unfold take
  split
  · exact ⟨rfl, rfl, rfl⟩
  · exact ⟨rfl, rfl, rfl⟩
  · exact ⟨rfl, rfl, rfl⟩
  · exact ⟨rfl, rfl, rfl⟩
  · unfold takeRing
    dsimp only
    split
    · exact ⟨rfl, rfl, rfl⟩
    · next r b _ _ ws _ =>
      have := ((evalWords_untouched r q.master ws q.addr s).trans
          (routeWrite_untouched q (evalWords r q.master q.addr ws s).2
          (s.view q.master) r b _)).trans (postDone_untouched r _)
      exact ⟨this.engine, this.dn, this.pins⟩

theorem takeWaiting_same (l) : ∀ s : State, (takeWaiting l s).engine = s.engine ∧
    (takeWaiting l s).dn = s.dn ∧ (takeWaiting l s).pins = s.pins := by
  induction l with
  | nil => intro s; exact ⟨rfl, rfl, rfl⟩
  | cons q rest ih =>
    intro s
    unfold takeWaiting
    split
    · exact ⟨rfl, rfl, rfl⟩
    · have h1 := take_same q s
      have h2 := ih (take q s)
      exact ⟨h2.1.trans h1.1, h2.2.1.trans h1.2.1, h2.2.2.trans h1.2.2⟩

/-- Nor does a trigger request touch a ring. -/
theorem handTrigger_rings (r : Fin 8) (t : TriggerReq) (s : State) :
    (handTrigger r t s).1.rings = s.rings := by
  unfold handTrigger
  split <;> try rfl
  split
  · rfl
  · unfold captureTrigger
    split
    · rfl
    · split
      · rfl
      · split
        · rfl
        · unfold openCapture; dsimp only; split <;> rfl

theorem triggerIf_rings (r : Fin 8) (k : Source) (d : Byte) (a : Addr) (v : Option Int)
    (s : State) : (triggerIf r k d a v s).rings = s.rings := by
  unfold triggerIf; split
  · exact handTrigger_rings _ _ _
  · rfl

theorem raiseIf_rings (b : Bool) (e : Event) (s : State) : (raiseIf b e s).rings = s.rings := by
  unfold raiseIf; split <;> rfl

theorem postWord_rings (r : Fin 8) (a : Addr) (b : Bool) (s : State) :
    (postWord r a b s).rings = s.rings := by
  unfold postWord becomeHeld; split
  · rfl
  · dsimp only; split
    · split <;> rfl
    · rfl

/-- Each ring is read from the rings alone. -/
theorem ring_of_rings {s t : State} (h : t.rings = s.rings) (r) : t.ring r = s.ring r := by
  unfold State.ring; simp only [h]

/-! ### Trigger requests and the link, firing lines (R55, R72) -/

/-- A request for a ring that is not ARMED does nothing (R72). -/
theorem handTrigger_idle (r : Fin 8) (t : TriggerReq) (s : State) (h : (s.ring r).mode ≠ .armed) :
    (handTrigger r t s).1 = s := by
  unfold handTrigger
  split <;> simp_all

/-- A trigger request neither reads nor changes the link. -/
theorem handTrigger_withLink (r : Fin 8) (t : TriggerReq) (s : State) (l : Link) :
    handTrigger r t { s with link := l } =
      ({ (handTrigger r t s).1 with link := l }, (handTrigger r t s).2) := by
  unfold handTrigger
  rw [show State.ring { s with link := l } r = s.ring r from rfl]
  cases (s.ring r).mode with
  | off => rfl
  | safe => rfl
  | armed =>
    dsimp only
    cases t.address with
    | none => rfl
    | some a =>
      dsimp only
      unfold captureTrigger
      rw [show State.postOn { s with link := l } r = s.postOn r from rfl]
      cases s.postOn r with
      | some c => rfl
      | none =>
        dsimp only
        rw [show State.ring { s with link := l } r = s.ring r from rfl,
          show State.coveredBy { s with link := l } r = s.coveredBy r from rfl]
        cases s.coveredBy r (blockOf (s.ring r).cfg a) with
        | some c => rfl
        | none =>
          dsimp only
          rw [show State.freeRecord { s with link := l } = s.freeRecord from rfl]
          cases s.freeRecord with
          | none => rfl
          | some c =>
            dsimp only
            have e1 (size tb fuel) : ∀ p, preCount { s with link := l } r size tb fuel p =
                preCount s r size tb fuel p := by
              induction fuel with
              | zero => intro p; rfl
              | succ n ih => intro p; unfold preCount; rw [ih]; rfl
            have e2 (size tb first fuel) : ∀ j, postWalk { s with link := l } r size tb first fuel j =
                postWalk s r size tb first fuel j := by
              induction fuel with
              | zero => intro p; rfl
              | succ n ih => intro p; unfold postWalk; rw [ih]; rfl
            have e3 : openRecord { s with link := l } r t a = openRecord s r t a := by
              unfold openRecord
              simp only [e1, e2]
              rfl
            unfold openCapture
            rw [e3]
            dsimp only
            split <;> rfl

/-- A firing line hands one request to each ring of its route that holds LINE and is ARMED, in the order of
the list; the requests leave the rings, so each is formed from the rings as they were (R55, R56, R72). -/
theorem lineTriggers_fold (n : Fin 4) (route : BitVec 8) (s : State) : ∀ (l : List (Fin 8)) (u : State),
    u.rings = s.rings →
    lineTriggers n route l u =
      (l.filter fun r => route.getLsbD r.val && (s.ring r).cfg.triggerEnable.line &&
        (s.ring r).mode == .armed).foldl
      (fun u r => (handTrigger r ⟨.line, some (BitVec.ofNat 8 n.val), (s.ring r).head, none⟩ u).1) u := by
  intro l
  induction l with
  | nil => intro u h; rfl
  | cons r rs ih =>
    intro u h
    have hr := ring_of_rings h r
    unfold lineTriggers
    rw [List.filter_cons]
    by_cases hc : (route.getLsbD r.val && (s.ring r).cfg.triggerEnable.line &&
        (s.ring r).mode == .armed) = true
    · rw [if_pos hc, List.foldl_cons]
      simp only [Bool.and_eq_true, beq_iff_eq] at hc
      rw [if_pos hc.1.1, lineTrigger, hr, if_pos ⟨by rw [hc.2]; decide, hc.1.2⟩]
      exact ih _ ((handTrigger_rings _ _ _).trans h)
    · rw [if_neg hc]
      have : (if route.getLsbD r.val = true then lineTrigger n r u else u) = u := by
        split
        · next hb =>
          unfold lineTrigger
          rw [hr]
          split
          · next hh =>
            apply handTrigger_idle
            rw [hr]
            intro hm
            exact hc (by simp [hb, hh.2, hm])
          · rfl
        · rfl
      rw [this]; exact ih u h

end Sys2Proof.Machine
end

