-- ==== Sys2Proof/Laws/Engine.lean ====
section
/-! SUPPORT. The arbiter, the divert map and the merge engine: what each shared operation leaves, one lemma
per outcome. -/

namespace Sys2Proof.Machine

/-! ### The arbiter and the end of an event (R14; log 11) -/

/-- With no side waiting for a free port the arbiter does nothing. -/
theorem arbitrate_of_served (s : State)
    (hp : s.dn.outstanding = none → s.pathWaits = false ∧ s.engineWaits = false) :
    arbitrate s = s := by
  unfold arbitrate
  split
  · next h =>
    simp only [Bool.and_eq_true, Option.isNone_iff_eq_none] at h
    obtain ⟨h1, h2⟩ := hp h.2
    rw [h1, h2]
  · rfl

/-- On a taken port it does nothing. -/
theorem arbitrate_of_busy (s : State) (h : s.dn.outstanding ≠ none) : arbitrate s = s := by
  unfold arbitrate
  rw [if_neg]
  obtain ⟨x, hx⟩ := Option.ne_none_iff_exists'.mp h
  simp [hx]

/-- It neither reads nor changes the link. -/
theorem arbitrate_withLink (s : State) (l : Link) :
    arbitrate { s with link := l } = { arbitrate s with link := l } := by
  have e1 : State.pathWaits { s with link := l } = s.pathWaits := rfl
  have e2 : State.engineWaits { s with link := l } = s.engineWaits := rfl
  have gp : ∀ u : State, grantPath { u with link := l } = { grantPath u with link := l } := by
    intro u
    unfold grantPath
    dsimp only
    split
    · split <;> rfl
    · rfl
  have ge : grantEngine { s with link := l } = { grantEngine s with link := l } := by
    unfold grantEngine
    dsimp only
    split
    · split <;> rfl
    · rfl
  unfold arbitrate
  rw [e1, e2]
  split
  · next h =>
    cases s.pathWaits <;> cases s.engineWaits
    · rfl
    · exact ge
    · exact gp s
    · dsimp only
      split
      · next h =>
        exact ge
      · next h =>
        exact gp { s with dn := { s.dn with shareCount := satAdd 255 s.dn.shareCount 1 } }
  · rfl

/-- Nor does it change the link's record. -/
theorem arbitrate_link (s : State) : (arbitrate s).link = s.link := by
  have := (arbitrate_cores (A := noWord) s).frame
  exact this.2.1

/-- With nothing waiting at UP the end of an event is the arbiter's decision. -/
theorem settle_idle (s : State) (hr : s.pins.rstn = true) (hw : s.up.waiting = []) :
    settle s = arbitrate s := by
  unfold settle
  rw [if_pos hr, hw]
  simp only [takeWaiting]; rw [← hw]

/-- With a request under way none that waits at UP is taken: the end of an event is the arbiter's decision. -/
theorem settle_busy (s : State) (hr : s.pins.rstn = true) (hp : s.path.current ≠ none) :
    settle s = arbitrate s := by
  obtain ⟨q, hq⟩ := Option.ne_none_iff_exists'.mp hp
  have : takeWaiting s.up.waiting s = s := by
    cases hw : s.up.waiting with
    | nil => simp only [takeWaiting]; rw [← hw]
    | cons p rest => simp only [takeWaiting, hq]; rw [← hw]; rfl
  rw [settle, if_pos hr, this]

/-- With nothing waiting anywhere the end of an event changes nothing. -/
theorem settle_quiet (s : State) (hw : s.up.waiting = []) (hp : s.path.current = none)
    (he : s.engineWaits = false) : settle s = s := by
  unfold settle
  split
  · rw [hw]
    have : takeWaiting [] s = s := by simp only [takeWaiting]; rw [← hw]
    rw [this]
    apply arbitrate_of_served
    intro _
    exact ⟨by simp [State.pathWaits, hp], he⟩
  · rfl

/-! ### The map (R98, R101) -/

/-- Changing an entry keeps whatever the change keeps. -/
theorem changeEntry_map {α} (map : List MapEntry) (r b f) (g : MapEntry → α) (h : ∀ e, g (f e) = g e) :
    (changeEntry map r b f).map g = map.map g := by
  unfold changeEntry
  rw [List.map_map]
  apply List.map_congr_left
  intro e _
  simp only [Function.comp]
  split <;> simp [h]

/-- Dropping an entry takes exactly it from a map whose blocks are distinct. -/
theorem dropEntry_perm (map : List MapEntry) (e : MapEntry)
    (hn : (map.map fun e => (e.ring, e.block)).Nodup) (he : e ∈ map) :
    (e :: dropEntry map e.ring e.block).Perm map := by
  induction map with
  | nil => cases he
  | cons x xs ih =>
    simp only [List.map_cons, List.nodup_cons] at hn
    unfold dropEntry at ih ⊢
    rw [List.filter_cons]
    by_cases hx : x = e
    · subst hx
      have : xs.filter (fun y => !(y.ring == x.ring && y.block == x.block)) = xs := by
        rw [List.filter_eq_self]
        intro y hy
        have : (y.ring, y.block) ≠ (x.ring, x.block) := fun h => hn.1
            (by rw [← h]; exact List.mem_map_of_mem (f := fun e : MapEntry => (e.ring, e.block)) hy)
        simp at this ⊢
        by_cases h : y.ring = x.ring
        · exact Or.inr (this h)
        · exact Or.inl h
      have hx0 : (!(x.ring == x.ring && x.block == x.block)) = false := by simp
      rw [hx0, this]; simp
    · have he' : e ∈ xs := by rcases List.mem_cons.mp he with h | h; exact absurd h.symm hx; exact h
      have : (x.ring, x.block) ≠ (e.ring, e.block) := fun h => hn.1
          (by rw [h]; exact List.mem_map_of_mem (f := fun e : MapEntry => (e.ring, e.block)) he')
      have hh : (!(x.ring == e.ring && x.block == e.block)) = true := by
        simp at this ⊢
        by_cases h : x.ring = e.ring
        · exact Or.inr (this h)
        · exact Or.inl h
      rw [hh]; simp only [if_true]
      exact (List.Perm.swap x e _).trans ((ih hn.2 he').cons x)

/-- A block without an entry is no key of the map. -/
theorem findEntry_none_key (map : List MapEntry) (r b) (h : findEntry map r b = none) :
    (r, b) ∉ map.map fun e => (e.ring, e.block) := by
  intro hm
  obtain ⟨e, he, heq⟩ := List.mem_map.mp hm
  unfold findEntry at h
  have := List.find?_eq_none.mp h e he
  simp at heq this
  exact this heq.1 heq.2

/-- Removing an entry leaves the engine's records, the port, the path unit and the pins. -/
theorem removeEntry_same (e : MapEntry) (s : State) :
    (removeEntry e s).engine = s.engine ∧ (removeEntry e s).dn = s.dn ∧ (removeEntry e s).path = s.path ∧
    (removeEntry e s).pins = s.pins := by
  unfold removeEntry; dsimp only; split <;> exact ⟨rfl, rfl, rfl, rfl⟩

/-- Removing one of several entries of a capture (R101). -/
theorem removeEntry_more (e : MapEntry) (s : State) (h1 : 2 ≤ (s.capture e.capture).entries) :
    removeEntry e s =
      { s.putCapture e.capture { s.capture e.capture with
          entries := (s.capture e.capture).entries - 1 } with
        pool := { s.pool with
          map := dropEntry s.pool.map e.ring e.block
          freeList := s.pool.freeList ++ [e.slot] } } := by
  unfold removeEntry
  dsimp only
  rw [if_neg (by omega)]
  simp [State.putCapture]

/-- The removal of a MERGING capture's last entry makes it FREE (R90, R101). -/
theorem removeEntry_last (e : MapEntry) (s : State) (hm : (s.capture e.capture).state = .merging)
    (h1 : (s.capture e.capture).entries = 1) : removeEntry e s =
   { s.putCapture e.capture { s.capture e.capture with state := .free, entries := 0 } with
     pool := { s.pool with
       map := dropEntry s.pool.map e.ring e.block
       freeList := s.pool.freeList ++ [e.slot] }
     queue := arrive (freeEvent e.capture (s.capture e.capture)) s.queue } := by
  unfold removeEntry
  dsimp only
  rw [if_pos ⟨hm, by omega⟩]
  unfold becomeFree
  simp [raise, freeEvent, State.putCapture, State.capture]
  simp only [State.capture] at h1
  simp [h1]

/-! ### The engine (R119 to R122, R131, R132) -/

/-- A capture released to an engine that is not IDLE waits in the queue (R118). -/
theorem appendRelease_busy (c : Fin 16) (s : State) (h : s.engine.status ≠ .idle) : appendRelease c s =
    { s.putCapture c { s.capture c with state := .releasing } with
      engine := { s.engine with queue := s.engine.queue ++ [c] } } := by
  unfold appendRelease; exact if_neg h

/-- One without entries, released to an IDLE engine, becomes FREE (R90, R120). -/
theorem appendRelease_idle (c : Fin 16) (s : State) (h : s.engine.status = .idle)
    (hq : s.engine.queue = []) (he : (s.capture c).entries = 0) : appendRelease c s =
   raise (freeEvent c (s.capture c)) (s.putCapture c { s.capture c with state := .free }) := by
  unfold appendRelease
  dsimp only
  rw [if_pos (show (s.putCapture c _).engine.status = .idle from h)]
  rw [putCapture_engine, hq]
  simp only [List.nil_append, takeQueue]
  rw [if_pos]
  · simp only [becomeFree, takeCapture]
    simp [State.putCapture, State.capture, raise, freeEvent]
    rw [← hq]
  · simp [takeCapture, State.putCapture, State.capture]
    exact he

/-- One with entries, released to an IDLE engine, is taken and its copy begins (R120 to R122). -/
theorem appendRelease_take (c : Fin 16) (s : State) (e : MapEntry) (h : s.engine.status = .idle)
    (hq : s.engine.queue = []) (he : (s.capture c).entries ≠ 0)
    (hn : nextEntry s c (s.capture c).firstBlock = some e) :
   appendRelease c s = { s.putCapture c { s.capture c with state := .merging } with
            pool := { s.pool with map := changeEntry s.pool.map e.ring e.block fun x =>
              { x with state := .copying, restartPending := s.targets e.ring e.block } }
            engine := { s.engine with
              status := .copying
              merging := some c
              cursor := some ((e.block + 1) % (s.ring e.ring).cfg.sizeBlocks)
              copy := some ⟨e.ring, e.block, homeOf (s.ring e.ring).cfg e.block, e.slot, .readWait, [],
                            0#16⟩ }
            dn := { s.dn with shareCount := 0 } } := by
  unfold appendRelease
  dsimp only
  rw [if_pos (show (s.putCapture c _).engine.status = .idle from h)]
  rw [putCapture_engine, hq]
  simp only [List.nil_append, takeQueue]
  have hne : ∀ (u : State) n, u.capture c = { s.capture c with state := .merging } →
      u.pool = s.pool → u.rings = s.rings → nextEntry u c n = nextEntry s c n := by
    intro u n h1 h2 h3
    unfold nextEntry
    dsimp only
    rw [h1, h2, ring_of_rings h3]
  rw [if_neg]
  · have hx : ∀ u : State, u = takeCapture c [] { s.putCapture c
      { s.capture c with state := .releasing } with engine := { s.engine with queue := [c] } } →
      nextEntry u c (u.capture c).firstBlock = some e := by
      intro u hu
      rw [hne u _ (by rw [hu]; simp [takeCapture, State.capture, State.putCapture])
          (by rw [hu]; rfl) (by rw [hu]; rfl)]
      rw [hu, ← hn]
      congr 1
      simp [takeCapture, State.capture, State.putCapture]
    rw [hx _ rfl]
    dsimp only
    simp [copyEntry, beginCopy, beginWait, takeCapture, State.targets, State.putCapture,
        State.capture, State.ring, stepOn]
  · simp [takeCapture, State.putCapture, State.capture]
    exact he

/-- With nothing queued the engine becomes IDLE (R119). -/
theorem engineNext_nil (s : State) (h : s.engine.queue = []) :
    engineNext s =
      { s with engine := { s.engine with status := .idle, merging := none, copy := none } } := by
  unfold engineNext engineIdle
  simp [h, takeQueue]

/-- The next entry's copy begins while the capture is in MERGING (R121). -/
theorem continueMerge_next (c : Fin 16) (s : State) (n : Nat) (e : MapEntry)
    (hm : (s.capture c).state = .merging) (hc : s.engine.cursor = some n)
    (hn : nextEntry s c n = some e) : continueMerge c s = copyEntry e s := by
  unfold continueMerge
  rw [if_pos hm, hc]
  dsimp only
  rw [hn]

/-- RESUME of a HALTED engine repeats the entry's copy (R131). -/
theorem runResume_eq (s : State) (k : CopyRecord) (e : MapEntry) (hst : s.engine.status = .halted)
    (hk : s.engine.copy = some k) (he : s.entry k.ring k.block = some e) :
   runResume s = (arbitrate (beginCopy e { s with engine := { s.engine with fault := none } }),
       replyOk []) := by
  unfold runResume
  rw [if_pos hst, hk]
  dsimp only
  split
  · next e' he' =>
    have : e' = e := Option.some.inj (he'.symm.trans he)
    rw [this]
  · next he' =>
    exact absurd (he'.symm.trans he) (by simp)

/-- SKIP of a HALTED engine removes the entry and goes on (R132). -/
theorem runSkip_eq (s : State) (k : CopyRecord) (e : MapEntry) (hst : s.engine.status = .halted)
    (hk : s.engine.copy = some k) (he : s.entry k.ring k.block = some e) :
    runSkip s = (arbitrate (continueMerge e.capture { removeEntry e (countLost e s) with
      engine := { (removeEntry e (countLost e s)).engine with fault := none } }), replyOk []) := by
  unfold runSkip
  rw [if_pos hst, hk]
  dsimp only
  split
  · next e' he' =>
    have : e' = e := Option.some.inj (he'.symm.trans he)
    rw [this]
  · next he' =>
    exact absurd (he'.symm.trans he) (by simp)

/-! ### The next entry and the take of queued captures (R120, R121) -/

/-- The next entry reads the capture's ring and last block, the map and the rings. -/
theorem nextEntry_same (u s : State) (c : Fin 16) (n : Nat)
    (ring : (u.capture c).ring = (s.capture c).ring)
    (last : (u.capture c).lastBlock = (s.capture c).lastBlock)
    (map : u.pool.map = s.pool.map) (rings : u.rings = s.rings) : nextEntry u c n = nextEntry s c n := by
  unfold nextEntry
  dsimp only
  rw [ring, last, map, ring_of_rings rings]

/-- The take of queued captures neither reads nor changes the link. -/
theorem takeQueue_withLink (l : Link) : ∀ (q : List (Fin 16)) (s : State),
    takeQueue q { s with link := l } = { takeQueue q s with link := l } := by
  intro q
  induction q with
  | nil => intro s; rfl
  | cons c rest ih =>
    intro s
    unfold takeQueue
    rw [show takeCapture c rest { s with link := l } = { takeCapture c rest s with link := l } from rfl]
    dsimp only
    rw [show ∀ n, nextEntry { takeCapture c rest s with link := l } c n =
      nextEntry (takeCapture c rest s) c n from fun n => nextEntry_same _ _ _ _ rfl rfl rfl rfl]
    rw [show ∀ u : State, State.capture { u with link := l } c = u.capture c from fun _ => rfl]
    split
    · exact ih (becomeFree c (takeCapture c rest s))
    · cases nextEntry (takeCapture c rest s) c ((takeCapture c rest s).capture c).firstBlock with
      | none => exact ih (takeCapture c rest s)
      | some e => rfl

/-- Nor does it touch the link, the pins, the UP port or the path unit. -/
theorem takeQueue_outer (q : List (Fin 16)) : ∀ s : State, (takeQueue q s).link = s.link ∧
    (takeQueue q s).pins = s.pins ∧ (takeQueue q s).up = s.up ∧ (takeQueue q s).path = s.path := by
  induction q with
  | nil => intro s; exact ⟨rfl, rfl, rfl, rfl⟩
  | cons c rest ih =>
    intro s
    unfold takeQueue
    dsimp only
    split
    · exact ih (becomeFree c (takeCapture c rest s))
    · split
      · exact ⟨rfl, rfl, rfl, rfl⟩
      · exact ih (takeCapture c rest s)

end Sys2Proof.Machine
end

