-- ==== Sys2Proof/Laws/Frame.lean ====
section
/-! SUPPORT. The receipt of a good frame, said once: what a link command leaves, from what its execution
does with any link. -/

namespace Sys2Proof.Machine

/-- In TURN the first bit of the turnaround byte 00H, as every other, is a zero (R158). -/
theorem present_turn (s : State) (h : s.link.phase = .turn) :
    present s = { s with link := { s.link with out := some false } } := by
  simp [present, Link.sdoByte, h]

/-- A good frame of c, from the start of a frame: when the execution, on whatever link, gives the state
t with that link (its commit as t has it) and a reply, the frame leaves t with the link that answers. -/
theorem goodFrame_answers {c : Instr} {run : Execution} {s t : State} {status : Status}
    {data : List Byte} (hs : s.atFrameStart = true) (hc : encodeCommand c ≠ none)
    (h : ∀ l : Link, l.commit = s.link.commit →
      run { s with link := l } =
        ({ t with link := { l with commit := t.link.commit } }, mkReply status data)) :
    goodFrame c run s = t.answers c status data := by
  unfold goodFrame State.answers
  rw [if_pos hs]
  cases hx : encodeCommand c with
  | none => exact absurd hx hc
  | some p =>
    dsimp only
    unfold finishFrame
    rw [h (frameReceived p.1 p.2 s.link) rfl, present_turn _ rfl]
    rfl

/-- The same for an execution that makes no commit pending. -/
theorem goodFrame_does {c : Instr} {run : Execution} {s t : State} {status : Status}
    {data : List Byte} (hs : s.atFrameStart = true) (hc : encodeCommand c ≠ none)
    (ht : t.link.commit = s.link.commit)
    (h : ∀ l : Link, run { s with link := l } = ({ t with link := l }, mkReply status data)) :
    goodFrame c run s = t.answers c status data := by
  refine goodFrame_answers hs hc fun l hl => ?_
  rw [h l, ht, ← hl]

/-- The same for an execution that changes nothing (a refusal, a report). -/
theorem goodFrame_reports {c : Instr} {run : Execution} {s : State} {status : Status}
    {data : List Byte} (hs : s.atFrameStart = true) (hc : encodeCommand c ≠ none)
    (h : ∀ l : Link, run { s with link := l } = ({ s with link := l }, mkReply status data)) :
    goodFrame c run s = s.answers c status data :=
  goodFrame_does hs hc rfl h

/-! ### Bytes received (R155 to R160) -/

/-- The start of a frame, said field by field (R155, R159). -/
theorem frameStart_iff (s : State) : s.atFrameStart = true ↔ s.selected = true ∧
    s.link.phase = .request ∧ s.link.byteCount = 0 ∧ s.link.bits = [] := by
  simp [State.atFrameStart, and_assoc]

/-- The bits of a byte make it again (R155). -/
theorem byteOfBits_byteBits (b : Byte) : byteOfBits (byteBits b) = b := by
  have step (v : Byte) (x : Bool) (j : Nat) :
      (((v <<< 1) ||| (if x then 1#8 else 0#8) : Byte)).getLsbD j =
        if j = 0 then x else decide (j < 8) && v.getLsbD (j - 1) := by
    rcases j with _ | j
    · cases x <;> simp
    · cases x <;> simp [BitVec.getLsbD_one]
  apply BitVec.eq_of_getLsbD_eq
  intro i hi
  show (byteOfBits [b.getLsbD 7, b.getLsbD 6, b.getLsbD 5, b.getLsbD 4, b.getLsbD 3, b.getLsbD 2,
    b.getLsbD 1, b.getLsbD 0]).getLsbD i = _
  simp only [byteOfBits, List.foldl_cons, List.foldl_nil, step]
  interval_cases i <;> simp

/-- Edges in order. -/
theorem clockEdges_append (es fs : List SckEdge) :
    ∀ s, clockEdges (es ++ fs) s = clockEdges fs (clockEdges es s) := by
  induction es with
  | nil => intro s; rfl
  | cons e es ih => intro s; cases e <;> exact ih _

/-- Periods of SCK before the last of a byte: the bits are kept in order, and SDO takes the next bit of
the byte sent (R155). -/
theorem clock_bits (xs : List Bool) : ∀ s : State, s.selected = true → s.link.phase ≠ .idle →
    s.link.bits.length + xs.length < 8 →
    clockEdges (clockBits xs) s = { s with link := { s.link with
      bits := s.link.bits ++ xs
      out := if xs = [] then s.link.out
        else s.link.sdoByte.map fun b => b.getLsbD (7 - (s.link.bits.length + xs.length)) } } := by
  induction xs with
  | nil => intro s _ _ _; simp [clockBits, clockEdges]
  | cons x xs ih =>
    intro s hs hp hb
    have hx : sckFall (sckRise x s) = { s with link := { s.link with
        bits := s.link.bits ++ [x]
        out := s.link.sdoByte.map fun b => b.getLsbD (7 - (s.link.bits.length + 1)) } } := by
      have h1 : sckRise x s = { s with link := { s.link with bits := s.link.bits ++ [x] } } := by
        unfold sckRise
        rw [if_pos (by simp [hs, hp])]
        dsimp only
        rw [if_pos (by simp at hb ⊢; omega)]
      rw [h1]
      have hs' : ({ s with link := { s.link with bits := s.link.bits ++ [x] } } : State).selected = true :=
        hs
      simp only [sckFall, hs', if_true, present, Link.sdoByte, List.length_append, List.length_cons,
        List.length_nil]
    show clockEdges (clockBits xs) (sckFall (sckRise x s)) = _
    rw [hx]
    simp only [List.length_cons] at hb
    refine (ih { s with link := { s.link with
        bits := s.link.bits ++ [x]
        out := s.link.sdoByte.map fun b => b.getLsbD (7 - (s.link.bits.length + 1)) } } hs hp
      (by simp; omega)).trans ?_
    simp only [List.append_assoc, List.cons_append, List.nil_append, List.length_append,
      List.length_cons, List.length_nil, reduceCtorEq, if_false]
    split
    · next h => subst h; rfl
    · rw [show s.link.bits.length + (0 + 1) + xs.length = s.link.bits.length + (xs.length + 1) by omega]
      rfl

/-- The eight periods of SCK of a byte: it completes at the last rising edge, SDO at its own last bit, and
the falling edge after that presents the first bit of the next (R155). -/
theorem clock_byte (b : Byte) (s : State) (hs : s.selected = true) (hp : s.link.phase ≠ .idle)
    (hb : s.link.bits = []) :
    clockEdges (clockBits (byteBits b)) s =
      sckFall (completeByte b { s with link := { s.link with
        out := s.link.sdoByte.map fun x => x.getLsbD 0 } }) := by
  have hl : clockBits (byteBits b) = clockBits [b.getLsbD 7, b.getLsbD 6, b.getLsbD 5, b.getLsbD 4,
      b.getLsbD 3, b.getLsbD 2, b.getLsbD 1] ++ [.rise (b.getLsbD 0), .fall] := rfl
  rw [hl, clockEdges_append, clock_bits _ s hs hp (by simp [hb])]
  simp only [hb, List.nil_append, List.length_cons, List.length_nil, reduceCtorEq, if_false]
  show sckFall (sckRise _ _) = _
  congr 1
  unfold sckRise
  rw [if_pos (by simp [hp]; exact hs)]
  dsimp only
  rw [if_neg (by simp)]
  have : byteOfBits ([b.getLsbD 7, b.getLsbD 6, b.getLsbD 5, b.getLsbD 4, b.getLsbD 3, b.getLsbD 2,
    b.getLsbD 1] ++ [b.getLsbD 0]) = b := byteOfBits_byteBits b
  rw [this, ← hb]

/-! ### Bytes of a request frame (R156, R157, R160) -/

/-- At the start of a byte in REQUEST or DISCARD, SDO takes the first bit of FFH (R158). -/
theorem present_ones (s : State) (h : s.link.phase = .request ∨ s.link.phase = .discard)
    (hb : s.link.bits = []) :
    present s = { s with link := { s.link with out := some true } } := by
  rcases h with h | h <;> simp [present, h, hb, Link.sdoByte]

/-- One more byte of a frame before its check byte: it is stored, and SDO goes on sending ones. -/
theorem clock_front (b : Byte) (s : State) (hs : s.selected = true) (hp : s.link.phase = .request)
    (hb : s.link.bits = []) (ho : s.link.out = some true) (hc : s.link.checkByteNext = false) :
    clockEdges (clockBits (byteBits b)) s = { s with link := storeByte b s.link } := by
  rw [clock_byte b s hs (by rw [hp]; decide) hb]
  have h1 : s.link.sdoByte.map (fun x => x.getLsbD 0) = s.link.out := by simp [Link.sdoByte, hp, ho]
  rw [h1]
  have h2 : completeByte b { s with link := { s.link with out := s.link.out } } =
      { s with link := storeByte b s.link } := by
    show completeByte b s = _
    unfold completeByte
    rw [hp]
    show receiveByte b s = _
    unfold receiveByte
    rw [if_neg (by simp [hc])]
  rw [h2]
  have hs' : ({ s with link := storeByte b s.link } : State).selected = true := hs
  rw [sckFall, if_pos hs']
  refine (present_ones { s with link := storeByte b s.link } (Or.inl hp) hb).trans ?_
  rw [show some true = (storeByte b s.link).out from ho.symm]

/-- The first byte of a frame is the command code (R156). -/
theorem clock_code (s : State) (code : Byte) (h : s.atFrameStart = true) (hl : s.LinkSound) :
    clockEdges (clockBits (byteBits code)) s = { s with link := { s.link with
      buffer := ⟨some code, none, []⟩, byteCount := 1, check := crcByte 0#8 code } } := by
  obtain ⟨h1, h2, h3, h4⟩ := (frameStart_iff s).mp h
  obtain ⟨hb, hk⟩ := hl.fresh h2 h3
  rw [clock_front code s h1 h2 h4 (hl.ones h2) (by simp [Link.checkByteNext, h3])]
  simp [storeByte, h3, hb, hk]

/-- The parameter bytes, of which the first 40 are kept (R156). -/
theorem clock_params (len : Byte) : ∀ (params : List Byte) (s : State) (got : List Byte),
    s.selected = true → s.link.phase = .request → s.link.bits = [] → s.link.out = some true →
    s.link.buffer.length = some len → s.link.byteCount = 2 + got.length →
    s.link.buffer.params = got.take 40 → got.length + params.length ≤ len.toNat →
    clockEdges (clockBytes params) s = { s with link := { s.link with
      buffer := ⟨s.link.buffer.code, some len, (got ++ params).take 40⟩
      byteCount := 2 + got.length + params.length
      check := params.foldl crcByte s.link.check } } := by
  intro params
  induction params with
  | nil =>
    intro s got h1 h2 hb ho h3 h4 h5 h6
    simp only [clockBytes, List.flatMap_nil, clockEdges, List.append_nil, List.foldl_nil,
      List.length_nil, Nat.add_zero]
    rw [← h5, ← h4, ← h3]
  | cons b bs ih =>
    intro s got h1 h2 hb ho h3 h4 h5 h6
    have : clockEdges (clockBits (byteBits b)) s = { s with link := { s.link with
        buffer := ⟨s.link.buffer.code, some len, (got ++ [b]).take 40⟩
        byteCount := 2 + (got ++ [b]).length
        check := crcByte s.link.check b } } := by
      simp only [List.length_cons] at h6
      have hn : ¬ s.link.byteCount = 0 := by omega
      have hn1 : ¬ s.link.byteCount = 1 := by omega
      have hc : s.link.checkByteNext = false := by
        unfold Link.checkByteNext
        rw [h3, h4]
        simp; omega
      rw [clock_front b s h1 h2 hb ho hc]
      simp only [storeByte, hn, hn1, if_false]
      congr 2
      · split
        · next hlt =>
          rw [h5] at hlt ⊢
          rw [h3]; congr 1
          simp only [List.length_take] at hlt
          rw [List.take_of_length_le (by omega), List.take_of_length_le (by simp; omega)]
        · next hlt =>
          rw [h5] at hlt
          simp only [List.length_take] at hlt
          rw [List.take_append_of_le_length (by omega), ← h5, ← h3]
      · simp; omega
    show clockEdges (clockBits (byteBits b) ++ clockBytes bs) s = _
    rw [clockEdges_append, this]
    refine (ih { s with link := { s.link with
        buffer := ⟨s.link.buffer.code, some len, (got ++ [b]).take 40⟩
        byteCount := 2 + (got ++ [b]).length
        check := crcByte s.link.check b } } (got ++ [b]) h1 h2 hb ho rfl rfl
        rfl (by simp at h6 ⊢; omega)).trans ?_
    simp only [List.append_assoc, List.singleton_append, List.foldl_cons, List.length_append,
        List.length_cons, List.length_nil]
    congr 2; omega

/-- A frame up to its check byte (R156, R157). -/
theorem clock_head (s : State) (code len : Byte) (params : List Byte)
    (h : s.atFrameStart = true) (hl : s.LinkSound) (hp : params.length ≤ len.toNat) :
    clockEdges (clockBytes (code :: len :: params)) s = { s with link := { s.link with
      buffer := ⟨some code, some len, params.take 40⟩
      byteCount := 2 + params.length
      check := crc8 (code :: len :: params) } } := by
  obtain ⟨h1, h2, h3, h4⟩ := (frameStart_iff s).mp h
  have ho := hl.ones h2
  show clockEdges (clockBits (byteBits code) ++ (clockBits (byteBits len) ++ clockBytes params)) s = _
  rw [clockEdges_append, clock_code s code h hl, clockEdges_append,
    clock_front len { s with link := { s.link with
      buffer := ⟨some code, none, []⟩, byteCount := 1, check := crcByte 0#8 code } } h1 h2 h4 ho
      (by simp [Link.checkByteNext])]
  refine (clock_params len params { s with link := { s.link with
      buffer := ⟨some code, some len, []⟩
      byteCount := 2
      check := crcByte (crcByte 0#8 code) len } } [] h1 h2 h4 ho rfl rfl rfl
      (by simpa using hp)).trans ?_
  simp [crc8]

/-- A whole frame is evaluated at its check byte, on the link that holds it; the falling edge that ends it
presents the first bit of what is sent next (R155, R160). -/
theorem clock_frame (s : State) (code len b : Byte) (params : List Byte)
    (h : s.atFrameStart = true) (hl : s.LinkSound) (hp : params.length = len.toNat) :
    clockEdges (clockBytes (code :: len :: (params ++ [b]))) s =
      sckFall (finishFrame (evaluate b) { s with link := { s.link with
        buffer := ⟨some code, some len, params.take 40⟩
        byteCount := params.length + 3
        check := crc8 (code :: len :: params) } }) := by
  obtain ⟨h1, h2, h3, h4⟩ := (frameStart_iff s).mp h
  have ho := hl.ones h2
  have hsplit : clockBytes (code :: len :: (params ++ [b])) =
      clockBytes (code :: len :: params) ++ clockBits (byteBits b) := by simp [clockBytes]
  rw [hsplit, clockEdges_append, clock_head s code len params h hl (by omega)]
  rw [clock_byte b { s with link := { s.link with
      buffer := ⟨some code, some len, params.take 40⟩
      byteCount := 2 + params.length
      check := crc8 (code :: len :: params) } } h1 (by simp [h2]) h4]
  have hmap : ({ s.link with
      buffer := ⟨some code, some len, params.take 40⟩
      byteCount := 2 + params.length
      check := crc8 (code :: len :: params) } : Link).sdoByte.map (fun x => x.getLsbD 0) = s.link.out := by
    simp [Link.sdoByte, h2, ho]
  dsimp only
  rw [hmap]
  congr 1
  simp only [completeByte, h2, receiveByte]
  rw [if_pos (by simp [Link.checkByteNext, hp])]
  simp only [Nat.add_comm 2 params.length, Nat.add_assoc]

/-- After a frame whose execution leaves the pins, the falling edge presents the next bit (R155). -/
theorem sckFall_finishFrame (run : Execution) (s : State) (h : (run s).1.pins = s.pins)
    (hs : s.selected = true) : sckFall (finishFrame run s) = present (finishFrame run s) := by
  have : (finishFrame run s).selected = true := by
    show ((run s).1.pins.rstn && !(run s).1.pins.scs) = true
    rw [h]; exact hs
  rw [sckFall, if_pos this]

/-! ### The end of a reply (R162) -/

/-- The commit leaves the pins. -/
theorem commitPending_pins (s : State) : (commitPending s).pins = s.pins := by
  unfold commitPending extremesCommit
  split
  · rfl
  · split <;> rfl
  · rfl

/-- Of the link the commit reads the commit pending alone, and leaves it in DISCARD (R162). -/
theorem commitReply_withLink (s : State) (l : Link) (h : l.commit = s.link.commit) :
    commitReply { s with link := l } = { commitPending s with link := { l with
      phase := .discard, commit := none, sent := 0 } } := by
  have e : commitPending { s with link := l } = { commitPending s with link := l } := by
    unfold commitPending extremesCommit
    dsimp only
    rw [h]
    have hr : ∀ r, ({ s with link := l } : State).ring r = s.ring r := fun _ => rfl
    cases hc : s.link.commit with
    | none => rfl
    | some x =>
      cases x with
      | popEvent => rfl
      | readExtremes r =>
        dsimp only
        rw [hr]
        cases hp : (s.ring r).pendingExtremes <;> rfl
  unfold commitReply
  rw [e]

/-! ### What every edge of SCK keeps -/

/-- A property of the rest of the part that the evaluation of a frame and the commit of a reply keep, every
edge of SCK keeps. -/
theorem clockEdges_keeps {P : State → Prop}
    (link : ∀ (s : State) (l : Link), P s → P { s with link := l })
    (eval : ∀ b s, P s → P (evaluate b s).1) (commit : ∀ s, P s → P (commitPending s))
    (es : List SckEdge) : ∀ s : State, P s → P (clockEdges es s) := by
  have byte (b : Byte) (s : State) (hs : P s) : P (completeByte b s) := by
    unfold completeByte
    split
    · exact hs
    · exact hs
    · unfold receiveByte finishFrame
      split
      · exact link _ _ (eval _ _ (link _ _ hs))
      · exact link _ _ hs
    · exact link _ _ hs
    · split
      · exact link _ _ hs
      · exact link _ _ (commit _ hs)
  induction es with
  | nil => intro s hs; exact hs
  | cons e es ih =>
    intro s hs
    cases e with
    | rise x =>
      refine ih _ ?_
      unfold sckRise
      dsimp only
      split
      · split
        · exact link _ _ hs
        · exact byte _ _ (link _ _ hs)
      · exact hs
    | fall =>
      refine ih _ ?_
      unfold sckFall present
      split
      · exact link _ _ hs
      · exact hs

/-- Edges while the link takes no account of them change nothing (R155, R166). -/
theorem clockEdges_dead (s : State)
    (h : s.selected = false ∨ s.link.phase = .idle ∧ s.link.out = none) :
    ∀ es, clockEdges es s = s := by
  intro es
  induction es with
  | nil => rfl
  | cons e es ih =>
    cases e with
    | rise x =>
      show clockEdges es (sckRise x s) = s
      have : sckRise x s = s := by
        unfold sckRise
        rcases h with h | h <;> simp [h]
      rw [this, ih]
    | fall =>
      show clockEdges es (sckFall s) = s
      have : sckFall s = s := by
        unfold sckFall
        rcases h with h | h
        · simp [h]
        · split
          · have : s.link.sdoByte.map (fun b => b.getLsbD (7 - s.link.bits.length)) = s.link.out := by
              simp [Link.sdoByte, h.1, h.2]
            unfold present
            rw [this]
          · rfl
      rw [this, ih]

end Sys2Proof.Machine
end

