-- ==== Sys2Proof/Laws/PerInstr.lean ====
section
/-! SUPPORT. The parameter count of every command, one lemma per row: the bytes of a link command are as
many as the table of command codes gives its code (8.6, 9.3), and no more than the request buffer holds
(R156). The rows that are not link commands have no bytes. -/

namespace Sys2Proof.Laws

/-- The parameter bytes of the command are as many as its code has, at most 40 (8.6, R156). -/
def ParamCount.Statement (i : Instr) : Prop :=
  ∀ code params, encodeCommand i = some (code, params) →
    paramCount code = some params.length ∧ params.length ≤ 40

/-- From the command's bytes alone. -/
theorem ParamCount.of_bytes {i : Instr} (code : Byte) (params : List Byte)
    (h : encodeCommand i = some (code, params))
    (hn : paramCount code = some params.length ∧ params.length ≤ 40) : ParamCount.Statement i := by
  intro code' params' h'
  obtain ⟨rfl, rfl⟩ := Prod.mk.inj (Option.some.inj (h.symm.trans h'))
  exact hn

/-- A row that is not a link command has no bytes. -/
theorem ParamCount.of_none {i : Instr} (h : encodeCommand i = none) : ParamCount.Statement i :=
  fun _ _ h' => absurd (h.symm.trans h') (by simp)

theorem ParamCount.upstreamRequest : ∀ a, ParamCount.Statement (.upstreamRequest a) :=
  fun _ => ParamCount.of_none rfl

theorem ParamCount.dnResponse : ∀ a b c, ParamCount.Statement (.dnResponse a b c) :=
  fun _ _ _ => ParamCount.of_none rfl

theorem ParamCount.dnTimeout : ParamCount.Statement .dnTimeout := ParamCount.of_none rfl

theorem ParamCount.copyTimeout : ParamCount.Statement .copyTimeout := ParamCount.of_none rfl

theorem ParamCount.trigLevelChange : ∀ a b, ParamCount.Statement (.trigLevelChange a b) :=
  fun _ _ => ParamCount.of_none rfl

theorem ParamCount.rstnLow : ParamCount.Statement .rstnLow := ParamCount.of_none rfl

theorem ParamCount.rstnHigh : ParamCount.Statement .rstnHigh := ParamCount.of_none rfl

theorem ParamCount.scsFall : ParamCount.Statement .scsFall := ParamCount.of_none rfl

theorem ParamCount.requestFrame : ∀ a, ParamCount.Statement (.requestFrame a) :=
  fun _ => ParamCount.of_none rfl

theorem ParamCount.replyCommit : ParamCount.Statement .replyCommit := ParamCount.of_none rfl

theorem ParamCount.scsRise : ParamCount.Statement .scsRise := ParamCount.of_none rfl

theorem ParamCount.identify : ParamCount.Statement .identify :=
  ParamCount.of_bytes _ _ rfl ⟨rfl, Nat.le_of_ble_eq_true rfl⟩

theorem ParamCount.clear : ParamCount.Statement .clear :=
  ParamCount.of_bytes _ _ rfl ⟨rfl, Nat.le_of_ble_eq_true rfl⟩

theorem ParamCount.setPath : ∀ a b, ParamCount.Statement (.setPath a b) :=
  fun _ _ => ParamCount.of_bytes _ _ rfl ⟨rfl, Nat.le_of_ble_eq_true rfl⟩

theorem ParamCount.getPath : ParamCount.Statement .getPath :=
  ParamCount.of_bytes _ _ rfl ⟨rfl, Nat.le_of_ble_eq_true rfl⟩

theorem ParamCount.setView : ∀ a b, ParamCount.Statement (.setView a b) :=
  fun _ _ => ParamCount.of_bytes _ _ rfl ⟨rfl, Nat.le_of_ble_eq_true rfl⟩

theorem ParamCount.setRing : ∀ a b, ParamCount.Statement (.setRing a b) :=
  fun _ _ => ParamCount.of_bytes _ _ rfl ⟨rfl, Nat.le_of_ble_eq_true rfl⟩

theorem ParamCount.getRing : ∀ a, ParamCount.Statement (.getRing a) :=
  fun _ => ParamCount.of_bytes _ _ rfl ⟨rfl, Nat.le_of_ble_eq_true rfl⟩

theorem ParamCount.ringMode : ∀ a b, ParamCount.Statement (.ringMode a b) :=
  fun _ _ => ParamCount.of_bytes _ _ rfl ⟨rfl, Nat.le_of_ble_eq_true rfl⟩

theorem ParamCount.setMarker : ∀ a b c, ParamCount.Statement (.setMarker a b c) :=
  fun _ _ _ => ParamCount.of_bytes _ _ rfl ⟨rfl, Nat.le_of_ble_eq_true rfl⟩

theorem ParamCount.setLine : ∀ a b c d, ParamCount.Statement (.setLine a b c d) :=
  fun _ _ _ _ => ParamCount.of_bytes _ _ rfl ⟨rfl, Nat.le_of_ble_eq_true rfl⟩

theorem ParamCount.getLines : ParamCount.Statement .getLines :=
  ParamCount.of_bytes _ _ rfl ⟨rfl, Nat.le_of_ble_eq_true rfl⟩

theorem ParamCount.setPool : ∀ a b c, ParamCount.Statement (.setPool a b c) :=
  fun _ _ _ => ParamCount.of_bytes _ _ rfl ⟨rfl, Nat.le_of_ble_eq_true rfl⟩

theorem ParamCount.getPool : ParamCount.Statement .getPool :=
  ParamCount.of_bytes _ _ rfl ⟨rfl, Nat.le_of_ble_eq_true rfl⟩

theorem ParamCount.force : ∀ a, ParamCount.Statement (.force a) :=
  fun _ => ParamCount.of_bytes _ _ rfl ⟨rfl, Nat.le_of_ble_eq_true rfl⟩

theorem ParamCount.release : ∀ a, ParamCount.Statement (.release a) :=
  fun _ => ParamCount.of_bytes _ _ rfl ⟨rfl, Nat.le_of_ble_eq_true rfl⟩

theorem ParamCount.getCapture : ∀ a, ParamCount.Statement (.getCapture a) :=
  fun _ => ParamCount.of_bytes _ _ rfl ⟨rfl, Nat.le_of_ble_eq_true rfl⟩

theorem ParamCount.listCaptures : ParamCount.Statement .listCaptures :=
  ParamCount.of_bytes _ _ rfl ⟨rfl, Nat.le_of_ble_eq_true rfl⟩

theorem ParamCount.readExtremes : ∀ a, ParamCount.Statement (.readExtremes a) :=
  fun _ => ParamCount.of_bytes _ _ rfl ⟨rfl, Nat.le_of_ble_eq_true rfl⟩

theorem ParamCount.popEvent : ParamCount.Statement .popEvent :=
  ParamCount.of_bytes _ _ rfl ⟨rfl, Nat.le_of_ble_eq_true rfl⟩

theorem ParamCount.peekEvent : ParamCount.Statement .peekEvent :=
  ParamCount.of_bytes _ _ rfl ⟨rfl, Nat.le_of_ble_eq_true rfl⟩

theorem ParamCount.setEvents : ∀ a b, ParamCount.Statement (.setEvents a b) :=
  fun _ _ => ParamCount.of_bytes _ _ rfl ⟨rfl, Nat.le_of_ble_eq_true rfl⟩

theorem ParamCount.readAttention : ParamCount.Statement .readAttention :=
  ParamCount.of_bytes _ _ rfl ⟨rfl, Nat.le_of_ble_eq_true rfl⟩

theorem ParamCount.resume : ParamCount.Statement .resume :=
  ParamCount.of_bytes _ _ rfl ⟨rfl, Nat.le_of_ble_eq_true rfl⟩

theorem ParamCount.skip : ParamCount.Statement .skip := ParamCount.of_bytes _ _ rfl ⟨rfl, Nat.le_of_ble_eq_true rfl⟩

theorem ParamCount.getFault : ParamCount.Statement .getFault :=
  ParamCount.of_bytes _ _ rfl ⟨rfl, Nat.le_of_ble_eq_true rfl⟩

theorem ParamCount.getMap : ∀ a b, ParamCount.Statement (.getMap a b) :=
  fun _ _ => ParamCount.of_bytes _ _ rfl ⟨rfl, Nat.le_of_ble_eq_true rfl⟩

theorem ParamCount.turnaroundByte : ParamCount.Statement .turnaroundByte := ParamCount.of_none rfl

end Sys2Proof.Laws
end

