-- ==== Sys2Proof/Laws/Words.lean ====
section
/-! SUPPORT. Words, samples and positions: read bursts of a plan, addresses, strobe masks, the range of a
conditioned sample, and codes read back. -/

namespace Sys2Proof.Machine

/-! ### Positions and plans (R11, R12, R99) -/

/-- The burst indices whose word has a strobe set (R99). -/
theorem mem_strobed (ws : List WriteWord) (i : Nat) : i ∈ strobed ws ↔
    ∃ w, ws[i]? = some w ∧ w.strobes ≠ 0#4 := by
  unfold strobed
  simp only [List.mem_map, List.mem_filter, Prod.exists, List.mem_zipIdx_iff_getElem?]
  constructor
  · rintro ⟨w, j, ⟨h1, h2⟩, rfl⟩; exact ⟨w, h1, by simpa using h2⟩
  · rintro ⟨w, h1, h2⟩; exact ⟨w, i, ⟨h1, by simpa using h2⟩, rfl⟩

/-- Bit k of a set of positions (R99). -/
theorem posSet_bit (ks : List Nat) (k : Nat) (hk : k < 16) : (posSet ks).getLsbD k = true ↔ k ∈ ks := by
  unfold posSet
  induction ks with
  | nil => simp
  | cons x xs ih =>
    simp only [List.foldr_cons, BitVec.getLsbD_or, Bool.or_eq_true, ih, List.mem_cons]
    have : (1#16 <<< x).getLsbD k = true ↔ k = x := by
      simp [hk]
      omega
    rw [this]; tauto

/-- Burst indices filtered from a burst rise strictly. -/
theorem burstIndices_rise (p : WriteWord × Nat → Bool) (ws : List WriteWord) (n : Nat) :
    ((ws.zipIdx n).filter p |>.map (·.2)).Pairwise (· < ·) := by
  have : ((ws.zipIdx n).map (·.2)).Pairwise (· < ·) := by
    have h2 : (ws.zipIdx n).map (·.2) = List.range' n ws.length := by
      rw [List.zipIdx_eq_zip_range']; exact List.map_snd_zip (by simp)
    rw [h2]
    exact List.pairwise_lt_range'
  exact List.Pairwise.sublist (List.Sublist.map _ (List.filter_sublist)) this

/-- A read of some burst indices runs from the lowest to the highest of them (R11, R12). -/
theorem readTxn_spec (kind : PathKind) (addr : Nat → Addr) (l : List Nat)
    (hs : l.Pairwise (· < ·)) (hne : l ≠ []) :
    ∃ lo hi, lo ∈ l ∧ hi ∈ l ∧ (∀ i ∈ l, lo ≤ i ∧ i ≤ hi) ∧
      readTxn kind addr l = [⟨kind, addr lo, hi - lo + 1, lo, l, []⟩] := by
  refine ⟨l.head hne, l.getLast hne, List.head_mem _, List.getLast_mem _, ?_, ?_⟩
  · intro i hi
    constructor
    · cases l with
      | nil => cases hi
      | cons a t =>
        rcases List.mem_cons.mp hi with rfl | h
        · exact Nat.le_refl _
        · exact Nat.le_of_lt (List.rel_of_pairwise_cons hs h)
    · have : l = l.dropLast ++ [l.getLast hne] := (List.dropLast_append_getLast hne).symm
      rw [this] at hi hs
      rcases List.mem_append.mp hi with h | h
      · exact Nat.le_of_lt ((List.pairwise_append.mp hs).2.2 i h _ (by simp))
      · simp at h; omega
  · unfold readTxn
    rw [List.head?_eq_some_head hne, List.getLast?_eq_some_getLast hne]

/-- Word addresses add up. -/
theorem addWords_add (a : Addr) (i j : Nat) : addWords (addWords a i) j = addWords a (i + j) := by
  unfold addWords
  apply BitVec.eq_of_toNat_eq
  simp; omega

/-- The words of a slot lie one after the other (R97). -/
theorem addWords_slot (a : Addr) (n k j : Nat) :
    addWords (slotAddr a n k) j = slotAddr a n (k + j) := by
  unfold addWords slotAddr
  apply BitVec.eq_of_toNat_eq
  simp; omega

/-- Strobe i covers the eight bits of byte i (1.1). -/
theorem strobeMask_bit (st : BitVec 4) (i j : Nat) (hi : i < 4) (hj : j < 8) :
    (strobeMask st).getLsbD (8 * i + j) = st.getLsbD i := by
  revert st
  have : j = 0 ∨ j = 1 ∨ j = 2 ∨ j = 3 ∨ j = 4 ∨ j = 5 ∨ j = 6 ∨ j = 7 := by omega
  have hi' : i = 0 ∨ i = 1 ∨ i = 2 ∨ i = 3 := by omega
  rcases hi' with rfl | rfl | rfl | rfl <;>
    rcases this with rfl | rfl | rfl | rfl | rfl | rfl | rfl | rfl <;> decide

/-! ### Samples (R32) -/

/-- A conditioned sample lies in its format's range. -/
theorem condition_range (c : RingConfig) (v : Int) :
    formatMin c.format ≤ condition c v ∧ condition c v ≤ formatMax c.format := by
  unfold condition
  dsimp only
  have : formatMin c.format ≤ formatMax c.format := by cases c.format <;> decide
  generalize (if c.shift = 0 then v else (v + 2 ^ (c.shift - 1)) / 2 ^ c.shift) + c.offset = u
  split
  · omega
  · split <;> omega

/-- Values that fit are kept by 32, 24 and 16 bits. -/
theorem ofInt32 (v : Int) (h1 : -2147483648 ≤ v) (h2 : v ≤ 2147483647) :
    (BitVec.ofInt 32 v).toInt = v := by
  rw [BitVec.toInt_ofInt]; apply Int.bmod_eq_of_le <;> norm_num <;> omega

theorem ofInt24 (v : Int) (h1 : -8388608 ≤ v) (h2 : v ≤ 8388607) : (BitVec.ofInt 24 v).toInt = v := by
  rw [BitVec.toInt_ofInt]; apply Int.bmod_eq_of_le <;> norm_num <;> omega

theorem ofInt16 (v : Int) (h1 : -32768 ≤ v) (h2 : v ≤ 32767) : (BitVec.ofInt 16 v).toInt = v := by
  rw [BitVec.toInt_ofInt]; apply Int.bmod_eq_of_le <;> norm_num <;> omega

/-! ### Codes (R175) -/

/-- A number in range read from its byte, and one out of range. -/
theorem indexOf_ofNat (n : Nat) (k : Fin n) (hn : n ≤ 256) :
    indexOf n (BitVec.ofNat 8 k.val) = some k := by
  unfold indexOf
  have : (BitVec.ofNat 8 k.val).toNat = k.val := by simp; omega
  rw [dif_pos (by rw [this]; exact k.isLt)]
  congr 1; exact Fin.ext this

theorem indexOf_none (n : Nat) (b : Byte) (h : n ≤ b.toNat) : indexOf n b = none := by
  unfold indexOf; rw [dif_neg (by omega)]

theorem ringOf_ofNat (r : Fin 8) : ringOf (BitVec.ofNat 8 r.val) = some r :=
    indexOf_ofNat 8 r (by omega)

theorem captureOf_ofNat (r : Fin 16) : captureOf (BitVec.ofNat 8 r.val) = some r :=
    indexOf_ofNat 16 r (by omega)

theorem ringOf_none (b : Byte) (h : 7 < b.toNat) : ringOf b = none := indexOf_none 8 b h

theorem captureOf_none (b : Byte) (h : 15 < b.toNat) : captureOf b = none := indexOf_none 16 b h

/-- A flag byte is 0 or 1 (R175). -/
theorem flagOf_none (b : Byte) (h : 1 < b.toNat) : flagOf b = none := by
  unfold flagOf; rw [if_neg, if_neg]
  · rintro rfl; simp at h
  · rintro rfl; simp at h

theorem flagOf_code (x : Bool) : flagOf (if x then 1#8 else 0#8) = some x := by cases x <;> rfl

/-- A set read from its byte has that byte as its code (9.4). -/
theorem triggerEnableCode_bits (b : Byte) (h : b.toNat < 32) :
    triggerEnableCode ⟨b.getLsbD 0, b.getLsbD 1, b.getLsbD 2, b.getLsbD 3, b.getLsbD 4⟩ = b := by
  revert b; decide

theorem eventEnableCode_bits (b : Byte) (h : b.toNat < 8) :
    eventEnableCode ⟨b.getLsbD 0, b.getLsbD 1, b.getLsbD 2⟩ = b := by
  revert b; decide

/-- When two regions given in blocks meet (R22). -/
theorem regionsMeet_iff (b n b' n' : Nat) :
    regionsMeet b (64 * n) b' (64 * n') = true ↔
      n ≠ 0 ∧ n' ≠ 0 ∧ b < b' + 64 * n' ∧ b' < b + 64 * n := by
  unfold regionsMeet
  simp only [Bool.and_eq_true, bne_iff_ne, decide_eq_true_eq]
  omega

end Sys2Proof.Machine
end

