-- ==== Sys2Proof/Tests/Slice0.lean ====
section
/-! SUPPORT. Tests: the checks of `Instr.wf` on ill-formed terms, single steps against the worked
examples and tables of spec/, and a witness for the hypotheses of every obligation that has some. -/

namespace Sys2Proof.Tests
open Sys2Proof Sys2Proof.Machine

/-! ### WellFormed refuses what no port can carry (1.1, 1.4, R156) -/

theorem test_wf_refuses_unaligned : Instr.wf (.upstreamRequest ⟨0, 2#32, .read 1⟩) = false := by
  decide

theorem test_wf_refuses_no_words : Instr.wf (.upstreamRequest ⟨0, 0#32, .read 0⟩) = false := by
  decide

theorem test_wf_refuses_17_words :
    Instr.wf (.upstreamRequest ⟨0, 0#32, .write (List.replicate 17 ⟨0#32, 15#4⟩)⟩) = false := by
  decide

theorem test_wf_refuses_long_response :
    Instr.wf (.dnResponse 0#4 .okay (List.replicate 17 0#32)) = false := by decide

theorem test_wf_refuses_two_rises : Instr.wf (.requestFrame [.fall, .rise true, .rise true]) = false := by
  decide

/-- Any number of bits can be clocked (R155). -/
theorem test_wf_accepts_frame : Instr.wf (.requestFrame (clockBytes [0x02#8] ++ clockBits [true])) = true :=
  by decide

/-! ### Bytes of commands (9.2 to 9.4) -/

set_option maxRecDepth 4000 in
/-- The request frames of 9.2. -/
theorem test_frames : encodeFrame .identify = some [0x01#8, 0x00#8, 0x15#8] ∧
    encodeFrame (.getRing 5#8) = some [0x02#8, 0x01#8, 0x05#8, 0xD8#8] := by decide

set_option maxRecDepth 4000 in
/-- The fixed reply frames of 9.2. -/
theorem test_reply_frames : crc8 [0x00#8, 0#8] = 0x00#8 ∧ crc8 [0x02#8, 0#8] = 0x2A#8 ∧
    crc8 [0x03#8, 0#8] = 0x3F#8 ∧ crc8 [0x07#8, 0#8] = 0x6B#8 ∧ crc8 [0x08#8, 0#8] = 0xA8#8 := by
  decide

/-- SET POOL's parameter bytes, written out from 9.4. -/
theorem test_decode_setPool :
    decodeCommand 0x26#8 [0x00#8, 0x09#8, 0x00#8, 0x00#8, 0x02#8, 0x00#8, 0x00#8, 0x04#8] =
      some (.setPool 0x00090000#32 512#16 4#16) := by decide

/-- GET MAP's block index takes three bytes (9.4). -/
theorem test_decode_getMap :
    decodeCommand 0x08#8 [1#8, 0x01#8, 0x02#8, 0x03#8] = some (.getMap 1#8 0x010203#24) := by decide

/-- The ring of 9.5: SET RING's 28 parameter bytes, with thresholds 1000 and −1000,
stuck_limit 2, marker_key 0. -/
theorem test_decode_setRing :
    decodeCommand 0x22#8 [7#8, 0x00#8, 0x70#8, 0x00#8, 0x00#8, 0x00#8, 0x00#8, 0x10#8, 1#8, 0#8, 0#8,
      0#8, 0#8, 0#8, 0x00#8, 0x03#8, 0xE8#8, 0xFF#8, 0xFC#8, 0x18#8, 2#8, 0#8, 0#8, 3#8, 0#8, 0x28#8,
      5#8, 1#8] =
    some (.setRing 7#8 ⟨0x00700000#32, 16#24, 1#8, 0#8, 0#8, 0#24, 1000#24, -1000#24, 2#8, 0#8, 0#8,
      3#8, 40#16, 5#8, 1#8⟩) := by decide

/-! ### Small states -/

/-- The state that a command answers. -/
def after (c : Instr) (s : State) : State :=
  match exec c s with
  | .next t => t
  | .fault _ | .refused _ => s

/-- s with the link at the start of a frame. -/
def atFrame (s : State) : State :=
  { s with pins := { s.pins with scs := false }
           link := { s.link with phase := .request, out := some true } }

/-- Status and data of the reply to a link command sent to s. -/
def answer (c : Instr) (s : State) : Option (Status × List Byte) :=
  (after c (atFrame s)).link.reply.map fun r => (r.status, r.data)

/-- The events in the queue. -/
def events (s : State) : List Event := s.queue.records.map fun e => e.event

/-- Ring 1 of the worked sequence of 10.7. -/
def cfg1 : RingConfig :=
  { RingConfig.reset with
    base := 0x00080000#32, sizeBlocks := 16, producer := 2, high := 5000, low := -5000
    preBlocks := 2, postWords := 24, triggerEnable := ⟨true, false, false, false, true⟩
    eventEnable := ⟨true, false, false⟩ }

/-- The setting of 10.7: ring 1 ARMED, zone INSIDE, head 0008015CH; divert area 00090000H, 8 slots,
low_water 2; watermark 1, all conditions in the mask; master 9 REVIEW. -/
def armed : State :=
  { State.reset.putRing 1 { Ring.reset with
      cfg := cfg1, mode := .armed, zone := .inside, head := some 0x0008015C#32 } with
    pool := ⟨0x00090000#32, 8, 2, [0, 1, 2, 3, 4, 5, 6, 7], []⟩
    attn := ⟨1, ⟨true, true, true, true⟩⟩
    path := { State.reset.path with views := State.reset.path.views.set 9 .review } }

/-- C0 of 10.7: span blocks 3 to 7, trigger block 5. -/
def c0 (state : CaptureState) (postRemaining entries : Nat) : Capture :=
  { Capture.reset with
    state := state, ring := 1, source := some .limitHigh, sourceDetail := some 0#8
    triggerAddress := 0x00080168#32, triggerValue := some 6200, firstBlock := 3, triggerBlock := 5
    lastBlock := 7, postRemaining := postRemaining, entries := entries, divertedBlocks := entries }

/-- C0 in POST with n words to count. -/
def posting (n : Nat) : State := armed.putCapture 0 (c0 .post n 0)

/-- C0 HELD without an entry. -/
def held : State := armed.putCapture 0 (c0 .held 0 0)

/-- The entry of block 7 after step 5 of 10.7. -/
def entry7 : MapEntry := ⟨1, 7, 0, 0, 0xFF00#16, .mapped, false⟩

/-- C0 HELD with the entry of block 7. -/
def diverted : State :=
  { armed.putCapture 0 (c0 .held 0 1) with
    pool := { armed.pool with freeList := [1, 2, 3, 4, 5, 6, 7], map := [entry7] } }

/-- The copy of block 7 at a phase (step 21 and 22 of 10.7). -/
def copy7 (phase : CopyPhase) : CopyRecord :=
  ⟨1, 7, 0x000801C0#32, 0, phase, List.replicate 16 7#32, 0xFF00#16⟩

/-- The engine's transaction with tag 3, of a direction. -/
def copyTxn (dir : Dir) : DnTxn :=
  ⟨.engine, 15, true, 3#4, dir, 0x000801C0#32, 16, [], 4096⟩

/-- C0 in MERGING, its last entry's copy at a phase, with a transaction outstanding or none. -/
def merging (phase : CopyPhase) (t : Option DnTxn) : State :=
  { diverted.putCapture 0 (c0 .merging 0 1) with
    pool := { diverted.pool with map := [{ entry7 with state := .copying }] }
    engine := ⟨[], .copying, some 0, some 8, some (copy7 phase), none⟩
    dn := ⟨t, 4#4, 0⟩ }

/-- The engine HALTED on the copy of block 7. -/
def halted : State :=
  let s := merging .write none
  { s with engine := { s.engine with
      status := .halted, fault := some ⟨.homeWriteError, 0, 1, 0x000801C0#32, 0⟩ } }

/-- The path unit's transaction for a request of master 2, with tag 3. -/
def pathTxn (kind : PathKind) (length : Nat) : DnTxn :=
  ⟨.path kind, 2, false, 3#4, kind.dir, 0x00000040#32, length, [], 4096⟩

/-- A forwarded read of two words under way. -/
def reading : State :=
  { State.reset with
    path := { State.reset.path with
      current := some ⟨⟨2, 0x00000040#32, .read 2⟩, .live, .outside,
        [⟨.forwardRead, 0x00000040#32, 2, 0, [0, 1], []⟩], [none, none], none⟩ }
    dn := ⟨some (pathTxn .forwardRead 2), 4#4, 0⟩ }

/-! ### Path unit -/

def full (v : Int) : WriteWord := ⟨BitVec.ofInt 32 v, 15#4⟩

/-- 10.7, step 1: at position 10 of block 5 the sample 6,200 opens C0 with span 3 to 7; 5 words are
counted. -/
theorem test_upstreamRequest_opens_capture :
    let t := after (.upstreamRequest ⟨2, 0x00080160#32, .write
      ([1, 2, 6200, 6000, 6000, 6000, 6000, 6000].map full)⟩) armed
    t.capture 0 = c0 .post 19 0 ∧
    events t = [⟨.limitHigh, some 1, none, some 0x00080168#32, some 6200, 0#8⟩,
                ⟨.captureOpen, some 1, some 0, some 0x00080168#32, some 6200, 1#8⟩] := by decide

/-- 10.7, step 6: the live read of block 7 begins with a SLOT READ of 8 words at 00090020H. -/
theorem test_upstreamRequest_splits_read :
    let t := after (.upstreamRequest ⟨3, 0x000801C0#32, .read 16⟩) diverted
    t.dn.outstanding = some ⟨.path .slotRead, 3, false, 0#4, .read, 0x00090020#32, 8, [], 4096⟩ := by
  decide

/-- 10.7, step 22: the last entry's home write completes: C0 FREE, CAPTURE_FREE with address 0, value 1
here (one diverted block), the slot at the tail of the free list. -/
theorem test_dnResponse_frees_capture :
    let t := after (.dnResponse 3#4 .okay []) (merging .write (some (copyTxn .write)))
    (t.capture 0).state = .free ∧ t.engine.status = .idle ∧ t.pool.freeList = [1, 2, 3, 4, 5, 6, 7, 0] ∧
    events t = [⟨.captureFree, some 1, some 0, some 0#32, some 1, 0#8⟩] := by decide

/-- R15: a response with another tag is discarded. -/
theorem test_dnResponse_other_tag :
    (after (.dnResponse 2#4 .okay [1#32, 2#32]) reading).dn.outstanding =
      some (pathTxn .forwardRead 2) := by decide

/-- R16: an expired forwarded read is answered ERROR; the event has kind number 1 and master 2. -/
theorem test_dnTimeout_answers_error :
    let t := after .dnTimeout reading
    t.up.responses = [⟨2, .error, []⟩] ∧
    events t = [⟨.dnTimeout, none, none, some 0x00000040#32, some 1, 2#8⟩] := by decide

/-- R129: fault kind 3, at the block's home address. -/
theorem test_copyTimeout_halts :
    let t := after .copyTimeout (merging .read (some (copyTxn .read)))
    t.engine.status = .halted ∧
    events t = [⟨.mergeFault, some 1, some 0, some 0x000801C0#32, some 0, 3#8⟩] := by decide

theorem test_setPath : (after (.setPath 255#16 4#8) (atFrame .reset)).path.dnTimeout = 4096 ∧
    (after (.setPath 256#16 4#8) (atFrame .reset)).path.dnTimeout = 256 := by decide

/-- Reset values 4096 and 16 (R18). -/
theorem test_getPath : answer .getPath .reset = some (.ok, [0x10#8, 0x00#8, 0x10#8]) := by decide

theorem test_setView : (after (.setView 15#8 1#8) (atFrame .reset)).view 15 = .review ∧
    answer (.setView 16#8 1#8) .reset = some (.range, []) := by decide

/-! ### Pins -/

/-- R55, R56: a masked-in line that leaves its reference queues LINE with its route and hands a request
to ring 1 alone, which is ARMED. -/
theorem test_trigLevelChange_fires :
    let t := after (.trigLevelChange 2 true) (armed.putLine 2 ⟨false, true, 0x03#8, false, false⟩)
    events t = [⟨.line, none, none, none, some 3, 2#8⟩,
                ⟨.captureOpen, some 1, some 0, some 0x0008015C#32, none, 5#8⟩] := by decide

theorem test_rstnLow : (after .rstnLow armed).pool.slotCount = 0 ∧
    ((after .rstnLow armed).ring 1).mode = .off ∧ (after .rstnLow armed).attnPin = true := by decide

/-- R178: a level taken while RSTN is low becomes the line's level, with no event. -/
theorem test_rstnHigh :
    let t := after .rstnHigh (after (.trigLevelChange 1 true) (after .rstnLow armed))
    (t.line 1).level = true ∧ (t.line 0).level = false ∧ events t = [] := by decide

/-! ### Link transaction -/

theorem test_scsFall : (after .scsFall .reset).link.phase = .request ∧
    (after .scsFall .reset).sdo = some true ∧ State.reset.sdo = none := by decide

/-- R155: the first bit received is bit 7 of the byte. -/
theorem test_byte_order : byteBits 0x15#8 = [false, false, false, true, false, true, false, true] ∧
    byteOfBits [false, false, false, true, false, true, false, true] = 0x15#8 := by decide

set_option maxRecDepth 4000 in
/-- The IDENTIFY frame of 9.2, whole, and its reply data of 9.4. -/
theorem test_requestFrame_identify :
    ((after (.requestFrame (clockBytes [0x01#8, 0x00#8, 0x15#8])) (atFrame .reset)).link.reply.map
      fun r => (r.status, r.data)) =
    some (.ok, [0x41#8, 0x60#8, 0x01#8, 0x08#8, 0x10#8, 0x02#8, 0x00#8, 0x40#8]) := by decide

set_option maxRecDepth 4000 in
/-- A wrong check byte: status CHECK, reply check byte 6BH (9.2). -/
theorem test_requestFrame_check :
    (after (.requestFrame (clockBytes [0x3F#8, 0x00#8, 0x15#8])) (atFrame .reset)).link.reply =
      some ⟨.check, [], 0x6B#8⟩ := by decide

/-- s with a READ EXTREMES of ring 1 in its reply, the record and the pending record given (2.7). -/
def extremesPending (s : State) : State :=
  let u := atFrame s
  { u.putRing 1 { Ring.reset with
      extremes := ⟨12, some (-7), some 50⟩, pendingExtremes := some ⟨2, some (-7), some 50⟩ } with
    link := { u.link with phase := .reply, commit := some (.readExtremes 1)
                          reply := some ⟨.state, [], 0x2A#8⟩, out := some false } }

/-- The table of 2.7: the commit leaves 2, −7, 50. -/
theorem test_replyCommit :
    ((after .replyCommit (extremesPending .reset)).ring 1).extremes = ⟨2, some (-7), some 50⟩ := by
  decide

/-- The table of 2.7: SCS rising before the check byte leaves 12, −7, 50 and no pending record. -/
theorem test_scsRise :
    let t := after .scsRise (extremesPending .reset)
    (t.ring 1).extremes = ⟨12, some (-7), some 50⟩ ∧ (t.ring 1).pendingExtremes = none ∧
    t.link.phase = .idle := by decide

/-- A link in a phase with a commit, RSTN high; the reply is status STATE, M 0, check byte 2AH (9.2). -/
def linkIn (phase : LinkPhase) (commit : Option Commit) : State :=
  let u := extremesPending .reset
  { u with link := { u.link with phase := phase, commit := commit } }

/-- The status byte 02H begins with a zero; the link stands at the reply's first byte. -/
theorem test_turnaroundByte :
    let t := after .turnaroundByte (linkIn .turn none)
    t.sdo = some false ∧ t.link.phase = .reply ∧ t.link.sent = 0 := by decide

set_option maxRecDepth 4000 in
/-- Two bytes and two bits into the reply 02H 00H 2AH, SDO is at bit 5 of the check byte, a one. -/
theorem test_requestFrame_reply :
    let t := after (.requestFrame (clockBytes [0#8, 0#8] ++ clockBits [true, true])) (linkIn .reply none)
    t.sdo = some true ∧ t.link.sent = 2 ∧ t.link.bits = [true, true] := by decide

/-! ### Link commands -/

theorem test_identify : answer .identify armed =
    some (.ok, [0x41#8, 0x60#8, 0x01#8, 0x08#8, 0x10#8, 0x02#8, 0x00#8, 0x40#8]) := by decide

/-- R168: the queue is empty and its counter 0. -/
theorem test_clear :
    let t := after .clear (atFrame { armed with
      queue := ⟨[⟨5#16, ⟨.guard, none, none, none, none, 0#8⟩⟩], false, 6#16⟩ })
    t.queue = ⟨[], false, 0#16⟩ ∧ (t.ring 1).mode = .armed := by decide

/-- The parameter record of the ring of 9.5, with a format and a trigger_enable byte. -/
def params7 (format triggers : Byte) : RingParams :=
  ⟨0x00700000#32, 16#24, 1#8, format, 0#8, 0#24, 1000#24, -1000#24, 2#8, 0#8, 0#8, 3#8, 40#16,
   triggers, 1#8⟩

/-- 9.5: the record is accepted; a format byte of 02H and a trigger_enable byte of 25H are not. -/
theorem test_setRing : answer (.setRing 7#8 (params7 0#8 5#8)) armed = some (.ok, []) ∧
    answer (.setRing 7#8 (params7 2#8 5#8)) armed = some (.range, []) ∧
    answer (.setRing 7#8 (params7 0#8 0x25#8)) armed = some (.range, []) := by decide

/-- 9.5: an ARMED ring refuses SET RING with STATE, whatever the bytes hold. -/
theorem test_setRing_state :
    answer (.setRing 1#8 (params7 2#8 5#8)) armed = some (.state, []) := by decide

/-- The reset record as 9.4 says it reads back. -/
theorem test_getRing : answer (.getRing 0#8) .reset =
    some (.ok, [0#8, 0#8, 0#8, 0#8, 0#8, 0#8, 0#8, 0#8, 0#8, 0#8, 0#8, 0#8, 0#8,
      0x7F#8, 0xFF#8, 0xFF#8, 0x80#8, 0x00#8, 0x00#8, 0#8, 0#8, 0#8, 0#8, 0#8, 0#8, 0#8, 0#8,
      0#8, 0#8, 0#8, 0#8, 0#8, 0#8, 0#8]) := by decide

/-- R25: no mode above 2, none but OFF for an unconfigured ring, no OFF while a capture is there. -/
theorem test_ringMode : answer (.ringMode 1#8 3#8) armed = some (.range, []) ∧
    answer (.ringMode 0#8 1#8) armed = some (.state, []) ∧
    answer (.ringMode 1#8 0#8) held = some (.busy, []) ∧
    answer (.ringMode 1#8 0#8) armed = some (.ok, []) := by decide

set_option maxRecDepth 4000 in
/-- R51: the entries from first to last and no others. -/
theorem test_setMarker :
    let t := after (.setMarker 0x10#8 0x12#8 2#8) (atFrame .reset)
    t.marker 0x0F#8 = .pass ∧ t.marker 0x10#8 = .trigger ∧ t.marker 0x12#8 = .trigger ∧
    t.marker 0x13#8 = .pass := by decide

/-- R58: enabling the mask of a line off its reference fires it at once. -/
theorem test_setLine :
    events (after (.setLine 3#8 1#8 1#8 0#8) (atFrame .reset)) =
      [⟨.line, none, none, none, some 0, 3#8⟩] := by decide

theorem test_getLines :
    answer .getLines (State.reset.putLine 1 ⟨true, true, 0x81#8, false, true⟩) =
      some (.ok, [0#8, 0#8, 0#8, 0#8, 0#8, 1#8, 1#8, 0x81#8, 0#8, 1#8,
                  0#8, 0#8, 0#8, 0#8, 0#8, 0#8, 0#8, 0#8, 0#8, 0#8]) := by decide

/-- R180: with slot_count 0 and low_water 1 POOL_LOW is present from the SET POOL on. -/
theorem test_setPool :
    let t := after (.setPool 0x00090000#32 0#16 1#16) (atFrame .reset)
    t.pool.low = true ∧ events t = [⟨.poolLow, none, none, none, some 0, 0#8⟩] := by decide

/-- R95: BUSY with an entry in the map; OVERLAP with the region of ring 1. -/
theorem test_setPool_refused :
    answer (.setPool 0x00090000#32 8#16 2#16) diverted = some (.busy, []) ∧
    answer (.setPool 0x0007FFC0#32 2#16 0#16) armed = some (.overlap, []) ∧
    answer (.setPool 0x0007FFC0#32 1#16 0#16) armed = some (.ok, []) := by decide

theorem test_getPool : answer .getPool diverted =
    some (.ok, [0x00#8, 0x09#8, 0x00#8, 0x00#8, 0#8, 8#8, 0#8, 2#8, 0#8, 7#8, 0#8, 1#8, 0#8]) := by
  decide

/-- R60: at the head 0008015CH, position 7 of block 5. -/
theorem test_force_opens : answer (.force 1#8) armed = some (.ok, [1#8, 1#8, 0#8]) ∧
    ((after (.force 1#8) (atFrame armed)).capture 0).lastBlock = 6 := by decide

/-- R73, R74: absorbed by the capture in POST; blocked by a HELD one. -/
theorem test_force_other : answer (.force 1#8) (posting 3) = some (.ok, [2#8, 1#8, 0#8]) ∧
    answer (.force 1#8) held = some (.ok, [3#8, 0#8, 0#8]) := by decide

/-- 10.7, step 11: the take of C0; its first entry, here block 7, begins its copy; the cursor is 8. -/
theorem test_release :
    let t := after (.release 0#8) (atFrame diverted)
    (t.capture 0).state = .merging ∧ t.engine.cursor = some 8 ∧
    t.engine.copy.map (fun k => k.home) = some 0x000801C0#32 := by decide

/-- R87: a capture in POST is released with CUT and CAPTURE_READY cause 3, and is FREE at once. -/
theorem test_release_post :
    events (after (.release 0#8) (atFrame (posting 9))) =
      [⟨.captureReady, some 1, some 0, some 0x000800C0#32, some 5, 3#8⟩,
       ⟨.captureFree, some 1, some 0, some 0#32, some 0, 1#8⟩] := by decide

/-- The layout of 9.4 for C0 of 10.7 in POST. -/
theorem test_getCapture : answer (.getCapture 0#8) (posting 19) =
    some (.ok, [1#8, 1#8, 0#8, 0#8, 7#8, 1#8, 0#8, 0x00#8, 0x08#8, 0x01#8, 0x68#8, 0x00#8, 0x18#8,
      0x38#8, 0#8, 3#8, 0#8, 5#8, 0#8, 7#8, 0#8, 19#8, 0#8, 0#8, 0#8, 0#8, 0#8, 0#8, 0#8, 0#8, 0#8,
      0#8, 0#8, 0#8]) := by decide

theorem test_listCaptures : (answer .listCaptures held).map (fun a => (a.2.length, a.2.take 8)) =
    some (64, [2#8, 1#8, 0#8, 0#8, 0#8, 0#8, 0#8, 0#8]) := by decide

/-- The table of 2.7: the reply to READ EXTREMES is formed from the record 10, −5, 40. -/
theorem test_readExtremes :
    answer (.readExtremes 1#8) (State.reset.putRing 1 { Ring.reset with
      extremes := ⟨10, some (-5), some 40⟩ }) =
    some (.ok, [0#8, 0#8, 0#8, 10#8, 1#8, 0xFF#8, 0xFF#8, 0xFB#8, 0x00#8, 0x00#8, 0x28#8]) := by decide

/-- The CAPTURE_READY record of R176's example, first of five in the list. -/
def five : State :=
  { State.reset with queue :=
    ⟨⟨0x42#16, ⟨.captureReady, some 7, some 2, some 0x007000C0#32, some 6, 1#8⟩⟩ ::
      [0x43#16, 0x44#16, 0x45#16, 0x46#16].map fun n => ⟨n, ⟨.guard, none, none, none, none, 0#8⟩⟩,
     false, 0x47#16⟩ }

/-- The data bytes of R176's example. -/
theorem test_peekEvent : answer .peekEvent five =
    some (.ok, [0x00#8, 0x42#8, 0x0A#8, 0x0F#8, 0x07#8, 0x02#8, 0x00#8, 0x70#8, 0x00#8, 0xC0#8,
      0x00#8, 0x00#8, 0x06#8, 0x01#8, 0x05#8]) := by decide

/-- POP EVENT leaves the list until its commit (R147). -/
theorem test_popEvent :
    (after .popEvent (atFrame five)).queue.records.length = 5 ∧
    (after .replyCommit (after .turnaroundByte (after .popEvent (atFrame five)))).queue.records.length
      = 4 := by decide

theorem test_setEvents : answer (.setEvents 0#8 15#8) .reset = some (.range, []) ∧
    (after (.setEvents 64#8 9#8) (atFrame .reset)).attn = ⟨64, ⟨true, false, false, true⟩⟩ := by decide

/-- QUEUE alone is present with one record and watermark 1: code 4, bit 3. -/
theorem test_readAttention : answer .readAttention five = some (.ok, [4#8, 8#8]) ∧
    answer .readAttention halted = some (.ok, [1#8, 1#8]) := by decide

/-- R131: the copy repeats from a fresh slot read, at 00090000H; the fault record is empty again. -/
theorem test_resume :
    let t := after .resume (atFrame halted)
    t.engine.fault = none ∧
    t.dn.outstanding =
      some ⟨.engine, 15, true, 4#4, .read, 0x00090000#32, 16, [], 4096⟩ := by decide

/-- R132: the eight written words are lost; CAPTURE_FREE carries them and PARTIAL. -/
theorem test_skip :
    events (after .skip (atFrame halted)) =
      [⟨.captureFree, some 1, some 0, some 8#32, some 1, 2#8⟩] := by decide

theorem test_getFault : answer .getFault halted =
    some (.ok, [2#8, 0#8, 1#8, 0x00#8, 0x08#8, 0x01#8, 0xC0#8, 0#8, 0#8]) ∧
    answer .getFault .reset = some (.empty, []) := by decide

theorem test_getMap : answer (.getMap 1#8 7#24) diverted =
    some (.ok, [0#8, 0#8, 0#8, 0xFF#8, 0x00#8, 0#8, 0#8]) ∧
    answer (.getMap 1#8 65536#24) diverted = some (.range, []) := by decide

/-! ### Conditioning examples (2.4) -/

/-- Ring 3 of 2.4: S24, shift 4, offset −2048. -/
theorem test_conditioning_s24 :
    let c := { RingConfig.reset with shift := 4, offset := -2048 }
    conditionedWord c 0x000186A0#32 = 0x0000106A#32 ∧ conditionedWord c 0x5A0186A0#32 = 0x0000106A#32 ∧
    conditionedWord c 0x00FFFFF8#32 = 0xFFFFF800#32 ∧ conditionedWord c 0x00FFFFF7#32 = 0xFFFFF7FF#32 := by
  decide

/-- Ring 4 of 2.4: P16, shift 2, offset 100. -/
theorem test_conditioning_p16 :
    conditionedWord { RingConfig.reset with format := .p16, shift := 2, offset := 100 } 0xFC1703E8#32 =
      0xFF6A015E#32 := by decide

/-! ### The step -/

theorem test_step_runs_front : step { State.reset with pending := [.scsFall, .identify] } =
    .next { after .scsFall .reset with pending := [.identify] } := rfl

theorem test_decodeTableWord : decodeTableWord 8 0x01 = none := rfl

/-! ### Witnesses: the link and RSTN

Each witness gives a state and operands that meet the hypotheses of the obligation it is named after, or
of the clause it names, at a boundary value where the clause has a range. -/

theorem atFrame_linkSound : (atFrame .reset).LinkSound where
  selected := fun _ => ⟨rfl, rfl⟩
  commit   := fun h => absurd rfl h
  reply    := fun h => by rcases h with h | h <;> cases h
  extremes := by decide
  fresh    := fun _ _ => ⟨rfl, rfl⟩
  driven   := by decide
  ones     := by decide
  bits     := by decide
  sent     := by decide

/-- RSTN low. -/
def lowReset : State := after .rstnLow .reset

theorem lowReset_held : lowReset.HeldInReset where
  rstn    := rfl
  path    := rfl
  dn      := rfl
  rings   := rfl
  markers := rfl
  lines   := by decide
  caps    := rfl
  pool    := rfl
  engine  := rfl
  queue   := rfl
  attn    := rfl
  link    := rfl

theorem witness_LinkCommandsDecodeBack :
    encodeCommand (.setPath 256#16 0#8) = some (0x20#8, [1#8, 0#8, 0#8]) := by decide

/-- The shortest frame and the longest. -/
theorem witness_FrameRunsItsCommand : (∃ frame, encodeFrame .skip = some frame) ∧
    (∃ frame, encodeFrame (.setRing 7#8 (params7 0#8 5#8)) = some frame) ∧
    (atFrame .reset).atFrameStart = true ∧ (atFrame .reset).LinkSound :=
  ⟨⟨_, rfl⟩, ⟨_, rfl⟩, by decide, atFrame_linkSound⟩

set_option maxRecDepth 4000 in
theorem witness_RefusedFrames_check : (atFrame .reset).atFrameStart = true ∧
    (atFrame .reset).LinkSound ∧ ([] : List Byte).length = (0#8).toNat ∧
    0x15#8 ≠ crc8 [0x3F#8, 0#8] :=
  ⟨by decide, atFrame_linkSound, rfl, by decide⟩

theorem witness_RefusedFrames_unknown : paramCount 0x0C#8 = none ∧ paramCount 0xFF#8 = none := by
  decide

theorem witness_RefusedFrames_range :
    (∃ n, paramCount 0x22#8 = some n ∧ (40 < (41#8).toNat ∨ (41#8).toNat ≠ n)) ∧
    ∃ n, paramCount 0x22#8 = some n ∧ (40 < (27#8).toNat ∨ (27#8).toNat ≠ n) :=
  ⟨⟨28, rfl, by decide⟩, ⟨28, rfl, by decide⟩⟩

/-- Seven bits of a byte, with no byte, one, and all but the check byte before them. -/
theorem witness_PartialFrameDropped : (atFrame .reset).atFrameStart = true ∧ (atFrame .reset).LinkSound ∧
    (List.replicate 7 true).length < 8 ∧ ([] : List Byte).length < 2 ∧ [0x22#8].length < 2 ∧
    ∃ code len params, [0x22#8, 1#8, 7#8] = code :: len :: params ∧ params.length ≤ len.toNat :=
  ⟨by decide, atFrame_linkSound, by decide, by decide, by decide, 0x22#8, 1#8, [7#8], rfl, by decide⟩

theorem witness_PartialFrameDropped_dead : State.reset.pins.scs = true ∧
    lowReset.pins.rstn = false ∧ State.reset.link.phase = .idle ∧ State.reset.link.out = none := by decide

theorem witness_LinkPhaseSteps :
    State.reset.pins.rstn = true ∧ State.reset.pins.scs = true ∧ State.reset.link.phase = .idle ∧
    (linkIn .turn none).pins.rstn = true ∧ (linkIn .turn none).pins.scs = false ∧
    (linkIn .turn none).link.phase = .turn ∧ (linkIn .turn none).link.bits = [] ∧
    (linkIn .turn none).link.reply = some ⟨.state, [], 0x2A#8⟩ ∧
    (linkIn .discard none).link.phase = .discard ∧ (linkIn .discard none).link.bits = [] := by decide

/-- The commits at the end of a reply: none, POP EVENT's and READ EXTREMES's. -/
theorem witness_LinkPhaseSteps_commit :
    (linkIn .reply none).link.phase = .reply ∧ (linkIn .reply none).link.commit = none ∧
    (linkIn .reply (some .popEvent)).link.commit = some .popEvent ∧
    (linkIn .reply (some (.readExtremes 1))).link.commit = some (.readExtremes 1) ∧
    ((linkIn .reply (some (.readExtremes 1))).ring 1).pendingExtremes =
      some ⟨2, some (-7), some 50⟩ := by decide

/-- A reply at byte n, with some bits of it sampled. -/
def replyAt (n : Nat) (bits : List Bool) : State :=
  let s := linkIn .reply none
  { s with link := { s.link with sent := n, bits := bits } }

/-- Six bits sampled and none; the next byte after the first and after M; the check byte is the last. -/
theorem witness_LinkPhaseSteps_reply :
    (replyAt 0 (List.replicate 6 true)).link.bits.length < 7 ∧
    [0x02#8, 0#8, 0x2A#8][(replyAt 2 []).link.sent]? = some 0x2A#8 ∧
    [0x02#8, 0#8, 0x2A#8][(replyAt 0 []).link.sent + 1]? = some 0#8 ∧
    [0x02#8, 0#8, 0x2A#8][(replyAt 1 []).link.sent + 1]? = some 0x2A#8 ∧
    (replyAt 2 []).link.sent + 1 = ([] : List Byte).length + 3 ∧
    (atFrame .reset).link.phase = .request := by decide

theorem witness_ScsRiseAbandons :
    (linkIn .turn none).pins.rstn = true ∧ (linkIn .turn (some .popEvent)).link.phase = .turn ∧
    (linkIn .discard none).link.phase = .discard ∧ (linkIn .discard none).link.commit = none ∧
    (linkIn .reply (some (.readExtremes 1))).link.phase = .reply ∧
    (linkIn .reply (some (.readExtremes 1))).link.commit = some (.readExtremes 1) := by decide

theorem witness_NothingHappensInReset : lowReset.HeldInReset ∧ Instr.scsFall ≠ .rstnHigh ∧
    exec .scsFall lowReset = .next (after .scsFall lowReset) := ⟨lowReset_held, by decide, rfl⟩

theorem witness_RstnHighTakesLevels : lowReset.HeldInReset ∧ lowReset.up.waiting = [] :=
  ⟨lowReset_held, rfl⟩

/-- A request presented while RSTN is low waits, and is taken when RSTN returns (R18). -/
theorem test_rstnHigh_takes :
    let s := after (.upstreamRequest ⟨2, 0x00000040#32, .read 1⟩) lowReset
    s.up.waiting.length = 1 ∧ (after .rstnHigh s).up.waiting = [] ∧
    (after .rstnHigh s).path.current.isSome = true := by decide

/-! ### Witnesses: UP, the path unit and DN -/

theorem portServed_of_idle {s : State} (hp : s.path.current = none)
    (he : s.engine.status ≠ .copying) : s.PortServed := by
  intro _ _
  exact ⟨by simp [State.pathWaits, hp], by simp [State.engineWaits, he]⟩

theorem armed_served : armed.PortServed := portServed_of_idle rfl (by decide)

/-- The last word of the address space: the burst ends at FFFFFFFFH. -/
theorem witness_OutsideForwarded :
    let q : UpRequest := ⟨2, 0xFFFFFFFC#32, .read 1⟩
    q.wf = true ∧ armed.takesNow = true ∧ armed.dn.outstanding = none ∧ armed.engineWaits = false ∧
    q.addr.toNat + 4 * q.burst.length ≤ 4294967296 ∧
    touches q armed.pool.areaBase.toNat (64 * armed.pool.slotCount) = false ∧
    ∀ r, touches q (armed.ring r).cfg.base.toNat (64 * (armed.ring r).cfg.sizeBlocks) = false := by decide

/-- The merge engine holds DN while the path unit is IDLE. -/
theorem witness_OutsideForwarded_waits :
    let s := merging .read (some (copyTxn .read))
    s.takesNow = true ∧ s.dn.outstanding ≠ none ∧
    touches ⟨2, 0#32, .read 1⟩ s.pool.areaBase.toNat (64 * s.pool.slotCount) = false ∧
    ∀ r, touches ⟨2, 0#32, .read 1⟩ (s.ring r).cfg.base.toNat (64 * (s.ring r).cfg.sizeBlocks) = false := by
  decide

theorem witness_RefusedRequests_end : Instr.wf (.upstreamRequest ⟨2, 0xFFFFFFFC#32, .read 2⟩) = true ∧
    armed.takesNow = true ∧ armed.PortServed ∧ 4294967296 < (0xFFFFFFFC#32).toNat + 4 * 2 :=
  ⟨by decide, by decide, armed_served, by decide⟩

/-- The first slot of the divert area is touched by the last word of the burst. -/
theorem witness_RefusedRequests_guard :
    let q : UpRequest := ⟨2, 0x0008FFFC#32, .read 2⟩
    q.wf = true ∧ q.addr.toNat + 4 * q.burst.length ≤ 4294967296 ∧
    touches q armed.pool.areaBase.toNat (64 * armed.pool.slotCount) = true := by decide

/-- The first block of ring 1 is touched by the last word of the burst. -/
theorem witness_RefusedRequests_boundary :
    let q : UpRequest := ⟨2, 0x0007FFFC#32, .read 2⟩
    q.wf = true ∧ q.addr.toNat + 4 * q.burst.length ≤ 4294967296 ∧
    touches q armed.pool.areaBase.toNat (64 * armed.pool.slotCount) = false ∧
    touches q (armed.ring 1).cfg.base.toNat (64 * (armed.ring 1).cfg.sizeBlocks) = true ∧
    (∀ r' : Fin 8, r' < 1 →
      touches q (armed.ring r').cfg.base.toNat (64 * (armed.ring r').cfg.sizeBlocks) = false) ∧
    q.addr.toNat / 64 ≠ (q.addr.toNat + 4 * (q.burst.length - 1)) / 64 := by decide

theorem witness_RingRequestTaken_waits :
    Instr.wf (.upstreamRequest ⟨2, 0#32, .read 1⟩) = true ∧ reading.pins.rstn = true ∧
    reading.path.current ≠ none ∧ reading.PortServed :=
  ⟨by decide, by decide, by decide, fun _ h => absurd h (by decide)⟩

/-- The last word of the last block of ring 1. -/
theorem witness_RingRequestTaken :
    let q : UpRequest := ⟨2, 0x000803FC#32, .write [full 6200]⟩
    q.wf = true ∧ armed.takesNow = true ∧ q.addr.toNat + 4 * q.burst.length ≤ 4294967296 ∧
    touches q armed.pool.areaBase.toNat (64 * armed.pool.slotCount) = false ∧
    touches q (armed.ring 1).cfg.base.toNat (64 * (armed.ring 1).cfg.sizeBlocks) = true ∧
    (∀ r' : Fin 8, r' < 1 →
      touches q (armed.ring r').cfg.base.toNat (64 * (armed.ring r').cfg.sizeBlocks) = false) ∧
    q.addr.toNat / 64 = (q.addr.toNat + 4 * (q.burst.length - 1)) / 64 ∧
    15 = (q.addr.toNat - (armed.ring 1).cfg.base.toNat) / 64 := by decide

theorem witness_RingRequestTaken_read :
    let q : UpRequest := ⟨3, 0x00080000#32, .read 16⟩
    q.wf = true ∧ touches q (armed.ring 1).cfg.base.toNat (64 * (armed.ring 1).cfg.sizeBlocks) = true ∧
    q.addr.toNat / 64 = (q.addr.toNat + 4 * (q.burst.length - 1)) / 64 ∧
    0 = (q.addr.toNat - (armed.ring 1).cfg.base.toNat) / 64 := by decide

/-- The path unit in a transfer with this plan, its first transaction outstanding. -/
def transfer (req : UpRequest) (kind : PathKind) (length : Nat) (plan : List PlanTxn) : State :=
  { diverted with
    path := { diverted.path with
      current := some ⟨req, .live, .ring 1 7, plan, List.replicate req.burst.length none,
                       some (1, 7)⟩ }
    dn := ⟨some (pathTxn kind length), 4#4, 0⟩ }

theorem witness_PathTransactionCompletes_read :
    reading.pins.rstn = true ∧ reading.up.waiting = [] ∧ reading.engineWaits = false ∧
    reading.dn.outstanding = some (pathTxn .forwardRead 2) ∧
    (pathTxn .forwardRead 2).side = .path .forwardRead ∧ (pathTxn .forwardRead 2).dir = .read ∧
    [5#32, 6#32].length = (pathTxn .forwardRead 2).length ∧
    reading.path.current.map (fun q => (q.readData, q.plan)) =
      some (List.replicate 2 none, [⟨.forwardRead, 0x00000040#32, 2, 0, [0, 1], []⟩]) := by decide

/-- The FORWARD READ behind the SLOT READ that served word 1 of two: word 0 is its own, 9, word 1 stands. -/
def splitEnd : State :=
  let s := transfer ⟨2, 0x000801DC#32, .read 2⟩ .forwardRead 1
    [⟨.forwardRead, 0x000801DC#32, 1, 0, [0], []⟩]
  { s with path := { s.path with
      current := s.path.current.map fun q => { q with readData := [none, some 4#32] } } }

theorem witness_PathTransactionCompletes_split :
    splitEnd.pins.rstn = true ∧ splitEnd.dn.outstanding = some (pathTxn .forwardRead 1) ∧
    splitEnd.path.current.map (fun q => (q.readData, q.plan)) =
      some ([none, some 4#32], [⟨.forwardRead, 0x000801DC#32, 1, 0, [0], []⟩]) ∧
    ∀ i, i < [9#32, 4#32].length → if i ∈ [0] then [9#32, 4#32][i]? = [9#32][i - 0]?
      else [none, some 4#32][i]? = some [9#32, 4#32][i]? := by decide

/-- The master receives both words, in their places (R12). -/
theorem test_dnResponse_split : (after (.dnResponse 3#4 .okay [9#32]) splitEnd).up.responses =
    [⟨2, .okay, [9#32, 4#32]⟩] := by decide

/-- The SLOT WRITE alone, with a request that waits at UP behind it. -/
def slotEnd (waiting : List UpRequest) : State :=
  let s := transfer ⟨2, 0x000801C0#32, .write [full 1]⟩ .slotWrite 1
    [⟨.slotWrite, 0x00090000#32, 1, 0, [], [full 1]⟩]
  { s with up := ⟨waiting, []⟩ }

theorem witness_PathTransactionCompletes_write :
    (slotEnd []).pins.rstn = true ∧ (slotEnd []).up.waiting = [] ∧ (slotEnd []).engineWaits = false ∧
    (slotEnd []).dn.outstanding = some (pathTxn .slotWrite 1) ∧ (pathTxn .slotWrite 1).dir = .write ∧
    (pathTxn .slotWrite 1).side = .path .slotWrite ∧
    (slotEnd []).path.current.map (fun q => (q.readData, q.plan)) =
      some ([none], [⟨.slotWrite, 0x00090000#32, 1, 0, [], [full 1]⟩]) := by decide

/-- The write is answered OKAY; the request that waited is taken and the next stays at UP (R1, R2). -/
theorem test_dnResponse_takes_waiting :
    let p : UpRequest := ⟨4, 0x00000040#32, .read 1⟩
    let t := after (.dnResponse 3#4 .okay []) (slotEnd [p, p])
    t.up = ⟨[p], [⟨2, .okay, []⟩]⟩ ∧ t.path.current.map (fun q => q.req.master) = some 4 := by decide

theorem witness_PathTransactionCompletes_take : reading.path.current ≠ none ∧
    State.reset.path.current = none ∧ Instr.wf (.upstreamRequest ⟨4, 0x00000040#32, .read 1⟩) = true ∧
    State.reset.takesNow = true := by decide

/-- The plans of two transactions: FILL READ, SLOT WRITE, and SLOT READ, FORWARD READ. -/
theorem witness_PathTransactionCompletes_next :
    let f := transfer ⟨2, 0x000801C0#32, .write [⟨0#32, 1#4⟩]⟩ .fillRead 1
      [⟨.fillRead, 0x000801C0#32, 1, 0, [0], []⟩,
       ⟨.slotWrite, 0x00090000#32, 1, 0, [], [⟨0#32, 1#4⟩]⟩]
    let r := transfer ⟨2, 0x000801DC#32, .read 2⟩ .slotRead 1
      [⟨.slotRead, 0x00090020#32, 1, 1, [1], []⟩, ⟨.forwardRead, 0x000801DC#32, 1, 0, [0], []⟩]
    f.pins.rstn = true ∧ f.engineWaits = false ∧
    f.dn.outstanding = some (pathTxn .fillRead 1) ∧ (pathTxn .fillRead 1).dir = .read ∧
    f.path.current.map (fun q => q.plan.length) = some 2 ∧
    r.pins.rstn = true ∧ r.engineWaits = false ∧
    r.dn.outstanding = some (pathTxn .slotRead 1) ∧ (pathTxn .slotRead 1).dir = .read ∧
    r.path.current.map (fun q => q.plan.length) = some 2 := by decide

theorem witness_DnResponseRules_discarded :
    (∀ t, State.reset.dn.outstanding = some t → t.tag ≠ 0#4) ∧
    ∀ t, reading.dn.outstanding = some t → t.tag ≠ 2#4 := by
  constructor
  · intro t h; cases h
  · intro t h; rw [← Option.some.inj h]; decide

theorem witness_DnResponseRules_path : reading.pins.rstn = true ∧ reading.up.waiting = [] ∧
    reading.engineWaits = false ∧ reading.dn.outstanding = some (pathTxn .forwardRead 2) ∧
    (pathTxn .forwardRead 2).side = .path .forwardRead ∧ reading.path.current.isSome = true := by decide

theorem witness_DnResponseRules_merge :
    let s := merging .read (some (copyTxn .read))
    let w := merging .write (some (copyTxn .write))
    s.pins.rstn = true ∧ s.up.waiting = [] ∧ s.path.current = none ∧
    s.dn.outstanding = some (copyTxn .read) ∧ (copyTxn .read).side = .engine ∧
    s.engine.copy = some (copy7 .read) ∧ s.engine.merging = some 0 ∧ (copy7 .read).phase = .read ∧
    w.dn.outstanding = some (copyTxn .write) ∧ w.engine.copy = some (copy7 .write) ∧
    (copy7 .write).phase = .write := by decide

/-- The engine's transaction outstanding, the path unit's SLOT WRITE to the block copied waiting for the
port (10.7 after step 15). -/
def contended (phase : CopyPhase) (dir : Dir) (restart : Bool) : State :=
  let s := merging phase (some (copyTxn dir))
  { s with
    pool := { s.pool with map := [⟨1, 7, 0, 0, 0xFF00#16, .copying, restart⟩] }
    path := { s.path with current := (slotEnd []).path.current } }

theorem witness_DnResponseRules_contended : (contended .write .write true).path.current ≠ none ∧
    (contended .write .write true).pins.rstn = true ∧
    (contended .write .write true).dn.outstanding = some (copyTxn .write) := by decide

/-- A failed home write frees the port for the path unit's SLOT WRITE (R14, R129). -/
theorem test_dnResponse_fault_frees_port :
    let t := after (.dnResponse 3#4 .error []) (contended .write .write true)
    t.engine.status = .halted ∧ t.dn.outstanding.map (fun x => x.side) = some (.path .slotWrite) := by
  decide

theorem witness_ExpiryResults :
    let s := merging .read (some (copyTxn .read))
    (pathTxn .forwardRead 2).timeout ≠ 0 ∧ reading.path.current.map (fun q => q.cls) = some .outside ∧
    (slotEnd []).path.current.map (fun q => q.cls) = some (.ring 1 7) ∧ s.path.current = none ∧
    s.dn.outstanding = some (copyTxn .read) ∧ (copyTxn .read).timeout ≠ 0 ∧
    s.engine.copy = some (copy7 .read) ∧ s.engine.merging = some 0 := by decide

theorem witness_ExpiryResults_none :
    let s := { reading with dn := ⟨some { pathTxn .forwardRead 2 with timeout := 0 }, 4#4, 0⟩ }
    ∀ t, s.dn.outstanding = some t → t.timeout = 0 := by
  intro s t h; rw [← Option.some.inj h]

/-- Both sides waiting for a free port, at a share count and a share. -/
def bothWait (phase : CopyPhase) (count share : Nat) : State :=
  let s := merging phase none
  { s with
    path := { s.path with share := share, current := reading.path.current }
    dn := ⟨none, 4#4, count⟩ }

/-- The path unit waiting alone; both waiting with share 0, and with the count one below the share. -/
theorem witness_ArbiterTable_path :
    let s := { bothWait .readWait 0 0 with engine := State.reset.engine }
    s.pins.rstn = true ∧ s.dn.outstanding = none ∧ s.engineWaits = false ∧ s.pathWaits = true ∧
    (bothWait .readWait 9 0).engineWaits = true ∧ (bothWait .readWait 9 0).path.share = 0 ∧
    (bothWait .readWait 15 16).engineWaits = true ∧
    (bothWait .readWait 15 16).dn.shareCount < (bothWait .readWait 15 16).path.share := by decide

/-- The engine waiting alone; both waiting with the count at the share. -/
theorem witness_ArbiterTable_engine :
    let s := merging .readWait none
    s.pins.rstn = true ∧ s.dn.outstanding = none ∧ s.pathWaits = false ∧
    s.engine.status = .copying ∧ s.engine.copy = some (copy7 .readWait) ∧
    (bothWait .writeWait 16 16).path.share ≠ 0 ∧
    (bothWait .writeWait 16 16).path.share ≤ (bothWait .writeWait 16 16).dn.shareCount ∧
    (bothWait .writeWait 16 16).engine.copy = some (copy7 .writeWait) := by decide

theorem witness_ArbiterTable_none : State.reset.pathWaits = false ∧
    State.reset.engineWaits = false ∧ State.reset.dn.outstanding = none := by decide

/-! ### Witnesses: routing -/

theorem witness_RoutingTable_read : armed.entry 1 7 = none := by decide

theorem witness_RoutingTable_home : strobed [⟨0#32, 0#4⟩] = [] ∧
    armed.entry 1 0 = none ∧ armed.holdOf 1 0 = .notHeld ∧
    (posting 9).entry 1 5 = none ∧ (posting 9).holdOf 1 5 = .filling := by decide

theorem witness_RoutingTable_entry : strobed [full 1] ≠ [] ∧ diverted.entry 1 7 = some entry7 := by
  decide

/-- The block before the trigger block is held while C0 is in POST; the free count stays at or above
low_water. -/
theorem witness_RoutingTable_allocate : strobed [full 1] ≠ [] ∧ (posting 9).entry 1 4 = none ∧
    (posting 9).holdOf 1 4 = .held 0 ∧
    ¬(((posting 9).capture 0).state = .post ∧ ((posting 9).capture 0).postRemaining = 0) ∧
    (posting 9).pool.freeList = 0 :: [1, 2, 3, 4, 5, 6, 7] ∧
    (posting 9).pool.lowWater ≤ [1, 2, 3, 4, 5, 6, 7].length := by decide

/-- C0 HELD with a free list, low_water 2, and a number of words spilled before. -/
def heldWith (freeList : List Nat) (spilled : Nat) : State :=
  { armed.putCapture 0 { c0 .held 0 0 with spilledWords := spilled } with
    pool := { armed.pool with freeList := freeList } }

theorem witness_RoutingTable_poolLow : (heldWith [3, 4] 0).entry 1 4 = none ∧
    (heldWith [3, 4] 0).holdOf 1 4 = .held 0 ∧
    ¬(((heldWith [3, 4] 0).capture 0).state = .post ∧
      ((heldWith [3, 4] 0).capture 0).postRemaining = 0) ∧
    (heldWith [3, 4] 0).pool.freeList = 3 :: [4] ∧ [4].length < (heldWith [3, 4] 0).pool.lowWater ∧
    (heldWith [3, 4] 0).pool.lowWater ≤ (heldWith [3, 4] 0).pool.freeList.length ∧
    (heldWith [3] 0).pool.freeList.length < (heldWith [3] 0).pool.lowWater := by decide

theorem witness_RoutingTable_spill : (heldWith [] 0).entry 1 7 = none ∧
    (heldWith [] 0).holdOf 1 7 = .held 0 ∧ (heldWith [] 0).pool.freeList = [] ∧
    ((heldWith [] 0).capture 0).spilledWords = 0 ∧ (heldWith [] 8).holdOf 1 3 = .held 0 ∧
    (heldWith [] 8).pool.freeList = [] ∧ ((heldWith [] 8).capture 0).spilledWords ≠ 0 := by decide

theorem witness_RoutingTable_completing : (posting 0).entry 1 3 = none ∧
    (posting 0).holdOf 1 3 = .held 0 ∧ ((posting 0).capture 0).state = .post ∧
    ((posting 0).capture 0).postRemaining = 0 := by decide

theorem witness_SlotWritePlan : toFill 0 0#16 [full 1] = [] ∧ toFill 15 0#16 [⟨0#32, 1#4⟩] ≠ [] := by
  decide

theorem witness_FilledWords :
    let t : PlanTxn := ⟨.fillRead, 0#32, 2, 1, [1, 2], []⟩
    (∀ j ∈ t.serves, t.first ≤ j ∧ j < t.first + t.length) ∧
    [full 0, ⟨0#32, 1#4⟩, ⟨0#32, 14#4⟩][2]? = some ⟨0#32, 14#4⟩ := by decide

theorem witness_SplitReadServes : diverted.entry 1 7 = some entry7 := by decide

/-! ### Witnesses: words and detectors -/

theorem witness_Conditioning : RingConfig.reset.shift = 0 ∧ RingConfig.reset.format = .s24 ∧
    0 < { RingConfig.reset with shift := 15, format := .p16 }.shift := by decide

/-- Ring 1 with markers on, key A5H, in a mode. -/
def marking (mode : Mode) (action : MarkerAction) : State :=
  let s := armed.putRing 1 { armed.ring 1 with
    mode := mode
    cfg := { cfg1 with markerEnable := true, markerKey := 0xA5#8
                       triggerEnable := ⟨true, true, true, true, true⟩ } }
  { s with det := { s.det with markers := s.det.markers.set 3 action } }

theorem witness_WordClasses : (State.reset.ring 1).mode = .off ∧
    (3 : Fin 16) ≠ (armed.ring 1).cfg.producer ∧ (14#4 : BitVec 4) ≠ 15#4 ∧
    ((marking .safe .pass).ring 1).mode ≠ .off ∧ 2 = ((marking .safe .pass).ring 1).cfg.producer ∧
    ((marking .safe .pass).ring 1).cfg.markerEnable = true ∧
    (0xA5000003#32).extractLsb' 24 8 = ((marking .safe .pass).ring 1).cfg.markerKey ∧
    (0x00000003#32).extractLsb' 24 8 ≠ ((marking .safe .pass).ring 1).cfg.markerKey ∧
    (armed.ring 1).cfg.markerEnable = false := by decide

/-- Ring 1 with format P16. -/
def packed : State := armed.putRing 1 { armed.ring 1 with cfg := { cfg1 with format := .p16 } }

theorem witness_ProducerWords : classifyWord (armed.ring 1) 2 (full 1) = .sample ∧
    (armed.ring 1).cfg.format = .s24 ∧
    classifyWord (packed.ring 1) 2 ⟨0x7FFF0000#32, 15#4⟩ = .sample ∧ (packed.ring 1).cfg.format = .p16 ∧
    classifyWord ((marking .armed .arm).ring 1) 2 ⟨0xA5000003#32, 15#4⟩ = .marker := by decide

theorem witness_ExtremesOfSamples : [(0 : Int)] ≠ [] := by decide

/-- One above, at, and one below the thresholds; a zone that is UNSET, INSIDE and other. -/
theorem witness_LimitStepTable : (armed.ring 1).cfg.high < 5001 ∧
    ¬(armed.ring 1).cfg.high < 5000 ∧ (armed.ring 1).cfg.low ≤ -5000 ∧
    (-5001 : Int) ≤ (armed.ring 1).cfg.high ∧ (-5001 : Int) < (armed.ring 1).cfg.low ∧
    (armed.ring 1).zone = .inside ∧ (State.reset.ring 1).zone = .unset ∧
    (armed.ring 1).cfg.triggerEnable.holds .limitHigh = true ∧
    (armed.ring 1).cfg.triggerEnable.holds .limitLow = false := by decide

/-- A ring whose stuck run has counted n samples of value 7, with a limit. -/
def stuckAt (n limit : Nat) (on : Bool) : State :=
  armed.putRing 1 { armed.ring 1 with
    cfg := { cfg1 with stuckLimit := limit, triggerEnable := ⟨false, false, on, false, false⟩ }
    stuck := ⟨some 7, n, false⟩ }

theorem witness_StuckStepRule : ((stuckAt 1 2 true).ring 1).stuck.last = some 7 ∧
    min (((stuckAt 1 2 true).ring 1).stuck.count + 1) 255 =
      ((stuckAt 1 2 true).ring 1).cfg.stuckLimit ∧
    ((stuckAt 1 2 true).ring 1).cfg.triggerEnable.stuck = true ∧
    min (((stuckAt 254 255 false).ring 1).stuck.count + 1) 255 =
      ((stuckAt 254 255 false).ring 1).cfg.stuckLimit ∧
    ((stuckAt 254 255 false).ring 1).cfg.triggerEnable.stuck = false ∧
    ((stuckAt 1 2 true).ring 1).stuck.last ≠ some 8 ∧
    ((stuckAt 1 0 true).ring 1).cfg.stuckLimit = 0 := by decide

set_option maxRecDepth 4000 in
theorem witness_MarkerActions : (marking .safe .pass).marker 3#8 = .pass ∧
    (marking .safe .note).marker 3#8 = .note ∧ (marking .safe .trigger).marker 3#8 = .trigger ∧
    ((marking .safe .trigger).ring 1).cfg.triggerEnable.marker = true ∧
    (armed.ring 1).cfg.triggerEnable.marker = false ∧
    (marking .safe .arm).marker 3#8 = .arm ∧ ((marking .safe .arm).ring 1).mode = .safe ∧
    ((marking .armed .arm).ring 1).mode ≠ .safe ∧ (marking .armed .safe).marker 3#8 = .safe ∧
    ((marking .armed .safe).ring 1).mode = .armed ∧ ((marking .safe .safe).ring 1).mode ≠ .armed := by
  decide

/-- Rings 1 and 2 ARMED with LINE enabled, ring 2 without a head; line 3 routed to both and to ring 7. -/
def lined : State :=
  (armed.putRing 2 { armed.ring 1 with head := none }).putLine 3 ⟨false, true, 0x86#8, false, false⟩

theorem witness_TrigLevelChangeResults : lowReset.pins.rstn = false ∧ lined.pins.rstn = true ∧
    (lined.line 3).condition = false ∧
    ((lined.line 3).mask && true != (lined.line 3).reference) = true ∧
    ((lined.line 3).mask && false != (lined.line 3).reference) = false := by decide

/-- Ring 1's request opens capture 0 before ring 2's, which is refused without a position (R55, R61, R62). -/
theorem test_trigLevelChange_order : events (after (.trigLevelChange 3 true) lined) =
    [⟨.line, none, none, none, some 0x86, 3#8⟩,
     ⟨.captureOpen, some 1, some 0, some 0x0008015C#32, none, 5#8⟩,
     ⟨.triggerRefused, some 2, none, none, some 5, 3#8⟩] := by decide

theorem witness_SetLineResults : (atFrame lined).atFrameStart = true ∧ 3 < (4#8).toNat ∧
    1 < (2#8).toNat ∧ (3#8 : Byte) = BitVec.ofNat 8 (3 : Fin 4).val ∧
    ((atFrame lined).line 3).condition = false ∧
    (true && ((atFrame lined).line 3).level != true) = true ∧
    (true && ((atFrame lined).line 3).level != false) = false := by decide

theorem witness_SetMarkerResults : (atFrame .reset).atFrameStart = true ∧
    (0xFE#8 : Byte).toNat < (0xFF#8 : Byte).toNat ∧ 4 < (5#8).toNat ∧
    (0xFF#8 : Byte).toNat ≤ (0xFF#8 : Byte).toNat := by decide

/-! ### Witnesses: captures -/

theorem witness_ForceOutcomes_refused : (atFrame armed).atFrameStart = true ∧ 7 < (8#8).toNat ∧
    (1#8 : Byte) = BitVec.ofNat 8 (1 : Fin 8).val ∧ ((atFrame .reset).ring 1).mode ≠ .armed := by decide

/-- Ring 1 ARMED with a head or without. -/
def headAt (h : Option Addr) (s : State) : State := s.putRing 1 { s.ring 1 with head := h }

theorem witness_ForceOutcomes_noPosition : ((headAt none armed).ring 1).mode = .armed ∧
    ((headAt none armed).ring 1).head = none ∧ (armed.ring 1).head = some 0x0008015C#32 := by decide

/-- Block 5, where the head is, lies in C0's span in POST and HELD. -/
theorem witness_ForceOutcomes_capture : (posting 9).postOn 1 = some 0 ∧ held.postOn 1 = none ∧
    held.coveredBy 1 (blockOf (held.ring 1).cfg 0x0008015C#32) = some 0 := by decide

/-- All sixteen records on ring 0, HELD. -/
def noFree : State :=
  { armed with caps := ⟨Vector.replicate 16 { Capture.reset with state := .held }, 16#16⟩ }

theorem witness_ForceOutcomes_noRecord : noFree.postOn 1 = none ∧
    noFree.coveredBy 1 (blockOf (noFree.ring 1).cfg 0x0008015C#32) = none ∧
    noFree.freeRecord = none := by decide

/-- Each outcome of FORCE but the opening, whose capture is test_force_opens's; a LINE request finds the
same refusal; nothing is done on a ring in OFF. -/
theorem witness_ForceOutcomes_outcomes :
    let forced (s : State) := (handTrigger 1 ⟨.forced, none, (s.ring 1).head, none⟩ s).2
    forced (headAt none armed) = .noPosition ∧ forced (posting 9) = .absorbed 0 ∧
    forced held = .blocked 0 ∧ forced noFree = .noRecord ∧ forced armed = .opened 0 ∧
    (handTrigger 1 ⟨.line, some 2#8, none, none⟩ armed).2 = .noPosition ∧
    (handTrigger 0 ⟨.stuck, some 0#8, some 0#32, some 7⟩ armed).2 = .ignored := by decide

/-- The last record is the one FREE; post_words is 24, and 0 in the second state. -/
theorem witness_ForceOutcomes_opens :
    let s := { noFree with caps := ⟨noFree.caps.records.set 15 Capture.reset, 16#16⟩ }
    s.postOn 1 = none ∧ s.coveredBy 1 (blockOf (s.ring 1).cfg 0x0008015C#32) = none ∧
    s.freeRecord = some 15 ∧ (s.ring 1).cfg.postWords ≠ 0 ∧
    ({ (s.ring 1).cfg with postWords := 0 } : RingConfig).postWords = 0 := by decide

/-- The first and the last word of ring 1's region. -/
theorem witness_OpeningSpanClear : (armed.ring 1).cfg.holdsAddr 0x00080000#32 ∧
    (armed.ring 1).cfg.holdsAddr 0x000803FC#32 ∧
    armed.coveredBy 1 (blockOf (armed.ring 1).cfg 0x000803FC#32) = none :=
  ⟨by unfold RingConfig.holdsAddr; decide, by unfold RingConfig.holdsAddr; decide, by decide⟩

/-- With C0 HELD on blocks 3 to 7, a span from block 8 has no pre block and one from block 1 stops at 2;
both are CUT (R77, R78). -/
theorem test_span_clipped :
    let x := openRecord held 1 ⟨.forced, none, none, none⟩ 0x00080200#32
    let y := openRecord held 1 ⟨.forced, none, none, none⟩ 0x00080078#32
    (x.firstBlock, x.lastBlock, x.cut) = (8, 9, true) ∧
    (y.firstBlock, y.lastBlock, y.cut) = (15, 2, true) := by decide

/-- The span of 10.7: d is 2, and 2 + 2 blocks fit in 16. -/
theorem witness_OpeningSpanNominal : (armed.ring 1).cfg.holdsAddr 0x00080168#32 ∧
    (∀ c, (armed.capture c).ring = 1 → (armed.capture c).state = .free) ∧
    2 = ((0x00080168#32).toNat % 64 / 4 + (armed.ring 1).cfg.postWords) / 16 ∧
    (armed.ring 1).cfg.preBlocks + 2 < (armed.ring 1).cfg.sizeBlocks :=
  ⟨by unfold RingConfig.holdsAddr; decide, by decide, by decide, by decide⟩

/-- The blocks on both sides of the span's last block, 7. -/
theorem witness_PostCounting : (posting 1).postOn 1 = some 0 ∧ (posting 0).postOn 1 = some 0 ∧
    ((posting 1).capture 0).inSpan ((posting 1).ring 1).cfg.sizeBlocks
      (blockOf ((posting 1).ring 1).cfg 0x00080200#32) = false ∧
    ((posting 1).capture 0).inSpan ((posting 1).ring 1).cfg.sizeBlocks
      (blockOf ((posting 1).ring 1).cfg 0x000801FC#32) = true ∧
    ((posting 0).capture 0).postRemaining = 0 ∧ ((posting 1).capture 0).postRemaining ≠ 0 := by decide

/-- C0 HELD on blocks 3 to 7 and C1 HELD on blocks 8 and 9 of ring 1. -/
def twoHeld : State := held.putCapture 1 { c0 .held 0 0 with firstBlock := 8, triggerBlock := 8
                                                             lastBlock := 9 }

theorem spansDisjoint_of_two {s : State} (ho : ∀ c, (s.capture c).state ≠ .free → c = 0 ∨ c = 1)
    (hr : (s.capture 0).ring = 1) (hr' : (s.capture 1).ring = 1)
    (h : ∀ b, b < (s.ring 1).cfg.sizeBlocks →
      ((s.capture 0).inSpan (s.ring 1).cfg.sizeBlocks b = true →
        (s.capture 1).inSpan (s.ring 1).cfg.sizeBlocks b = false) ∧
      ((s.capture 1).inSpan (s.ring 1).cfg.sizeBlocks b = true →
        (s.capture 0).inSpan (s.ring 1).cfg.sizeBlocks b = false)) : s.SpansDisjoint := by
  intro c c' b hne hc hc' _ hb hi
  rcases ho c hc with rfl | rfl <;> rcases ho c' hc' with rfl | rfl
  · exact absurd rfl hne
  · rw [hr] at hb hi ⊢; exact (h b hb).1 hi
  · rw [hr'] at hb hi ⊢; exact (h b hb).2 hi
  · exact absurd rfl hne

theorem twoHeld_disjoint : twoHeld.SpansDisjoint :=
  spansDisjoint_of_two (by decide) (by decide) (by decide) (by decide)

theorem posting_disjoint : (posting 9).SpansDisjoint := by
  intro c c' b hne hc hc'
  have h : ∀ c, ((posting 9).capture c).state ≠ .free → c = 0 := by decide
  exact absurd ((h c hc).trans (h c' hc').symm) hne

/-- The blocks around C0's first, trigger and last block. -/
theorem witness_HoldStates : twoHeld.SpansDisjoint ∧ 15 < (twoHeld.ring 1).cfg.sizeBlocks ∧
    (∀ c, (twoHeld.capture c).ring = 1 →
      (twoHeld.capture c).inSpan (twoHeld.ring 1).cfg.sizeBlocks 10 = true →
      (twoHeld.capture c).state = .free) ∧
    (twoHeld.capture 0).inSpan (twoHeld.ring 1).cfg.sizeBlocks 7 = true ∧
    (twoHeld.capture 0).state = .held :=
  ⟨twoHeld_disjoint, by decide, by decide, by decide, by decide⟩

theorem witness_HoldStates_post : (posting 9).SpansDisjoint ∧
    ((posting 9).capture 0).state = .post ∧
    ((posting 9).capture 0).inSpan ((posting 9).ring 1).cfg.sizeBlocks 4 = true ∧
    forward ((posting 9).ring 1).cfg.sizeBlocks ((posting 9).capture 0).firstBlock 4 <
      forward ((posting 9).ring 1).cfg.sizeBlocks ((posting 9).capture 0).firstBlock
        ((posting 9).capture 0).triggerBlock ∧
    ((posting 9).capture 0).inSpan ((posting 9).ring 1).cfg.sizeBlocks 5 = true :=
  ⟨posting_disjoint, by decide, by decide, by decide, by decide⟩

theorem witness_ReleaseOutcomes_refused : (atFrame armed).atFrameStart = true ∧
    (atFrame armed).PortServed ∧ 15 < (16#8).toNat ∧
    (15#8 : Byte) = BitVec.ofNat 8 (15 : Fin 16).val ∧ ((atFrame armed).capture 15).state = .free ∧
    ((merging .read none).capture 0).state = .merging :=
  ⟨by decide, portServed_of_idle rfl (by decide), by decide, by decide, by decide, by decide⟩

/-- C0 in a state, the engine HALTED. -/
def haltedWith (state : CaptureState) : State :=
  { armed.putCapture 0 (c0 state 0 0) with
    engine := { halted.engine with merging := some 1 } }

theorem witness_ReleaseOutcomes_busy : (haltedWith .held).engine.status ≠ .idle ∧
    ((haltedWith .held).capture 0).state = .held ∧
    ((haltedWith .post).capture 0).state = .post ∧ (haltedWith .held).PortServed :=
  ⟨by decide, by decide, by decide, portServed_of_idle rfl (by decide)⟩

theorem witness_ReleaseOutcomes_idle : held.engine.status = .idle ∧ held.engine.queue = [] ∧
    (held.capture 0).state = .held ∧ (held.capture 0).entries = 0 ∧
    diverted.engine.status = .idle ∧ diverted.engine.queue = [] ∧
    (diverted.capture 0).entries ≠ 0 ∧
    nextEntry diverted 0 (diverted.capture 0).firstBlock = some entry7 := by decide

/-- A capture in POST, without and with an entry, and an IDLE engine. -/
theorem witness_ReleaseOutcomes_post :
    let s := diverted.putCapture 0 (c0 .post 9 1)
    ((posting 9).capture 0).state = .post ∧ (posting 9).engine.status = .idle ∧
    (posting 9).engine.queue = [] ∧ ((posting 9).capture 0).entries = 0 ∧
    (s.capture 0).state = .post ∧ s.engine.status = .idle ∧ s.engine.queue = [] ∧
    (s.capture 0).entries ≠ 0 ∧ nextEntry s 0 (s.capture 0).firstBlock = some entry7 := by decide

/-! ### Witnesses: link commands -/

theorem witness_ReportCommands : (atFrame diverted).atFrameStart = true := by decide

theorem witness_RecordCommands : (atFrame diverted).atFrameStart = true ∧ 7 < (8#8).toNat ∧
    (7#8 : Byte) = BitVec.ofNat 8 (7 : Fin 8).val ∧ 65535 < (65536#24).toNat ∧
    (65535#24).toNat ≤ 65535 ∧ (atFrame diverted).entry 1 (65535#24).toNat = none ∧
    (atFrame diverted).entry 1 (7#24).toNat = some entry7 ∧ 15 < (16#8).toNat ∧
    (15#8 : Byte) = BitVec.ofNat 8 (15 : Fin 16).val ∧ State.reset.engine.fault = none ∧
    halted.engine.fault = some ⟨.homeWriteError, 0, 1, 0x000801C0#32, 0⟩ := by decide

theorem witness_SetRingResults_refused : (atFrame armed).atFrameStart = true ∧ 7 < (8#8).toNat ∧
    (1#8 : Byte) = BitVec.ofNat 8 (1 : Fin 8).val ∧ ((atFrame armed).ring 1).mode ≠ .off ∧
    ((atFrame armed).ring 7).mode = .off := by decide

/-- The record of 9.5 is in range and meets no region of the setting of 10.7. -/
theorem witness_SetRingResults_accepted :
    let p := params7 0#8 5#8
    (p.base.toNat % 64 = 0 ∧ 2 ≤ p.sizeBlocks.toNat ∧ p.sizeBlocks.toNat ≤ 65536 ∧
      p.producer.toNat ≤ 15 ∧ p.format.toNat ≤ 1 ∧ p.shift.toNat ≤ 15 ∧
      (-8388608 : Int) ≤ p.low.toInt ∧ p.low.toInt ≤ p.high.toInt ∧ p.high.toInt ≤ 8388607 ∧
      p.stuckLimit ≠ 1#8 ∧ p.markerEnable.toNat ≤ 1 ∧ p.triggerEnable.toNat < 32 ∧
      p.eventEnable.toNat < 8) ∧
    p.base.toNat + 64 * p.sizeBlocks.toNat ≤ 4294967296 ∧
    (∀ r' : Fin 8, r' ≠ 7 → (armed.ring r').cfg.sizeBlocks ≠ 0 →
      ¬(p.base.toNat < (armed.ring r').cfg.base.toNat + 64 * (armed.ring r').cfg.sizeBlocks ∧
        (armed.ring r').cfg.base.toNat < p.base.toNat + 64 * p.sizeBlocks.toNat)) ∧
    ¬(p.base.toNat < armed.pool.areaBase.toNat + 64 * armed.pool.slotCount ∧
      armed.pool.areaBase.toNat < p.base.toNat + 64 * p.sizeBlocks.toNat) := by decide

/-- A trigger_enable of 20H is out of range; two blocks from 000803C0H on meet ring 1's last block. -/
theorem witness_SetRingResults_outside : ¬(params7 0#8 0x20#8).triggerEnable.toNat < 32 ∧
    (0x000803C0#32).toNat < (armed.ring 1).cfg.base.toNat + 64 * (armed.ring 1).cfg.sizeBlocks ∧
    (armed.ring 1).cfg.base.toNat < (0x000803C0#32).toNat + 64 * 2 := by decide

theorem witness_RingModeResults : (atFrame armed).atFrameStart = true ∧ 7 < (8#8).toNat ∧
    2 < (3#8).toNat ∧ (0#8 : Byte) = BitVec.ofNat 8 (0 : Fin 8).val ∧
    ((atFrame armed).ring 0).cfg.sizeBlocks = 0 ∧ ((atFrame armed).ring 1).cfg.sizeBlocks ≠ 0 ∧
    ((atFrame armed).ring 1).mode ≠ .off ∧
    ((armed.putRing 1 { armed.ring 1 with mode := .off }).ring 1).mode = .off ∧
    (∃ c, (held.capture c).ring = 1 ∧ (held.capture c).state ≠ .free) ∧
    ∀ c, (armed.capture c).ring = 1 → (armed.capture c).state = .free := by
  refine ⟨by decide, by decide, by decide, by decide, by decide, by decide, by decide, by decide,
    ⟨0, by decide⟩, by decide⟩

theorem witness_ReadExtremesAndClear : (atFrame armed).atFrameStart = true ∧ 7 < (8#8).toNat ∧
    (7#8 : Byte) = BitVec.ofNat 8 (7 : Fin 8).val := by decide

/-- The map not empty; a slot target; slot_count and low_water at and above 512; an area up to ring 1's
base and one block into it. -/
theorem witness_SetPoolResults : (atFrame diverted).atFrameStart = true ∧ diverted.pool.map ≠ [] ∧
    (transfer ⟨2, 0x000801C0#32, .read 1⟩ .slotRead 1 []).path.current.map (fun q => q.slotTarget)
      = some (some (1, 7)) ∧
    armed.pool.map = [] ∧ armed.path.current = none ∧ 512 < (513#16).toNat ∧ (512#16).toNat ≤ 512 ∧
    (0x00080020#32).toNat % 64 ≠ 0 ∧
    (0x0007FFC0#32).toNat + 64 * (1#16).toNat ≤ (armed.ring 1).cfg.base.toNat ∧
    (armed.ring 1).cfg.base.toNat < (0x0007FFC0#32).toNat + 64 * (2#16).toNat ∧
    armed.pool.low = false ∧ (heldWith [1] 0).pool.low = true := by decide

theorem witness_SettingsCommands : (atFrame armed).atFrameStart = true ∧
    (1 ≤ (1#16).toNat ∧ (255#16).toNat ≤ 255) ∧ 256 ≤ (256#16).toNat ∧ 15 < (16#8).toNat ∧
    1 < (2#8).toNat ∧ (15#8 : Byte) = BitVec.ofNat 8 (15 : Fin 16).val ∧ 64 < (65#8).toNat ∧
    15 < (16#8).toNat ∧ (64#8).toNat ≤ 64 ∧ (15#8).toNat ≤ 15 := by decide

/-! ### Witnesses: events -/

/-- A queue of n records with seqs 0 to n − 1, and of one more, an open OVERFLOW record. -/
def queueOf (n : Nat) : EventQueue :=
  ⟨(List.range n).map fun i => ⟨BitVec.ofNat 16 i, ⟨.guard, none, none, none, none, 0#8⟩⟩, false,
   BitVec.ofNat 16 n⟩

def queueOpen (n : Int) : EventQueue :=
  ⟨(queueOf 63).records ++ [⟨63#16, ⟨.overflow, none, none, none, some n, 0#8⟩⟩], true, 64#16⟩

set_option maxRecDepth 4000 in
theorem witness_ArrivalRule : (queueOf 62).overflowOpen = false ∧ (queueOf 62).records.length ≤ 62 ∧
    (queueOf 63).overflowOpen = false ∧ (queueOf 63).records.length = 63 ∧
    (queueOpen 65535).overflowOpen = true ∧ (queueOpen 65535).records =
      (queueOf 63).records ++ [⟨63#16, ⟨.overflow, none, none, none, some 65535, 0#8⟩⟩] := by decide

theorem witness_PeekAndPop : (atFrame five).atFrameStart = true ∧ State.reset.queue.records = [] ∧
    ∃ e es, five.queue.records = e :: es := ⟨by decide, by decide, _, _, rfl⟩

/-! ### Witnesses: the merge engine -/

theorem witness_ResumeAndSkip : (atFrame halted).atFrameStart = true ∧
    State.reset.engine.status ≠ .halted ∧ halted.engine.status = .halted ∧
    halted.engine.copy = some (copy7 .write) ∧
    (halted.entry 1 7).map (fun e => e.capture) = some 0 ∧ (halted.capture 0).state = .merging ∧
    (halted.capture 0).entries = 1 ∧ halted.engine.queue = [] ∧ halted.PortServed :=
  ⟨by decide, by decide, by decide, by decide, by decide, by decide, by decide, by decide,
   portServed_of_idle rfl (by decide)⟩

/-- The copy of block 3 at a phase with block 7's entry behind it, the cursor at block 4. -/
def twoEntries (phase : CopyPhase) (t : Option DnTxn) : State :=
  let u := merging phase t
  { u.putCapture 0 (c0 .merging 0 2) with
    pool := { u.pool with map := [⟨1, 3, 0, 1, 0xFFFF#16, .copying, false⟩, entry7] }
    engine := ⟨[], .copying, some 0, some 4, some ⟨1, 3, 0x000800C0#32, 1, phase, [], 0xFFFF#16⟩,
               none⟩ }

/-- HALTED on the copy of block 3 with an entry behind it. -/
def haltedTwo : State :=
  let s := twoEntries .write none
  { s with engine := { s.engine with
      status := .halted, fault := some ⟨.homeWriteError, 0, 1, 0x000800C0#32, 1⟩ } }

theorem witness_ResumeAndSkip_more : haltedTwo.engine.status = .halted ∧
    haltedTwo.engine.copy = some ⟨1, 3, 0x000800C0#32, 1, .write, [], 0xFFFF#16⟩ ∧
    haltedTwo.entry 1 3 = some ⟨1, 3, 0, 1, 0xFFFF#16, .copying, false⟩ ∧
    (haltedTwo.capture 0).state = .merging ∧ 2 ≤ (haltedTwo.capture 0).entries ∧
    haltedTwo.engine.cursor = some 4 ∧
    nextEntry { haltedTwo with pool := { haltedTwo.pool with
      map := dropEntry haltedTwo.pool.map 1 3, freeList := haltedTwo.pool.freeList ++ [1] } } 0 4 =
      some entry7 := by decide

/-- C0's last entry is skipped and C1, queued without an entry, is taken and FREE after it (R120, R132). -/
theorem test_skip_takes_next :
    let s := halted.putCapture 1 (c0 .releasing 0 0)
    let t := after .skip (atFrame { s with engine := { s.engine with queue := [1] } })
    (t.capture 1).state = .free ∧ t.engine.queue = [] ∧ t.engine.status = .idle ∧
    (events t).map (fun e => e.capture) = [some 0, some 1] := by decide

/-- A copy with its transaction outstanding; the entry's restart_pending is the given flag. -/
def copying (phase : CopyPhase) (dir : Dir) (restart : Bool) : State :=
  let s := merging phase (some (copyTxn dir))
  { s with pool := { s.pool with
      map := [⟨1, 7, 0, 0, 0xFF00#16, .copying, restart⟩] } }

theorem witness_BlockCopyCompletes :
    let s := copying .write .write false
    s.pins.rstn = true ∧ s.path.current = none ∧ s.up.waiting = [] ∧
    s.dn.outstanding = some (copyTxn .write) ∧ (copyTxn .write).side = .engine ∧
    s.engine.status = .copying ∧ s.engine.copy = some (copy7 .write) ∧ s.engine.merging = some 0 ∧
    s.entry 1 7 = some ⟨1, 7, 0, 0, 0xFF00#16, .copying, false⟩ ∧ (s.capture 0).state = .merging ∧
    (s.capture 0).entries = 1 ∧ s.engine.queue = [] ∧
    (copying .write .write true).entry 1 7 = some ⟨1, 7, 0, 0, 0xFF00#16, .copying, true⟩ ∧
    (copying .read .read false).engine.copy = some (copy7 .read) ∧ (copyTxn .read).length = 16 := by
  decide

/-- The home write restarts with a slot target present: restart_pending is set again, and the path unit,
whose share is not used up, is granted (R13, R14, R125; 10.7 after step 15). -/
theorem test_dnResponse_restart_contended :
    let t := after (.dnResponse 3#4 .okay []) (contended .write .write true)
    t.entry 1 7 = some ⟨1, 7, 0, 0, 0xFF00#16, .copying, true⟩ ∧ (t.capture 0).restarts = 1 ∧
    t.dn.outstanding.map (fun x => x.side) = some (.path .slotWrite) ∧ t.dn.shareCount = 1 := by decide

theorem witness_BlockCopyCompletes_contended :
    let s := contended .write .write true
    s.pins.rstn = true ∧ s.path.current ≠ none ∧ s.dn.outstanding = some (copyTxn .write) ∧
    s.engine.status = .copying ∧ s.engine.copy = some (copy7 .write) ∧ s.engine.merging = some 0 ∧
    s.entry 1 7 = some ⟨1, 7, 0, 0, 0xFF00#16, .copying, true⟩ ∧ s.targets 1 7 = true := by decide

theorem witness_BlockCopyCompletes_next :
    let s := twoEntries .write (some (copyTxn .write))
    s.entry 1 3 = some ⟨1, 3, 0, 1, 0xFFFF#16, .copying, false⟩ ∧ (s.capture 0).state = .merging ∧
    2 ≤ (s.capture 0).entries ∧ s.engine.cursor = some 4 ∧
    nextEntry { s with pool := { s.pool with map := dropEntry s.pool.map 1 3 } } 0 4 = some entry7 := by
  decide

/-- Of two queued captures, C0 without an entry; C0 with an entry. -/
theorem witness_NextEntryAndHomeWords_take : (held.capture 0).entries = 0 ∧
    (diverted.capture 0).entries ≠ 0 ∧
    nextEntry diverted 0 (diverted.capture 0).firstBlock = some entry7 := by decide

theorem witness_NextEntry : nextEntry diverted 0 3 = some entry7 ∧ nextEntry diverted 0 7 = some entry7 ∧
    (homeWriteWords (copy7 .writeWait) 0).length = 16 ∧ (copy7 .writeWait).copySet.getLsbD 8 = true ∧
    (copy7 .writeWait).copySet.getLsbD 7 = false := by decide

/-! ### Witnesses: invariants

States that are sound, with a command in front. -/

set_option maxRecDepth 4000 in
theorem witness_StepKeepsQueueSound : (queueOpen 65535).Sound where
  length := by decide
  isOpen := by decide
  seqs   := by simp [queueOpen, queueOf, seqsRun, List.range, List.range.loop]
  last   := fun _ => ⟨_, 65535, rfl, rfl, rfl, by decide, by decide⟩

theorem witness_StepKeepsMapSound : diverted.pool.Sound ∧ diverted.MapSound where
  left := ⟨by decide, by decide⟩
  right := ⟨by decide, by decide, by decide⟩

theorem witness_StepKeepsReleaseSound :
    let s := { (haltedWith .releasing) with engine := { halted.engine with queue := [0] } }
    s.ReleaseSound ∧ s.OffSound := by
  refine ⟨⟨by decide, by decide⟩, ?_⟩
  show ∀ r c, _
  decide

theorem witness_StepKeepsRingsSound : armed.RingsSound := by
  have h : ∀ r, (armed.ring r).cfg.base.toNat % 64 = 0 ∧
      (armed.ring r).cfg.base.toNat + 64 * (armed.ring r).cfg.sizeBlocks ≤ 4294967296 ∧
      ((armed.ring r).mode ≠ .off → (armed.ring r).cfg.sizeBlocks ≠ 0 ∧
        (armed.ring r).head = some 0x0008015C#32 ∧
        (armed.ring r).cfg.base.toNat ≤ (0x0008015C#32).toNat ∧
        (0x0008015C#32).toNat <
          (armed.ring r).cfg.base.toNat + 64 * (armed.ring r).cfg.sizeBlocks) := by decide
  refine ⟨fun r => ⟨(h r).1, (h r).2.1, fun hm => ((h r).2.2 hm).1, fun hm a ha => ?_⟩, fun q hq => ?_⟩
  · obtain ⟨_, h1, h2⟩ := (h r).2.2 hm
    rw [h1] at ha
    rw [← Option.some.inj ha]
    exact h2
  · cases hq

theorem witness_StepKeepsSpansDisjoint : twoHeld.SpansDisjoint ∧ twoHeld.ReleaseSound ∧
    twoHeld.OffSound := by
  refine ⟨twoHeld_disjoint, ⟨by decide, by decide⟩, ?_⟩
  show ∀ r c, _
  decide

theorem witness_StepKeepsPortAndEngine :
    let s := merging .read (some (copyTxn .read))
    s.PortServed ∧ s.EngineSound := by
  refine ⟨fun _ h => absurd h (by decide), ⟨by decide, by decide, by decide, ?_⟩⟩
  exact ⟨fun _ => ⟨rfl, _, rfl, Or.inl rfl⟩, fun _ => ⟨_, rfl, rfl⟩⟩

theorem witness_StepKeepsLinkSound : (atFrame .reset).LinkSound := atFrame_linkSound

/-- Each of these states has a next state. -/
theorem witness_step_next : ∃ t, step { armed with pending := [.dnTimeout] } = .next t := ⟨_, rfl⟩

end Sys2Proof.Tests
end

section
/-! PROOFS. The DN port is served and the merge engine's records fit its state, whatever the step. -/

namespace Sys2Proof.Machine

/-! ### What the two invariants read -/

/-- What the two invariants read of the part is as before. -/
structure SamePort (s t : State) : Prop where
  rstn        : t.pins.rstn = s.pins.rstn
  outstanding : t.dn.outstanding = s.dn.outstanding
  current     : t.path.current = s.path.current
  engine      : t.engine = s.engine

/-- A change that keeps both invariants, each for itself. -/
structure KeepsPort (s t : State) : Prop where
  served : s.PortServed → t.PortServed
  sound  : s.EngineSound → t.EngineSound

theorem KeepsPort.trans {s t u : State} (h : KeepsPort s t) (h' : KeepsPort t u) : KeepsPort s u :=
  ⟨h'.served ∘ h.served, h'.sound ∘ h.sound⟩

/-- Soundness of the engine reads the engine and the outstanding transaction alone. -/
theorem State.EngineSound.of_same {s t : State} (engine : t.engine = s.engine)
    (outstanding : t.dn.outstanding = s.dn.outstanding) (h : s.EngineSound) : t.EngineSound := by
  obtain ⟨merging, copy, fault, port⟩ := h
  constructor <;> rw [engine]
  · exact merging
  · exact copy
  · exact fault
  · rw [outstanding]; exact port

theorem engineWaits_of_engine {s t : State} (h : t.engine = s.engine) :
    t.engineWaits = s.engineWaits := by
  unfold State.engineWaits; rw [h]

theorem pathWaits_of_current {s t : State} (h : t.path.current = s.path.current) :
    t.pathWaits = s.pathWaits := by
  unfold State.pathWaits; rw [h]

theorem SamePort.keeps {s t : State} (h : SamePort s t) : KeepsPort s t where
  served hs hr ho := by
    rw [pathWaits_of_current h.current, engineWaits_of_engine h.engine]
    exact hs (h.rstn.symm.trans hr) (h.outstanding.symm.trans ho)
  sound := State.EngineSound.of_same h.engine h.outstanding

theorem SamePort.refl (s : State) : SamePort s s := ⟨rfl, rfl, rfl, rfl⟩

theorem Untouched.samePort {s t : State} (h : Untouched s t) : SamePort s t where
  rstn        := congrArg _ h.pins
  outstanding := congrArg _ h.dn
  current     := congrArg _ h.path
  engine      := h.engine

theorem KeepsPort.refl (s : State) : KeepsPort s s := (SamePort.refl s).keeps

/-! ### The arbiter -/

/-- The engine waits exactly in READ WAIT and WRITE WAIT of a running copy (R128). -/
theorem engineWaits_iff (s : State) : s.engineWaits = true ↔ s.engine.status = .copying ∧
    ∃ k, s.engine.copy = some k ∧ (k.phase = .readWait ∨ k.phase = .writeWait) := by
  unfold State.engineWaits
  cases s.engine.copy <;> simp

/-- The path unit waits exactly while its request's plan is not empty (R9, R14). -/
theorem pathWaits_iff (s : State) : s.pathWaits = true ↔
    ∃ q x rest, s.path.current = some q ∧ q.plan = x :: rest := by
  unfold State.pathWaits
  cases hq : s.path.current with
  | none => simp
  | some q => cases hp : q.plan <;> simp [hp]

/-- On a free port the path unit, waiting alone, is granted (R14). -/
theorem arbitrate_path (s : State) (hr : s.pins.rstn = true) (hf : s.dn.outstanding = none)
    (hp : s.pathWaits = true) (he : s.engineWaits = false) : arbitrate s = grantPath s := by
  simp [arbitrate, hr, hf, hp, he]

/-- So is the merge engine, waiting alone (R14). -/
theorem arbitrate_engine (s : State) (hr : s.pins.rstn = true) (hf : s.dn.outstanding = none)
    (hp : s.pathWaits = false) (he : s.engineWaits = true) : arbitrate s = grantEngine s := by
  simp [arbitrate, hr, hf, hp, he]

/-- With both waiting the share decides, and a path grant counts (R14). -/
theorem arbitrate_both (s : State) (hr : s.pins.rstn = true) (hf : s.dn.outstanding = none)
    (hp : s.pathWaits = true) (he : s.engineWaits = true) : arbitrate s =
      if s.path.share ≠ 0 ∧ s.path.share ≤ s.dn.shareCount then grantEngine s
      else grantPath { s with dn := { s.dn with shareCount := satAdd 255 s.dn.shareCount 1 } } := by
  simp [arbitrate, hr, hf, hp, he]

/-- A grant of a waiting path unit leaves the port taken. -/
theorem grantPath_takes (s : State) (h : s.pathWaits = true) :
    (grantPath s).dn.outstanding ≠ none := by
  obtain ⟨q, x, rest, hq, hx⟩ := (pathWaits_iff s).mp h
  simp [grantPath, hq, hx, issue]

/-- So does one of a waiting engine. -/
theorem grantEngine_takes (s : State) (h : s.engineWaits = true) :
    (grantEngine s).dn.outstanding ≠ none := by
  obtain ⟨_, k, hk, hp | hp⟩ := (engineWaits_iff s).mp h <;> simp [grantEngine, hk, hp, issue]

/-- After the arbiter's decision no side waits for a free port (R14). -/
theorem arbitrate_served (s : State) : (arbitrate s).PortServed := by
  intro hr ho
  have taken {t : State} (ht : t.dn.outstanding ≠ none) (e : arbitrate s = t) :
      (arbitrate s).pathWaits = false ∧ (arbitrate s).engineWaits = false :=
    absurd (e ▸ ho) ht
  have pins : (arbitrate s).pins = s.pins := (arbitrate_cores (A := noWord) s).frame.1
  by_cases hf : s.dn.outstanding = none
  · have high : s.pins.rstn = true := by rw [← pins]; exact hr
    cases hp : s.pathWaits <;> cases he : s.engineWaits
    · rw [arbitrate_of_served s fun _ => ⟨hp, he⟩]; exact ⟨hp, he⟩
    · exact taken (grantEngine_takes s he) (arbitrate_engine s high hf hp he)
    · exact taken (grantPath_takes s hp) (arbitrate_path s high hf hp he)
    · have both := arbitrate_both s high hf hp he
      split at both
      · exact taken (grantEngine_takes s he) both
      · refine taken (grantPath_takes _ ?_) both
        exact hp
  · exact taken hf (arbitrate_of_busy s hf)

theorem grantPath_sound (s : State) (hf : s.dn.outstanding = none) (h : s.EngineSound) :
    (grantPath s).EngineSound := by
  obtain ⟨merging, copy, fault, port⟩ := h
  unfold grantPath
  split
  · split
    · refine ⟨merging, copy, fault, ?_⟩
      refine Iff.trans ?_ port
      simp [issue, hf]
    · exact ⟨merging, copy, fault, port⟩
  · exact ⟨merging, copy, fault, port⟩

theorem grantEngine_sound (s : State) (hw : s.engineWaits = true) (h : s.EngineSound) :
    (grantEngine s).EngineSound := by
  obtain ⟨merging, copy, fault, port⟩ := h
  obtain ⟨hst, k, hk, hp | hp⟩ := (engineWaits_iff s).mp hw <;>
    simp only [grantEngine, hk, hp] <;>
    exact ⟨merging, by simp [hst], fault, by simp [issue, hst]⟩

theorem arbitrate_sound (s : State) (h : s.EngineSound) : (arbitrate s).EngineSound := by
  unfold arbitrate
  split
  · next hfree =>
    have hf : s.dn.outstanding = none := by simp at hfree; exact hfree.2
    split
    · exact grantPath_sound s hf h
    · next he => exact grantEngine_sound s he h
    · next he =>
      split
      · exact grantEngine_sound s he h
      · exact grantPath_sound _ hf (State.EngineSound.of_same (s := s) rfl rfl h)
    · exact h
  · exact h

/-- A change that ends in the arbiter's decision keeps both, when it keeps the engine's records. -/
theorem keepsPort_arbitrate {s u : State} (h : s.EngineSound → u.EngineSound) :
    KeepsPort s (arbitrate u) :=
  ⟨fun _ => arbitrate_served u, fun hs => arbitrate_sound u (h hs)⟩

theorem keepsPort_settle {s u : State} (h : s.EngineSound → u.EngineSound) :
    KeepsPort s (settle u) := by
  unfold settle
  split
  · obtain ⟨engine, dn, _⟩ := takeWaiting_same u.up.waiting u
    exact keepsPort_arbitrate fun hs => State.EngineSound.of_same engine (congrArg _ dn) (h hs)
  · next low => exact ⟨fun _ hr => absurd hr low, h⟩

/-! ### The merge engine's records -/

/-- No transaction of the merge engine's is outstanding. -/
def State.EngineOffPort (s : State) : Prop := ∀ t, s.dn.outstanding = some t → t.side ≠ .engine

/-- Off the port the records fit when no copy is in READ or WRITE. -/
theorem engineSound_offPort {s : State} (off : s.EngineOffPort)
    (merging : s.engine.merging = none ↔ s.engine.status = .idle)
    (copy : s.engine.copy = none ↔ s.engine.status = .idle)
    (fault : s.engine.fault ≠ none ↔ s.engine.status = .halted)
    (phase : s.engine.status = .copying → ∀ k, s.engine.copy = some k →
      k.phase ≠ .read ∧ k.phase ≠ .write) : s.EngineSound := by
  refine ⟨merging, copy, fault, ⟨fun ⟨t, ht, hs⟩ => absurd hs (off t ht), ?_⟩⟩
  rintro ⟨hst, k, hk, hp⟩
  obtain ⟨hr, hw⟩ := phase hst k hk
  exact (hp.elim hr hw).elim

/-- Outside READ and WRITE of a running copy the engine is off the port (6.2). -/
theorem State.EngineSound.offPort {s : State} (h : s.EngineSound) (hst : s.engine.status ≠ .copying) :
    s.EngineOffPort := fun t ht hs => hst (h.port.mp ⟨t, ht, hs⟩).1

/-- A copy that begins, of a capture in MERGING, waits for the port (R122). -/
theorem beginCopy_sound (e : MapEntry) (s : State) (off : s.EngineOffPort)
    (merging : s.engine.merging ≠ none) (fault : s.engine.fault = none) :
    (beginCopy e s).EngineSound := by
  refine engineSound_offPort (s := beginCopy e s) off ?_ ?_ ?_ ?_ <;>
    simp [beginCopy, beginWait, merging, fault]

theorem copyEntry_sound (e : MapEntry) (s : State) (off : s.EngineOffPort)
    (merging : s.engine.merging ≠ none) (fault : s.engine.fault = none) :
    (copyEntry e s).EngineSound :=
  beginCopy_sound e _ off merging fault

/-- The IDLE engine's take of queued captures leaves it IDLE, or with a first copy that waits (R120). -/
theorem takeQueue_sound (l : List (Fin 16)) : ∀ s : State, s.EngineOffPort →
    s.engine.status = .idle → s.engine.merging = none → s.engine.copy = none →
    s.engine.fault = none → (takeQueue l s).EngineSound := by
  induction l with
  | nil =>
    intro s off status merging copy fault
    refine engineSound_offPort (s := takeQueue [] s) off ?_ ?_ ?_ ?_ <;>
      simp [takeQueue, status, merging, copy, fault]
  | cons c rest ih =>
    intro s off status merging copy fault
    unfold takeQueue
    dsimp only
    split
    · exact ih (becomeFree c (takeCapture c rest s)) off status merging copy fault
    · split
      · exact copyEntry_sound _ _ off (by simp) fault
      · exact ih (takeCapture c rest s) off status merging copy fault

theorem engineNext_sound (s : State) (off : s.EngineOffPort) (fault : s.engine.fault = none) :
    (engineNext s).EngineSound :=
  takeQueue_sound _ (engineIdle s) off rfl rfl rfl fault

theorem continueMerge_sound (c : Fin 16) (s : State) (off : s.EngineOffPort)
    (merging : s.engine.merging ≠ none) (fault : s.engine.fault = none) :
    (continueMerge c s).EngineSound := by
  unfold continueMerge
  split
  · split
    · split
      · exact copyEntry_sound _ s off merging fault
      · exact engineNext_sound s off fault
    · exact engineNext_sound s off fault
  · exact engineNext_sound s off fault

/-- A fault fills the fault record and halts the engine, whose copy and capture stay (R129). -/
theorem mergeFault_sound (f : FaultKind) (s : State) (off : s.EngineOffPort)
    (merging : s.engine.merging ≠ none) (copy : s.engine.copy ≠ none) :
    (mergeFault f s).EngineSound := by
  obtain ⟨c, hc⟩ := Option.ne_none_iff_exists'.mp merging
  obtain ⟨k, hk⟩ := Option.ne_none_iff_exists'.mp copy
  simp only [mergeFault, hk, hc]
  exact engineSound_offPort off (by simp) (by simp) (by simp) (by simp)

theorem removeEntry_offPort (e : MapEntry) (s : State) (off : s.EngineOffPort) :
    (removeEntry e s).EngineOffPort := by
  unfold State.EngineOffPort
  rw [(removeEntry_same e s).2.1]
  exact off

/-- The completion of the engine's transaction, which has left the port (R123 to R125, R129). -/
theorem engineResponse_sound (status : BusStatus) (data : List Word) (k : CopyRecord) (s : State)
    (off : s.EngineOffPort) (hst : s.engine.status = .copying) (hk : s.engine.copy = some k)
    (phase : k.phase = .read ∨ k.phase = .write) (merging : s.engine.merging ≠ none)
    (fault : s.engine.fault = none) : (engineResponse status data s).EngineSound := by
  have halts (f : FaultKind) : (mergeFault f s).EngineSound :=
    mergeFault_sound f s off merging (by simp [hk])
  obtain ⟨c, hc⟩ := Option.ne_none_iff_exists'.mp merging
  rcases phase with phase | phase <;> cases status <;> simp only [engineResponse, hk, hc, phase]
  · unfold slotReadDone
    split
    · refine engineSound_offPort off ?_ ?_ ?_ ?_ <;> simp [hst, merging, fault]
    · exact engineNext_sound s off fault
  · exact halts _
  · unfold homeWriteDone
    split
    · next e _ =>
      split
      · exact beginCopy_sound e (countRestart c s) off merging fault
      · obtain ⟨engine, _⟩ := removeEntry_same e s
        exact continueMerge_sound c _ (removeEntry_offPort e s off) (by rw [engine]; exact merging)
          (by rw [engine]; exact fault)
    · exact engineNext_sound s off fault
  · exact halts _

/-! ### The transaction that leaves the port -/

/-- The path unit's transaction leaves the port and the engine's records alone (R14). -/
theorem State.EngineSound.freePath {s t : State} {x : DnTxn} {kind : PathKind} (h : s.EngineSound)
    (hx : s.dn.outstanding = some x) (side : x.side = .path kind) (engine : t.engine = s.engine)
    (free : t.dn.outstanding = none) : t.EngineSound := by
  obtain ⟨merging, copy, fault, port⟩ := h
  constructor <;> rw [engine]
  · exact merging
  · exact copy
  · exact fault
  · rw [← port, free, hx]; simp [side]

/-- While the engine's transaction is outstanding its copy is in READ or WRITE, with no fault (6.2). -/
theorem State.EngineSound.running {s : State} {x : DnTxn} (h : s.EngineSound)
    (hx : s.dn.outstanding = some x) (side : x.side = .engine) :
    s.engine.status = .copying ∧ s.engine.merging ≠ none ∧ s.engine.fault = none ∧
    ∃ k, s.engine.copy = some k ∧ (k.phase = .read ∨ k.phase = .write) := by
  obtain ⟨merging, copy, fault, port⟩ := h
  obtain ⟨hst, k, hk, phase⟩ := port.mp ⟨x, hx, side⟩
  refine ⟨hst, fun hm => ?_, ?_, k, hk, phase⟩
  · rw [merging.mp hm] at hst; cases hst
  · by_contra hf
    rw [fault.mp hf] at hst; cases hst

/-- What a path response leaves of the engine and the port. -/
theorem pathResponse_same (status : BusStatus) (data : List Word) (s : State) :
    (pathResponse status data s).engine = s.engine ∧ (pathResponse status data s).dn = s.dn := by
  unfold pathResponse
  split
  · exact ⟨rfl, rfl⟩
  · split
    · exact ⟨rfl, rfl⟩
    · exact ⟨rfl, rfl⟩
    · dsimp only
      split <;> exact ⟨rfl, rfl⟩

/-! ### Link commands -/

/-- A capture released to an IDLE engine is taken at once; else the queue grows (R118, R120). -/
theorem appendRelease_sound (c : Fin 16) (s : State) (h : s.EngineSound) :
    (appendRelease c s).EngineSound := by
  obtain ⟨merging, copy, fault, port⟩ := h
  by_cases idle : s.engine.status = .idle
  · have hf : s.engine.fault = none := by
      by_contra hf
      rw [fault.mp hf] at idle; cases idle
    unfold appendRelease
    dsimp only
    rw [if_pos (by exact idle)]
    exact takeQueue_sound _ _ (State.EngineSound.offPort ⟨merging, copy, fault, port⟩ (by simp [idle]))
      idle (merging.mpr idle) (copy.mpr idle) hf
  · rw [appendRelease_busy c s idle]
    exact ⟨merging, copy, fault, port⟩

/-- A HALTED engine has a capture in MERGING and no transaction on the port (R129). -/
theorem State.EngineSound.halted {s : State} (h : s.EngineSound) (hst : s.engine.status = .halted) :
    s.engine.merging ≠ none ∧ s.EngineOffPort :=
  ⟨fun hm => (by rw [h.merging.mp hm] at hst; cases hst), h.offPort (by simp [hst])⟩

theorem runResume_keepsPort (s : State) : KeepsPort s (runResume s).1 := by
  unfold runResume
  split
  · next halted =>
    split
    · dsimp only
      split
      · refine keepsPort_arbitrate fun h => ?_
        obtain ⟨merging, off⟩ := h.halted halted
        exact beginCopy_sound _ _ off merging rfl
      · exact keepsPort_arbitrate fun h => engineNext_sound _ (h.halted halted).2 rfl
    · exact KeepsPort.refl s
  · exact KeepsPort.refl s

theorem runSkip_keepsPort (s : State) : KeepsPort s (runSkip s).1 := by
  unfold runSkip
  split
  · next halted =>
    split
    · split
      · next e _ =>
        dsimp only
        refine keepsPort_arbitrate fun h => ?_
        obtain ⟨merging, off⟩ := h.halted halted
        obtain ⟨engine, _⟩ := removeEntry_same e (countLost e s)
        refine continueMerge_sound _ _ (removeEntry_offPort e (countLost e s) off) ?_ rfl
        rw [engine]
        exact merging
      · exact keepsPort_arbitrate fun h => engineNext_sound _ (h.halted halted).2 rfl
    · exact KeepsPort.refl s
  · exact KeepsPort.refl s

theorem runRelease_keepsPort (capture : Byte) (s : State) :
    KeepsPort s (runRelease capture s).1 := by
  unfold runRelease
  split
  · exact KeepsPort.refl s
  · next c _ =>
    split
    · exact KeepsPort.refl s
    · exact keepsPort_arbitrate fun h =>
        appendRelease_sound c _ (State.EngineSound.of_same (s := s) rfl rfl h)
    · exact keepsPort_arbitrate (appendRelease_sound c s)
    · exact KeepsPort.refl s
    · exact KeepsPort.refl s

/-- The execution of a link command: only RELEASE, RESUME and SKIP reach the engine, and each ends in
the arbiter's decision. -/
theorem runCommand_keepsPort (i : Instr) (s : State) : KeepsPort s (runCommand i s).1 := by
  have same {t : State} (h : SamePort s t) : KeepsPort s t := h.keeps
  cases i with
  | release c => exact runRelease_keepsPort c s
  | resume => exact runResume_keepsPort s
  | skip => exact runSkip_keepsPort s
  | setPath t h => dsimp only [runCommand, runSetPath]; split <;> exact same ⟨rfl, rfl, rfl, rfl⟩
  | setView m v => dsimp only [runCommand, runSetView]; split <;> exact same ⟨rfl, rfl, rfl, rfl⟩
  | setRing r p =>
    dsimp only [runCommand, runSetRing]
    repeat' split
    all_goals exact same ⟨rfl, rfl, rfl, rfl⟩
  | getRing r => dsimp only [runCommand, runGetRing]; split <;> exact KeepsPort.refl s
  | ringMode r m =>
    dsimp only [runCommand, runRingMode]
    repeat' split
    all_goals exact same ⟨rfl, rfl, rfl, rfl⟩
  | setMarker f l a =>
    dsimp only [runCommand, runSetMarker]
    repeat' split
    all_goals exact same ⟨rfl, rfl, rfl, rfl⟩
  | setLine n e m r =>
    dsimp only [runCommand, runSetLine]
    split
    · exact same (changeLine_untouched _ _ s).samePort
    · exact KeepsPort.refl s
  | setPool b n w =>
    dsimp only [runCommand, runSetPool]
    split
    · exact KeepsPort.refl s
    · split
      · exact KeepsPort.refl s
      · split
        · exact KeepsPort.refl s
        · exact same (changePool_untouched _ _ _ s).samePort
  | force r =>
    dsimp only [runCommand, runForce]
    split
    · exact KeepsPort.refl s
    · split
      · exact same (handTrigger_untouched _ _ s).samePort
      · exact KeepsPort.refl s
  | getCapture c => dsimp only [runCommand, runGetCapture]; split <;> exact KeepsPort.refl s
  | readExtremes r =>
    dsimp only [runCommand, runReadExtremes]; split <;> exact same ⟨rfl, rfl, rfl, rfl⟩
  | popEvent => dsimp only [runCommand, runPopEvent]; split <;> exact same ⟨rfl, rfl, rfl, rfl⟩
  | peekEvent => dsimp only [runCommand, runPeekEvent]; split <;> exact KeepsPort.refl s
  | setEvents w m =>
    dsimp only [runCommand, runSetEvents]
    repeat' split
    all_goals exact same ⟨rfl, rfl, rfl, rfl⟩
  | getFault => dsimp only [runCommand, runGetFault]; split <;> exact KeepsPort.refl s
  | getMap r b =>
    dsimp only [runCommand, runGetMap]
    repeat' split
    all_goals exact KeepsPort.refl s
  | _ => exact same ⟨rfl, rfl, rfl, rfl⟩

theorem keepsPort_link (s : State) (l : Link) : KeepsPort s { s with link := l } :=
  SamePort.keeps ⟨rfl, rfl, rfl, rfl⟩

theorem goodFrame_keepsPort (i : Instr) (s : State) :
    KeepsPort s (goodFrame i (runCommand i) s) := by
  unfold goodFrame
  split
  · split
    · exact (keepsPort_link s _).trans ((runCommand_keepsPort i _).trans
        ((keepsPort_link _ _).trans (keepsPort_link _ _)))
    · exact KeepsPort.refl s
  · exact KeepsPort.refl s

theorem evaluate_keepsPort (b : Byte) (s : State) : KeepsPort s (evaluate b s).1 := by
  have refused (status : Status) : KeepsPort s (s, refuse status).1 := KeepsPort.refl s
  unfold evaluate
  split
  · exact refused _
  · split
    · split
      · exact refused _
      · split
        · exact refused _
        · split
          · exact runCommand_keepsPort _ s
          · exact refused _
    · exact refused _

/-- The commit of a reply touches a ring or the event queue alone (R38, R147). -/
theorem commitPending_samePort (s : State) : SamePort s (commitPending s) := by
  unfold commitPending extremesCommit
  repeat' split
  all_goals exact ⟨rfl, rfl, rfl, rfl⟩

theorem clockEdges_keepsPort (edges : List SckEdge) (s : State) :
    KeepsPort s (clockEdges edges s) :=
  clockEdges_keeps (P := KeepsPort s) (fun u l h => h.trans (keepsPort_link u l))
    (fun b u h => h.trans (evaluate_keepsPort b u))
    (fun u h => h.trans (commitPending_samePort u).keeps) edges s (KeepsPort.refl s)

/-! ### Bus events and RSTN -/

/-- A response that frees the port, of either side (R15). -/
theorem execDnResponse_keepsPort (tag : BitVec 4) (status : BusStatus) (data : List Word)
    (s t : State) (h : execDnResponse tag status data s = .next t) : KeepsPort s t := by
  cases h
  split
  · exact KeepsPort.refl s
  · next x hx =>
    split
    · exact KeepsPort.refl s
    · have path (n : Nat) (kind : PathKind) (st : BusStatus) (d : List Word)
          (side : x.side = .path kind) : KeepsPort s (settle (pathResponse st d
            { s with dn := { s.dn with outstanding := none }, unstated := n })) :=
        keepsPort_settle fun hs => by
          obtain ⟨engine, dn⟩ := pathResponse_same st d
            { s with dn := { s.dn with outstanding := none }, unstated := n }
          exact hs.freePath hx side engine (congrArg DnPort.outstanding dn)
      have engine (n : Nat) (st : BusStatus) (d : List Word) (side : x.side = .engine) :
          KeepsPort s (settle (engineResponse st d
            { s with dn := { s.dn with outstanding := none }, unstated := n })) :=
        keepsPort_settle fun hs => by
          obtain ⟨hst, merging, fault, k, hk, phase⟩ := hs.running hx side
          exact engineResponse_sound st d k _ (by intro t ht; cases ht) hst hk phase merging fault
      dsimp only
      split
      · next kind side => exact path s.unstated kind _ _ side
      · next side => exact engine s.unstated _ _ side
      · split
        · next kind side => exact path _ kind _ _ side
        · next side => exact engine _ _ _ side

theorem execDnTimeout_keepsPort (s t : State) (h : execDnTimeout s = .next t) : KeepsPort s t := by
  cases h
  split
  · next x q hx _ =>
    split
    · next kind side =>
      split
      · exact keepsPort_settle fun hs => hs.freePath hx side rfl rfl
      · exact KeepsPort.refl s
    · exact KeepsPort.refl s
  · exact KeepsPort.refl s

theorem execCopyTimeout_keepsPort (s t : State) (h : execCopyTimeout s = .next t) :
    KeepsPort s t := by
  cases h
  split
  · next x hx =>
    split
    · next expires =>
      refine keepsPort_arbitrate fun hs => ?_
      obtain ⟨_, merging, _, k, hk, _⟩ := hs.running hx expires.1
      exact mergeFault_sound _ _ (by intro t ht; cases ht) merging (by simp [hk])
    · exact KeepsPort.refl s
  · exact KeepsPort.refl s

theorem execUpstreamRequest_keepsPort (q : UpRequest) (s t : State)
    (h : execUpstreamRequest q s = .next t) : KeepsPort s t := by
  cases h
  split
  · split
    · obtain ⟨engine, dn, _⟩ := take_same q s
      exact keepsPort_arbitrate (State.EngineSound.of_same engine (congrArg _ dn))
    · exact keepsPort_settle (State.EngineSound.of_same rfl rfl)
  · exact KeepsPort.refl s

/-- RSTN low: no side can wait, and the engine is IDLE with the port free (R18, R136). -/
theorem inReset_keepsPort (s : State) : KeepsPort s (inReset s) where
  served _ hr := by cases hr
  sound _ := engineSound_offPort (s := inReset s) (by intro t ht; cases ht)
    (iff_of_true rfl rfl) (iff_of_true rfl rfl) (by simp [inReset, State.reset]) (by intro h; cases h)

theorem execTrigLevelChange_keepsPort (n : Fin 4) (level : Bool) (s t : State)
    (h : execTrigLevelChange n level s = .next t) : KeepsPort s t := by
  cases h
  dsimp only
  have pin : KeepsPort s { s with pins := { s.pins with trig := s.pins.trig.set n.val level n.isLt } } :=
    SamePort.keeps ⟨rfl, rfl, rfl, rfl⟩
  split
  · exact pin.trans (changeLine_untouched _ _ _).samePort.keeps
  · exact pin

/-- What SCS and the bytes of a reply do leaves the path unit, the port and the engine. -/
theorem execScsRise_keepsPort (s t : State) (h : execScsRise s = .next t) : KeepsPort s t := by
  cases h
  dsimp only [dropPending, extremesAbandon]
  repeat' split
  all_goals exact SamePort.keeps ⟨rfl, rfl, rfl, rfl⟩

theorem exec_keepsPort (i : Instr) (s t : State) (h : exec i s = .next t) : KeepsPort s t := by
  have frame (j : Instr) (hj : exec j s = .next (goodFrame j (runCommand j) s))
      (h : exec j s = .next t) : KeepsPort s t := by
    rw [hj] at h; cases h; exact goodFrame_keepsPort j s
  cases i with
  | upstreamRequest q => exact execUpstreamRequest_keepsPort q s t h
  | dnResponse tag status data => exact execDnResponse_keepsPort tag status data s t h
  | dnTimeout => exact execDnTimeout_keepsPort s t h
  | copyTimeout => exact execCopyTimeout_keepsPort s t h
  | trigLevelChange n level => exact execTrigLevelChange_keepsPort n level s t h
  | rstnLow => cases h; exact inReset_keepsPort s
  | rstnHigh =>
    cases h
    split
    · exact KeepsPort.refl s
    · exact keepsPort_settle (State.EngineSound.of_same rfl rfl)
  | scsFall =>
    cases h
    dsimp only
    repeat' split
    all_goals exact SamePort.keeps ⟨rfl, rfl, rfl, rfl⟩
  | requestFrame edges => cases h; exact clockEdges_keepsPort edges s
  | replyCommit =>
    cases h
    split
    · exact (keepsPort_link s _).trans ((commitPending_samePort _).keeps.trans
        ((keepsPort_link _ _).trans (keepsPort_link _ _)))
    · exact KeepsPort.refl s
  | scsRise => exact execScsRise_keepsPort s t h
  | turnaroundByte => cases h; split <;> exact SamePort.keeps ⟨rfl, rfl, rfl, rfl⟩
  | _ => exact frame _ rfl h

/-- Settles O59: the arbiter leaves no side waiting, and every operation of the engine leaves its records
fitting; the rest leaves the path unit, the port and the engine. -/
theorem stepKeepsPortAndEngine : Obligations.StepKeepsPortAndEngine := by
  intro s t h
  have keeps : KeepsPort s t := by
    unfold step at h
    split at h
    · cases h; exact KeepsPort.refl s
    · next c rest _ =>
      exact (SamePort.keeps (s := s) (t := { s with pending := rest }) ⟨rfl, rfl, rfl, rfl⟩).trans
        (exec_keepsPort c _ t h)
  exact ⟨keeps.served, keeps.sound⟩

end Sys2Proof.Machine
end

section
/-! PROOFS. RSTN: what its fall leaves, what happens while it is low, what its rise brings; the state
right after reset. -/

namespace Sys2Proof.Machine

/-! ### RSTN low (R18, R40, R41, R66, R102, R136, R154, R166) -/

/-- A line while RSTN is low: its reset values, at the level of its input (R41). -/
theorem line_inReset (n : Fin 4) (s : State) :
    (inReset s).line n = Line.reset (s.pins.trig[n.val]'n.isLt) := by
  simp [State.line, inReset, resetLines]

theorem inReset_held (s : State) : (inReset s).HeldInReset where
  rstn := rfl
  path := rfl
  dn := rfl
  rings := rfl
  markers := rfl
  lines n := by rw [line_inReset]; exact ⟨rfl, rfl, rfl, rfl⟩
  caps := rfl
  pool := rfl
  engine := rfl
  queue := rfl
  attn := rfl
  link := rfl

/-- The attention conditions read the engine, the event queue, the pool and the watermark alone, each at
its reset value here: none is present (R150). -/
theorem State.HeldInReset.conditions {s : State} (h : s.HeldInReset) :
    s.conditions = ⟨false, false, false, false⟩ := by
  unfold State.conditions
  rw [h.engine, h.queue, h.pool, h.attn]
  rfl

/-- Settles O9. -/
theorem rstnLowResets : Obligations.RstnLowResets := by
  intro s
  have held := inReset_held s
  refine ⟨inReset s, rfl, held, fun n => by rw [line_inReset]; rfl, rfl, rfl, rfl, rfl,
    held.conditions, ?_, ?_, rfl, rfl, rfl⟩
  · rw [State.attentionCode, held.conditions]; rfl
  · rw [State.attnAsserted, held.conditions]; rfl

/-! ### Commands while RSTN is low (R18, R41, R166) -/

/-- The blocks' reset state is kept by what changes the input levels, the UP port and `pending` alone. -/
theorem State.HeldInReset.withOuter {s : State} (h : s.HeldInReset) (pins : Pins)
    (up : UpPort) (low : pins.rstn = false) :
    { s with pins := pins, up := up }.HeldInReset where
  rstn := low
  path := h.path
  dn := h.dn
  rings := h.rings
  markers := h.markers
  lines := h.lines
  caps := h.caps
  pool := h.pool
  engine := h.engine
  queue := h.queue
  attn := h.attn
  link := h.link

/-- While RSTN is low the link takes account of nothing (R166). -/
theorem State.HeldInReset.unselected {s : State} (h : s.HeldInReset) : s.selected = false := by
  simp [State.selected, h.rstn]

theorem goodFrame_unselected (c : Instr) (run : Execution) (s : State) (h : s.selected = false) :
    goodFrame c run s = s := by
  unfold goodFrame
  rw [if_neg (by simp [State.atFrameStart, h])]

theorem settle_low (s : State) (h : s.pins.rstn = false) : settle s = s := by
  unfold settle; rw [if_neg (by simp [h])]

/-- Settles O10: the port is free, nothing waits to expire and no frame begins, so a command brings a pin
level or a request that stays presented. -/
theorem nothingHappensInReset : Obligations.NothingHappensInReset := by
  intro c s t held notHigh h
  have low := held.rstn
  have free : s.dn.outstanding = none := by rw [held.dn]
  have unselected := held.unselected
  have keeps (h : exec c s = .next s) (ht : exec c s = .next t) :
      t.HeldInReset ∧ t.up.responses = s.up.responses := by
    rw [h] at ht; cases ht; exact ⟨held, rfl⟩
  have frame (hc : exec c s = .next (goodFrame c (runCommand c) s)) : exec c s = .next s := by
    rw [hc, goodFrame_unselected c _ s unselected]
  have pin (pins : Pins) (hl : pins.rstn = false) (hc : exec c s = .next { s with pins := pins }) :
      t.HeldInReset ∧ t.up.responses = s.up.responses := by
    rw [hc] at h; cases h; exact ⟨held.withOuter pins s.up hl, rfl⟩
  cases c with
  | rstnHigh => exact absurd rfl notHigh
  | rstnLow => cases h; exact ⟨inReset_held s, rfl⟩
  | upstreamRequest q =>
    cases h
    rw [if_neg (show ¬ s.takesNow = true by simp [State.takesNow, low]),
      settle_low { s with up := { s.up with waiting := s.up.waiting ++ [q] } } low]
    split
    · exact ⟨held.withOuter s.pins _ low, rfl⟩
    · exact ⟨held, rfl⟩
  | dnResponse tag status data =>
    refine keeps ?_ h
    simp only [exec, execDnResponse, free]
  | dnTimeout => refine keeps ?_ h; simp only [exec, execDnTimeout, free]
  | copyTimeout => refine keeps ?_ h; simp only [exec, execCopyTimeout, free]
  | trigLevelChange n level =>
    refine pin { s.pins with trig := s.pins.trig.set n.val level n.isLt } low ?_
    simp only [exec, execTrigLevelChange, low]
    rfl
  | scsFall =>
    by_cases scs : s.pins.scs = true
    · refine pin { s.pins with scs := false } low ?_
      simp [exec, execScsFall, scs, low]
    · refine keeps ?_ h
      simp [exec, execScsFall, scs]
  | scsRise =>
    refine pin { s.pins with scs := true } low ?_
    simp [exec, execScsRise, low]
  | requestFrame edges =>
    refine keeps ?_ h
    simp only [exec, execRequestFrame, clockEdges_dead s (Or.inl unselected)]
  | replyCommit => refine keeps ?_ h; simp [exec, execReplyCommit, unselected]
  | turnaroundByte => refine keeps ?_ h; simp [exec, execTurnaroundByte, unselected]
  | _ => exact keeps (frame rfl) h

/-! ### RSTN high (R178) -/

/-- Settles O11: the lines stand at their reset values but for the levels, which the inputs give. -/
theorem rstnHighTakesLevels : Obligations.RstnHighTakesLevels := by
  intro s u held hu
  have line (n : Fin 4) : { s.line n with level := s.pins.trig[n.val]'n.isLt } =
      (⟨false, false, 0#8, s.pins.trig[n.val]'n.isLt, false⟩ : Line) := by
    obtain ⟨reference, mask, route, condition⟩ := held.lines n
    simp only [reference, mask, route, condition]
  have lines : linesTakeLevels { s with pins := { s.pins with rstn := true } } = u :=
    (congrArg (fun f => { s with
      pins := { s.pins with rstn := true }
      det := { s.det with lines := Vector.ofFn f } }) (funext line)).trans hu.symm
  have out : exec .rstnHigh s = .next (settle u) := by
    simp only [exec, execRstnHigh, held.rstn, lines]
    rfl
  have high : u.pins.rstn = true := by rw [hu]
  have waiting : u.up.waiting = s.up.waiting := by rw [hu]
  refine ⟨?_, fun hw => ?_⟩
  · rw [out, settle, if_pos high, waiting]
  · rw [out, settle_quiet u (waiting.trans hw)]
    · rw [hu, held.path]
    · rw [hu, held.engine]; rfl

/-! ### The state right after reset -/

theorem capture_reset (c : Fin 16) : State.reset.capture c = Capture.reset := by
  simp [State.capture, State.reset]

theorem ring_reset (r : Fin 8) : State.reset.ring r = Ring.reset := by
  simp [State.ring, State.reset]

/-- An OFF ring with no blocks at address 0 is sound. -/
theorem ringReset_sound : Ring.reset.Sound :=
  ⟨by decide, by decide, fun h => absurd rfl h, fun h => absurd rfl h⟩

theorem reset_linkSound : State.reset.LinkSound where
  selected h := absurd rfl h
  commit h := absurd rfl h
  reply h := by rcases h with h | h <;> cases h
  extremes r := by rw [ring_reset]; simp [Ring.reset, State.reset]
  fresh h := by cases h
  driven := iff_of_true rfl rfl
  ones h := by cases h
  bits := ⟨by decide, fun _ => rfl⟩
  sent := ⟨fun h => (by cases h), fun _ => rfl⟩

/-- Settles O53: the lists are empty, the captures FREE, the rings OFF, the engine and the link IDLE. -/
theorem resetIsSound : Obligations.ResetIsSound := by
  have free (c : Fin 16) : (State.reset.capture c).state = .free := by rw [capture_reset]; rfl
  refine ⟨⟨by decide, by decide, trivial, fun h => by cases h⟩, ⟨by decide, by decide⟩,
    ⟨by decide, by decide, fun c => by rw [capture_reset]; rfl⟩,
    ⟨by decide, fun c => by rw [free]; simp [State.reset]⟩, fun _ c _ _ => free c,
    ⟨fun r => by rw [ring_reset]; exact ringReset_sound, by decide⟩,
    fun c _ _ _ used => absurd (free c) used, fun _ _ => ⟨rfl, rfl⟩,
    engineSound_offPort (by intro t ht; cases ht) (by decide) (by decide) (by decide) (by decide),
    reset_linkSound⟩

end Sys2Proof.Machine
end

section
/-! PROOFS. The arbiter's table, and the transactions of the path unit and of the merge engine: their
completion, their errors, their expiry. -/

namespace Sys2Proof.Machine

/-! ### Grants (R9, R14 to R16, R123, R124) -/

/-- The path unit's grant: the first transaction of its plan, with the next tag and the timeout of the
moment. -/
theorem grantPath_eq (s : State) (q : Current) (x : PlanTxn) (rest : List PlanTxn)
    (hq : s.path.current = some q) (hx : q.plan = x :: rest) :
    grantPath s = { s with dn :=
      ⟨some ⟨.path x.kind, q.req.master, false, s.dn.tagCounter, x.kind.dir, x.addr, x.length,
             x.words, s.path.dnTimeout⟩, s.dn.tagCounter + 1#4, s.dn.shareCount⟩ } := by
  simp only [grantPath, hq, hx, issue]

/-- The engine's grant in READ WAIT: the slot read. -/
theorem grantEngine_read (s : State) (k : CopyRecord) (hk : s.engine.copy = some k)
    (hp : k.phase = .readWait) : grantEngine s = { s with
      engine := { s.engine with copy := some { k with phase := .read } }
      dn := ⟨some ⟨.engine, 15, true, s.dn.tagCounter, .read, slotAddr s.pool.areaBase k.slot 0, 16,
                   [], s.path.dnTimeout⟩, s.dn.tagCounter + 1#4, 0⟩ } := by
  simp only [grantEngine, hk, hp, issue]

/-- Its grant in WRITE WAIT: the home write. -/
theorem grantEngine_write (s : State) (k : CopyRecord) (hk : s.engine.copy = some k)
    (hp : k.phase = .writeWait) : grantEngine s = { s with
      engine := { s.engine with copy := some { k with phase := .write } }
      dn := ⟨some ⟨.engine, 15, true, s.dn.tagCounter, .write, k.home, 16,
                   homeWriteWords k s.unstated, s.path.dnTimeout⟩, s.dn.tagCounter + 1#4, 0⟩
      unstated := s.unstated + 16 } := by
  simp only [grantEngine, hk, hp, issue]

/-- Where the engine waits it is granted the port when the path unit does not wait or the share count has
reached a share that is not 0 (R14). -/
theorem arbitrate_grantEngine (s : State) (hr : s.pins.rstn = true) (hf : s.dn.outstanding = none)
    (he : s.engineWaits = true)
    (turn : s.pathWaits = false ∨ s.path.share ≠ 0 ∧ s.path.share ≤ s.dn.shareCount) :
    arbitrate s = grantEngine s := by
  cases hp : s.pathWaits with
  | false => exact arbitrate_engine s hr hf hp he
  | true => rw [arbitrate_both s hr hf hp he, if_pos (turn.resolve_left (by simp [hp]))]

/-- Settles O18. -/
theorem arbiterTable : Obligations.ArbiterTable := by
  intro s hr hf
  refine ⟨fun hp he => arbitrate_of_served s fun _ => ⟨hp, he⟩, ?_, ?_⟩
  · intro n q x rest hq hx turn
    have hp : s.pathWaits = true := (pathWaits_iff s).mpr ⟨q, x, rest, hq, hx⟩
    rcases turn with ⟨he, rfl⟩ | ⟨he, share, rfl⟩
    · rw [arbitrate_path s hr hf hp he, grantPath_eq s q x rest hq hx]
    · rw [arbitrate_both s hr hf hp he, if_neg (by omega)]
      exact grantPath_eq _ q x rest hq hx
  · intro k hst hk turn
    have waits (hw : k.phase = .readWait ∨ k.phase = .writeWait) : arbitrate s = grantEngine s :=
      arbitrate_grantEngine s hr hf ((engineWaits_iff s).mpr ⟨hst, k, hk, hw⟩) turn
    exact ⟨fun hp => (waits (Or.inl hp)).trans (grantEngine_read s k hk hp),
      fun hp => (waits (Or.inr hp)).trans (grantEngine_write s k hk hp)⟩


/-! ### The end of an event (R1, R2, R14; log 11) -/

theorem settle_high (s : State) (hr : s.pins.rstn = true) :
    settle s = arbitrate (takeWaiting s.up.waiting s) := if_pos hr

/-- Where the path unit is busy or nothing waits at UP, no request is taken. -/
theorem settle_untaken (s : State) (hr : s.pins.rstn = true)
    (h : s.path.current ≠ none ∨ s.up.waiting = []) : settle s = arbitrate s :=
  h.elim (settle_busy s hr) (settle_idle s hr)

/-- After a request that ended, whatever ended it. -/
theorem outcomes_requestEnded {i : Instr} {s u : State} (out : exec i s = .next (settle u))
    (hr : u.pins.rstn = true) (idle : u.path.current = none)
    (waiting : u.up.waiting = s.up.waiting) (engine : u.engine = s.engine) :
    exec i s = .next (arbitrate (takeWaiting s.up.waiting u)) ∧
    (s.up.waiting = [] → s.engineWaits = false → exec i s = .next u) := by
  refine ⟨by rw [out, settle_high u hr, waiting], fun hw he => ?_⟩
  rw [out, settle_quiet u (waiting.trans hw) idle ((engineWaits_of_engine engine).trans he)]

/-- After a transaction of the engine's that ended, whatever ended it. -/
theorem outcomes_copyEnded {i : Instr} {s u : State} (out : exec i s = .next (settle u))
    (hr : u.pins.rstn = true) (path : u.path = s.path) (up : u.up = s.up) :
    exec i s = .next (arbitrate (takeWaiting s.up.waiting u)) ∧
    (s.path.current ≠ none ∨ s.up.waiting = [] → exec i s = .next (arbitrate u)) := by
  refine ⟨by rw [out, settle_high u hr, up], fun h => ?_⟩
  rw [out, settle_untaken u hr (by rw [path, up]; exact h)]

/-! ### A response on DN (R15, R17) -/

/-- A response with the tag of the outstanding transaction, by status and side. -/
theorem exec_pathError (t : DnTxn) (kind : PathKind) (data : List Word) (s : State)
    (ht : s.dn.outstanding = some t) (side : t.side = .path kind) :
    exec (.dnResponse t.tag .error data) s = .next (settle
      (pathResponse .error [] { s with dn := { s.dn with outstanding := none } })) := by
  simp [exec, execDnResponse, ht, side]

theorem exec_engineError (t : DnTxn) (data : List Word) (s : State)
    (ht : s.dn.outstanding = some t) (side : t.side = .engine) :
    exec (.dnResponse t.tag .error data) s = .next (settle
      (engineResponse .error [] { s with dn := { s.dn with outstanding := none } })) := by
  simp [exec, execDnResponse, ht, side]

theorem exec_pathOkay (t : DnTxn) (kind : PathKind) (data : List Word) (s : State)
    (ht : s.dn.outstanding = some t) (side : t.side = .path kind) :
    exec (.dnResponse t.tag .okay data) s = .next (settle
      (pathResponse .okay (takenWords t data s.unstated)
        { s with dn := { s.dn with outstanding := none },
                 unstated := unstatedAfter t data s.unstated })) := by
  simp [exec, execDnResponse, ht, side]

theorem exec_engineOkay (t : DnTxn) (data : List Word) (s : State)
    (ht : s.dn.outstanding = some t) (side : t.side = .engine) :
    exec (.dnResponse t.tag .okay data) s = .next (settle
      (engineResponse .okay (takenWords t data s.unstated)
        { s with dn := { s.dn with outstanding := none },
                 unstated := unstatedAfter t data s.unstated })) := by
  simp [exec, execDnResponse, ht, side]

/-- A read takes the words of a response of its own length, and no free word. -/
theorem takenWords_read (t : DnTxn) (data : List Word) (n : Nat) (dir : t.dir = .read)
    (len : data.length = t.length) : takenWords t data n = data ∧ unstatedAfter t data n = n := by
  constructor
  · simp only [takenWords, dir, ← len]
    apply List.ext_getElem (by simp)
    intro i _ hi
    simp [hi]
  · simp [unstatedAfter, dir, len]

/-- A write takes no word. -/
theorem takenWords_write (t : DnTxn) (data : List Word) (n : Nat) (dir : t.dir = .write) :
    takenWords t data n = [] ∧ unstatedAfter t data n = n := by
  simp [takenWords, unstatedAfter, dir]

/-- ERROR ends the request with ERROR (R2, R17). -/
theorem pathResponse_error (data : List Word) (q : Current) (s : State)
    (hq : s.path.current = some q) : pathResponse .error data s = { s with
      path := { s.path with current := none }
      up := { s.up with responses := s.up.responses ++ [⟨q.req.master, .error, []⟩] } } := by
  simp only [pathResponse, hq, endRequest, respond]

/-- A fault of a copy transaction, whole: the record, HALTED, the event (R129, R130). -/
theorem mergeFault_eq (fault : FaultKind) (k : CopyRecord) (c : Fin 16) (s : State)
    (hk : s.engine.copy = some k) (hc : s.engine.merging = some c) :
    mergeFault fault s = { s with
      engine := { s.engine with status := .halted
                                fault := some ⟨fault, c, k.ring, k.home, k.slot⟩ }
      queue := arrive ⟨.mergeFault, some k.ring, some c, some k.home, some (k.slot : Int),
                       faultCode fault⟩ s.queue } := by
  simp only [mergeFault, hk, hc]; rfl

/-- A HALTED or IDLE engine does not wait (R128). -/
theorem engineWaits_of_status {s : State} (h : s.engine.status ≠ .copying) :
    s.engineWaits = false := by
  unfold State.engineWaits
  rw [Bool.and_eq_false_imp]
  intro hc
  exact absurd (by simpa using hc) h

/-- Settles O16. -/
theorem dnResponseRules : Obligations.DnResponseRules := by
  refine ⟨?_, ?_, ?_⟩
  · intro tag status data s other
    simp only [exec, execDnResponse]
    split
    · rfl
    · next t ht => rw [if_pos (other t ht)]
  · intro q t kind data s u hr ht side hq hu
    have out : exec (.dnResponse t.tag .error data) s = .next (settle u) := by
      rw [exec_pathError t kind data s ht side, pathResponse_error [] q
        { s with dn := { s.dn with outstanding := none } } hq, hu]
    exact outcomes_requestEnded out (by rw [hu]; exact hr) (by rw [hu]) (by rw [hu]) (by rw [hu])
  · intro t k c fault data s u hr ht side hk hc phase hu
    have out : exec (.dnResponse t.tag .error data) s = .next (settle u) := by
      rw [exec_engineError t data s ht side, hu, ← mergeFault_eq fault k c
        { s with dn := { s.dn with outstanding := none } } hk hc]
      rcases phase with ⟨phase, rfl⟩ | ⟨phase, rfl⟩ <;> simp only [engineResponse, hk, hc, phase]
    obtain ⟨taken, untaken⟩ := outcomes_copyEnded out (by rw [hu]; exact hr) (by rw [hu]) (by rw [hu])
    refine ⟨taken, untaken, fun hp hw => ?_⟩
    rw [out, settle_quiet u (by rw [hu]; exact hw) (by rw [hu]; exact hp)
      (engineWaits_of_status (by simp [hu]))]

/-- Settles O17. -/
theorem expiryResults : Obligations.ExpiryResults := by
  refine ⟨?_, ?_, ?_⟩
  · intro q t kind ring s u hr ht side on hq cls hu
    have event : dnTimeoutEvent q t kind = ⟨.dnTimeout, ring, none, some t.addr,
        some (pathKindNumber kind : Int), BitVec.ofNat 8 q.req.master.val⟩ := by
      rcases cls with ⟨cls, rfl⟩ | ⟨r, b, cls, rfl⟩ <;> simp only [dnTimeoutEvent, cls] <;> rfl
    have out : exec .dnTimeout s = .next (settle u) := by
      simp only [exec, execDnTimeout, ht, hq, side, if_pos on, event, hu]
      rfl
    exact outcomes_requestEnded out (by rw [hu]; exact hr) (by rw [hu]) (by rw [hu]) (by rw [hu])
  · intro t k c s u ht side on hk hc hu
    have out : exec .copyTimeout s = .next (arbitrate u) := by
      have fault := mergeFault_eq .copyTimeout k c { s with dn := { s.dn with outstanding := none } }
        hk hc
      simp only [exec, execCopyTimeout, ht, if_pos (And.intro side on), fault, hu]
      rfl
    refine ⟨out, fun hp => ?_⟩
    rw [out, arbitrate_of_served u]
    exact fun _ => ⟨by simp [State.pathWaits, hu, hp], engineWaits_of_status (by simp [hu])⟩
  · intro s off
    constructor
    · simp only [exec, execDnTimeout]
      split
      · next t _ ht _ => split <;> simp [off t ht]
      · rfl
    · simp only [exec, execCopyTimeout]
      split
      · next t ht => simp [off t ht]
      · rfl

end Sys2Proof.Machine
end

section
/-! PROOFS. The OKAY completion of a path transaction. -/

namespace Sys2Proof.Machine

/-! ### The plan goes on, or ends (R2, R9 to R12) -/

theorem afterTxn_req (q : Current) (x : PlanTxn) (rest : List PlanTxn) (data : List Word) :
    (afterTxn q x rest data).req = q.req := by
  unfold afterTxn
  split <;> rfl

/-- OKAY to the last transaction of a plan sends the response (R2). -/
theorem pathResponse_last (data : List Word) (q : Current) (x : PlanTxn) (s : State)
    (hq : s.path.current = some q) (hx : q.plan = [x]) :
    pathResponse .okay data s = { s with
      path := { s.path with current := none }
      up := { s.up with responses := s.up.responses ++
        [⟨q.req.master, .okay, (afterTxn q x [] data).readData.filterMap id⟩] } } := by
  simp only [pathResponse, hq, hx, if_true, endRequest, respond, afterTxn_req]

/-- OKAY to another one leaves the rest of the plan (R9). -/
theorem pathResponse_more (data : List Word) (q : Current) (x y : PlanTxn) (rest : List PlanTxn)
    (s : State) (hq : s.path.current = some q) (hx : q.plan = x :: y :: rest) :
    pathResponse .okay data s = { s with path := { s.path with
      current := some (afterTxn q x (y :: rest) data) } } := by
  simp [pathResponse, hq, hx]

/-- The words in place: each from the response where the transaction serves it, else from before. -/
theorem placeWords_eq (x : PlanTxn) (data words : List Word) (acc : List (Option Word))
    (len : words.length = acc.length)
    (each : ∀ i, i < words.length → if i ∈ x.serves then words[i]? = data[i - x.first]?
      else acc[i]? = some words[i]?) : placeWords x data acc = words.map some := by
  apply List.ext_getElem (by simp [placeWords, len])
  intro i hi hi'
  have hw : i < words.length := by simpa using hi'
  have hz := each i hw
  simp only [placeWords, List.getElem_map, List.getElem_zipIdx]
  split at hz
  · next served => simp [served, ← hz, hw]
  · next unserved =>
    have : acc[i]'(len ▸ hw) = some words[i] := by simpa [len ▸ hw, hw] using hz
    simp [unserved, this]

/-- A SLOT WRITE, or a forwarded write, leaves the read data alone. -/
theorem afterTxn_write (q : Current) (x : PlanTxn) (rest : List PlanTxn) (data : List Word)
    (kind : x.kind = .forwardWrite ∨ x.kind = .slotWrite) :
    (afterTxn q x rest data).readData = q.readData := by
  rcases kind with kind | kind <;> simp only [afterTxn, kind]

theorem afterTxn_read (q : Current) (x : PlanTxn) (rest : List PlanTxn) (data : List Word)
    (kind : x.kind = .forwardRead ∨ x.kind = .slotRead) :
    afterTxn q x rest data = { q with plan := rest, readData := placeWords x data q.readData } := by
  rcases kind with kind | kind <;> simp only [afterTxn, kind]

theorem afterTxn_fill (q : Current) (x y : PlanTxn) (data : List Word) (kind : x.kind = .fillRead) :
    afterTxn q x [y] data = { q with plan := [{ y with words := fillWords x data y.words }] } := by
  simp only [afterTxn, kind, List.map_cons, List.map_nil]

/-! ### The requests that wait at UP (R1, R2) -/

theorem takeWaiting_busy (p : UpRequest) (rest : List UpRequest) (u : State)
    (h : u.path.current ≠ none) :
    takeWaiting (p :: rest) u = { u with up := { u.up with waiting := p :: rest } } := by
  unfold takeWaiting
  rw [if_pos (Option.isSome_iff_ne_none.mpr h)]

theorem takeWaiting_idle (p : UpRequest) (rest : List UpRequest) (u : State)
    (h : u.path.current = none) : takeWaiting (p :: rest) u = takeWaiting rest (take p u) := by
  conv_lhs => unfold takeWaiting
  rw [if_neg (by simp [h])]

/-- A request that UP presents to an IDLE path unit, none before it, is taken at once (R1). -/
theorem exec_takesNow (q : UpRequest) (s : State) (wf : q.wf = true) (now : s.takesNow = true) :
    exec (.upstreamRequest q) s = .next (arbitrate (take q s)) := by
  simp only [exec, execUpstreamRequest, wf, now, if_true]

/-- Settles O15. -/
theorem pathTransactionCompletes : Obligations.PathTransactionCompletes := by
  refine ⟨?_, ?_, ?_⟩
  · intro q x t data words s u hr ht hq hx side kinds hu
    have sent : (afterTxn q x [] (takenWords t data s.unstated)).readData.filterMap id = words ∧
        unstatedAfter t data s.unstated = s.unstated := by
      rcases kinds with ⟨kind, dir, len, count, each⟩ | ⟨kind, dir, rfl, rfl, noData⟩
      · obtain ⟨taken, free⟩ := takenWords_read t data s.unstated dir len
        rw [taken, afterTxn_read q x [] data kind, placeWords_eq x data words q.readData count each]
        exact ⟨by simp, free⟩
      · rw [afterTxn_write q x [] _ kind, List.filterMap_eq_nil_iff]
        exact ⟨noData, (takenWords_write t [] s.unstated dir).2⟩
    have out : exec (.dnResponse t.tag .okay data) s = .next (settle u) := by
      rw [exec_pathOkay t x.kind data s ht side, sent.2, pathResponse_last _ q x
        { s with dn := { s.dn with outstanding := none } } hq hx, sent.1, hu]
    exact outcomes_requestEnded out (by rw [hu]; exact hr) (by rw [hu]) (by rw [hu]) (by rw [hu])
  · intro q q' x y t data s u hr ht hq hx side dir len kinds hu
    obtain ⟨taken, free⟩ := takenWords_read t data s.unstated dir len
    have after : afterTxn q x [y] data = q' := by
      rcases kinds with ⟨kind, rfl⟩ | ⟨kind, rfl⟩
      · exact afterTxn_fill q x y data kind
      · exact afterTxn_read q x [y] data (Or.inr kind)
    have out : exec (.dnResponse t.tag .okay data) s = .next (arbitrate u) := by
      rw [exec_pathOkay t x.kind data s ht side, taken, free, pathResponse_more data q x y []
        { s with dn := { s.dn with outstanding := none } } hq hx, after, ← settle_busy, hu]
      · rw [hu]; exact hr
      · simp [hu]
    refine ⟨out, fun he => ?_⟩
    obtain ⟨y', plan, req, kind, addr, length, words⟩ : ∃ y', q'.plan = [y'] ∧ q'.req = q.req ∧
        y'.kind = y.kind ∧ y'.addr = y.addr ∧ y'.length = y.length ∧
        y'.words = if x.kind = .fillRead then fillWords x data y.words else y.words := by
      rcases kinds with ⟨kind, rfl⟩ | ⟨kind, rfl⟩
      · exact ⟨_, rfl, rfl, rfl, rfl, rfl, by rw [if_pos kind]⟩
      · exact ⟨y, rfl, rfl, rfl, rfl, rfl, by simp [kind]⟩
    have current : u.path.current = some q' := by rw [hu]
    rw [out, arbitrate_path u (by rw [hu]; exact hr) (by rw [hu])
      ((pathWaits_iff u).mpr ⟨q', y', [], current, plan⟩) (by rw [hu]; exact he),
      grantPath_eq u q' y' [] current plan, req, kind, addr, length, words, hu]
  · intro u
    exact ⟨rfl, fun p rest => ⟨takeWaiting_busy p rest u, takeWaiting_idle p rest u,
      exec_takesNow p u⟩⟩

end Sys2Proof.Machine
end

section
/-! PROOFS. The OKAY completion of a block copy's slot read and home write. -/

namespace Sys2Proof.Machine

/-! ### What a completion leaves of the engine (R100, R101, R122 to R125) -/

/-- The slot read: the slot data, the written set as it stands, the home write waiting (R123). -/
theorem engineResponse_slotRead (data : List Word) (k : CopyRecord) (c : Fin 16) (e : MapEntry)
    (s : State) (hk : s.engine.copy = some k) (hc : s.engine.merging = some c)
    (phase : k.phase = .read) (he : s.entry k.ring k.block = some e) :
    engineResponse .okay data s = { s with
      engine := { s.engine with
        copy := some { k with phase := .writeWait, slotData := data, copySet := e.written } }
      dn := { s.dn with shareCount := 0 } } := by
  simp only [engineResponse, hk, hc, phase, slotReadDone, he, beginWait]

/-- The home write: the copy restarts where the entry says so, else the entry goes (R125). -/
theorem engineResponse_homeWrite (data : List Word) (k : CopyRecord) (c : Fin 16) (e : MapEntry)
    (s : State) (hk : s.engine.copy = some k) (hc : s.engine.merging = some c)
    (phase : k.phase = .write) (he : s.entry k.ring k.block = some e) :
    engineResponse .okay data s = if e.restartPending then beginCopy e (countRestart c s)
      else continueMerge c (removeEntry e s) := by
  simp only [engineResponse, hk, hc, phase, homeWriteDone, he]

/-- CAPTURE_FREE, its detail said bit by bit (R90). -/
theorem freeEvent_eq (c : Fin 16) (x : Capture) : freeEvent c x =
    ⟨.captureFree, some x.ring, some c,
      some (BitVec.ofNat 32 (65536 * x.spilledWords + x.lostWords)), some (x.divertedBlocks : Int),
      (if x.isPartial then 2#8 else 0#8) ||| (if x.cut then 1#8 else 0#8)⟩ := by
  unfold freeEvent
  congr 1
  cases x.isPartial <;> cases x.cut <;> rfl

/-- A capture that left MERGING leaves the engine to the next one queued (R119, R120). -/
theorem continueMerge_done (c : Fin 16) (s : State) (h : (s.capture c).state ≠ .merging) :
    continueMerge c s = takeQueue s.engine.queue (engineIdle s) := by
  unfold continueMerge
  rw [if_neg h]
  rfl

/-- After the response of the engine's transaction, when no free word was needed. -/
theorem exec_engineDone (t : DnTxn) (data words : List Word) (s u : State)
    (ht : s.dn.outstanding = some t) (side : t.side = .engine)
    (taken : takenWords t data s.unstated = words ∧ unstatedAfter t data s.unstated = s.unstated)
    (done : engineResponse .okay words { s with dn := { s.dn with outstanding := none } } = u) :
    exec (.dnResponse t.tag .okay data) s = .next (settle u) := by
  rw [exec_engineOkay t data s ht side, taken.1, taken.2, ← done]

/-- A copy that begins while the engine is COPYING (R100, R122). -/
theorem beginCopy_running (e : MapEntry) (s : State) (hst : s.engine.status = .copying) :
    beginCopy e s = { s with
      pool := { s.pool with map := changeEntry s.pool.map e.ring e.block fun x =>
        { x with state := .copying, restartPending := s.targets e.ring e.block } }
      engine := { s.engine with
        copy := some ⟨e.ring, e.block, homeOf (s.ring e.ring).cfg e.block, e.slot, .readWait, [],
                      0#16⟩ }
      dn := { s.dn with shareCount := 0 } } := by
  simp only [beginCopy, beginWait, ← hst]

/-- The home write with restart_pending set: the restart is counted and the copy begins again (R125). -/
theorem engineResponse_restart (k : CopyRecord) (e : MapEntry) (s : State)
    (hst : s.engine.status = .copying) (hk : s.engine.copy = some k)
    (hc : s.engine.merging = some e.capture) (phase : k.phase = .write)
    (he : s.entry k.ring k.block = some e) (restart : e.restartPending = true) :
    engineResponse .okay [] s = { s.putCapture e.capture { s.capture e.capture with
        restarts := min ((s.capture e.capture).restarts + 1) 65535 } with
      pool := { s.pool with map := changeEntry s.pool.map k.ring k.block fun x =>
        { x with state := .copying, restartPending := s.targets k.ring k.block } }
      engine := { s.engine with
        copy := some ⟨k.ring, k.block, homeOf (s.ring k.ring).cfg k.block, e.slot, .readWait, [],
                      0#16⟩ }
      dn := { s.dn with shareCount := 0 } } := by
  obtain ⟨-, ring, block⟩ := entry_mem he
  rw [engineResponse_homeWrite [] k e.capture e s hk hc phase he, if_pos restart,
    beginCopy_running e (countRestart e.capture s) hst, ring, block]
  rfl

/-- The home write of one of several entries: it is removed and the next one's copy begins (R101, R121). -/
theorem engineResponse_nextEntry (k : CopyRecord) (e e' : MapEntry) (n : Nat) (s : State)
    (hst : s.engine.status = .copying) (hk : s.engine.copy = some k)
    (hc : s.engine.merging = some e.capture) (phase : k.phase = .write)
    (he : s.entry k.ring k.block = some e) (clear : e.restartPending = false)
    (merging : (s.capture e.capture).state = .merging) (more : 2 ≤ (s.capture e.capture).entries)
    (hn : s.engine.cursor = some n)
    (next : nextEntry { s with pool := { s.pool with map := dropEntry s.pool.map k.ring k.block } }
      e.capture n = some e') :
    engineResponse .okay [] s = { s.putCapture e.capture { s.capture e.capture with
        entries := (s.capture e.capture).entries - 1 } with
      pool := { s.pool with
        map := changeEntry (dropEntry s.pool.map k.ring k.block) e'.ring e'.block fun x =>
          { x with state := .copying, restartPending := s.targets e'.ring e'.block }
        freeList := s.pool.freeList ++ [e.slot] }
      engine := { s.engine with
        cursor := some ((e'.block + 1) % (s.ring e'.ring).cfg.sizeBlocks)
        copy := some ⟨e'.ring, e'.block, homeOf (s.ring e'.ring).cfg e'.block, e'.slot, .readWait,
                      [], 0#16⟩ }
      dn := { s.dn with shareCount := 0 } } := by
  obtain ⟨-, ring, block⟩ := entry_mem he
  have removed := removeEntry_more e s more
  rw [ring, block] at removed
  have record : (removeEntry e s).capture e.capture =
      { s.capture e.capture with entries := (s.capture e.capture).entries - 1 } := by
    rw [removed]
    exact capture_putCapture_same s e.capture _
  have chosen : nextEntry (removeEntry e s) e.capture n = some e' := by
    rw [← next]
    exact nextEntry_same _ _ _ _ (by rw [record]; rfl) (by rw [record]; rfl) (by rw [removed])
      (by rw [removed]; rfl)
  rw [engineResponse_homeWrite [] k e.capture e s hk hc phase he, if_neg (by simp [clear]),
    continueMerge_next e.capture _ n e' (by rw [record]; exact merging) (by rw [removed]; exact hn)
      chosen, removed]
  exact beginCopy_running e' _ hst

/-- The home write of a capture's last entry: the capture is FREE and the IDLE engine takes the queue
(R90, R101, R120). -/
theorem engineResponse_lastEntry (k : CopyRecord) (e : MapEntry) (s : State)
    (hk : s.engine.copy = some k) (hc : s.engine.merging = some e.capture)
    (phase : k.phase = .write) (he : s.entry k.ring k.block = some e)
    (clear : e.restartPending = false) (merging : (s.capture e.capture).state = .merging)
    (last : (s.capture e.capture).entries = 1) :
    engineResponse .okay [] s = takeQueue s.engine.queue { s.putCapture e.capture
        { s.capture e.capture with state := .free, entries := 0 } with
      pool := { s.pool with
        map := dropEntry s.pool.map k.ring k.block
        freeList := s.pool.freeList ++ [e.slot] }
      engine := { s.engine with status := .idle, merging := none, copy := none }
      queue := arrive (freeEvent e.capture (s.capture e.capture)) s.queue } := by
  obtain ⟨-, ring, block⟩ := entry_mem he
  have removed := removeEntry_last e s merging last
  rw [ring, block] at removed
  have free : ((removeEntry e s).capture e.capture).state = .free := by
    rw [removed]
    exact congrArg _ (capture_putCapture_same s e.capture _)
  rw [engineResponse_homeWrite [] k e.capture e s hk hc phase he, if_neg (by simp [clear]),
    continueMerge_done e.capture _ (by rw [free]; decide), removed]
  rfl

/-! ### The statement -/

/-- Settles O51: each completion's state at the engine, then the end of the event. -/
theorem blockCopyCompletes : Obligations.BlockCopyCompletes := by
  intro t k c e s hr ht side hst hk hc he owner
  subst owner
  have write {u : State} (dir : t.dir = .write) (done : engineResponse .okay []
      { s with dn := { s.dn with outstanding := none } } = u) :
      exec (.dnResponse t.tag .okay []) s = .next (settle u) :=
    exec_engineDone t [] [] s u ht side (takenWords_write t [] s.unstated dir) done
  refine ⟨?_, ?_, ?_, ?_⟩
  · intro data u phase dir len hu
    have out := exec_engineDone t data data s u ht side (takenWords_read t data s.unstated dir len.symm)
      ((engineResponse_slotRead data k e.capture e { s with dn := { s.dn with outstanding := none } }
        hk hc phase he).trans hu.symm)
    exact outcomes_copyEnded out (by rw [hu]; exact hr) (by rw [hu]) (by rw [hu])
  · intro u phase dir restart hu
    have out := write dir ((engineResponse_restart k e
      { s with dn := { s.dn with outstanding := none } } hst hk hc phase he restart).trans hu.symm)
    obtain ⟨taken, untaken⟩ := outcomes_copyEnded out (by rw [hu]; exact hr) (by rw [hu]; rfl)
      (by rw [hu]; rfl)
    refine ⟨taken, untaken, fun hp hw => ?_⟩
    have path : u.pathWaits = false := by
      rw [pathWaits_of_current (s := s) (by rw [hu]; rfl)]
      simp [State.pathWaits, hp]
    have engine : u.engineWaits = true :=
      (engineWaits_iff u).mpr ⟨by rw [hu]; exact hst, _, by rw [hu], Or.inl rfl⟩
    rw [untaken (Or.inr hw), arbitrate_engine u (by rw [hu]; exact hr) (by rw [hu]) path engine,
      grantEngine_read u _ (by rw [hu]) rfl, hu]
    rfl
  · intro n e' u phase dir clear merging more hn next hu
    have out := write dir ((engineResponse_nextEntry k e e' n
      { s with dn := { s.dn with outstanding := none } } hst hk hc phase he clear merging more hn
      next).trans hu.symm)
    exact outcomes_copyEnded out (by rw [hu]; exact hr) (by rw [hu]; rfl) (by rw [hu]; rfl)
  · intro u phase dir clear merging last hu
    rw [← freeEvent_eq] at hu
    have out := write dir ((engineResponse_lastEntry k e
      { s with dn := { s.dn with outstanding := none } } hk hc phase he clear merging last).trans
      (congrArg (takeQueue s.engine.queue) hu.symm))
    obtain ⟨-, pins, up, path⟩ := takeQueue_outer s.engine.queue u
    obtain ⟨taken, untaken⟩ := outcomes_copyEnded out
      (by rw [pins, hu]; exact hr) (by rw [path, hu]; rfl) (by rw [up, hu]; rfl)
    refine ⟨taken, untaken, fun hq hp hw => ?_⟩
    have rest : takeQueue s.engine.queue u = u := by
      rw [hq, hu]
      simp only [takeQueue, hq]
    rw [out, rest, settle_quiet u (by rw [hu]; exact hw) (by rw [hu]; exact hp)
      (engineWaits_of_status (by simp [hu]))]

end Sys2Proof.Machine
end

section
/-! PROOFS. Requests at UP: refused, forwarded, or taken for a ring. -/

namespace Sys2Proof.Machine

/-! ### Classification (R4 to R8) -/

/-- The first of a rising list that meets a test is the lowest that meets it. -/
theorem find?_lowest {n : Nat} (p : Fin n → Bool) (r : Fin n) (hr : p r = true)
    (low : ∀ r' < r, p r' = false) (l : List (Fin n)) (rises : l.Pairwise (· < ·)) (mem : r ∈ l) :
    l.find? p = some r := by
  induction l with
  | nil => cases mem
  | cons a l ih =>
    obtain ⟨head, tail⟩ := List.pairwise_cons.mp rises
    rcases List.mem_cons.mp mem with rfl | mem
    · exact List.find?_cons_of_pos hr
    · rw [List.find?_cons_of_neg (by simp [low a (head r mem)])]
      exact ih tail mem

/-- Burst q has a byte in ring r. -/
abbrev touchesRing (q : UpRequest) (s : State) (r : Fin 8) : Bool :=
  touches q (s.ring r).cfg.base.toNat (64 * (s.ring r).cfg.sizeBlocks)

/-- The first test of 1.3: past the end of the address space (R4). -/
theorem classify_pastEnd (q : UpRequest) (s : State)
    (h : 4294967296 < burstEnd q) : classify q s = .pastEnd :=
  if_pos h

/-- The second: into the divert area (R5). -/
theorem classify_guard (q : UpRequest) (s : State)
    (inSpace : burstEnd q ≤ 4294967296)
    (area : touches q s.pool.areaBase.toNat (64 * s.pool.slotCount) = true) :
    classify q s = .guard := by
  unfold classify
  rw [if_neg (Nat.not_lt.mpr inSpace), if_pos area]

/-- With no ring touched the request is OUTSIDE (R7). -/
theorem classify_outside (q : UpRequest) (s : State)
    (inSpace : burstEnd q ≤ 4294967296)
    (area : touches q s.pool.areaBase.toNat (64 * s.pool.slotCount) = false)
    (noRing : ∀ r, touchesRing q s r = false) : classify q s = .outside := by
  have : s.ringTouched q = none := List.find?_eq_none.mpr fun r _ => by simp [noRing r]
  unfold classify
  rw [if_neg (Nat.not_lt.mpr inSpace), if_neg (by simp [area]), this]

/-- Else the lowest-numbered ring touched decides: across a block boundary (R6) or within a block (R8). -/
theorem classify_lowest (q : UpRequest) (s : State) (r : Fin 8)
    (inSpace : burstEnd q ≤ 4294967296)
    (area : touches q s.pool.areaBase.toNat (64 * s.pool.slotCount) = false)
    (hit : touchesRing q s r = true) (low : ∀ r' < r, touchesRing q s r' = false) :
    classify q s = if crossesBlock q then .boundary r
      else .ring r (blockOf (s.ring r).cfg q.addr) := by
  have : s.ringTouched q = some r :=
    find?_lowest (touchesRing q s) r hit low ringIds (by decide) (mem_ringIds r)
  unfold classify
  rw [if_neg (Nat.not_lt.mpr inSpace), if_neg (by simp [area]), this]

theorem crossesBlock_iff (q : UpRequest) : crossesBlock q = true ↔
    q.addr.toNat / 64 ≠ (q.addr.toNat + 4 * (q.burst.length - 1)) / 64 := by
  simp [crossesBlock]

/-! ### Refused requests (R4 to R6) -/

/-- On a served port the arbiter changes nothing. -/
theorem arbitrate_of_portServed (s : State) (hr : s.pins.rstn = true) (h : s.PortServed) :
    arbitrate s = s := arbitrate_of_served s (h hr)

theorem takesNow_iff (s : State) : s.takesNow = true ↔
    s.pins.rstn = true ∧ s.path.current = none ∧ s.up.waiting = [] := by
  simp [State.takesNow, and_assoc]

/-- A request answered at its take, whatever event it brings, leaves a served port alone. -/
theorem exec_refused (q : UpRequest) (s u : State) (wf : q.wf = true) (now : s.takesNow = true)
    (served : s.PortServed) (taken : take q s = u) (same : SamePort s u) :
    exec (.upstreamRequest q) s = .next u := by
  rw [exec_takesNow q s wf now, taken,
    arbitrate_of_portServed u (same.rstn.trans ((takesNow_iff s).mp now).1) (same.keeps.served served)]

/-- Settles O13. -/
theorem refusedRequests : Obligations.RefusedRequests := by
  intro q s wf now served
  refine ⟨fun past => ?_, fun inSpace area => ?_, fun r inSpace area hit low cross => ?_⟩
  · refine exec_refused q s _ wf now served ?_ ⟨rfl, rfl, rfl, rfl⟩
    simp only [take, classify_pastEnd q s past, respond]
  · refine exec_refused q s _ wf now served ?_ ⟨rfl, rfl, rfl, rfl⟩
    simp only [take, classify_guard q s inSpace area]
    rfl
  · refine exec_refused q s _ wf now served ?_ ⟨rfl, rfl, rfl, rfl⟩
    simp only [take, classify_lowest q s r inSpace area hit low, if_pos ((crossesBlock_iff q).mpr cross)]
    rfl

/-! ### Forwarded requests (R7, R9) -/

/-- The one transaction of an OUTSIDE request. -/
theorem outsideRouting_eq (q : UpRequest) : ∃ x : PlanTxn, outsideRouting q = ⟨[x], none⟩ ∧
    (∀ n, q.burst = .read n → x = ⟨.forwardRead, q.addr, n, 0, List.range n, []⟩) ∧
    (∀ ws, q.burst = .write ws → x = ⟨.forwardWrite, q.addr, ws.length, 0, [], ws⟩) ∧
    x.addr = q.addr ∧ x.length = q.burst.length := by
  cases hb : q.burst with
  | read n =>
    refine ⟨⟨.forwardRead, q.addr, n, 0, List.range n, []⟩, ?_, ?_, by simp, rfl, rfl⟩
    · simp only [outsideRouting, hb, forwardRead, Burst.length]
    · intro m hm; cases hm; rfl
  | write ws =>
    refine ⟨⟨.forwardWrite, q.addr, ws.length, 0, [], ws⟩, ?_, by simp, ?_, rfl, rfl⟩
    · simp only [outsideRouting, hb, forwardWrite]
    · intro vs hv; cases hv; rfl

/-- Settles O12. -/
theorem outsideForwarded : Obligations.OutsideForwarded := by
  intro q s wf now inSpace area noRing
  obtain ⟨x, routing, read, write, addr, length⟩ := outsideRouting_eq q
  obtain ⟨u, hu⟩ : ∃ u, u = { s with path := { s.path with
    current := some ⟨q, s.view q.master, .outside, [x], List.replicate q.burst.length none, none⟩ } } :=
    ⟨_, rfl⟩
  have out : exec (.upstreamRequest q) s = .next (arbitrate u) := by
    rw [exec_takesNow q s wf now]
    simp only [take, classify_outside q s inSpace area noRing, routing, startTransfer, hu]
  have high : u.pins.rstn = true := by rw [hu]; exact ((takesNow_iff s).mp now).1
  refine ⟨x, u, read, write, hu, out, fun busy => ?_, fun free he => ?_⟩
  · rw [out, arbitrate_of_busy u (by rw [hu]; exact busy)]
  · have current : u.path.current = some ⟨q, s.view q.master, .outside, [x],
        List.replicate q.burst.length none, none⟩ := by rw [hu]
    rw [out, arbitrate_path u high (by rw [hu]; exact free)
      ((pathWaits_iff u).mpr ⟨_, x, [], current, rfl⟩) (by rw [hu]; exact he),
      grantPath_eq u _ x [] current rfl, addr, length, hu]

/-! ### Requests for a ring (R1, R8, R28, R82) -/

/-- A read has no slot target (R13). -/
theorem routeRead_slotTarget (q : UpRequest) (v : View) (r : Fin 8) (b : Nat) (s : State) :
    (routeRead q v r b s).slotTarget = none := by
  unfold routeRead
  split <;> rfl

/-- What happens to a write before it is current leaves the path unit. -/
theorem ringWrite_path (q : UpRequest) (ws : List WriteWord) (v : View) (r : Fin 8) (b : Nat)
    (s : State) :
    (postDone r (routeWrite q (evalWords r q.master q.addr ws s).2 v r b
      (evalWords r q.master q.addr ws s).1).1).path = s.path :=
  (((evalWords_untouched r q.master ws q.addr s).trans (routeWrite_untouched q _ v r b _)).trans
    (postDone_untouched r _)).path

/-- Settles O14. -/
theorem ringRequestTaken : Obligations.RingRequestTaken := by
  refine ⟨?_, ?_, fun r m a w ws s => ⟨rfl, rfl⟩⟩
  · intro q s wf hr busy served
    have waits : ¬ s.takesNow = true := fun now => busy ((takesNow_iff s).mp now).2.1
    simp only [exec, execUpstreamRequest, wf, if_true, if_neg waits]
    rw [settle_busy { s with up := { s.up with waiting := s.up.waiting ++ [q] } } hr busy,
      arbitrate_of_portServed { s with up := { s.up with waiting := s.up.waiting ++ [q] } } hr
        ((SamePort.keeps ⟨rfl, rfl, rfl, rfl⟩).served served)]
  · intro q r b s wf now inSpace area hit low within hb
    have cls : classify q s = .ring r b := by
      rw [classify_lowest q s r inSpace area hit low,
        if_neg (fun cross => (crossesBlock_iff q).mp cross within), hb]
      rfl
    have out : exec (.upstreamRequest q) s = .next (arbitrate (takeRing q r b s)) := by
      rw [exec_takesNow q s wf now]
      simp only [take, cls]
    refine ⟨fun n read => ?_, fun ws evald routed write hev hrt => ?_⟩
    · rw [out]
      simp only [takeRing, read, startTransfer, routeRead_slotTarget, Burst.length]
    · subst hev hrt
      rw [out]
      simp only [takeRing, write, startTransfer, ringWrite_path, Burst.length]

end Sys2Proof.Machine
end

section
/-! PROOFS. Words of a plan: what a slot write fills, and what a split read serves. -/

namespace Sys2Proof.Machine

/-! ### Words to fill (R99, R110) -/

/-- The burst indices of the words to fill (R110). -/
theorem mem_toFill (k0 : Nat) (written : BitVec 16) (ws : List WriteWord) (i : Nat) :
    i ∈ toFill k0 written ws ↔ ∃ w, ws[i]? = some w ∧ w.strobes ≠ 0#4 ∧ w.strobes ≠ 15#4 ∧
      written.getLsbD (k0 + i) = false := by
  unfold toFill
  simp only [List.mem_map, List.mem_filter, Prod.exists, List.mem_zipIdx_iff_getElem?]
  constructor
  · rintro ⟨w, j, ⟨hw, marked⟩, rfl⟩; exact ⟨w, hw, by simpa [and_assoc] using marked⟩
  · rintro ⟨w, hw, marked⟩; exact ⟨w, i, ⟨hw, by simpa [and_assoc] using marked⟩, rfl⟩

/-- Settles O20. -/
theorem slotWritePlan : Obligations.SlotWritePlan := by
  intro q ws written areaBase slot
  refine ⟨fun k hk => ?_, fun k0 i => mem_toFill k0 written ws i, fun none => ?_, fun some => ?_⟩
  · rw [strobedSet, posSet_bit _ k hk]
    simp only [List.mem_map, mem_strobed]
    constructor
    · rintro ⟨i, ⟨w, hw, strobes⟩, pos⟩; exact ⟨i, w, hw, strobes, pos⟩
    · rintro ⟨i, w, hw, strobes, pos⟩; exact ⟨i, ⟨w, hw, strobes⟩, pos⟩
  · rw [none]; rfl
  · obtain ⟨lo, hi, hlo, hhi, between, txn⟩ := readTxn_spec .fillRead (addWords q.addr)
      (toFill (wordPos q.addr) written ws) (burstIndices_rise _ ws 0) some
    exact ⟨lo, hi, hlo, hhi, between, by rw [slotPlan, txn]; rfl⟩

/-! ### Filled words (R11) -/

/-- Byte i of a filled word. -/
theorem fillWord_byte (w : WriteWord) (home : Word) (i : Nat) (hi : i < 4) :
    (fillWord w home).data.extractLsb' (8 * i) 8 =
      if w.strobes.getLsbD i then w.data.extractLsb' (8 * i) 8 else home.extractLsb' (8 * i) 8 := by
  apply BitVec.eq_of_getLsbD_eq
  intro j hj
  have mask := strobeMask_bit w.strobes i j hi hj
  have inWord : 8 * i + j < 32 := by omega
  rw [BitVec.getLsbD_eq_getElem inWord] at mask
  cases hs : w.strobes.getLsbD i <;> simp [fillWord, mask, hs, hj, inWord]

/-- Settles O21. -/
theorem filledWords : Obligations.FilledWords := by
  refine ⟨fun w home => ⟨rfl, fillWord_byte w home⟩, fun t home ws i w range hw => ?_⟩
  simp only [fillWords, List.getElem?_map, List.getElem?_zipIdx, hw, Option.map_some, Nat.zero_add]
  split
  · next served =>
    obtain ⟨low, high⟩ := range i served
    have inData : i - t.first < t.length := by omega
    simp [inData, Nat.add_sub_cancel' low]
  · rfl

/-! ### Split reads (R12, R104, R112) -/

/-- The read data after transaction t was answered from a memory. -/
def answerFrom (mem : Addr → Word) (acc : List (Option Word)) (t : PlanTxn) : List (Option Word) :=
  placeWords t ((List.range t.length).map fun j => mem (addWords t.addr j)) acc

/-- A read of rising burst indices, answered from a memory, gives each its own word and leaves the rest. -/
theorem answerFrom_readTxn (kind : PathKind) (addr : Nat → Addr) (idxs : List Nat)
    (mem : Addr → Word) (acc : List (Option Word)) (rises : idxs.Pairwise (· < ·))
    (consecutive : ∀ i j, addWords (addr i) j = addr (i + j)) :
    (readTxn kind addr idxs).foldl (answerFrom mem) acc =
      acc.zipIdx.map fun p => if p.2 ∈ idxs then some (mem (addr p.2)) else p.1 := by
  by_cases none : idxs = []
  · subst none
    apply List.ext_getElem <;> simp [readTxn]
  · obtain ⟨lo, hi, -, -, between, txn⟩ := readTxn_spec kind addr idxs rises none
    rw [txn]
    simp only [List.foldl_cons, List.foldl_nil, answerFrom, placeWords]
    apply List.map_congr_left
    intro p _
    split
    · next served =>
      obtain ⟨low, high⟩ := between p.2 served
      have inData : p.2 - lo < hi - lo + 1 := by omega
      simp [inData, consecutive, Nat.add_sub_cancel' low]
    · rfl

/-- Settles O22: the first transaction of the plan gives the words of the written set, the second the
others. -/
theorem splitReadServes : Obligations.SplitReadServes := by
  intro q n r b e mem s read he
  have rises (p : Nat → Bool) : ((List.range n).filter p).Pairwise (· < ·) :=
    List.Pairwise.filter p List.pairwise_lt_range
  have plan : (routeRead q .live r b s).plan =
      readTxn .slotRead (fun i => slotAddr s.pool.areaBase e.slot (wordPos q.addr + i))
        ((List.range n).filter fun i => e.written.getLsbD (wordPos q.addr + i)) ++
      readTxn .forwardRead (addWords q.addr)
        ((List.range n).filter fun i => !e.written.getLsbD (wordPos q.addr + i)) := by
    simp only [routeRead, he, read, Burst.length]
  show (routeRead q .live r b s).plan.foldl (answerFrom mem) (List.replicate n none) = _
  rw [plan, List.foldl_append,
    answerFrom_readTxn .forwardRead _ _ mem _ (rises _) (addWords_add q.addr),
    answerFrom_readTxn .slotRead _ _ mem _ (rises _)
      fun i j => by rw [addWords_slot, Nat.add_assoc]]
  apply List.ext_getElem (by simp)
  intro i hi _
  have hn : i < n := by simpa using hi
  cases hw : e.written.getLsbD (wordPos q.addr + i) <;> simp [hn, hw]

end Sys2Proof.Machine
end

section
/-! PROOFS. The release queue holds the captures in RELEASING, and OFF rings have no captures, whatever the
step. -/

namespace Sys2Proof.Machine

/-! ### A step, and the words at hand -/

/-- What every command keeps, and what does not read `pending`, every step keeps. -/
theorem step_keeps {P : State → Prop} (shift : ∀ (s : State) rest, P s → P { s with pending := rest })
    (run : ∀ i s t, exec i s = .next t → P s → P t) {s t : State} (h : step s = .next t) (hs : P s) :
    P t := by
  unfold step at h
  split at h
  · cases h; exact hs
  · exact run _ _ _ h (shift s _ hs)

/-- Any address is at hand. -/
abbrev anyWord : Fin 8 → Addr → Prop := fun _ _ => True

theorem atHand_anyWord (s : State) (q : UpRequest) : atHand anyWord s q := by
  have words (r : Fin 8) (ws : List WriteWord) : ∀ a, wordAddrs anyWord r a ws := by
    induction ws with
    | nil => exact fun _ => trivial
    | cons w ws ih => exact fun a => ⟨trivial, ih _⟩
  exact fun r _ ws _ _ => words r ws _

/-- Every command is a chain of moves, whatever words it brings. -/
theorem exec_moves_anyWord (i : Instr) (s t : State) (h : exec i s = .next t) : Moves anyWord s t :=
  exec_moves i s t ⟨fun q _ _ => atHand_anyWord s q, fun q _ => atHand_anyWord s q⟩ h

/-! ### What the two invariants read -/

variable {A : Fin 8 → Addr → Prop}

/-- The release queue's soundness reads the queue and which captures are RELEASING. -/
theorem State.ReleaseSound.of_same {s t : State} (h : s.ReleaseSound)
    (queue : t.engine.queue = s.engine.queue)
    (states : ∀ c, (t.capture c).state = .releasing ↔ (s.capture c).state = .releasing) :
    t.ReleaseSound where
  nodup   := queue ▸ h.nodup
  holds c := by rw [queue, h.holds c, states c]

/-- OFF rings stay without captures when no ring becomes OFF, and no FREE capture is used and none in use
changes its ring. -/
theorem State.OffSound.of_same {s t : State} (h : s.OffSound)
    (modes : ∀ r, (t.ring r).mode = .off → (s.ring r).mode = .off)
    (caps : ∀ c, (t.capture c).ring = (s.capture c).ring ∧
      ((s.capture c).state = .free → (t.capture c).state = .free)) : t.OffSound := by
  intro r c off ring
  obtain ⟨same, free⟩ := caps c
  exact free (h r c (modes r off) (same ▸ ring))

/-- The head of a sound release queue is in RELEASING (R118). -/
theorem State.ReleaseSound.head {s : State} (h : s.ReleaseSound) {c : Fin 16} {rest : List (Fin 16)}
    (queue : s.engine.queue = c :: rest) : (s.capture c).state = .releasing :=
  (h.holds c).mp (by simp [queue])

/-! ### The release queue (R86, R118, R120) -/

/-- A HELD capture that becomes RELEASING is new to the queue, and enters it. -/
theorem released_keeps_release (c : Fin 16) (s : State) (held : (s.capture c).state = .held)
    (h : s.ReleaseSound) :
    { s.putCapture c { s.capture c with state := .releasing } with
      engine := { s.engine with queue := s.engine.queue ++ [c] } }.ReleaseSound where
  nodup := by
    have new : c ∉ s.engine.queue := fun mem => by
      have := (h.holds c).mp mem
      rw [held] at this; cases this
    exact List.nodup_append.mpr ⟨h.nodup, List.nodup_singleton c,
      fun a ha b hb e => new (List.mem_singleton.mp hb ▸ e ▸ ha)⟩
  holds c' := by
    show c' ∈ s.engine.queue ++ [c] ↔ ((s.putCapture c _).capture c').state = .releasing
    rw [capture_putCapture, List.mem_append, List.mem_singleton, h.holds]
    split
    · next e => exact iff_of_true (Or.inr e) rfl
    · next ne => exact or_iff_left ne

/-- The head that becomes MERGING leaves the queue. -/
theorem taken_keeps_release (c : Fin 16) (rest : List (Fin 16)) (s : State)
    (queue : s.engine.queue = c :: rest) (h : s.ReleaseSound) : (takeCapture c rest s).ReleaseSound := by
  obtain ⟨new, nodup⟩ := List.nodup_cons.mp (queue ▸ h.nodup)
  refine ⟨nodup, fun c' => ?_⟩
  show c' ∈ rest ↔ _
  rw [capture_takeCapture]
  split
  · next e => exact iff_of_false (e ▸ new) (by simp)
  · next ne => rw [← h.holds, queue, List.mem_cons, or_iff_right ne]

theorem Core.keeps_release {s t : State} (move : Core A s t) (h : s.ReleaseSound) :
    t.ReleaseSound := by
  cases move with
  | raised e s => exact h.of_same rfl fun _ => Iff.rfl
  | runtime r x s => exact h.of_same rfl fun _ => Iff.rfl
  | head r a s => exact h.of_same rfl fun _ => Iff.rfl
  | tally c x s state =>
    refine h.of_same rfl fun c' => ?_
    rw [capture_putCapture]
    split
    · next e => rw [state, e]
    · exact Iff.rfl
  | held c k s post =>
    refine h.of_same rfl fun c' => ?_
    rw [capture_becomeHeld]
    split
    · next e => simp [e, post]
    · exact Iff.rfl
  | opened r q a c s armed addr clear free =>
    refine h.of_same (by rw [openCapture_rest]) fun c' => ?_
    by_cases e : c' = c
    · obtain ⟨state, cut, used, record⟩ := openCapture_same r q a c s
      rw [e, record, free]
      rcases used with rfl | rfl <;> simp
    · rw [openCapture_ne r q a c c' s e]
  | released c s held => exact released_keeps_release c s held h
  | taken c rest s queue => exact taken_keeps_release c rest s queue h
  | freed c s merging none =>
    refine h.of_same rfl fun c' => ?_
    rw [capture_becomeFree]
    split
    · next e => simp [e, merging]
    · exact Iff.rfl
  | dropped e s mem =>
    refine h.of_same rfl fun c' => ?_
    rw [capture_putCapture]
    split
    · next e => rw [e]
    · exact Iff.rfl
  | allocated e rest s =>
    refine h.of_same rfl fun c' => ?_
    rw [capture_putCapture]
    split
    · next e => rw [e]
    · exact Iff.rfl
  | remapped r b f s => exact h.of_same rfl fun _ => Iff.rfl
  | aside s t rings caps pool queue =>
    exact h.of_same queue fun c => by rw [State.capture, State.capture, caps]

theorem capture_inReset (c : Fin 16) (s : State) : (inReset s).capture c = Capture.reset := by
  simp [State.capture, inReset, State.reset]

theorem Move.keeps_release {s t : State} (move : Move A s t) (h : s.ReleaseSound) :
    t.ReleaseSound := by
  cases move with
  | flow flow =>
    cases flow with
    | core core => exact core.keeps_release h
    | _ => exact h.of_same rfl fun _ => Iff.rfl
  | reset s =>
    refine ⟨List.nodup_nil, fun c => ?_⟩
    rw [capture_inReset]
    simp [inReset, State.reset, Capture.reset]
  | _ => exact h.of_same rfl fun _ => Iff.rfl

/-! ### OFF rings (R25) -/

/-- A capture opens on an ARMED ring. -/
theorem opened_keeps_off (r : Fin 8) (q : TriggerReq) (a : Addr) (c : Fin 16) (s : State)
    (armed : (s.ring r).mode = .armed) (h : s.OffSound) : (openCapture r q a c s).OffSound := by
  have rings (r' : Fin 8) : (openCapture r q a c s).ring r' = s.ring r' := by
    rw [openCapture_rest]; rfl
  intro r' c' off ring
  rw [rings] at off
  by_cases e : c' = c
  · obtain ⟨state, cut, -, record⟩ := openCapture_same r q a c s
    rw [e, record] at ring
    have : r = r' := ring
    rw [← this, armed] at off
    cases off
  · rw [openCapture_ne r q a c c' s e] at ring ⊢
    exact h r' c' off ring

/-- A record written anew that stays FREE if it was, on the ring it was on, leaves OFF rings alone. -/
theorem putCapture_keeps_off {s t : State} (c : Fin 16) (x : Capture) (h : s.OffSound)
    (rings : t.rings = s.rings)
    (caps : ∀ c', t.capture c' = if c' = c then x else s.capture c')
    (ring : x.ring = (s.capture c).ring)
    (free : (s.capture c).state = .free → x.state = .free) : t.OffSound := by
  refine h.of_same (fun r off => by rw [← ring_of_rings rings r]; exact off) fun c' => ?_
  rw [caps]
  split
  · next e => subst e; exact ⟨ring, free⟩
  · exact ⟨rfl, id⟩

theorem Core.keeps_off {s t : State} (move : Core A s t) (release : s.ReleaseSound)
    (h : s.OffSound) : t.OffSound := by
  have modes := fun r => (move.ringCfg r).2.1.mp
  have unused {c : Fin 16} {st : CaptureState} (state : (s.capture c).state = st) (used : st ≠ .free)
      (st' : CaptureState) (free : (s.capture c).state = .free) : st' = .free :=
    absurd (state.symm.trans free) used
  cases move with
  | tally c x s state ring =>
    exact putCapture_keeps_off c x h rfl (fun c' => capture_putCapture s c c' x) ring (state ▸ id)
  | held c k s post =>
    exact putCapture_keeps_off c _ h rfl (fun c' => capture_becomeHeld c c' k s) rfl
      (unused post (by decide) _)
  | opened r q a c s armed => exact opened_keeps_off r q a c s armed h
  | released c s held =>
    exact putCapture_keeps_off c _ h rfl (fun c' => capture_putCapture s c c' _) rfl
      (unused held (by decide) _)
  | taken c rest s queue =>
    exact putCapture_keeps_off c _ h rfl (fun c' => capture_takeCapture c c' rest s) rfl
      (unused (release.head queue) (by decide) _)
  | freed c s =>
    exact putCapture_keeps_off c _ h rfl (fun c' => capture_becomeFree c c' s) rfl fun _ => rfl
  | dropped e s =>
    exact putCapture_keeps_off e.capture _ h rfl (fun c' => capture_putCapture _ _ c' _) rfl id
  | allocated e rest s =>
    exact putCapture_keeps_off e.capture _ h rfl (fun c' => capture_putCapture _ _ c' _) rfl id
  | aside s t rings caps =>
    exact h.of_same modes fun c => by rw [State.capture, State.capture, caps]; exact ⟨rfl, id⟩
  | _ => exact h.of_same modes fun c => ⟨rfl, id⟩

/-- No capture in use lies on a ring that is not busy (R25). -/
theorem ringBusy_false {s : State} {r : Fin 8} (h : s.ringBusy r = false) (c : Fin 16)
    (ring : (s.capture c).ring = r) : (s.capture c).state = .free := by
  have := List.any_eq_false.mp h c (mem_captureIds c)
  simpa [ring] using this

/-- A ring is commanded OFF when no capture in use is on it (R25). -/
theorem ringMode_keeps_off (r : Fin 8) (target : Mode) (s : State)
    (idle : target = .off → (s.ring r).mode ≠ .off → s.ringBusy r = false) (h : s.OffSound) :
    (s.putRing r ((s.ring r).withMode target)).OffSound := by
  intro r' c off ring
  rw [capture_putRing] at ring ⊢
  rw [ring_putRing] at off
  split at off
  · next e =>
    have targetOff : target = .off := by
      unfold Ring.withMode at off
      split at off <;> exact off
    by_cases was : (s.ring r).mode = .off
    · exact h r' c (e ▸ was) ring
    · exact ringBusy_false (idle targetOff was) c (e ▸ ring)
  · exact h r' c off ring

theorem ring_clear (s : State) (r : Fin 8) :
    (runClear s).1.ring r = (s.ring r).clearedExtremes := by
  simp [State.ring, runClear]

theorem Move.keeps_off {s t : State} (move : Move A s t) (release : s.ReleaseSound)
    (h : s.OffSound) : t.OffSound := by
  have putRing (r : Fin 8) (x : Ring) (mode : x.mode = (s.ring r).mode) :
      (s.putRing r x).OffSound := by
    refine h.of_same (fun r' off => ?_) fun c => ⟨rfl, id⟩
    rw [ring_putRing] at off
    split at off
    · next e => rw [e, ← mode]; exact off
    · exact off
  cases move with
  | flow flow =>
    cases flow with
    | core core => exact core.keeps_off release h
    | _ => exact h.of_same (fun _ => id) fun c => ⟨rfl, id⟩
  | ringSet r p cfg s => exact putRing r _ rfl
  | ringMode r target s configured idle => exact ringMode_keeps_off r target s idle h
  | poolSet base n low s => exact h.of_same (fun _ => id) fun c => ⟨rfl, id⟩
  | cleared s =>
    refine h.of_same (fun r off => ?_) fun c => ⟨rfl, id⟩
    rw [ring_clear] at off
    exact off
  | popped s => exact h.of_same (fun _ => id) fun c => ⟨rfl, id⟩
  | extremes r e p s => exact putRing r _ rfl
  | reset s =>
    intro r c _ _
    rw [capture_inReset]
    rfl

/-- Settles O56: move by move. RELEASING is entered and left together with the queue, and a capture in use
is on a ring that is ARMED when it opens and is not commanded OFF while it lasts. -/
theorem stepKeepsReleaseSound : Obligations.StepKeepsReleaseSound := by
  intro s t h
  constructor
  · exact step_keeps (P := State.ReleaseSound)
      (fun s rest release => release.of_same rfl fun _ => Iff.rfl)
      (fun i s t h => (exec_moves_anyWord i s t h).keeps fun _ _ move => move.keeps_release) h
  · intro release off
    exact (step_keeps (P := fun s => s.ReleaseSound ∧ s.OffSound)
      (fun s rest ⟨release, off⟩ =>
        ⟨release.of_same rfl fun _ => Iff.rfl, off.of_same (fun _ => id) fun c => ⟨rfl, id⟩⟩)
      (fun i s t h => (exec_moves_anyWord i s t h).keeps
        (P := fun s => s.ReleaseSound ∧ s.OffSound) fun _ _ move ⟨release, off⟩ =>
          ⟨move.keeps_release release, move.keeps_off release off⟩) h ⟨release, off⟩).2

end Sys2Proof.Machine
end

section
/-! PROOFS. The rings' regions and heads are sound, whatever the step. -/

namespace Sys2Proof.Machine

/-! ### The words of a request for a ring lie in the ring's region (R8) -/

/-- Word i of a burst lies 4i bytes above its start: all words are at hand when each of these is. -/
theorem wordAddrs_of_addWords (A : Fin 8 → Addr → Prop) (r : Fin 8) :
    ∀ (ws : List WriteWord) (a : Addr), (∀ i < ws.length, A r (addWords a i)) →
      wordAddrs A r a ws := by
  intro ws
  induction ws with
  | nil => exact fun _ _ => trivial
  | cons w ws ih =>
    intro a h
    have first : addWords a 0 = a := by simp [addWords]
    have second : a + 4#32 = addWords a 1 := by
      apply BitVec.eq_of_toNat_eq
      simp [addWords]
    refine ⟨first ▸ h 0 (by simp), ih _ fun i hi => ?_⟩
    rw [second, addWords_add, Nat.add_comm]
    exact h (i + 1) (by simpa using hi)

/-- A request classified RING ends in the address space, touches that ring and stays in one block (1.3). -/
theorem classify_ring {q : UpRequest} {s : State} {r : Fin 8} {b : Nat}
    (h : classify q s = .ring r b) :
    burstEnd q ≤ 4294967296 ∧ touchesRing q s r = true ∧ crossesBlock q = false := by
  unfold classify at h
  split at h
  · cases h
  · next inSpace =>
    split at h
    · cases h
    · split at h
      · cases h
      · next r' touched =>
        split at h
        · cases h
        · next stays =>
          cases h
          exact ⟨Nat.not_lt.mp inSpace, List.find?_some touched, by simpa using stays⟩

theorem touches_iff (q : UpRequest) (base size : Nat) : touches q base size = true ↔
    size ≠ 0 ∧ q.addr.toNat < base + size ∧ base < burstEnd q := by
  simp [touches, and_assoc]

theorem wf_iff (q : UpRequest) : q.wf = true ↔
    q.addr.toNat % 4 = 0 ∧ 1 ≤ q.burst.length ∧ q.burst.length ≤ 16 := by
  simp [UpRequest.wf, and_assoc]

/-- A burst of words within one block that touches a region of whole blocks lies in it. -/
theorem atHand_region {q : UpRequest} {s : State} (wf : q.wf = true) (h : s.RingsSound) :
    atHand (fun r a => (s.ring r).cfg.holdsAddr a) s q := by
  intro r b ws ring write
  obtain ⟨inSpace, touched, stays⟩ := classify_ring ring
  obtain ⟨size, starts, ends⟩ := (touches_iff _ _ _).mp touched
  obtain ⟨aligned, someWord, -⟩ := (wf_iff q).mp wf
  have base := (h.rings r).base
  have block : q.addr.toNat / 64 = (q.addr.toNat + 4 * (q.burst.length - 1)) / 64 := by
    simpa [crossesBlock] using stays
  have length : q.burst.length = ws.length := by rw [write]; rfl
  unfold burstEnd at inSpace ends
  rw [length] at inSpace ends block someWord
  refine wordAddrs_of_addWords _ r ws _ fun i hi => ?_
  have addr : (addWords q.addr i).toNat = q.addr.toNat + 4 * i := by
    rw [addWords, BitVec.toNat_ofNat]
    exact Nat.mod_eq_of_lt (by omega)
  unfold RingConfig.holdsAddr
  rw [addr]
  omega

/-! ### Rings change (R21, R22, R25, R26, R35) -/

/-- With the same configuration, and its mode OFF exactly when it was, a ring stays sound when its new head
lies in the region. -/
theorem Ring.Sound.of_cfg {x y : Ring} (h : x.Sound) (cfg : y.cfg = x.cfg)
    (mode : y.mode = .off ↔ x.mode = .off)
    (head : x.mode ≠ .off → ∀ a, y.head = some a → x.head = some a ∨ x.cfg.holdsAddr a) : y.Sound where
  base := cfg ▸ h.base
  region := cfg ▸ h.region
  configured on := cfg ▸ h.configured (mt mode.mpr on)
  head on a ha := by
    rw [cfg]
    exact (head (mt mode.mpr on) a ha).elim (h.head (mt mode.mpr on) a) id

/-- Every ring stays sound when one is written anew and stays sound. -/
theorem State.RingsSound.putRing {s : State} (h : s.RingsSound) (r : Fin 8) (x : Ring)
    (sound : x.Sound) : (s.putRing r x).RingsSound where
  rings r' := by
    rw [ring_putRing]
    split
    · exact sound
    · exact h.rings r'
  waiting := h.waiting

/-- Soundness of the rings reads the rings and what waits at UP. -/
theorem State.RingsSound.of_same {s t : State} (h : s.RingsSound) (rings : t.rings = s.rings)
    (waiting : t.up.waiting = s.up.waiting) : t.RingsSound where
  rings r := by rw [ring_of_rings rings r]; exact h.rings r
  waiting := waiting ▸ h.waiting

variable {A : Fin 8 → Addr → Prop}

/-- An event keeps the rings sound when what it brings to a ring lies in the ring's region. -/
theorem Core.keeps_rings {s t : State} (move : Core A s t)
    (region : ∀ r a, A r a → (s.ring r).cfg.holdsAddr a) (h : s.RingsSound) : t.RingsSound := by
  cases move with
  | runtime r x s cfg mode head =>
    refine h.putRing r x ((h.rings r).of_cfg cfg ?_ fun _ a ha => Or.inl (head ▸ ha))
    rcases mode with same | ⟨was, is⟩
    · rw [same]
    · exact iff_of_false is was
  | head r a s ok =>
    refine h.putRing r _ ((h.rings r).of_cfg rfl Iff.rfl fun _ a' ha => Or.inr ?_)
    exact Option.some.inj ha ▸ region r a ok
  | opened r q a c s => rw [openCapture_rest]; exact h.of_same rfl rfl
  | aside s t rings caps pool rq queue pins link waiting => exact h.of_same rings waiting
  | _ => exact h.of_same rfl rfl

theorem Flow.keeps_rings {s t : State} (flow : Flow A s t)
    (region : ∀ r a, A r a → (s.ring r).cfg.holdsAddr a) (h : s.RingsSound) : t.RingsSound := by
  cases flow with
  | core core => exact core.keeps_rings region h
  | presented q s wf =>
    refine ⟨h.rings, fun q' mem => ?_⟩
    rcases List.mem_append.mp mem with mem | mem
    · exact h.waiting q' mem
    · exact List.mem_singleton.mp mem ▸ wf
  | trimmed rest s suffix => exact ⟨h.rings, fun q mem => h.waiting q (suffix.subset mem)⟩
  | outer pins link lines s => exact h.of_same rfl rfl

/-- An event leaves the configurations. -/
theorem Flow.cfg {s t : State} (flow : Flow A s t) (r : Fin 8) :
    (t.ring r).cfg = (s.ring r).cfg := by
  cases flow with
  | core core => exact (core.ringCfg r).1
  | _ => rfl

/-- A chain of an event's changes: the regions are those of its start throughout. -/
theorem Flows.keeps_rings {s t : State} (flows : Flows A s t)
    (region : ∀ r a, A r a → (s.ring r).cfg.holdsAddr a) (h : s.RingsSound) : t.RingsSound := by
  refine (flows.keeps (P := fun u => (∀ r, (u.ring r).cfg = (s.ring r).cfg) ∧ u.RingsSound)
    (fun u v flow ⟨cfg, sound⟩ => ?_) ⟨fun _ => rfl, h⟩).2
  exact ⟨fun r => (flow.cfg r).trans (cfg r),
    flow.keeps_rings (fun r a ok => cfg r ▸ region r a ok) sound⟩

/-- A configured region meets the end of the address space, another ring's, or the divert area. -/
theorem ringOverlaps_iff (s : State) (r : Fin 8) (c : RingConfig) :
    ringOverlaps s r c = true ↔ c.sizeBlocks ≠ 0 ∧
      (4294967296 < c.base.toNat + 64 * c.sizeBlocks ∨
       (∃ r' : Fin 8, r' ≠ r ∧ (s.ring r').cfg.sizeBlocks ≠ 0 ∧
         c.base.toNat < (s.ring r').cfg.base.toNat + 64 * (s.ring r').cfg.sizeBlocks ∧
         (s.ring r').cfg.base.toNat < c.base.toNat + 64 * c.sizeBlocks) ∨
       s.pool.slotCount ≠ 0 ∧
         c.base.toNat < s.pool.areaBase.toNat + 64 * s.pool.slotCount ∧
         s.pool.areaBase.toNat < c.base.toNat + 64 * c.sizeBlocks) := by
  unfold ringOverlaps RingConfig.configured
  simp only [Bool.and_eq_true, Bool.or_eq_true, bne_iff_ne, decide_eq_true_eq, List.any_eq_true,
    regionsMeet_iff, mem_ringIds, true_and, or_assoc]
  refine and_congr_right fun size => ?_
  simp only [ne_eq, size, not_false_eq_true, true_and]

/-- What SET RING accepts starts on a block boundary (R21) and ends in the address space (R22). -/
theorem ringSet_sound (r : Fin 8) (p : RingParams) (cfg : RingConfig) (s : State)
    (off : (s.ring r).mode = .off) (ok : ringConfigOf p = some cfg)
    (room : ringOverlaps s r cfg = false) : ({ s.ring r with cfg := cfg } : Ring).Sound where
  base := by
    unfold ringConfigOf at ok
    split at ok
    · split at ok
      · next inRange => cases ok; exact inRange.1
      · cases ok
    · cases ok
  region := by
    have inSpace := cfg.base.isLt
    show cfg.base.toNat + 64 * cfg.sizeBlocks ≤ 4294967296
    by_contra past
    rw [(ringOverlaps_iff s r cfg).mpr ⟨by omega, Or.inl (by omega)⟩] at room
    cases room
  configured on := absurd off on
  head on := absurd off on

/-- A commanded mode: a ring that leaves OFF is configured and has no head (R25, R26). -/
theorem withMode_sound {x : Ring} (target : Mode) (h : x.Sound)
    (configured : target ≠ .off → x.cfg.configured = true) : (x.withMode target).Sound := by
  have size (on : target ≠ .off) : x.cfg.sizeBlocks ≠ 0 := by
    simpa [RingConfig.configured] using configured on
  unfold Ring.withMode
  split
  · exact ⟨h.base, h.region, size, fun _ a ha => by cases ha⟩
  · next stays =>
    exact ⟨h.base, h.region, size, fun on a ha => h.head (fun was => stays ⟨was, on⟩) a ha⟩

theorem ring_inReset (r : Fin 8) (s : State) : (inReset s).ring r = Ring.reset := by
  simp [State.ring, inReset, State.reset]

/-- A link command or a reset brings no word. -/
theorem Move.keeps_rings {s t : State} (move : Move noWord s t) (h : s.RingsSound) :
    t.RingsSound := by
  cases move with
  | flow flow => exact flow.keeps_rings (fun _ _ none => none.elim) h
  | ringSet r p cfg s off ok room => exact h.putRing r _ (ringSet_sound r p cfg s off ok room)
  | ringMode r target s configured => exact h.putRing r _ (withMode_sound target (h.rings r) configured)
  | poolSet base n low s => exact h.of_same rfl rfl
  | cleared s =>
    refine ⟨fun r => ?_, h.waiting⟩
    rw [ring_clear]
    exact (h.rings r).of_cfg rfl Iff.rfl fun _ _ => Or.inl
  | popped s => exact h.of_same rfl rfl
  | extremes r e p s =>
    exact h.putRing r _ ((h.rings r).of_cfg rfl Iff.rfl fun _ _ => Or.inl)
  | reset s =>
    refine ⟨fun r => ?_, h.waiting⟩
    rw [ring_inReset]
    exact ringReset_sound

/-- Settles O57: what a request brings to a ring lies in its region; SET RING and RING MODE check the rest. -/
theorem stepKeepsRingsSound : Obligations.StepKeepsRingsSound := by
  intro s t h
  refine step_keeps (P := State.RingsSound) (fun s rest hs => hs.of_same rfl rfl)
    (fun i s t h hs => ?_) h
  have brings : bringsOnly (fun r a => (s.ring r).cfg.holdsAddr a) i s :=
    ⟨fun q _ wf => atHand_region wf hs, fun q mem => atHand_region (hs.waiting q mem) hs⟩
  rcases exec_flows i s t brings h with flows | moves
  · exact flows.keeps_rings (fun _ _ => id) hs
  · exact moves.keeps (fun _ _ move => move.keeps_rings) hs

end Sys2Proof.Machine
end

section
/-! PROOFS. The link's state, commit, bits, reply position and pending extremes records fit together,
whatever the step. -/

namespace Sys2Proof.Machine

/-! ### What the invariant reads -/

/-- The link, the pins it reads and which rings have a pending extremes record are as before. -/
structure SameLink (s t : State) : Prop where
  link    : t.link = s.link
  scs     : t.pins.scs = s.pins.scs
  rstn    : t.pins.rstn = s.pins.rstn
  pending : ∀ r, (t.ring r).pendingExtremes.isSome = (s.ring r).pendingExtremes.isSome

theorem SameLink.refl (s : State) : SameLink s s := ⟨rfl, rfl, rfl, fun _ => rfl⟩

theorem SameLink.trans {s t u : State} (h : SameLink s t) (h' : SameLink t u) : SameLink s u :=
  ⟨h'.link.trans h.link, h'.scs.trans h.scs, h'.rstn.trans h.rstn,
    fun r => (h'.pending r).trans (h.pending r)⟩

/-- What leaves the rings, and of the pins SCS and RSTN, leaves what the link's soundness reads. -/
theorem SameLink.of_rings {s t : State} (link : t.link = s.link) (scs : t.pins.scs = s.pins.scs)
    (rstn : t.pins.rstn = s.pins.rstn) (rings : t.rings = s.rings) : SameLink s t :=
  ⟨link, scs, rstn, fun r => by rw [ring_of_rings rings r]⟩

/-- A ring has a pending extremes record exactly while its READ EXTREMES is the commit pending (R38). -/
def State.PendingFits (s : State) : Prop :=
  ∀ r, (s.ring r).pendingExtremes ≠ none ↔ s.link.commit = some (.readExtremes r)

theorem pending_iff {x y : Ring} (h : x.pendingExtremes.isSome = y.pendingExtremes.isSome) :
    x.pendingExtremes ≠ none ↔ y.pendingExtremes ≠ none := by
  rw [← Option.isSome_iff_ne_none, h, Option.isSome_iff_ne_none]

theorem SameLink.pendingFits {s t : State} (same : SameLink s t) (h : s.PendingFits) :
    t.PendingFits := fun r => by
  rw [pending_iff (same.pending r), same.link]; exact h r

theorem State.LinkSound.of_same {s t : State} (h : s.LinkSound) (same : SameLink s t) :
    t.LinkSound := by
  obtain ⟨selected, commit, reply, extremes, fresh, driven, ones, bits, sent⟩ := h
  constructor <;> rw [same.link]
  · rw [same.scs, same.rstn]; exact selected
  · exact commit
  · exact reply
  · exact fun r => (pending_iff (same.pending r)).trans (extremes r)
  · exact fresh
  · exact driven
  · exact ones
  · exact bits
  · exact sent

/-! ### Events (R1, R2, R14) -/

variable {A : Fin 8 → Addr → Prop}

theorem Cores.sameLink {s t : State} (h : Cores A s t) : SameLink s t := by
  obtain ⟨pins, link, -, -⟩ := h.frame
  exact ⟨link, congrArg _ pins, congrArg _ pins, fun r => (h.ringCfg r).2.2⟩

theorem takeWaiting_sameLink (l : List UpRequest) : ∀ s : State, SameLink s (takeWaiting l s) := by
  induction l with
  | nil => exact fun s => SameLink.of_rings rfl rfl rfl rfl
  | cons q rest ih =>
    intro s
    unfold takeWaiting
    split
    · exact SameLink.of_rings rfl rfl rfl rfl
    · exact (take_cores (A := anyWord) q s (atHand_anyWord s q)).sameLink.trans (ih _)

theorem settle_sameLink (s : State) : SameLink s (settle s) := by
  unfold settle
  split
  · exact (takeWaiting_sameLink _ s).trans (arbitrate_cores (A := anyWord) _).sameLink
  · exact SameLink.refl s

theorem SameLink.settled {s t : State} (h : SameLink s t) : SameLink s (settle t) :=
  h.trans (settle_sameLink t)

/-! ### SDO, and the link IDLE (R155, R158, R166) -/

/-- The link with SCS high or RSTN low is IDLE. -/
theorem State.LinkSound.idle {s : State} (h : s.LinkSound)
    (off : s.pins.scs = true ∨ s.pins.rstn = false) : s.link.phase = .idle := by
  by_contra busy
  obtain ⟨scs, rstn⟩ := h.selected busy
  rcases off with off | off
  · rw [scs] at off; cases off
  · rw [rstn] at off; cases off

/-- No commit is pending outside TURN and REPLY. -/
theorem State.LinkSound.noCommit {s : State} (h : s.LinkSound) (turn : s.link.phase ≠ .turn)
    (reply : s.link.phase ≠ .reply) : s.link.commit = none := by
  by_contra pending
  exact (h.commit pending).elim turn reply

/-- Every bit of FFH is a one. -/
theorem ones_bit {n : Nat} (h : n < 8) : (0xFF#8).getLsbD (7 - n) = true := by
  interval_cases n <;> rfl

/-- Outside IDLE there is always a byte to send: in REPLY the reply has one at the position (R158, R159). -/
theorem State.LinkSound.sdoByte {s : State} (h : s.LinkSound) :
    s.link.sdoByte = none ↔ s.link.phase = .idle := by
  unfold Link.sdoByte
  cases phase : s.link.phase with
  | reply =>
    obtain ⟨r, hr⟩ := Option.ne_none_iff_exists'.mp (h.reply (Or.inr phase))
    have left := h.sent.1 phase
    rw [Link.replyLength, hr] at left
    rw [hr]
    exact iff_of_false (by simpa using left) (by decide)
  | _ => simp

theorem present_keeps {s : State} (h : s.LinkSound) : (present s).LinkSound where
  selected := h.selected
  commit := h.commit
  reply := h.reply
  extremes := h.extremes
  fresh := h.fresh
  driven := Option.map_eq_none_iff.trans h.sdoByte
  ones phase := by
    have request : s.link.phase = .request := phase
    show s.link.sdoByte.map _ = _
    simp only [Link.sdoByte, request, Option.map_some, ones_bit h.bits.1]
  bits := h.bits
  sent := h.sent

/-! ### The execution of a link command (R161, R162) -/

/-- What a command's execution does as the link sees it: of the link at most the commit changes, and from no
commit the pending extremes records fit the commit again. -/
structure RunsLink (s t : State) : Prop where
  link    : t.link = { s.link with commit := t.link.commit }
  scs     : t.pins.scs = s.pins.scs
  rstn    : t.pins.rstn = s.pins.rstn
  pending : s.link.commit = none → s.PendingFits → t.PendingFits

theorem SameLink.runs {s t : State} (h : SameLink s t) : RunsLink s t :=
  ⟨by rw [h.link], h.scs, h.rstn, fun _ => h.pendingFits⟩

/-- One ring written anew keeps what is pending on it, or has nothing pending where nothing was. -/
theorem RunsLink.putRing (r : Fin 8) (x : Ring) (s : State)
    (pending : (s.ring r).pendingExtremes = none → x.pendingExtremes = none) :
    RunsLink s (s.putRing r x) := by
  refine ⟨rfl, rfl, rfl, fun idle fits r' => ?_⟩
  have none (r' : Fin 8) : (s.ring r').pendingExtremes = none := by
    by_contra some
    rw [(fits r').mp some] at idle
    cases idle
  rw [ring_putRing, putRing_link, idle]
  refine iff_of_false (not_not.mpr ?_) (by simp)
  split
  · exact pending (none r)
  · exact none r'

theorem runReadExtremes_runs (ring : Byte) (s : State) : RunsLink s (runReadExtremes ring s).1 := by
  unfold runReadExtremes
  split
  · exact (SameLink.refl s).runs
  · next r _ =>
    refine ⟨rfl, rfl, rfl, fun idle fits r' => ?_⟩
    show ((s.putRing r _).ring r').pendingExtremes ≠ none ↔ some (Commit.readExtremes r) = _
    rw [ring_putRing]
    split
    · next e => simp [e]
    · next ne => rw [fits r', idle]; simp [Ne.symm ne]

theorem runRingMode_runs (ring mode : Byte) (s : State) : RunsLink s (runRingMode ring mode s).1 := by
  unfold runRingMode
  split
  · next r target _ _ =>
    dsimp only
    split
    · exact (SameLink.refl s).runs
    · split
      · exact (SameLink.refl s).runs
      · refine RunsLink.putRing r _ s fun none => ?_
        unfold Ring.withMode
        split
        · rfl
        · exact none
  · exact (SameLink.refl s).runs

theorem runPopEvent_runs (s : State) : RunsLink s (runPopEvent s).1 := by
  unfold runPopEvent
  split
  · exact (SameLink.refl s).runs
  · refine ⟨rfl, rfl, rfl, fun idle fits r => ?_⟩
    show (s.ring r).pendingExtremes ≠ none ↔ some Commit.popEvent = _
    rw [fits r, idle]
    simp

/-- CLEAR empties the extremes records, not the pending ones (R39). -/
theorem runClear_sameLink (s : State) : SameLink s (runClear s).1 :=
  ⟨rfl, rfl, rfl, fun r => by rw [ring_clear]; rfl⟩

theorem runRelease_sameLink (capture : Byte) (s : State) : SameLink s (runRelease capture s).1 := by
  unfold runRelease
  split
  · exact SameLink.refl s
  · next c _ =>
    have append (u : State) (held : (u.capture c).state = .held) :
        SameLink u (arbitrate (appendRelease c u)) :=
      ((appendRelease_cores (A := anyWord) c u held).comp (arbitrate_cores _)).sameLink
    split
    · exact SameLink.refl s
    · refine SameLink.trans ?_ (append _ (becomeHeld_held c .released s))
      exact SameLink.of_rings rfl rfl rfl rfl
    · next held => exact append s held
    · exact SameLink.refl s
    · exact SameLink.refl s

/-- The engine without its fault record. -/
theorem faultGone_sameLink (s : State) :
    SameLink s { s with engine := { s.engine with fault := none } } :=
  SameLink.of_rings rfl rfl rfl rfl

theorem runResume_sameLink (s : State) : SameLink s (runResume s).1 := by
  unfold runResume
  split
  · split
    · dsimp only
      split
      · exact (faultGone_sameLink s).trans
          ((beginCopy_cores (A := anyWord) _ _).comp (arbitrate_cores _)).sameLink
      · exact (faultGone_sameLink s).trans
          ((engineNext_cores (A := anyWord) _).comp (arbitrate_cores _)).sameLink
    · exact SameLink.refl s
  · exact SameLink.refl s

theorem runSkip_sameLink (s : State) : SameLink s (runSkip s).1 := by
  unfold runSkip
  split
  · split
    · split
      · next e he =>
        dsimp only
        have mem : e ∈ (countLost e s).pool.map := (entry_mem he).1
        have lost : SameLink s (countLost e s) := SameLink.of_rings rfl rfl rfl rfl
        exact (lost.trans (removeEntry_cores (A := anyWord) e _ mem).sameLink).trans
          ((faultGone_sameLink _).trans
            ((continueMerge_cores (A := anyWord) e.capture _).comp (arbitrate_cores _)).sameLink)
      · exact (faultGone_sameLink s).trans
          ((engineNext_cores (A := anyWord) _).comp (arbitrate_cores _)).sameLink
    · exact SameLink.refl s
  · exact SameLink.refl s

theorem runCommand_runs (i : Instr) (s : State) : RunsLink s (runCommand i s).1 := by
  have same {t : State} (h : SameLink s t) : RunsLink s t := h.runs
  have unread {t : State} (link : t.link = s.link) (pins : t.pins = s.pins)
      (rings : t.rings = s.rings) : RunsLink s t :=
    same (SameLink.of_rings link (congrArg _ pins) (congrArg _ pins) rings)
  have refused : RunsLink s s := same (SameLink.refl s)
  cases i with
  | readExtremes ring => exact runReadExtremes_runs ring s
  | ringMode ring mode => exact runRingMode_runs ring mode s
  | popEvent => exact runPopEvent_runs s
  | clear => exact same (runClear_sameLink s)
  | release c => exact same (runRelease_sameLink c s)
  | resume => exact same (runResume_sameLink s)
  | skip => exact same (runSkip_sameLink s)
  | setRing ring p =>
    dsimp only [runCommand, runSetRing]
    split
    · exact refused
    · next r _ =>
      split
      · exact refused
      · split
        · exact refused
        · split
          · exact refused
          · exact RunsLink.putRing r _ s id
  | setLine n e m r =>
    dsimp only [runCommand, runSetLine]
    split
    · exact same (changeLine_cores (A := anyWord) _ _ s).sameLink
    · exact refused
  | force ring =>
    dsimp only [runCommand, runForce]
    split
    · exact refused
    · next r _ =>
      split
      · exact same (handTrigger_cores (A := anyWord) r _ s fun _ => Or.inr).sameLink
      · exact refused
  | setPool b n w =>
    dsimp only [runCommand, runSetPool]
    split
    · exact refused
    · split
      · exact refused
      · split
        · exact refused
        · unfold changePool
          split <;> exact unread rfl rfl rfl
  | setPath t h => dsimp only [runCommand, runSetPath]; split <;> exact unread rfl rfl rfl
  | setView m v => dsimp only [runCommand, runSetView]; split <;> exact unread rfl rfl rfl
  | setMarker f l a =>
    dsimp only [runCommand, runSetMarker]
    split
    · exact refused
    · split <;> exact unread rfl rfl rfl
  | setEvents w m =>
    dsimp only [runCommand, runSetEvents]
    split
    · exact refused
    · split <;> exact unread rfl rfl rfl
  | getRing r => dsimp only [runCommand, runGetRing]; split <;> exact refused
  | getCapture c => dsimp only [runCommand, runGetCapture]; split <;> exact refused
  | peekEvent => dsimp only [runCommand, runPeekEvent]; split <;> exact refused
  | getFault => dsimp only [runCommand, runGetFault]; split <;> exact refused
  | getMap r b =>
    dsimp only [runCommand, runGetMap]
    split
    · exact refused
    · split
      · exact refused
      · split <;> exact refused
  | _ => exact refused

theorem evaluate_runs (b : Byte) (s : State) : RunsLink s (evaluate b s).1 := by
  have refused (status : Status) : RunsLink s (s, refuse status).1 := (SameLink.refl s).runs
  unfold evaluate
  split
  · exact refused _
  · split
    · split
      · exact refused _
      · split
        · exact refused _
        · split
          · exact runCommand_runs _ s
          · exact refused _
    · exact refused _

/-! ### Frames and bytes (R155 to R162) -/

/-- With a byte counted, or a frame received, the link is sound with no bit of a byte under way. -/
theorem State.LinkSound.counted {s : State} (h : s.LinkSound) (buffer : RequestBuffer) (n : Nat)
    (check : Byte) :
    { s with link := { s.link with
      buffer := buffer, byteCount := n + 1, check := check, bits := [] } }.LinkSound where
  selected := h.selected
  commit := h.commit
  reply := h.reply
  extremes := h.extremes
  fresh _ zero := absurd zero (Nat.succ_ne_zero n)
  driven := h.driven
  ones := h.ones
  bits := ⟨Nat.zero_lt_succ 7, fun _ => rfl⟩
  sent := h.sent

/-- A reply is three bytes or more (R158). -/
theorem replyBytes_length (r : Reply) : (replyBytes r).length = r.data.length + 3 := by
  simp [replyBytes]

/-- The evaluation of a frame fills the reply buffer and enters TURN. -/
theorem finishFrame_keeps {run : Execution} {s : State} (h : s.LinkSound)
    (request : s.link.phase = .request) (runs : RunsLink s (run s).1) :
    (finishFrame run s).LinkSound := by
  have idle : s.link.commit = none := h.noCommit (by simp [request]) (by simp [request])
  have link : (finishFrame run s).link =
      { s.link with commit := (run s).1.link.commit, reply := some (run s).2, phase := .turn,
                    sent := 0 } := by
    show { (run s).1.link with reply := some (run s).2, phase := .turn, sent := 0 } = _
    rw [runs.link]
  constructor <;> rw [link]
  · intro _
    show (run s).1.pins.scs = false ∧ (run s).1.pins.rstn = true
    rw [runs.scs, runs.rstn]
    exact h.selected (by simp [request])
  · exact fun _ => Or.inl rfl
  · exact fun _ => by simp
  · exact runs.pending idle h.extremes
  · intro turn; cases turn
  · exact iff_of_false (mt h.driven.mp (by simp [request])) (by simp)
  · intro turn; cases turn
  · exact ⟨h.bits.1, fun turn => by cases turn⟩
  · exact ⟨fun turn => (by cases turn), fun _ => rfl⟩

theorem receiveByte_keeps (b : Byte) {s : State} (h : s.LinkSound)
    (request : s.link.phase = .request) (bits : s.link.bits = []) : (receiveByte b s).LinkSound := by
  unfold receiveByte
  split
  · have counted := h.counted s.link.buffer s.link.byteCount s.link.check
    rw [← bits] at counted
    exact finishFrame_keeps counted request (evaluate_runs b _)
  · have stored := h.counted (storeByte b s.link).buffer s.link.byteCount (storeByte b s.link).check
    rw [← bits] at stored
    exact stored

/-- With the turnaround byte complete the reply is at its first byte. -/
theorem enterReply_keeps {s : State} (h : s.LinkSound) (turn : s.link.phase = .turn) :
    (enterReply s).LinkSound where
  selected _ := h.selected (by simp [turn])
  commit _ := Or.inr rfl
  reply _ := h.reply (Or.inl turn)
  extremes := h.extremes
  fresh request := by cases request
  driven := iff_of_false (mt h.driven.mp (by simp [turn])) (by simp [enterReply])
  ones request := by cases request
  bits := ⟨h.bits.1, fun idle => by cases idle⟩
  sent := by
    obtain ⟨r, hr⟩ := Option.ne_none_iff_exists'.mp (h.reply (Or.inl turn))
    have hr' : (enterReply s).link.reply = some r := hr
    refine ⟨fun _ => ?_, fun away => absurd rfl away⟩
    rw [Link.replyLength, hr']
    show 0 < (replyBytes r).length
    rw [replyBytes_length]
    omega

/-- The commit leaves no pending extremes record (R38). -/
theorem commitPending_none {s : State} (h : s.PendingFits) (r : Fin 8) :
    ((commitPending s).ring r).pendingExtremes = none := by
  unfold commitPending
  split
  · next commit => exact not_not.mp (mt (h r).mp (by simp [commit]))
  · next r' commit =>
    obtain ⟨p, hp⟩ := Option.ne_none_iff_exists'.mp ((h r').mpr commit)
    simp only [extremesCommit, hp]
    rw [ring_putRing]
    split
    · rfl
    · next ne => exact not_not.mp (mt (h r).mp (by simp [commit, Ne.symm ne]))
  · next commit => exact not_not.mp (mt (h r).mp (by simp [commit]))

theorem commitPending_link (s : State) : (commitPending s).link = s.link := by
  unfold commitPending extremesCommit
  split
  · rfl
  · split <;> rfl
  · rfl

/-- After the reply the link is in DISCARD with no commit pending. -/
theorem commitReply_keeps {s : State} (h : s.LinkSound) (reply : s.link.phase = .reply) :
    (commitReply s).LinkSound := by
  have link : (commitReply s).link = { s.link with commit := none, phase := .discard, sent := 0 } := by
    show { (commitPending s).link with commit := none, phase := .discard, sent := 0 } = _
    rw [commitPending_link]
  constructor <;> rw [link]
  · intro _
    show (commitPending s).pins.scs = false ∧ (commitPending s).pins.rstn = true
    rw [commitPending_pins]
    exact h.selected (by simp [reply])
  · intro pending; exact absurd rfl pending
  · rintro (phase | phase) <;> cases phase
  · exact fun r => iff_of_false (not_not.mpr (commitPending_none h.extremes r)) (by simp)
  · intro phase; cases phase
  · exact iff_of_false (mt h.driven.mp (by simp [reply])) (by simp)
  · intro phase; cases phase
  · exact ⟨h.bits.1, fun phase => by cases phase⟩
  · exact ⟨fun phase => (by cases phase), fun _ => rfl⟩

/-- The bits of a byte under way can be dropped, or fewer than eight kept, out of IDLE. -/
theorem State.LinkSound.withBits {s : State} (h : s.LinkSound) (bits : List Bool)
    (few : bits.length < 8) (idle : s.link.phase = .idle → bits = []) :
    { s with link := { s.link with bits := bits } }.LinkSound where
  selected := h.selected
  commit := h.commit
  reply := h.reply
  extremes := h.extremes
  fresh := h.fresh
  driven := h.driven
  ones := h.ones
  bits := ⟨few, idle⟩
  sent := h.sent

theorem State.LinkSound.noBits {s : State} (h : s.LinkSound) :
    { s with link := { s.link with bits := [] } }.LinkSound :=
  h.withBits [] (by decide) fun _ => rfl

theorem completeByte_keeps (b : Byte) {s : State} (h : s.LinkSound) (bits : s.link.bits = []) :
    (completeByte b s).LinkSound := by
  unfold completeByte
  split
  · exact h
  · exact h
  · next request => exact receiveByte_keeps b h request bits
  · next turn => exact enterReply_keeps h turn
  · next reply =>
    split
    · next more =>
      obtain ⟨selected, commit, replied, extremes, fresh, driven, ones, few, sent⟩ := h
      exact ⟨selected, commit, replied, extremes, fresh, driven, ones, few, fun _ => more,
        fun away => absurd reply away⟩
    · exact commitReply_keeps h reply

theorem sckRise_keeps (sdi : Bool) {s : State} (h : s.LinkSound) : (sckRise sdi s).LinkSound := by
  unfold sckRise
  split
  · next busy =>
    dsimp only
    split
    · next few => exact h.withBits _ few fun idle => by simp [idle] at busy
    · exact completeByte_keeps _ h.noBits rfl
  · exact h

theorem sckFall_keeps {s : State} (h : s.LinkSound) : (sckFall s).LinkSound := by
  unfold sckFall
  split
  · exact present_keeps h
  · exact h

theorem clockEdges_keepLink (edges : List SckEdge) :
    ∀ s : State, s.LinkSound → (clockEdges edges s).LinkSound := by
  induction edges with
  | nil => exact fun _ h => h
  | cons e es ih =>
    intro s h
    cases e with
    | rise sdi => exact ih _ (sckRise_keeps sdi h)
    | fall => exact ih _ (sckFall_keeps h)

theorem goodFrame_keepsLink (i : Instr) {s : State} (h : s.LinkSound) :
    (goodFrame i (runCommand i) s).LinkSound := by
  unfold goodFrame
  split
  · next start =>
    split
    · next code params _ =>
      obtain ⟨-, request, -, -⟩ := (frameStart_iff s).mp start
      exact present_keeps (finishFrame_keeps (h.counted _ _ _) request (runCommand_runs i _))
    · exact h
  · exact h

/-! ### SCS and RSTN (R155, R159, R163, R164, R166) -/

/-- The link IDLE is sound at any level of SCS and RSTN when nothing of a transaction stands. -/
theorem linkSound_idle {s : State} (idle : s.link.phase = .idle) (commit : s.link.commit = none)
    (pending : s.PendingFits) (out : s.link.out = none) (bits : s.link.bits = [])
    (sent : s.link.sent = 0) : s.LinkSound where
  selected busy := absurd idle busy
  commit pending := absurd commit pending
  reply phase := by rcases phase with phase | phase <;> rw [idle] at phase <;> cases phase
  extremes := pending
  fresh phase := by rw [idle] at phase; cases phase
  driven := iff_of_true out idle
  ones phase := by rw [idle] at phase; cases phase
  bits := ⟨by simp [bits], fun _ => bits⟩
  sent := ⟨fun phase => (by rw [idle] at phase; cases phase), fun _ => sent⟩

/-- The pins change while the link is IDLE. -/
theorem State.LinkSound.idlePins {s : State} (h : s.LinkSound) (idle : s.link.phase = .idle)
    (pins : Pins) : { s with pins := pins }.LinkSound :=
  linkSound_idle idle (h.noCommit (by simp [idle]) (by simp [idle])) h.extremes (h.driven.mpr idle)
    (h.bits.2 idle) (h.sent.2 (by simp [idle]))

/-- An SCS rise drops the pending extremes record with its commit (R38, R164). -/
theorem dropPending_none {s : State} (h : s.PendingFits) (r : Fin 8) :
    ((dropPending s).ring r).pendingExtremes = none := by
  unfold dropPending
  split
  · next r' commit =>
    rw [extremesAbandon, ring_putRing]
    split
    · rfl
    · next ne => exact not_not.mp (mt (h r).mp (by simp [commit, Ne.symm ne]))
  · next commit => exact not_not.mp (mt (h r).mp (by simp [commit]))
  · next commit => exact not_not.mp (mt (h r).mp (by simp [commit]))

theorem execScsRise_keepsLink (s t : State) (h : execScsRise s = .next t) (hs : s.LinkSound) :
    t.LinkSound := by
  cases h
  dsimp only
  split
  · refine linkSound_idle rfl rfl (fun r => ?_) rfl rfl rfl
    refine iff_of_false (not_not.mpr ?_) (by simp)
    exact dropPending_none (s := { s with pins := { s.pins with scs := true } }) hs.extremes r
  · next low => exact hs.idlePins (hs.idle (Or.inr (by simpa using low))) _

/-- A transaction begins: SDO presents its first one (R155, R159). -/
theorem execScsFall_keepsLink (s t : State) (h : execScsFall s = .next t) (hs : s.LinkSound) :
    t.LinkSound := by
  cases h
  split
  · next scs =>
    have idle := hs.idle (Or.inl scs)
    dsimp only
    split
    · next begins =>
      rw [present_ones _ (Or.inl rfl) rfl]
      have noCommit := hs.noCommit (by simp [idle]) (by simp [idle])
      exact
        { selected := fun _ => ⟨rfl, begins.1⟩
          commit   := fun pending => absurd rfl pending
          reply    := fun phase => by rcases phase with phase | phase <;> cases phase
          extremes := fun r => (hs.extremes r).trans (by rw [noCommit])
          fresh    := fun _ _ => ⟨rfl, rfl⟩
          driven   := iff_of_false (by simp) (by simp)
          ones     := fun _ => rfl
          bits     := ⟨Nat.zero_lt_succ 7, fun _ => rfl⟩
          sent     := ⟨fun phase => (by cases phase), fun _ => rfl⟩ }
    · exact hs.idlePins idle _
  · exact hs

theorem inReset_linkSound (s : State) : (inReset s).LinkSound :=
  linkSound_idle rfl rfl (fun r => by rw [ring_inReset]; simp [Ring.reset, inReset, State.reset])
    rfl rfl rfl

/-! ### Every command -/

/-- A response on DN, of either side and status, changes nothing that the link's soundness reads. -/
theorem execDnResponse_sameLink (tag : BitVec 4) (status : BusStatus) (data : List Word)
    (s t : State) (h : execDnResponse tag status data s = .next t) : SameLink s t := by
  cases h
  have freed (n : Nat) :
      SameLink s { s with dn := { s.dn with outstanding := none }, unstated := n } :=
    SameLink.of_rings rfl rfl rfl rfl
  have path (n : Nat) (st : BusStatus) (d : List Word) : SameLink s (settle (pathResponse st d
      { s with dn := { s.dn with outstanding := none }, unstated := n })) :=
    (freed n).trans ((pathResponse_cores (A := anyWord) st d _).sameLink.settled)
  have engine (n : Nat) (st : BusStatus) (d : List Word) : SameLink s (settle (engineResponse st d
      { s with dn := { s.dn with outstanding := none }, unstated := n })) :=
    (freed n).trans ((engineResponse_cores (A := anyWord) st d _).sameLink.settled)
  split
  · exact SameLink.refl s
  · split
    · exact SameLink.refl s
    · dsimp only
      split
      · exact path s.unstated _ _
      · exact engine s.unstated _ _
      · split
        · exact path _ _ _
        · exact engine _ _ _

/-- Expiry on DN, of either side (R16, R128). -/
theorem expiry_sameLink (i : Instr) (s t : State) (expiry : i = .dnTimeout ∨ i = .copyTimeout)
    (h : exec i s = .next t) : SameLink s t := by
  have freed : SameLink s { s with dn := { s.dn with outstanding := none } } :=
    SameLink.of_rings rfl rfl rfl rfl
  rcases expiry with rfl | rfl
  · cases h
    split
    · split
      · split
        · exact SameLink.settled (SameLink.of_rings rfl rfl rfl rfl)
        · exact SameLink.refl s
      · exact SameLink.refl s
    · exact SameLink.refl s
  · cases h
    split
    · split
      · exact freed.trans
          ((mergeFault_cores (A := anyWord) _ _).comp (arbitrate_cores _)).sameLink
      · exact SameLink.refl s
    · exact SameLink.refl s

theorem execUpstreamRequest_sameLink (q : UpRequest) (s t : State)
    (h : execUpstreamRequest q s = .next t) : SameLink s t := by
  cases h
  split
  · split
    · exact ((take_cores (A := anyWord) q s (atHand_anyWord s q)).comp (arbitrate_cores _)).sameLink
    · exact SameLink.settled (SameLink.of_rings rfl rfl rfl rfl)
  · exact SameLink.refl s

theorem execTrigLevelChange_sameLink (n : Fin 4) (level : Bool) (s t : State)
    (h : execTrigLevelChange n level s = .next t) : SameLink s t := by
  cases h
  dsimp only
  split
  · refine SameLink.trans ?_ (changeLine_cores (A := anyWord) _ _ _).sameLink
    exact SameLink.of_rings rfl rfl rfl rfl
  · exact SameLink.of_rings rfl rfl rfl rfl

theorem exec_keepsLink (i : Instr) (s t : State) (h : exec i s = .next t) (hs : s.LinkSound) :
    t.LinkSound := by
  have frame (j : Instr) (hj : exec j s = .next (goodFrame j (runCommand j) s))
      (h : exec j s = .next t) : t.LinkSound := by
    rw [hj] at h; cases h; exact goodFrame_keepsLink j hs
  cases i with
  | upstreamRequest q => exact hs.of_same (execUpstreamRequest_sameLink q s t h)
  | dnResponse tag status data => exact hs.of_same (execDnResponse_sameLink tag status data s t h)
  | dnTimeout => exact hs.of_same (expiry_sameLink _ s t (Or.inl rfl) h)
  | copyTimeout => exact hs.of_same (expiry_sameLink _ s t (Or.inr rfl) h)
  | trigLevelChange n level => exact hs.of_same (execTrigLevelChange_sameLink n level s t h)
  | rstnLow => cases h; exact inReset_linkSound s
  | rstnHigh =>
    cases h
    split
    · exact hs
    · next low =>
      have high := hs.idlePins (hs.idle (Or.inr (by simpa using low))) { s.pins with rstn := true }
      exact high.of_same (SameLink.settled (SameLink.of_rings rfl rfl rfl rfl))
  | scsFall => exact execScsFall_keepsLink s t h hs
  | scsRise => exact execScsRise_keepsLink s t h hs
  | requestFrame edges => cases h; exact clockEdges_keepLink edges s hs
  | turnaroundByte =>
    cases h
    split
    · next turn => exact present_keeps (enterReply_keeps hs.noBits turn.2)
    · exact hs
  | replyCommit =>
    cases h
    split
    · next reply => exact present_keeps (commitReply_keeps hs.noBits reply.2)
    · exact hs
  | _ => exact frame _ rfl h

/-- Settles O60: events leave what the link's soundness reads, a link command changes of it the commit with
the pending extremes record, and edges, SCS and RSTN move the link's fields together. -/
theorem stepKeepsLinkSound : Obligations.StepKeepsLinkSound := by
  intro s t h
  exact step_keeps (P := State.LinkSound)
    (fun s rest hs => hs.of_same (SameLink.of_rings rfl rfl rfl rfl)) exec_keepsLink h

end Sys2Proof.Machine
end

section
/-! PROOFS. The link byte by byte: bits in and out, the turnaround byte, the reply's bytes and its commit. -/

namespace Sys2Proof.Machine

/-- A byte is clocked bit by bit, each in a period of SCK, most significant first (R155). -/
theorem clockBytes_edges (b : Byte) (i : Nat) (hi : i < 8) :
    (clockBytes [b])[2 * i]? = some (.rise (b.getLsbD (7 - i))) ∧
    (clockBytes [b])[2 * i + 1]? = some .fall := by
  interval_cases i <;> exact ⟨rfl, rfl⟩

theorem clockBytes_one (b : Byte) : clockBytes [b] = clockBits (byteBits b) :=
  List.append_nil _

/-- The link is selected with RSTN high and SCS low (R155, R166). -/
theorem selected_of {s : State} (rstn : s.pins.rstn = true) (scs : s.pins.scs = false) :
    s.selected = true := by
  simp [State.selected, rstn, scs]

/-- The transaction that an SCS fall begins (R155, R159). -/
theorem exec_scsFall (s : State) (rstn : s.pins.rstn = true) (scs : s.pins.scs = true)
    (idle : s.link.phase = .idle) :
    exec .scsFall s =
      .next { s with pins := { s.pins with scs := false }
                     link := { s.link with phase := .request, buffer := ⟨none, none, []⟩,
                                           byteCount := 0, check := 0#8, commit := none, bits := [],
                                           sent := 0, out := some true } } := by
  simp only [exec, execScsFall, if_pos scs, if_pos (And.intro rstn idle)]
  rw [present_ones _ (Or.inl rfl) rfl]
  rfl

/-- A rising edge before the last of a byte keeps SDI's bit (R155). -/
theorem sckRise_keepsBit (sdi : Bool) (s : State) (selected : s.selected = true)
    (busy : s.link.phase ≠ .idle) (few : s.link.bits.length < 7) :
    sckRise sdi s = { s with link := { s.link with bits := s.link.bits ++ [sdi] } } := by
  unfold sckRise
  rw [if_pos (by simp [selected, busy])]
  dsimp only
  rw [if_pos (by simp; omega)]

/-- A falling edge presents the next bit of the byte being sent (R155, R158). -/
theorem sckFall_bit (b : Byte) (s : State) (l : Link) (selected : s.selected = true)
    (sends : l.sdoByte = some b) :
    sckFall { s with link := l } =
      { s with link := { l with out := some (b.getLsbD (7 - l.bits.length)) } } := by
  have still : ({ s with link := l } : State).selected = true := selected
  rw [sckFall, if_pos still, present, sends]
  rfl

/-- The byte sent in each state (R158, R159). -/
theorem sdoByte_of {l : Link} {b : Byte}
    (h : (l.phase = .request ∨ l.phase = .discard) ∧ b = 0xFF#8 ∨ l.phase = .turn ∧ b = 0x00#8 ∨
      l.phase = .reply ∧ ∃ r, l.reply = some r ∧ (replyBytes r)[l.sent]? = some b) :
    l.sdoByte = some b := by
  unfold Link.sdoByte
  rcases h with ⟨phase | phase, rfl⟩ | ⟨phase, rfl⟩ | ⟨phase, r, reply, byte⟩
  · rw [phase]
  · rw [phase]
  · rw [phase]
  · rw [phase, reply]; exact byte

/-- The eight bits of a byte, with what completing it brings and the falling edge after its last (R155). -/
theorem exec_byte (b : Byte) (s : State) (selected : s.selected = true)
    (busy : s.link.phase ≠ .idle) (bits : s.link.bits = []) :
    exec (.requestFrame (clockBytes [b])) s =
      .next (sckFall (completeByte b { s with link := { s.link with
        out := s.link.sdoByte.map fun x => x.getLsbD 0 } })) := by
  rw [clockBytes_one]
  exact congrArg _ (clock_byte b s selected busy bits)

/-- A byte whose completion moves the link alone, to where `next` is sent, leaves next's first bit at SDO. -/
theorem exec_byte_sends (b next : Byte) (s : State) (l : Link) (selected : s.selected = true)
    (busy : s.link.phase ≠ .idle) (bits : s.link.bits = [])
    (moves : ∀ out, ∃ out', completeByte b { s with link := { s.link with out := out } } =
      { s with link := { l with out := out' } })
    (sends : l.sdoByte = some next) (none : l.bits = []) :
    exec (.requestFrame (clockBytes [b])) s =
      .next { s with link := { l with out := some (next.getLsbD 7) } } := by
  obtain ⟨out', moved⟩ := moves (s.link.sdoByte.map fun x => x.getLsbD 0)
  have sends' : ({ l with out := out' } : Link).sdoByte = some next := sends
  rw [exec_byte b s selected busy bits, moved, sckFall_bit next s _ selected sends', none]
  rfl

/-! ### The turnaround byte (R159) -/

theorem exec_turnaround (r : Reply) (s : State) (selected : s.selected = true)
    (turn : s.link.phase = .turn) (reply : s.link.reply = some r) :
    exec .turnaroundByte s =
      .next { s with link := { s.link with phase := .reply, bits := [], sent := 0
                                           out := some ((statusCode r.status).getLsbD 7) } } := by
  simp only [exec, execTurnaroundByte, if_pos (And.intro selected turn)]
  simp [present, enterReply, Link.sdoByte, reply, replyBytes]

theorem exec_byte_turn (r : Reply) (b : Byte) (s : State) (selected : s.selected = true)
    (turn : s.link.phase = .turn) (reply : s.link.reply = some r) (bits : s.link.bits = []) :
    exec (.requestFrame (clockBytes [b])) s = exec .turnaroundByte s := by
  rw [exec_turnaround r s selected turn reply]
  refine exec_byte_sends b (statusCode r.status) s
    { s.link with phase := .reply, bits := [], sent := 0 } selected (by simp [turn]) bits
    (fun out => ⟨out, ?_⟩) (sdoByte_of (Or.inr (Or.inr ⟨rfl, r, reply, rfl⟩))) rfl
  simp only [completeByte, turn, enterReply, bits]

/-! ### The bytes of the reply (R158, R159) -/

theorem exec_byte_reply (r : Reply) (b next : Byte) (s : State) (selected : s.selected = true)
    (phase : s.link.phase = .reply) (reply : s.link.reply = some r) (bits : s.link.bits = [])
    (more : (replyBytes r)[s.link.sent + 1]? = some next) :
    exec (.requestFrame (clockBytes [b])) s =
      .next { s with link := { s.link with sent := s.link.sent + 1
                                           out := some (next.getLsbD 7) } } := by
  obtain ⟨left, -⟩ := List.getElem?_eq_some_iff.mp more
  refine exec_byte_sends b next s { s.link with sent := s.link.sent + 1 } selected (by simp [phase])
    bits (fun out => ⟨out, ?_⟩) (sdoByte_of (Or.inr (Or.inr ⟨phase, r, reply, more⟩))) bits
  simp only [completeByte, phase, Link.replyLength, reply, if_pos left]

/-- Whatever of the link but its commit stood before the last bit of the reply, SDO sends ones after it. -/
theorem present_commitReply (s : State) (l : Link) (commit : l.commit = s.link.commit)
    (bits : l.bits = []) :
    present (commitReply { s with link := l }) = { commitPending s with link := { l with
      phase := .discard, commit := none, bits := [], sent := 0, out := some true } } := by
  rw [commitReply_withLink s l commit, present_ones _ (Or.inr rfl) bits, bits]

/-- The commit of a reply, whatever it is (R162). -/
theorem exec_replyCommit (s : State) (selected : s.selected = true) (reply : s.link.phase = .reply) :
    exec .replyCommit s =
      .next { commitPending s with link := { s.link with
        phase := .discard, commit := none, bits := [], sent := 0, out := some true } } := by
  simp only [exec, execReplyCommit, if_pos (And.intro selected reply)]
  exact congrArg _ (present_commitReply s { s.link with bits := [] } rfl rfl)

theorem exec_byte_last (r : Reply) (b : Byte) (s : State) (selected : s.selected = true)
    (phase : s.link.phase = .reply) (reply : s.link.reply = some r) (bits : s.link.bits = [])
    (last : s.link.sent + 1 = r.data.length + 3) :
    exec (.requestFrame (clockBytes [b])) s = exec .replyCommit s := by
  have ends : ¬ s.link.sent + 1 < s.link.replyLength := by
    rw [Link.replyLength, reply]
    show ¬ _ < (replyBytes r).length
    rw [replyBytes_length]; omega
  have completes (out : Option Bool) : completeByte b { s with link := { s.link with out := out } } =
      commitReply { s with link := { s.link with out := out } } := by
    unfold completeByte
    rw [phase]
    exact if_neg ends
  have still (l : Link) : (commitReply { s with link := l }).selected = true := by
    have pins : (commitReply { s with link := l }).pins = s.pins :=
      commitPending_pins { s with link := l }
    rw [State.selected, pins]; exact selected
  rw [exec_byte b s selected (by simp [phase]) bits, exec_replyCommit s selected phase, completes,
    sckFall, if_pos (still _)]
  exact congrArg _ (present_commitReply s _ rfl bits)

/-! ### DISCARD (R159) -/

theorem exec_byte_discard (b : Byte) (s : State) (selected : s.selected = true)
    (discard : s.link.phase = .discard) (bits : s.link.bits = []) :
    exec (.requestFrame (clockBytes [b])) s =
      .next { s with link := { s.link with out := some true } } := by
  refine exec_byte_sends b 0xFF#8 s s.link selected (by simp [discard]) bits
    (fun out => ⟨out, ?_⟩) (sdoByte_of (Or.inl ⟨Or.inr discard, rfl⟩)) bits
  simp only [completeByte, discard]

/-- Settles O7: edge by edge from the rules of the edges, byte by byte from those of a complete byte. -/
theorem linkPhaseSteps : Obligations.LinkPhaseSteps := by
  refine ⟨clockBytes_edges, exec_scsFall, fun s rstn scs => ?_⟩
  have selected := selected_of rstn scs
  refine ⟨fun sdi busy few => congrArg _ (sckRise_keepsBit sdi s selected busy few),
    fun b sends => congrArg _ (sckFall_bit b s s.link selected (sdoByte_of sends)),
    fun r turn reply => ⟨exec_turnaround r s selected turn reply,
      fun b bits => exec_byte_turn r b s selected turn reply bits⟩,
    fun r b next => exec_byte_reply r b next s selected,
    fun r b => exec_byte_last r b s selected,
    fun b => exec_byte_discard b s selected, fun l hl reply => ?_⟩
  rw [exec_replyCommit s selected reply, ← hl]
  refine ⟨fun commit => ?_, fun commit => ?_, fun r e commit pending => ?_⟩
  · simp only [commitPending, commit]
  · simp only [commitPending, commit, popCommit]
  · simp only [commitPending, commit, extremesCommit, pending]

end Sys2Proof.Machine
end

section
/-! PROOFS. Words of a ring write: conditioning, the word written, classes, the evaluation of a producer
word, extremes. -/

namespace Sys2Proof.Machine

/-! ### Conditioning (R32, R33) -/

/-- Settles O23: `/` on `Int` by a positive divisor is the floor. -/
theorem conditioningExact : Obligations.ConditioningExact := by
  intro c v
  refine ⟨if c.shift = 0 then v else (v + 2 ^ (c.shift - 1)) / 2 ^ c.shift, fun zero => if_pos zero,
    fun shifts => ?_, fun s24 => ?_, fun p16 => ?_⟩
  · have positive : (0 : Int) < 2 ^ c.shift := by positivity
    rw [if_neg (Nat.ne_of_gt shifts)]
    exact ⟨Int.mul_ediv_self_le (Int.ne_of_gt positive), by
      rw [mul_add, mul_one]; exact Int.lt_mul_ediv_self_add positive⟩
  · simp only [condition, s24, formatMax, formatMin]
  · simp only [condition, p16, formatMax, formatMin]

/-- The low 24 bits of a value's two's complement in 32 bits are its two's complement in 24. -/
theorem extractLsb'_ofInt32 (v : Int) :
    (BitVec.ofInt 32 v).extractLsb' 0 24 = BitVec.ofInt 24 v := by
  apply BitVec.eq_of_toNat_eq
  simp only [BitVec.extractLsb'_toNat, BitVec.toNat_ofInt]
  omega

/-- Settles O24: a conditioned sample is in its format's range, so its lane and the S24 word keep it. -/
theorem conditionedWordHoldsSamples : Obligations.ConditionedWordHoldsSamples := by
  intro c w
  refine ⟨fun s24 => ?_, fun p16 => ?_⟩
  · have range (v : Int) : -8388608 ≤ condition c v ∧ condition c v ≤ 8388607 := by
      have := condition_range c v
      rwa [s24] at this
    obtain ⟨low, high⟩ := range (w.extractLsb' 0 24).toInt
    have word : conditionedWord c w = BitVec.ofInt 32 (condition c (w.extractLsb' 0 24).toInt) := by
      simp only [conditionedWord, s24]
    refine ⟨rfl, ?_, ?_⟩
    · rw [samplesOf, word, extractLsb'_ofInt32, ofInt24 _ low high]
    · rw [word, ofInt32 _ (by omega) (by omega)]
  · have range (v : Int) : -32768 ≤ condition c v ∧ condition c v ≤ 32767 := by
      have := condition_range c v
      rwa [p16] at this
    refine ⟨rfl, ?_⟩
    have lane (x : BitVec 16) :
        (BitVec.ofInt 16 (condition c x.toInt)).toInt = condition c x.toInt :=
      ofInt16 _ (range _).1 (range _).2
    simp only [samplesOf, conditionedWord, p16, BitVec.extractLsb'_append_eq_right,
      BitVec.extractLsb'_append_eq_left, lane]

/-! ### Classes of words (R24, R29 to R31) -/

/-- Settles O25. -/
theorem wordClasses : Obligations.WordClasses := by
  intro r m a w s
  have passed {k : WordClass} (plain : k = .plain ∨ k = .foreign ∨ k = .ofPart)
      (h : classifyWord (s.ring r) m w = k) : evalWord r m a w s = (s, w) := by
    rcases plain with rfl | rfl | rfl <;> simp only [evalWord, h]
  have whole (on : (s.ring r).mode ≠ .off) (producer : m = (s.ring r).cfg.producer)
      (full : w.strobes = 15#4) : classifyWord (s.ring r) m w =
        if (s.ring r).cfg.markerEnable ∧ w.data.extractLsb' 24 8 = (s.ring r).cfg.markerKey
        then .marker else .sample := by
    rw [classifyWord, if_neg on, if_neg (not_not.mpr producer), if_neg (not_not.mpr full)]
  refine ⟨fun passes => ?_, fun on producer full => ⟨fun enabled key => ?_, fun sample => ?_⟩⟩
  · by_cases off : (s.ring r).mode = .off
    · exact passed (Or.inl rfl) (by rw [classifyWord, if_pos off])
    · by_cases foreign : m ≠ (s.ring r).cfg.producer
      · exact passed (Or.inr (Or.inl rfl)) (by rw [classifyWord, if_neg off, if_pos foreign])
      · have part := (passes.resolve_left off).resolve_left foreign
        exact passed (Or.inr (Or.inr rfl))
          (by rw [classifyWord, if_neg off, if_neg foreign, if_pos part])
  · rw [whole on producer full, if_pos ⟨enabled, key⟩]
  · rw [whole on producer full, if_neg]
    rintro ⟨enabled, key⟩
    rcases sample with disabled | other
    · rw [disabled] at enabled; cases enabled
    · exact other key

/-! ### The detectors leave the head (R35, R42, R52) -/

theorem ring_putRing_head (s : State) (r : Fin 8) (x : Ring) (h : x.head = (s.ring r).head) :
    ((s.putRing r x).ring r).head = (s.ring r).head := by
  rw [ring_putRing_same, h]

theorem limitStep_head (r : Fin 8) (a : Addr) (lane : Byte) (v : Int) (s : State) :
    ((limitStep r a lane v s).ring r).head = (s.ring r).head := by
  have zoned : ((s.putRing r { s.ring r with zone := classOf (s.ring r).cfg v }).ring r).head =
      (s.ring r).head := ring_putRing_head s r _ rfl
  unfold limitStep
  dsimp only
  split
  · exact zoned
  · split
    · rw [ring_of_rings (raiseIf_rings _ _ _), zoned]
    · rw [ring_of_rings (triggerIf_rings _ _ _ _ _ _), ring_of_rings (raiseIf_rings _ _ _), zoned]

theorem stuckStep_head (r : Fin 8) (a : Addr) (lane : Byte) (v : Int) (s : State) :
    ((stuckStep r a lane v s).ring r).head = (s.ring r).head := by
  unfold stuckStep
  dsimp only
  split
  · rw [ring_of_rings (triggerIf_rings _ _ _ _ _ _), ring_of_rings (raiseIf_rings _ _ _)]
    exact ring_putRing_head s r _ rfl
  · exact ring_putRing_head s r _ rfl

theorem sampleSteps_head (r : Fin 8) (a : Addr) (lane : Byte) (v : Int) (s : State) :
    ((sampleSteps r a lane v s).ring r).head = (s.ring r).head := by
  have extremes (u : State) : ((extremesStep r v u).ring r).head = (u.ring r).head :=
    ring_putRing_head u r _ rfl
  rw [sampleSteps, extremes, stuckStep_head, limitStep_head]

theorem samplesSteps_head (r : Fin 8) (a : Addr) (vs : List Int) : ∀ (lane : Byte) (s : State),
    ((samplesSteps r a lane vs s).ring r).head = (s.ring r).head := by
  induction vs with
  | nil => exact fun _ _ => rfl
  | cons v vs ih => exact fun lane s => (ih _ _).trans (sampleSteps_head r a lane v s)

/-- What a marker word leaves of its ring: its mode alone may change (R27, R52). -/
theorem markerStep_ring (r : Fin 8) (a : Addr) (code : Byte) (s : State) :
    ∃ mode, (markerStep r a code s).ring r = { s.ring r with mode := mode } := by
  have same {t : State} (h : t.rings = s.rings) : ∃ mode, t.ring r = { s.ring r with mode := mode } :=
    ⟨(s.ring r).mode, ring_of_rings h r⟩
  have commanded (source target : Mode) (k : EventKind) :
      ∃ mode, (markerMode r a code source target k s).ring r = { s.ring r with mode := mode } := by
    unfold markerMode
    dsimp only
    split
    · exact ⟨target, by rw [ring_raise, ring_putRing_same]⟩
    · exact same rfl
  unfold markerStep
  split
  · exact same rfl
  · exact same (raiseIf_rings _ _ s)
  · exact same (triggerIf_rings _ _ _ _ _ s)
  · exact commanded _ _ _
  · exact commanded _ _ _

/-! ### The evaluation of a producer word (R28, R34, R42) -/

/-- The ring once its head is at the word and the capture in POST has met it (R35, R81). -/
theorem ring_postWord_moveHead (r : Fin 8) (a : Addr) (sample : Bool) (s : State) :
    (postWord r a sample (moveHead r a s)).ring r = { s.ring r with head := some a } := by
  rw [ring_of_rings (postWord_rings _ _ _ _), moveHead, ring_putRing_same]

theorem evalWord_sample {r : Fin 8} {m : Fin 16} {w : WriteWord} {s : State} (a : Addr)
    (h : classifyWord (s.ring r) m w = .sample) :
    evalWord r m a w s =
      (samplesSteps r a 0#8
        ((samplesOf (s.ring r).cfg.format w.data).map (condition (s.ring r).cfg))
        (postWord r a true (moveHead r a s)), ⟨conditionedWord (s.ring r).cfg w.data, 15#4⟩) := by
  simp only [evalWord, h]

theorem evalWord_marker {r : Fin 8} {m : Fin 16} {w : WriteWord} {s : State} (a : Addr)
    (h : classifyWord (s.ring r) m w = .marker) :
    evalWord r m a w s =
      (markerStep r a (w.data.extractLsb' 0 8) (postWord r a false (moveHead r a s)), w) := by
  simp only [evalWord, h]

/-- Settles O26. -/
theorem producerWords : Obligations.ProducerWords := by
  intro r m a w s c lane met hc hlane hmet
  have steps (k : Byte) (v : Int) (u : State) : lane k v u = sampleSteps r a k v u := hlane k v u
  have meets (sample : Bool) : met sample = postWord r a sample (moveHead r a s) := hmet sample
  subst hc
  refine ⟨fun sample => ?_, fun marker => ?_⟩
  · rw [evalWord_sample a sample]
    refine ⟨fun s24 => ?_, fun p16 => ?_, ?_⟩
    · rw [steps, meets, s24]
      rfl
    · rw [steps, steps, meets, p16]
      rfl
    · rw [samplesSteps_head, ring_postWord_moveHead]
  · rw [evalWord_marker a marker, meets]
    obtain ⟨mode, ring⟩ := markerStep_ring r a (w.data.extractLsb' 0 8)
      (postWord r a false (moveHead r a s))
    rw [ring, ring_postWord_moveHead]
    exact ⟨rfl, rfl, rfl, rfl, rfl⟩

/-! ### Extremes (R37, R38) -/

/-- An extremes record holds the number, the least and the greatest of some samples (R37). -/
structure ExtremesOf (e : Extremes) (vs : List Int) : Prop where
  count : e.count = min vs.length 4294967295
  least : ∃ m ∈ vs, e.min = some m ∧ ∀ v ∈ vs, m ≤ v
  most  : ∃ m ∈ vs, e.max = some m ∧ ∀ v ∈ vs, v ≤ m

/-- The first sample is the least and the greatest. -/
theorem extremes_first (v : Int) : ExtremesOf (Extremes.empty.add v) [v] where
  count := rfl
  least := ⟨v, by simp, rfl, by simp⟩
  most := ⟨v, by simp, rfl, by simp⟩

/-- One more sample. -/
theorem ExtremesOf.add {e : Extremes} {vs : List Int} (h : ExtremesOf e vs) (v : Int) :
    ExtremesOf (e.add v) (vs ++ [v]) := by
  obtain ⟨count, ⟨least, inLeast, isLeast, below⟩, ⟨most, inMost, isMost, above⟩⟩ := h
  refine ⟨?_, ?_, ?_⟩
  · simp only [Extremes.add, satAdd, count, List.length_append, List.length_singleton]
    omega
  · by_cases lower : v < least
    · refine ⟨v, by simp, by simp [Extremes.add, isLeast, lower], fun u hu => ?_⟩
      rcases List.mem_append.mp hu with hu | hu
      · exact le_trans (le_of_lt lower) (below u hu)
      · exact le_of_eq (List.mem_singleton.mp hu).symm
    · refine ⟨least, by simp [inLeast], by simp [Extremes.add, isLeast, lower], fun u hu => ?_⟩
      rcases List.mem_append.mp hu with hu | hu
      · exact below u hu
      · exact List.mem_singleton.mp hu ▸ not_lt.mp lower
  · by_cases higher : most < v
    · refine ⟨v, by simp, by simp [Extremes.add, isMost, higher], fun u hu => ?_⟩
      rcases List.mem_append.mp hu with hu | hu
      · exact le_trans (above u hu) (le_of_lt higher)
      · exact le_of_eq (List.mem_singleton.mp hu)
    · refine ⟨most, by simp [inMost], by simp [Extremes.add, isMost, higher], fun u hu => ?_⟩
      rcases List.mem_append.mp hu with hu | hu
      · exact above u hu
      · exact List.mem_singleton.mp hu ▸ not_lt.mp higher

/-- A run of samples, sample by sample. -/
theorem extremes_of_samples (vs : List Int) (some : vs ≠ []) :
    ExtremesOf (vs.foldl Extremes.add Extremes.empty) vs := by
  induction vs using List.reverseRecOn with
  | nil => exact absurd rfl some
  | append_singleton vs v ih =>
    rw [List.foldl_append]
    by_cases first : vs = []
    · subst first; exact extremes_first v
    · exact (ih first).add v

/-- Settles O27. -/
theorem extremesOfSamples : Obligations.ExtremesOfSamples := by
  refine ⟨fun vs some => ?_, fun r v s => rfl⟩
  obtain ⟨count, least, most⟩ := extremes_of_samples vs some
  exact ⟨count, least, most⟩

end Sys2Proof.Machine
end

section
/-! PROOFS. Link commands: the records that are reported, SET RING, RING MODE, READ EXTREMES and CLEAR. -/

namespace Sys2Proof.Machine

/-! ### What a link command's frame leaves -/

/-- A link command whose execution changes nothing, whatever the link, is answered and leaves the rest. -/
theorem exec_reports {i : Instr} {s : State} {status : Status} {data : List Byte}
    (start : s.atFrameStart = true) (frame : exec i s = .next (goodFrame i (runCommand i) s))
    (code : encodeCommand i ≠ none)
    (run : ∀ l : Link, runCommand i { s with link := l } =
      ({ s with link := l }, mkReply status data)) :
    exec i s = .next (s.answers i status data) := by
  rw [frame, goodFrame_reports start code run]

/-- One whose execution leaves t, with whatever link, is answered and leaves t. -/
theorem exec_does {i : Instr} {s : State} {status : Status} {data : List Byte} (t : State)
    (start : s.atFrameStart = true) (frame : exec i s = .next (goodFrame i (runCommand i) s))
    (code : encodeCommand i ≠ none) (commit : t.link.commit = s.link.commit)
    (run : ∀ l : Link, runCommand i { s with link := l } =
      ({ t with link := l }, mkReply status data)) :
    exec i s = .next (t.answers i status data) := by
  rw [frame, goodFrame_does start code commit run]

/-! ### Records reported (R23, R92, R117, R133) -/

/-- A set of one, two or three members as a byte (R174). -/
theorem bitsByte_one (x : Bool) : bitsByte [x] = if x then 1#8 else 0#8 := by cases x <;> rfl

theorem bitsByte_two (x y : Bool) :
    bitsByte [x, y] = (if x then 1#8 else 0#8) ||| (if y then 2#8 else 0#8) := by
  cases x <;> cases y <;> rfl

theorem bitsByte_three (x y z : Bool) : bitsByte [x, y, z] =
    (if x then 1#8 else 0#8) ||| (if y then 2#8 else 0#8) ||| (if z then 4#8 else 0#8) := by
  cases x <;> cases y <;> cases z <;> rfl

theorem entryStateCode_eq (x : EntryState) :
    entryStateCode x = if x = .copying then 1#8 else 0#8 := by cases x <;> rfl

/-- Settles O41. -/
theorem recordCommands : Obligations.RecordCommands := by
  intro s start
  refine ⟨fun ring high => ⟨?_, fun block => ?_⟩, fun r ring hr => ⟨?_, fun block =>
    ⟨fun high => ?_, fun low empty => ?_, fun e low entry => ?_⟩⟩, fun capture high => ?_,
    fun c capture x hc hx => ?_, fun none => ?_, fun f fault => ?_⟩
  · refine exec_reports start rfl (Option.some_ne_none _) fun l => ?_
    simp only [runCommand, runGetRing, ringOf_none ring high, refuse]
  · refine exec_reports start rfl (Option.some_ne_none _) fun l => ?_
    simp only [runCommand, runGetMap, ringOf_none ring high, refuse]
  · refine exec_reports start rfl (Option.some_ne_none _) fun l => ?_
    simp only [runCommand, runGetRing, hr, ringOf_ofNat, ringBytes, bitsByte_one, replyOk]
    rfl
  · refine exec_reports start rfl (Option.some_ne_none _) fun l => ?_
    simp only [runCommand, runGetMap, hr, ringOf_ofNat, if_pos high, refuse]
  · refine exec_reports start rfl (Option.some_ne_none _) fun l => ?_
    have empty' : ({ s with link := l } : State).entry r block.toNat = none := empty
    simp only [runCommand, runGetMap, hr, ringOf_ofNat, if_neg (Nat.not_lt.mpr low), empty', refuse]
  · refine exec_reports start rfl (Option.some_ne_none _) fun l => ?_
    have entry' : ({ s with link := l } : State).entry r block.toNat = some e := entry
    simp only [runCommand, runGetMap, hr, ringOf_ofNat, if_neg (Nat.not_lt.mpr low), entry', entryBytes,
      entryStateCode_eq]
    rfl
  · refine exec_reports start rfl (Option.some_ne_none _) fun l => ?_
    simp only [runCommand, runGetCapture, captureOf_none capture high, refuse]
  · refine exec_reports start rfl (Option.some_ne_none _) fun l => ?_
    have record : ({ s with link := l } : State).capture c = x := hx.symm
    simp only [runCommand, runGetCapture, hc, captureOf_ofNat, record, captureBytes, bitsByte_two, bitsByte_three]
    rfl
  · refine exec_reports start rfl (Option.some_ne_none _) fun l => ?_
    simp only [runCommand, runGetFault, none, refuse]
  · refine exec_reports start rfl (Option.some_ne_none _) fun l => ?_
    simp only [runCommand, runGetFault, fault, faultBytes]
    rfl

/-! ### RING MODE (R25, R26) -/

/-- A mode byte is 0, 1 or 2 (9.3, R175). -/
theorem modeOf_none (b : Byte) (h : 2 < b.toNat) : modeOf b = none := by
  unfold modeOf
  rw [if_neg, if_neg, if_neg]
  · rintro rfl; simp at h
  · rintro rfl; simp at h
  · rintro rfl; simp at h

/-- Some capture in use lies on a busy ring (R25). -/
theorem ringBusy_iff (s : State) (r : Fin 8) : s.ringBusy r = true ↔
    ∃ c, (s.capture c).ring = r ∧ (s.capture c).state ≠ .free := by
  unfold State.ringBusy
  rw [List.any_eq_true]
  constructor
  · rintro ⟨c, -, h⟩
    exact ⟨c, by simpa [and_comm] using h⟩
  · rintro ⟨c, h⟩
    exact ⟨c, mem_captureIds c, by simpa [and_comm] using h⟩

theorem configured_eq (c : RingConfig) : c.configured = false ↔ c.sizeBlocks = 0 := by
  simp [RingConfig.configured]

theorem runRingMode_range {ring mode : Byte} (s : State)
    (h : ringOf ring = none ∨ modeOf mode = none) : runRingMode ring mode s = (s, refuse .range) := by
  unfold runRingMode
  split
  · next _ _ hr hm => rcases h with h | h <;> simp only [hr, hm, reduceCtorEq] at h
  · rfl

/-- RING MODE accepted: the ring takes its new mode. -/
theorem runRingMode_accepts (r : Fin 8) (target : Mode) (mode : Byte) (s : State)
    (code : modeOf mode = some target)
    (configured : target ≠ .off → (s.ring r).cfg.sizeBlocks ≠ 0)
    (idle : target = .off → (s.ring r).mode ≠ .off → s.ringBusy r = false) :
    runRingMode (BitVec.ofNat 8 r.val) mode s =
      (s.putRing r ((s.ring r).withMode target), replyOk []) := by
  simp only [runRingMode, ringOf_ofNat, code]
  rw [if_neg, if_neg]
  · rintro ⟨off, was, busy⟩
    rw [idle off was] at busy
    cases busy
  · rintro ⟨on, unset⟩
    exact configured on ((configured_eq _).mp unset)

/-- The frame of an accepted RING MODE. -/
theorem exec_ringMode_accepts (r : Fin 8) (target : Mode) (mode : Byte) (s : State) (x : Ring)
    (start : s.atFrameStart = true) (code : modeOf mode = some target)
    (configured : target ≠ .off → (s.ring r).cfg.sizeBlocks ≠ 0)
    (idle : target = .off → (s.ring r).mode ≠ .off → s.ringBusy r = false)
    (hx : (s.ring r).withMode target = x) :
    exec (.ringMode (BitVec.ofNat 8 r.val) mode) s =
      .next ((s.putRing r x).answers (.ringMode (BitVec.ofNat 8 r.val) mode) .ok []) := by
  refine exec_does _ start rfl (Option.some_ne_none _) rfl fun l => ?_
  refine (runRingMode_accepts r target mode { s with link := l } code configured idle).trans ?_
  subst hx
  rfl

/-- Settles O43. -/
theorem ringModeResults : Obligations.RingModeResults := by
  intro ring mode s start
  refine ⟨fun high => ?_, fun r target hr hm => ?_⟩
  · refine exec_reports start rfl (Option.some_ne_none _) fun l => ?_
    exact runRingMode_range _ (high.imp (ringOf_none ring) (modeOf_none mode))
  · have code : modeOf mode = some target := by
      rcases hm with ⟨rfl, rfl⟩ | ⟨rfl, rfl⟩ | ⟨rfl, rfl⟩ <;> rfl
    subst hr
    refine ⟨fun on unset => ?_, fun on set off => ?_, fun on set running => ?_,
      fun off running busy => ?_, fun off idle => ?_⟩
    · refine exec_reports start rfl (Option.some_ne_none _) fun l => ?_
      simp only [runCommand, runRingMode, ringOf_ofNat, code]
      rw [if_pos ⟨on, (configured_eq _).mpr unset⟩]
      rfl
    · refine exec_ringMode_accepts r target mode s _ start code (fun _ => set)
        (fun h => absurd h on) ?_
      rw [Ring.withMode, if_pos ⟨off, on⟩]
      rfl
    · refine exec_ringMode_accepts r target mode s _ start code (fun _ => set)
        (fun h => absurd h on) ?_
      rw [Ring.withMode, if_neg fun h => running h.1]
    · refine exec_reports start rfl (Option.some_ne_none _) fun l => ?_
      simp only [runCommand, runRingMode, ringOf_ofNat, code]
      rw [if_neg fun h => h.1 off, if_pos ⟨off, running, (ringBusy_iff s r).mpr busy⟩]
      rfl
    · refine exec_ringMode_accepts r target mode s _ start code (fun h => absurd off h)
        (fun _ running => ?_) ?_
      · rw [← Bool.not_eq_true, ringBusy_iff]
        rintro ⟨c, ring, used⟩
        exact used (idle.resolve_left running c ring)
      · rw [Ring.withMode, if_neg fun h => h.2 off, off]

/-! ### READ EXTREMES and CLEAR (R38, R39, R149) -/

/-- Settles O44. -/
theorem readExtremesAndClear : Obligations.ReadExtremesAndClear := by
  refine ⟨fun s start => ?_, fun ring s start => ⟨fun high => ?_, fun r hr => ?_⟩⟩
  · exact ⟨(runClear s).1,
      exec_does _ start rfl (Option.some_ne_none _) rfl fun l => rfl, rfl, ring_clear s⟩
  · refine exec_reports start rfl (Option.some_ne_none _) fun l => ?_
    simp only [runCommand, runReadExtremes, ringOf_none ring high, refuse]
  · subst hr
    refine congrArg _ (goodFrame_answers (c := .readExtremes _) start (Option.some_ne_none _) fun l _ => ?_)
    simp only [runReadExtremes, ringOf_ofNat, extremesBytes, bitsByte_one, replyOk]
    rfl

end Sys2Proof.Machine
end

section
/-! PROOFS. SET RING: the record that its parameters name, in range and clear of other regions. -/

namespace Sys2Proof.Machine

/-! ### Codes read from their bytes (R174, R175) -/

theorem indexOf_val {n : Nat} {b : Byte} {i : Fin n} (h : indexOf n b = some i) :
    i.val = b.toNat := by
  unfold indexOf at h
  split at h
  · cases h; rfl
  · cases h

theorem indexOf_isSome (n : Nat) (b : Byte) : (indexOf n b).isSome ↔ b.toNat < n := by
  unfold indexOf
  split <;> simp [*]

/-- A byte of value 0 or 1 is one of two. -/
theorem byte_le_one (b : Byte) : b.toNat ≤ 1 ↔ b = 0#8 ∨ b = 1#8 := by
  simp only [← BitVec.toNat_inj, BitVec.toNat_ofNat]
  omega

theorem formatOf_isSome (b : Byte) : (formatOf b).isSome ↔ b.toNat ≤ 1 := by
  rw [byte_le_one]
  unfold formatOf
  split
  · simp [*]
  · split <;> simp [*]

theorem flagOf_isSome (b : Byte) : (flagOf b).isSome ↔ b.toNat ≤ 1 := by
  rw [byte_le_one]
  unfold flagOf
  split
  · simp [*]
  · split <;> simp [*]

theorem formatCode_of {b : Byte} {f : Format} (h : formatOf b = some f) : formatCode f = b := by
  unfold formatOf at h
  split at h
  · next zero => cases h; exact zero.symm
  · split at h
    · next one => cases h; exact one.symm
    · cases h

theorem flagCode_of {b : Byte} {x : Bool} (h : flagOf b = some x) : flagCode x = b := by
  unfold flagOf at h
  split at h
  · next zero => cases h; exact zero.symm
  · split at h
    · next one => cases h; exact one.symm
    · cases h

theorem triggerEnableOf_isSome (b : Byte) : (triggerEnableOf b).isSome ↔ b.toNat < 32 := by
  unfold triggerEnableOf
  split <;> simp [*]

theorem eventEnableOf_isSome (b : Byte) : (eventEnableOf b).isSome ↔ b.toNat < 8 := by
  unfold eventEnableOf
  split <;> simp [*]

theorem triggerEnableCode_of {b : Byte} {t : TriggerEnable} (h : triggerEnableOf b = some t) :
    triggerEnableCode t = b := by
  unfold triggerEnableOf at h
  split at h
  · next small => cases h; exact triggerEnableCode_bits b small
  · cases h

theorem eventEnableCode_of {b : Byte} {t : EventEnable} (h : eventEnableOf b = some t) :
    eventEnableCode t = b := by
  unfold eventEnableOf at h
  split at h
  · next small => cases h; exact eventEnableCode_bits b small
  · cases h

/-- P16 is number 1, true is number 1 (9.3). -/
theorem format_p16_iff {b : Byte} {f : Format} (h : formatOf b = some f) : f = .p16 ↔ b = 1#8 := by
  rw [← formatCode_of h]
  cases f <;> decide

theorem flag_true_iff {b : Byte} {x : Bool} (h : flagOf b = some x) : x = true ↔ b = 1#8 := by
  rw [← flagCode_of h]
  cases x <;> decide

/-! ### The record named (R20, R21) -/

/-- The record holds what the parameters name. -/
structure Names (p : RingParams) (c : RingConfig) : Prop where
  base          : c.base = p.base
  sizeBlocks    : c.sizeBlocks = p.sizeBlocks.toNat
  producer      : masterOf p.producer = some c.producer
  format        : formatOf p.format = some c.format
  shift         : c.shift = p.shift.toNat
  offset        : c.offset = p.offset.toInt
  high          : c.high = p.high.toInt
  low           : c.low = p.low.toInt
  stuckLimit    : c.stuckLimit = p.stuckLimit.toNat
  markerKey     : c.markerKey = p.markerKey
  markerEnable  : flagOf p.markerEnable = some c.markerEnable
  preBlocks     : c.preBlocks = p.preBlocks.toNat
  postWords     : c.postWords = p.postWords.toNat
  triggerEnable : triggerEnableOf p.triggerEnable = some c.triggerEnable
  eventEnable   : eventEnableOf p.eventEnable = some c.eventEnable

/-- The range checks of R21 on the numbers, in the range of a format. -/
structure Numbers (p : RingParams) (f : Format) (markerEnable : Bool) : Prop where
  base   : p.base.toNat % 64 = 0
  size   : p.sizeBlocks.toNat = 0 ∨ 2 ≤ p.sizeBlocks.toNat ∧ p.sizeBlocks.toNat ≤ 65536
  shift  : p.shift.toNat ≤ 15
  offset : inFormat f p.offset.toInt = true
  high   : inFormat f p.high.toInt = true
  low    : inFormat f p.low.toInt = true
  order  : p.low.toInt ≤ p.high.toInt
  stuck  : p.stuckLimit.toNat ≠ 1
  marker : ¬(markerEnable = true ∧ f = .p16)

/-- SET RING's parameters give a record exactly when it is the one they name and its numbers are in range. -/
theorem ringConfigOf_iff (p : RingParams) (c : RingConfig) :
    ringConfigOf p = some c ↔ Names p c ∧ Numbers p c.format c.markerEnable := by
  constructor
  · intro h
    unfold ringConfigOf at h
    split at h
    · next hp hf hm ht he =>
      split at h
      · next checks =>
        cases h
        obtain ⟨base, size, shift, offset, high, low, order, stuck, marker⟩ := checks
        exact ⟨⟨rfl, rfl, hp, hf, rfl, rfl, rfl, rfl, rfl, rfl, hm, rfl, rfl, ht, he⟩,
          ⟨base, size, shift, offset, high, low, order, stuck, marker⟩⟩
      · cases h
    · cases h
  · rintro ⟨names, base, size, shift, offset, high, low, order, stuck, marker⟩
    unfold ringConfigOf
    rw [names.producer, names.format, names.markerEnable, names.triggerEnable, names.eventEnable]
    dsimp only
    rw [if_pos ⟨base, size, shift, offset, high, low, order, stuck, marker⟩]
    rw [← names.base, ← names.sizeBlocks, ← names.shift, ← names.offset, ← names.high, ← names.low,
      ← names.stuckLimit, ← names.markerKey, ← names.preBlocks, ← names.postWords]

/-- The parameters of SET RING are in range (R21), lo and hi being the format's (R32). -/
def ParamsInRange (p : RingParams) (lo hi : Int) : Prop :=
  p.base.toNat % 64 = 0 ∧
  (p.sizeBlocks = 0#24 ∨ 2 ≤ p.sizeBlocks.toNat ∧ p.sizeBlocks.toNat ≤ 65536) ∧
  p.producer.toNat ≤ 15 ∧ p.format.toNat ≤ 1 ∧ p.shift.toNat ≤ 15 ∧
  lo ≤ p.offset.toInt ∧ p.offset.toInt ≤ hi ∧ lo ≤ p.high.toInt ∧ p.high.toInt ≤ hi ∧
  lo ≤ p.low.toInt ∧ p.low.toInt ≤ hi ∧ p.low.toInt ≤ p.high.toInt ∧
  p.stuckLimit ≠ 1#8 ∧ p.markerEnable.toNat ≤ 1 ∧
  (p.format = 1#8 → p.markerEnable = 0#8) ∧
  p.triggerEnable.toNat < 32 ∧ p.eventEnable.toNat < 8

theorem inFormat_iff (f : Format) (v : Int) :
    inFormat f v = true ↔ formatMin f ≤ v ∧ v ≤ formatMax f := by
  simp [inFormat]

theorem size_zero_iff (n : BitVec 24) : n = 0#24 ↔ n.toNat = 0 :=
  BitVec.toNat_inj.symm

theorem limit_one_iff (b : Byte) : b = 1#8 ↔ b.toNat = 1 :=
  BitVec.toNat_inj.symm

/-- A marker key needs a format that is not P16 (R21). -/
theorem marker_iff {p : RingParams} {f : Format} {x : Bool} (hf : formatOf p.format = some f)
    (hx : flagOf p.markerEnable = some x) :
    ¬(x = true ∧ f = .p16) ↔ (p.format = 1#8 → p.markerEnable = 0#8) := by
  rw [format_p16_iff hf, ← flagCode_of hx]
  cases x
  · exact iff_of_true (by simp) fun _ => rfl
  · simp [flagCode]

/-- With its format known, the checks on the numbers are the parameters' ranges. -/
theorem numbers_iff {p : RingParams} {f : Format} {x : Bool} (hf : formatOf p.format = some f)
    (hx : flagOf p.markerEnable = some x) (producer : p.producer.toNat ≤ 15)
    (trigger : p.triggerEnable.toNat < 32) (event : p.eventEnable.toNat < 8) :
    Numbers p f x ↔ ParamsInRange p (formatMin f) (formatMax f) := by
  have format := (formatOf_isSome p.format).mp (by simp [hf])
  have flag := (flagOf_isSome p.markerEnable).mp (by simp [hx])
  constructor
  · rintro ⟨base, size, shift, offset, high, low, order, stuck, marker⟩
    obtain ⟨offsetLo, offsetHi⟩ := (inFormat_iff _ _).mp offset
    obtain ⟨highLo, highHi⟩ := (inFormat_iff _ _).mp high
    obtain ⟨lowLo, lowHi⟩ := (inFormat_iff _ _).mp low
    exact ⟨base, by rw [size_zero_iff]; exact size, producer, format, shift, offsetLo, offsetHi,
      highLo, highHi, lowLo, lowHi, order, mt (limit_one_iff _).mp stuck, flag,
      (marker_iff hf hx).mp marker, trigger, event⟩
  · rintro ⟨base, size, -, -, shift, offsetLo, offsetHi, highLo, highHi, lowLo, lowHi, order, stuck,
      -, marker, -, -⟩
    exact ⟨base, by rw [← size_zero_iff]; exact size, shift,
      (inFormat_iff _ _).mpr ⟨offsetLo, offsetHi⟩, (inFormat_iff _ _).mpr ⟨highLo, highHi⟩,
      (inFormat_iff _ _).mpr ⟨lowLo, lowHi⟩, order, mt (limit_one_iff _).mpr stuck,
      (marker_iff hf hx).mpr marker⟩

/-- A record is named exactly by parameters in range (R21). -/
theorem ringConfigOf_isSome (p : RingParams) (lo hi : Int)
    (bounds : ∀ f, formatOf p.format = some f → lo = formatMin f ∧ hi = formatMax f) :
    (∃ c, ringConfigOf p = some c) ↔ ParamsInRange p lo hi := by
  constructor
  · rintro ⟨c, h⟩
    obtain ⟨names, numbers⟩ := (ringConfigOf_iff p c).mp h
    obtain ⟨rfl, rfl⟩ := bounds _ names.format
    have producer := (indexOf_isSome 16 p.producer).mp (Option.isSome_of_eq_some names.producer)
    exact (numbers_iff names.format names.markerEnable (by omega)
      ((triggerEnableOf_isSome _).mp (Option.isSome_of_eq_some names.triggerEnable))
      ((eventEnableOf_isSome _).mp (Option.isSome_of_eq_some names.eventEnable))).mp numbers
  · intro range
    have ⟨_, _, producerLe, formatLe, _, _, _, _, _, _, _, _, _, markerLe, _, triggerLt, eventLt⟩ :=
      range
    obtain ⟨producer, hp⟩ := Option.isSome_iff_exists.mp
      ((indexOf_isSome 16 p.producer).mpr (Nat.lt_succ_of_le producerLe))
    obtain ⟨f, hf⟩ := Option.isSome_iff_exists.mp ((formatOf_isSome _).mpr formatLe)
    obtain ⟨x, hx⟩ := Option.isSome_iff_exists.mp ((flagOf_isSome _).mpr markerLe)
    obtain ⟨t, ht⟩ := Option.isSome_iff_exists.mp ((triggerEnableOf_isSome _).mpr triggerLt)
    obtain ⟨e, he⟩ := Option.isSome_iff_exists.mp ((eventEnableOf_isSome _).mpr eventLt)
    obtain ⟨rfl, rfl⟩ := bounds f hf
    exact ⟨⟨p.base, p.sizeBlocks.toNat, producer, f, p.shift.toNat, p.offset.toInt, p.high.toInt,
        p.low.toInt, p.stuckLimit.toNat, p.markerKey, x, p.preBlocks.toNat, p.postWords.toNat, t, e⟩,
      (ringConfigOf_iff p _).mpr
        ⟨⟨rfl, rfl, hp, hf, rfl, rfl, rfl, rfl, rfl, rfl, hx, rfl, rfl, ht, he⟩,
          (numbers_iff hf hx producerLe triggerLt eventLt).mpr range⟩⟩

/-- The record named has the bytes that were sent (R23, 9.4). -/
theorem ringConfigBytes_of_names {p : RingParams} {c : RingConfig} (h : Names p c) :
    ringConfigBytes c = encodeRingParams p := by
  have producer : c.producer.val = p.producer.toNat := indexOf_val h.producer
  simp only [ringConfigBytes, encodeRingParams, nat8, nat16, nat24, signed24, h.base, h.sizeBlocks,
    producer, h.shift, h.offset, h.high, h.low, h.stuckLimit, h.markerKey, h.preBlocks, h.postWords,
    formatCode_of h.format, flagCode_of h.markerEnable, triggerEnableCode_of h.triggerEnable,
    eventEnableCode_of h.eventEnable, BitVec.ofNat_toNat, BitVec.ofInt_toInt, BitVec.setWidth_eq]

theorem encodeRingParams_length (p : RingParams) : (encodeRingParams p).length = 27 := rfl

/-! ### The command (R20) -/

/-- On an OFF ring the ranges are checked, then the overlap, then the record is replaced. -/
theorem runSetRing_outOfRange {r : Fin 8} {p : RingParams} {s : State} (off : (s.ring r).mode = .off)
    (none : ringConfigOf p = none) :
    runSetRing (BitVec.ofNat 8 r.val) p s = (s, refuse .range) := by
  simp only [runSetRing, ringOf_ofNat, none]
  exact if_neg (not_not.mpr off)

theorem runSetRing_named {r : Fin 8} {p : RingParams} {c : RingConfig} {s : State}
    (off : (s.ring r).mode = .off) (some : ringConfigOf p = some c) :
    runSetRing (BitVec.ofNat 8 r.val) p s =
      if ringOverlaps s r c then (s, refuse .overlap)
      else (s.putRing r { s.ring r with cfg := c }, replyOk []) := by
  simp only [runSetRing, ringOf_ofNat, some]
  exact if_neg (not_not.mpr off)

/-- Settles O42. -/
theorem setRingResults : Obligations.SetRingResults := by
  intro ring p s start
  refine ⟨fun high => ?_, fun r hr => ⟨fun running => ?_,
    fun lo hi inRange overlap p16 s24 inRange_iff overlap_iff off => ?_⟩⟩
  · refine exec_reports start rfl (Option.some_ne_none _) fun l => ?_
    simp only [runCommand, runSetRing, ringOf_none ring high, refuse]
  · refine exec_reports start rfl (Option.some_ne_none _) fun l => ?_
    simp only [runCommand, runSetRing, hr, ringOf_ofNat]
    exact if_pos running
  subst hr
  have bounds (f : Format) (hf : formatOf p.format = some f) :
      lo = formatMin f ∧ hi = formatMax f := by
    cases f with
    | s24 => exact s24 fun one => by cases (format_p16_iff hf).mpr one
    | p16 => exact p16 ((format_p16_iff hf).mp rfl)
  have named : (∃ c, ringConfigOf p = some c) ↔ inRange :=
    (ringConfigOf_isSome p lo hi bounds).trans inRange_iff.symm
  have overlaps {c : RingConfig} (names : Names p c) : ringOverlaps s r c = true ↔ overlap := by
    rw [ringOverlaps_iff, overlap_iff, names.base, names.sizeBlocks]
    exact and_congr_left' (not_congr (size_zero_iff _).symm)
  refine ⟨fun outside => ?_, fun inside meets => ?_, fun inside clear => ?_⟩
  · have none : ringConfigOf p = none :=
      Option.eq_none_iff_forall_ne_some.mpr fun c h => outside (named.mp ⟨c, h⟩)
    exact exec_reports start rfl (Option.some_ne_none _) fun l => runSetRing_outOfRange off none
  · obtain ⟨c, some⟩ := named.mpr inside
    have names := ((ringConfigOf_iff p c).mp some).1
    exact exec_reports start rfl (Option.some_ne_none _) fun l =>
      (runSetRing_named (s := { s with link := l }) off some).trans (if_pos ((overlaps names).mpr meets))
  · obtain ⟨c, some⟩ := named.mpr inside
    have names := ((ringConfigOf_iff p c).mp some).1
    refine ⟨c, ?_, ringConfigBytes_of_names names, ?_, names.base, names.sizeBlocks,
      indexOf_val names.producer, format_p16_iff names.format, names.shift, names.offset, names.high,
      names.low, names.stuckLimit, names.markerKey, flag_true_iff names.markerEnable,
      names.preBlocks, names.postWords⟩
    · exact exec_does _ start rfl (Option.some_ne_none _) rfl fun l =>
        (runSetRing_named (s := { s with link := l }) off some).trans
          (if_neg (mt (overlaps names).mp clear))
    · rw [ringConfigBytes_of_names names, encodeRingParams_length]

end Sys2Proof.Machine
end

section
/-! PROOFS. The detectors' steps: limit, stuck run, marker actions. -/

namespace Sys2Proof.Machine

/-! ### Events and requests that are enabled (R44) -/

theorem ring_raiseIf (on : Bool) (e : Event) (s : State) (r : Fin 8) :
    (raiseIf on e s).ring r = s.ring r :=
  ring_of_rings (raiseIf_rings on e s) r

theorem triggerIf_disabled {r : Fin 8} {src : Source} {s : State} (detail : Byte) (a : Addr)
    (v : Option Int) (h : (s.ring r).cfg.triggerEnable.holds src = false) :
    triggerIf r src detail a v s = s := by
  rw [triggerIf, h]
  rfl

theorem triggerIf_enabled {r : Fin 8} {src : Source} {s : State} (detail : Byte) (a : Addr)
    (v : Option Int) (h : (s.ring r).cfg.triggerEnable.holds src = true) :
    triggerIf r src detail a v s = (handTrigger r ⟨src, some detail, some a, v⟩ s).1 :=
  if_pos h

/-- A detector's report: its event, when enabled, then its request, when enabled, the enables being those
of the ring before its record x was written (R44, R47, R50). -/
theorem report_cases (r : Fin 8) (src : Source) (lane : Byte) (a : Addr) (v : Option Int) (on : Bool)
    (e : Event) (x : Ring) (s : State) (cfg : x.cfg = (s.ring r).cfg) :
    ((s.ring r).cfg.triggerEnable.holds src = false →
      triggerIf r src lane a v (raiseIf on e (s.putRing r x)) = raiseIf on e (s.putRing r x)) ∧
    ((s.ring r).cfg.triggerEnable.holds src = true →
      triggerIf r src lane a v (raiseIf on e (s.putRing r x)) =
        (handTrigger r ⟨src, some lane, some a, v⟩ (raiseIf on e (s.putRing r x))).1) := by
  have enables : ((raiseIf on e (s.putRing r x)).ring r).cfg = (s.ring r).cfg := by
    rw [ring_raiseIf, ring_putRing_same, cfg]
  exact ⟨fun off => triggerIf_disabled lane a v (by rw [enables, off]),
    fun on => triggerIf_enabled lane a v (by rw [enables, on])⟩

/-! ### The limit step (R45 to R47) -/

/-- The class of a sample, both comparisons strict (R45). -/
theorem classOf_eq {c : RingConfig} {v : Int} {z : Zone}
    (h : c.high < v ∧ z = .above ∨ v ≤ c.high ∧ v < c.low ∧ z = .below ∨
      v ≤ c.high ∧ c.low ≤ v ∧ z = .inside) : classOf c v = z := by
  unfold classOf
  rcases h with ⟨above, rfl⟩ | ⟨notAbove, below, rfl⟩ | ⟨notAbove, notBelow, rfl⟩
  · rw [if_pos above]
  · rw [if_neg (not_lt.mpr notAbove), if_pos below]
  · rw [if_neg (not_lt.mpr notAbove), if_neg (not_lt.mpr notBelow)]

/-- From UNSET, or with no change, R46 gives nothing. -/
theorem zoneChange_none {old new : Zone} (h : old = .unset ∨ old = new) : zoneChange old new = none := by
  rcases h with rfl | rfl
  · rfl
  · cases old <;> rfl

theorem zoneChange_inside {old : Zone} (set : old ≠ .unset) (moved : old ≠ .inside) :
    zoneChange old .inside = some (.limitClear, none) := by
  cases old with
  | unset => exact absurd rfl set
  | inside => exact absurd rfl moved
  | above => rfl
  | below => rfl

theorem zoneChange_above {old : Zone} (set : old ≠ .unset) (moved : old ≠ .above) :
    zoneChange old .above = some (.limitHigh, some .limitHigh) := by
  cases old with
  | unset => exact absurd rfl set
  | above => exact absurd rfl moved
  | inside => rfl
  | below => rfl

theorem zoneChange_below {old : Zone} (set : old ≠ .unset) (moved : old ≠ .below) :
    zoneChange old .below = some (.limitLow, some .limitLow) := by
  cases old with
  | unset => exact absurd rfl set
  | below => exact absurd rfl moved
  | inside => rfl
  | above => rfl

/-- What the limit step does with nothing to report, with an event alone, and with both. -/
theorem limitStep_none {r : Fin 8} {v : Int} {s : State} (a : Addr) (lane : Byte)
    (h : zoneChange (s.ring r).zone (classOf (s.ring r).cfg v) = none) :
    limitStep r a lane v s = s.putRing r { s.ring r with zone := classOf (s.ring r).cfg v } := by
  simp only [limitStep, h]

theorem limitStep_event {r : Fin 8} {v : Int} {s : State} {kind : EventKind} (a : Addr) (lane : Byte)
    (h : zoneChange (s.ring r).zone (classOf (s.ring r).cfg v) = some (kind, none)) :
    limitStep r a lane v s =
      raiseIf (s.ring r).cfg.eventEnable.limit (wordEvent kind r a (some v) lane)
        (s.putRing r { s.ring r with zone := classOf (s.ring r).cfg v }) := by
  simp only [limitStep, h]

theorem limitStep_trigger {r : Fin 8} {v : Int} {s : State} {kind : EventKind} {src : Source}
    (a : Addr) (lane : Byte)
    (h : zoneChange (s.ring r).zone (classOf (s.ring r).cfg v) = some (kind, some src)) :
    limitStep r a lane v s =
      triggerIf r src lane a (some v)
        (raiseIf (s.ring r).cfg.eventEnable.limit (wordEvent kind r a (some v) lane)
          (s.putRing r { s.ring r with zone := classOf (s.ring r).cfg v })) := by
  simp only [limitStep, h]

/-- Settles O28: the zone change decides what is reported, and the enables what of that is sent. -/
theorem limitStepTable : Obligations.LimitStepTable := by
  intro r a lane v z s s1 hz hs1
  have hclass := classOf_eq hz
  subst hclass hs1
  refine ⟨fun still => limitStep_none a lane (zoneChange_none still), fun set moved inside => ?_,
    fun kind src set moved outside => ?_⟩
  · rw [inside] at moved
    exact limitStep_event a lane (by rw [inside, zoneChange_inside set moved])
  · have change : zoneChange (s.ring r).zone (classOf (s.ring r).cfg v) = some (kind, some src) := by
      rcases outside with ⟨above, rfl, rfl⟩ | ⟨below, rfl, rfl⟩
      · rw [above] at moved ⊢
        exact zoneChange_above set moved
      · rw [below] at moved ⊢
        exact zoneChange_below set moved
    rw [limitStep_trigger a lane change]
    exact ⟨_, rfl, report_cases r src lane a (some v) _ _ _ s rfl⟩

/-! ### The stuck step (R48 to R50) -/

/-- The run after one more sample, saturating at 255 (R48). -/
theorem stuckRun_next {k k' : StuckRun} {v : Int}
    (h : k.last = some v ∧ k' = ⟨some v, min (k.count + 1) 255, k.reported⟩ ∨
      k.last ≠ some v ∧ k' = ⟨some v, 1, false⟩) : k.next v = k' := by
  unfold StuckRun.next
  rcases h with ⟨same, rfl⟩ | ⟨other, rfl⟩
  · rw [if_pos same, same]
    rfl
  · rw [if_neg other]

theorem stuckStep_silent {r : Fin 8} {v : Int} {s : State} (a : Addr) (lane : Byte)
    (h : (s.ring r).cfg.stuckLimit = 0 ∨ ((s.ring r).stuck.next v).count ≠ (s.ring r).cfg.stuckLimit ∨
      ((s.ring r).stuck.next v).reported = true) :
    stuckStep r a lane v s = s.putRing r { s.ring r with stuck := (s.ring r).stuck.next v } := by
  refine if_neg ?_
  rintro ⟨limit, reached, unreported⟩
  rcases h with zero | short | reported
  · exact limit zero
  · exact short reached
  · rw [unreported] at reported
    cases reported

theorem stuckStep_reports {r : Fin 8} {v : Int} {s : State} (a : Addr) (lane : Byte)
    (limit : (s.ring r).cfg.stuckLimit ≠ 0)
    (reached : ((s.ring r).stuck.next v).count = (s.ring r).cfg.stuckLimit)
    (unreported : ((s.ring r).stuck.next v).reported = false) :
    stuckStep r a lane v s =
      triggerIf r .stuck lane a (some v)
        (raiseIf (s.ring r).cfg.eventEnable.stuck (wordEvent .stuck r a (some v) lane)
          (s.putRing r { s.ring r with
            stuck := { (s.ring r).stuck.next v with reported := true } })) :=
  if_pos ⟨limit, reached, unreported⟩

/-- Settles O29: the run decides whether to report, and the enables what of the report is sent. -/
theorem stuckStepRule : Obligations.StuckStepRule := by
  intro r a lane v k s s1 hk hs1
  have run := stuckRun_next hk
  subst run hs1
  refine ⟨stuckStep_silent a lane, fun limit reached unreported => ?_⟩
  rw [stuckStep_reports a lane limit reached unreported]
  exact ⟨_, rfl, report_cases r .stuck lane a (some v) _ _ _ s rfl⟩

/-! ### Marker actions (R27, R52, R53) -/

/-- A marker changes the mode of a ring in the mode that the action leaves, and of no other (R27). -/
theorem markerMode_changes {r : Fin 8} {source : Mode} {s : State} (a : Addr) (code : Byte)
    (target : Mode) (k : EventKind) (h : (s.ring r).mode = source) :
    markerMode r a code source target k s =
      raise (wordEvent k r a none code) (s.putRing r { s.ring r with mode := target }) :=
  if_pos h

theorem markerMode_keeps {r : Fin 8} {source : Mode} {s : State} (a : Addr) (code : Byte)
    (target : Mode) (k : EventKind) (h : (s.ring r).mode ≠ source) :
    markerMode r a code source target k s = s :=
  if_neg h

/-- Settles O30, action by action. -/
theorem markerActions : Obligations.MarkerActions := by
  intro r a code s
  refine ⟨fun pass => ?_, fun note => ?_, fun trigger off => ?_, fun trigger on => ?_,
    fun arm safe => ?_, fun arm other => ?_, fun safe armed => ?_, fun safe other => ?_⟩
  · rw [markerStep, pass]
  · rw [markerStep, note]
    rfl
  · rw [markerStep, trigger]
    exact triggerIf_disabled code a none off
  · rw [markerStep, trigger]
    exact triggerIf_enabled code a none on
  · rw [markerStep, arm]
    exact markerMode_changes a code .armed .ringArmed safe
  · rw [markerStep, arm]
    exact markerMode_keeps a code .armed .ringArmed other
  · rw [markerStep, safe]
    exact markerMode_changes a code .safe .ringSafe armed
  · rw [markerStep, safe]
    exact markerMode_keeps a code .safe .ringSafe other

end Sys2Proof.Machine
end

section
/-! PROOFS. Trigger requests: every outcome, and FORCE. -/

namespace Sys2Proof.Machine

/-! ### Requests that reach no capture (R61, R72) -/

theorem handTrigger_notArmed {r : Fin 8} {s : State} (t : TriggerReq)
    (h : (s.ring r).mode ≠ .armed) : handTrigger r t s = (s, .ignored) := by
  unfold handTrigger
  split
  · rfl
  · rfl
  · next armed => exact absurd armed h

theorem handTrigger_noPosition {r : Fin 8} {t : TriggerReq} {s : State}
    (armed : (s.ring r).mode = .armed) (h : t.address = none) :
    handTrigger r t s = (raise (refusedEvent r t.source none none reasonNoPosition) s, .noPosition) := by
  simp only [handTrigger, armed, h]

theorem handTrigger_at {r : Fin 8} {t : TriggerReq} {a : Addr} {s : State}
    (armed : (s.ring r).mode = .armed) (h : t.address = some a) :
    handTrigger r t s = captureTrigger r t a s := by
  simp only [handTrigger, armed, h]

/-! ### The capture table's action (R71, R73 to R76) -/

theorem captureTrigger_absorbed {r : Fin 8} {s : State} {c : Fin 16} (t : TriggerReq) (a : Addr)
    (post : s.postOn r = some c) : captureTrigger r t a s = (absorb c s, .absorbed c) := by
  simp only [captureTrigger, post]

theorem captureTrigger_blocked {r : Fin 8} {a : Addr} {s : State} {c : Fin 16} (t : TriggerReq)
    (post : s.postOn r = none) (covered : s.coveredBy r (blockOf (s.ring r).cfg a) = some c) :
    captureTrigger r t a s =
      (raise (refusedEvent r t.source (some c) (some a) reasonBlocked) s, .blocked c) := by
  simp only [captureTrigger, post, covered]

theorem captureTrigger_noRecord {r : Fin 8} {a : Addr} {s : State} (t : TriggerReq)
    (post : s.postOn r = none) (clear : s.coveredBy r (blockOf (s.ring r).cfg a) = none)
    (full : s.freeRecord = none) :
    captureTrigger r t a s =
      (raise (refusedEvent r t.source none (some a) reasonNoRecord) s, .noRecord) := by
  simp only [captureTrigger, post, clear, full]

theorem captureTrigger_opens {r : Fin 8} {a : Addr} {s : State} {c : Fin 16} (t : TriggerReq)
    (post : s.postOn r = none) (clear : s.coveredBy r (blockOf (s.ring r).cfg a) = none)
    (free : s.freeRecord = some c) :
    captureTrigger r t a s = (openCapture r t a c s, .opened c) := by
  simp only [captureTrigger, post, clear, free]

/-! ### The opening of a capture (R76, R79) -/

/-- The record of a capture once it has opened: in POST, or HELD when no words are to come (R76, R79). -/
def openedRecord (s : State) (r : Fin 8) (t : TriggerReq) (a : Addr) : Capture :=
  { openRecord s r t a with state := if (s.ring r).cfg.postWords = 0 then .held else .post }

/-- The events of an opening: CAPTURE_OPEN, and CAPTURE_READY behind it when no words are to come. -/
def openedQueue (s : State) (r : Fin 8) (t : TriggerReq) (a : Addr) (c : Fin 16) : EventQueue :=
  if (s.ring r).cfg.postWords = 0 then
    arrive (readyEvent c (openedRecord s r t a) (s.ring r).cfg .noPost)
      (arrive (openEvent r c t a) s.queue)
  else arrive (openEvent r c t a) s.queue

/-- The cause NO_POST leaves CUT as it is, so becoming HELD at once changes the record's state alone. -/
theorem openCapture_eq (r : Fin 8) (t : TriggerReq) (a : Addr) (c : Fin 16) (s : State) :
    openCapture r t a c s =
      { s.putCapture c (openedRecord s r t a) with
        caps := { (s.putCapture c (openedRecord s r t a)).caps with serial := s.caps.serial + 1#16 }
        queue := openedQueue s r t a c } := by
  by_cases noWords : (s.ring r).cfg.postWords = 0
  · refine (if_pos noWords).trans ?_
    simp only [becomeHeld, capture_raise, capture_putCapture_same, ReadyCause.cuts, Bool.or_false,
      openedRecord, openedQueue, if_pos noWords]
    simp only [State.putCapture, raise, Vector.set_set]
    rfl
  · refine (if_neg noWords).trans ?_
    simp only [openedRecord, openedQueue, if_neg noWords]
    simp only [State.putCapture, raise, Vector.set_set]

/-! ### FORCE (R60) -/

/-- A trigger request leaves the link. -/
theorem handTrigger_link (r : Fin 8) (t : TriggerReq) (s : State) :
    (handTrigger r t s).1.link = s.link :=
  congrArg (fun p => p.1.link) (handTrigger_withLink r t s s.link)

theorem runForce_notArmed {r : Fin 8} {s : State} (h : (s.ring r).mode ≠ .armed) :
    runForce (BitVec.ofNat 8 r.val) s = (s, refuse .state) := by
  simp only [runForce, ringOf_ofNat, if_neg h]

theorem runForce_armed {r : Fin 8} {s u : State} {outcome : TriggerOutcome}
    (armed : (s.ring r).mode = .armed)
    (h : handTrigger r ⟨.forced, none, (s.ring r).head, none⟩ s = (u, outcome)) :
    runForce (BitVec.ofNat 8 r.val) s = (u, replyOk (outcomeBytes outcome)) := by
  simp only [runForce, ringOf_ofNat, if_pos armed, h]

/-- The reply's outcome number, presence and capture (R60, 9.4). -/
theorem outcomeBytes_eq {outcome : TriggerOutcome} {data : List Byte}
    (h : (∃ c, outcome = .opened c ∧ data = [1#8, 1#8, BitVec.ofNat 8 c.val]) ∨
      (∃ c, outcome = .absorbed c ∧ data = [2#8, 1#8, BitVec.ofNat 8 c.val]) ∨
      (∃ c, outcome = .blocked c ∧ data = [3#8, 0#8, 0#8]) ∨
      outcome = .noRecord ∧ data = [4#8, 0#8, 0#8] ∨
      outcome = .noPosition ∧ data = [5#8, 0#8, 0#8]) : outcomeBytes outcome = data := by
  rcases h with ⟨c, rfl, rfl⟩ | ⟨c, rfl, rfl⟩ | ⟨c, rfl, rfl⟩ | ⟨rfl, rfl⟩ | ⟨rfl, rfl⟩ <;> rfl

/-- Settles O34: the table's tests in their order, and FORCE as the request at the ring's head. -/
theorem forceOutcomes : Obligations.ForceOutcomes := by
  refine ⟨rfl, fun r t s => ⟨handTrigger_notArmed t, handTrigger_noPosition, fun a armed address => ?_⟩,
    fun r ring s start => ⟨fun high => ?_, fun hr notArmed => ?_,
      fun u outcome data hr armed hands replies => ?_⟩⟩
  · rw [handTrigger_at armed address]
    refine ⟨fun c => captureTrigger_absorbed t a, fun c => captureTrigger_blocked t,
      captureTrigger_noRecord t, fun c post clear free => ?_⟩
    rw [captureTrigger_opens t post clear free, openCapture_eq]
    exact ⟨openedRecord s r t a, openedQueue s r t a c, rfl, rfl, rfl, rfl, rfl, rfl, rfl, rfl, rfl,
      rfl, rfl, rfl, rfl, rfl, rfl, rfl, fun words => if_neg words, fun noWords => if_pos noWords, rfl⟩
  · refine exec_reports start rfl (Option.some_ne_none _) fun l => ?_
    simp only [runCommand, runForce, ringOf_none ring high, refuse]
  · subst hr
    exact exec_reports start rfl (Option.some_ne_none _) fun l =>
      runForce_notArmed (s := { s with link := l }) notArmed
  · subst hr
    have link : u.link = s.link := by
      rw [← handTrigger_link r ⟨.forced, none, (s.ring r).head, none⟩ s, hands]
    rw [← outcomeBytes_eq replies]
    refine exec_does u start rfl (Option.some_ne_none _) (congrArg _ link) fun l => ?_
    refine runForce_armed (s := { s with link := l }) armed ?_
    exact (handTrigger_withLink r ⟨.forced, none, (s.ring r).head, none⟩ s l).trans (by rw [hands])

end Sys2Proof.Machine
end

section
/-! PROOFS. The trigger lines: a level change, SET LINE; the marker table: SET MARKER. -/

namespace Sys2Proof.Machine

/-! ### A line changes (R54, R55, R58) -/

/-- A line whose condition does not go from false to true takes its settings or level alone. -/
theorem changeLine_quiet {n : Fin 4} {x : Line} {s : State}
    (h : (s.line n).condition = true ∨ x.holds = false) :
    changeLine n x s = s.putLine n { x with condition := x.holds } := by
  refine if_neg ?_
  rcases h with was | isNot
  · simp [was]
  · simp [isNot]

/-- A line whose condition does fires: its event, then the requests on the rings of its route (R55 to R57). -/
theorem changeLine_fires {n : Fin 4} {x : Line} {s : State}
    (wasNot : (s.line n).condition = false) (holds : x.holds = true) :
    changeLine n x s =
      (ringIds.filter fun r => x.route.getLsbD r.val && (s.ring r).cfg.triggerEnable.line &&
          (s.ring r).mode == .armed).foldl
        (fun u r =>
          (handTrigger r ⟨.line, some (BitVec.ofNat 8 n.val), (s.ring r).head, none⟩ u).1)
        (raise (lineEvent n x.route) (s.putLine n { x with condition := x.holds })) := by
  refine (if_pos (by simp [wasNot, holds])).trans ?_
  exact lineTriggers_fold n x.route s ringIds _ rfl

/-- Settles O31: the change of a line that differs from the stored one in its level. -/
theorem trigLevelChangeResults : Obligations.TrigLevelChangeResults := by
  intro n level y s s1 hy hs1
  subst hy hs1
  refine ⟨fun low => ?_, fun high quiet => ?_, fun high wasNot holds => ?_⟩
  · exact congrArg _ (if_neg (by rw [low]; decide))
  · refine congrArg _ ((if_pos high).trans ?_)
    exact changeLine_quiet (x := { s.line n with level := level }) quiet
  · refine congrArg _ ((if_pos high).trans ?_)
    exact changeLine_fires (x := { s.line n with level := level }) wasNot holds

/-! ### Lines and the link -/

theorem lineTrigger_withLink (n : Fin 4) (r : Fin 8) (s : State) (l : Link) :
    lineTrigger n r { s with link := l } = { lineTrigger n r s with link := l } := by
  unfold lineTrigger
  rw [show State.ring { s with link := l } r = s.ring r from rfl]
  split
  · rw [handTrigger_withLink]
  · rfl

theorem lineTriggers_withLink (n : Fin 4) (route : BitVec 8) (l : Link) (rs : List (Fin 8)) :
    ∀ s : State, lineTriggers n route rs { s with link := l } =
      { lineTriggers n route rs s with link := l } := by
  induction rs with
  | nil => exact fun _ => rfl
  | cons r rs ih =>
    intro s
    simp only [lineTriggers]
    split
    · rw [lineTrigger_withLink, ih]
    · exact ih s

/-- The change of a line neither reads nor changes the link. -/
theorem changeLine_withLink (n : Fin 4) (x : Line) (s : State) (l : Link) :
    changeLine n x { s with link := l } = { changeLine n x s with link := l } := by
  unfold changeLine
  rw [show State.line { s with link := l } n = s.line n from rfl]
  dsimp only
  split
  · exact lineTriggers_withLink n _ l ringIds (raise _ (s.putLine n _))
  · rfl

theorem changeLine_link (n : Fin 4) (x : Line) (s : State) : (changeLine n x s).link = s.link :=
  congrArg (fun t => t.link) (changeLine_withLink n x s s.link)

/-! ### SET LINE (R58) -/

theorem lineOf_ofNat (n : Fin 4) : lineOf (BitVec.ofNat 8 n.val) = some n :=
  indexOf_ofNat 4 n (by omega)

theorem lineOf_none (b : Byte) (h : 3 < b.toNat) : lineOf b = none := indexOf_none 4 b h

theorem runSetLine_range {line reference mask : Byte} (route : Byte) (s : State)
    (h : lineOf line = none ∨ flagOf reference = none ∨ flagOf mask = none) :
    runSetLine line reference mask route s = (s, refuse .range) := by
  unfold runSetLine
  split
  · next _ _ _ hl hr hm =>
    rcases h with h | h | h
    · rw [hl] at h; cases h
    · rw [hr] at h; cases h
    · rw [hm] at h; cases h
  · rfl

theorem runSetLine_named (n : Fin 4) (ref m : Bool) (route : Byte) (s : State) :
    runSetLine (BitVec.ofNat 8 n.val) (if ref then 1#8 else 0#8) (if m then 1#8 else 0#8) route s =
      (changeLine n { s.line n with reference := ref, mask := m, route := route } s, replyOk []) := by
  simp only [runSetLine, lineOf_ofNat, flagOf_code]

/-- The frame of an accepted SET LINE. -/
theorem exec_setLine_named (n : Fin 4) (ref m : Bool) (route : Byte) (s : State)
    (c : Instr) (start : s.atFrameStart = true)
    (hc : c = .setLine (BitVec.ofNat 8 n.val) (if ref then 1#8 else 0#8)
      (if m then 1#8 else 0#8) route) :
    exec c s =
      .next ((changeLine n { s.line n with reference := ref, mask := m, route := route } s).answers
        c .ok []) := by
  subst hc
  refine exec_does _ start rfl (Option.some_ne_none _) (congrArg _ (changeLine_link n _ s)) fun l => ?_
  refine (runSetLine_named n ref m route { s with link := l }).trans ?_
  exact congrArg (·, replyOk []) (changeLine_withLink n _ s l)

/-- Settles O32: the change of a line whose settings are new. -/
theorem setLineResults : Obligations.SetLineResults := by
  intro line reference mask route s start
  refine ⟨fun outside => ?_, fun n ref m y hl hr hm hy => ?_⟩
  · refine exec_reports start rfl (Option.some_ne_none _) fun l => ?_
    exact runSetLine_range route _
      (outside.imp (lineOf_none line) (Or.imp (flagOf_none reference) (flagOf_none mask)))
  · subst hl hr hm hy
    rw [exec_setLine_named n ref m route s _ start rfl]
    refine ⟨fun quiet => ?_, fun wasNot holds => ?_⟩
    · rw [changeLine_quiet (x := { s.line n with reference := ref, mask := m, route := route }) quiet]
      rfl
    · rw [changeLine_fires (x := { s.line n with reference := ref, mask := m, route := route }) wasNot
        holds]
      rfl

/-! ### SET MARKER (R51) -/

/-- The marker table with the entries from first to last set to an action. -/
def setMarkers (first last : Byte) (act : MarkerAction) (table : Vector MarkerAction 256) :
    Vector MarkerAction 256 :=
  Vector.ofFn fun i : Fin 256 =>
    if first.toNat ≤ i.val ∧ i.val ≤ last.toNat then act else table[i.val]'i.isLt

/-- An action number is 0 to 4 (9.3). -/
theorem markerActionOf_none (b : Byte) (h : 4 < b.toNat) : markerActionOf b = none := by
  have other (k : Byte) (small : k.toNat ≤ 4) : ¬ b = k := by rintro rfl; omega
  unfold markerActionOf
  rw [if_neg (other 0#8 (by decide)), if_neg (other 1#8 (by decide)), if_neg (other 2#8 (by decide)),
    if_neg (other 3#8 (by decide)), if_neg (other 4#8 (by decide))]

theorem runSetMarker_range {first last action : Byte} (s : State)
    (h : last.toNat < first.toNat ∨ 4 < action.toNat) :
    runSetMarker first last action s = (s, refuse .range) := by
  unfold runSetMarker
  split
  · rfl
  · next act named =>
    refine if_pos (h.resolve_right fun high => ?_)
    rw [markerActionOf_none action high] at named
    cases named

theorem runSetMarker_sets {first last action : Byte} {act : MarkerAction} (s : State)
    (order : first.toNat ≤ last.toNat) (named : markerActionOf action = some act) :
    runSetMarker first last action s =
      ({ s with det := { s.det with markers := setMarkers first last act s.det.markers } },
        replyOk []) := by
  simp only [runSetMarker, named, if_neg (not_lt.mpr order), setMarkers]

/-- Settles O33: the table is written entry by entry. -/
theorem setMarkerResults : Obligations.SetMarkerResults := by
  intro first last action s start
  refine ⟨fun outside => ?_, fun act order action_eq => ?_⟩
  · exact exec_reports start rfl (Option.some_ne_none _) fun l => runSetMarker_range _ outside
  · have named : markerActionOf action = some act := by
      rcases action_eq with ⟨rfl, rfl⟩ | ⟨rfl, rfl⟩ | ⟨rfl, rfl⟩ | ⟨rfl, rfl⟩ | ⟨rfl, rfl⟩ <;> rfl
    refine ⟨{ s with det := { s.det with markers := setMarkers first last act s.det.markers } },
      ?_, rfl, fun code => ?_⟩
    · exact exec_does _ start rfl (Option.some_ne_none _) rfl fun l =>
        runSetMarker_sets { s with link := l } order named
    · simp only [State.marker, setMarkers, Vector.getElem_ofFn]

end Sys2Proof.Machine
end

section
/-! PROOFS. The divert map fits the free list and the captures, whatever the step. -/

namespace Sys2Proof.Machine

variable {A : Fin 8 → Addr → Prop}

/-! ### Every slot in one place, every block with one entry (R96, R98) -/

/-- An entry for a block that had none keeps the blocks distinct (R98). -/
theorem keys_append {map : List MapEntry} {e : MapEntry}
    (keys : (map.map fun e => (e.ring, e.block)).Nodup)
    (new : findEntry map e.ring e.block = none) :
    ((map ++ [e]).map fun e => (e.ring, e.block)).Nodup := by
  rw [List.map_append]
  refine List.nodup_append.mpr ⟨keys, List.nodup_singleton _, fun k old k' last same => ?_⟩
  rw [same, List.mem_singleton.mp last] at old
  exact findEntry_none_key _ _ _ new old

/-- The slot of an entry that leaves the map is free again (R101). -/
theorem dropped_keeps_pool (e : MapEntry) (p : Pool) (mem : e ∈ p.map) (h : p.Sound) :
    { p with map := dropEntry p.map e.ring e.block, freeList := p.freeList ++ [e.slot] }.Sound where
  slots := by
    have left := (dropEntry_perm p.map e h.keys mem).map fun e => e.slot
    refine List.Perm.trans ?_ h.slots
    rw [List.append_assoc]
    exact left.append_left p.freeList
  keys := h.keys.sublist (List.filter_sublist.map _)

/-- The head slot of the free list becomes that of an entry for a block that had none (R107). -/
theorem allocated_keeps_pool (e : MapEntry) (rest : List Nat) (p : Pool)
    (slot : p.freeList = e.slot :: rest) (new : findEntry p.map e.ring e.block = none) (h : p.Sound) :
    { p with map := p.map ++ [e], freeList := rest }.Sound where
  slots := by
    refine List.Perm.trans ?_ h.slots
    rw [slot, List.map_append, ← List.append_assoc]
    exact List.perm_append_comm
  keys := keys_append h.keys new

/-- An entry that changes keeps its block and its slot. -/
theorem remapped_keeps_pool (r : Fin 8) (b : Nat) (f : MapEntry → MapEntry) (p : Pool)
    (keep : ∀ e, (f e).ring = e.ring ∧ (f e).block = e.block ∧ (f e).capture = e.capture ∧
      (f e).slot = e.slot) (h : p.Sound) : { p with map := changeEntry p.map r b f }.Sound where
  slots := by
    rw [changeEntry_map p.map r b f (fun e => e.slot) fun e => (keep e).2.2.2]
    exact h.slots
  keys := by
    rw [changeEntry_map p.map r b f (fun e => (e.ring, e.block)) fun e =>
      Prod.ext (keep e).1 (keep e).2.1]
    exact h.keys

theorem Core.keeps_pool {s t : State} (move : Core A s t) (h : s.pool.Sound) : t.pool.Sound := by
  cases move with
  | opened r q a c s => rw [openCapture_rest]; exact h
  | dropped e s mem => exact dropped_keeps_pool e s.pool mem h
  | allocated e rest s slot new => exact allocated_keeps_pool e rest s.pool slot new h
  | remapped r b f s keep => exact remapped_keeps_pool r b f s.pool keep h
  | aside s t rings caps pool => rw [pool]; exact h
  | _ => exact h

/-- Without entries and slots nothing is out of place. -/
theorem pool_empty_sound (p : Pool) (map : p.map = []) (free : p.freeList = List.range p.slotCount) :
    p.Sound where
  slots := by rw [map, free, List.map_nil, List.append_nil]
  keys  := by rw [map]; exact List.nodup_nil

theorem Move.keeps_pool {s t : State} (move : Move A s t) (h : s.pool.Sound) : t.pool.Sound := by
  cases move with
  | flow flow =>
    cases flow with
    | core core => exact core.keeps_pool h
    | _ => exact h
  | poolSet base n low s empty => exact pool_empty_sound _ empty rfl
  | reset s => exact pool_empty_sound _ rfl rfl
  | _ => exact h

/-! ### The entries a capture owns (R90, R98) -/

/-- The owner of an entry counts at least that one (R90). -/
theorem State.MapSound.counted {s : State} (h : s.MapSound) {e : MapEntry} (mem : e ∈ s.pool.map) :
    (s.capture e.capture).entries ≠ 0 := by
  rw [h.count]
  exact (List.countP_pos_iff.mpr ⟨e, mem, decide_eq_true rfl⟩).ne'

/-- A FREE capture owns no entry (R98). -/
theorem State.MapSound.free_entries {s : State} (h : s.MapSound) {c : Fin 16}
    (free : (s.capture c).state = .free) : (s.capture c).entries = 0 := by
  rw [h.count, List.countP_eq_zero]
  exact fun e mem owner => (h.owner e mem).1 (of_decide_eq_true owner ▸ free)

/-- The map fits the captures as long as its entries stay, each capture's count too, and one that owns
entries stays in use, on its ring. -/
theorem State.MapSound.of_same {s t : State} (h : s.MapSound) (map : t.pool.map = s.pool.map)
    (count : ∀ c, (t.capture c).entries = (s.capture c).entries)
    (used : ∀ c, (s.capture c).entries ≠ 0 →
      (t.capture c).state ≠ .free ∧ (t.capture c).ring = (s.capture c).ring) : t.MapSound where
  owner e mem := by
    rw [map] at mem
    obtain ⟨inUse, ring⟩ := used e.capture (h.counted mem)
    exact ⟨inUse, ring.trans (h.owner e mem).2⟩
  keys := map ▸ h.keys
  count c := by rw [count, map, h.count]

/-- The same when no record changes. -/
theorem State.MapSound.of_caps {s t : State} (h : s.MapSound) (map : t.pool.map = s.pool.map)
    (records : t.caps.records = s.caps.records) : t.MapSound := by
  have same (c : Fin 16) : t.capture c = s.capture c := by rw [State.capture, records]; rfl
  exact h.of_same map (fun c => by rw [same]) fun c owns =>
    (same c).symm ▸ ⟨mt h.free_entries owns, rfl⟩

/-- The same when nothing but one record is written anew. -/
theorem State.MapSound.record {s t : State} (h : s.MapSound) (c : Fin 16) (x : Capture)
    (map : t.pool.map = s.pool.map)
    (caps : ∀ c', t.capture c' = if c' = c then x else s.capture c')
    (entries : x.entries = (s.capture c).entries)
    (used : (s.capture c).entries ≠ 0 → x.state ≠ .free ∧ x.ring = (s.capture c).ring) :
    t.MapSound := by
  have other (c' : Fin 16) (owns : (s.capture c').entries ≠ 0) : (s.capture c').state ≠ .free :=
    mt h.free_entries owns
  refine h.of_same map (fun c' => ?_) fun c' owns => ?_ <;> rw [caps] <;> split
  · next same => rw [same, entries]
  · rfl
  · next same => subst same; exact used owns
  · exact ⟨other c' owns, rfl⟩

/-- A capture opens in a FREE record, which owns no entry, and owns none itself (R76). -/
theorem opened_keeps_map (r : Fin 8) (q : TriggerReq) (a : Addr) (c : Fin 16) (s : State)
    (free : (s.capture c).state = .free) (h : s.MapSound) : (openCapture r q a c s).MapSound := by
  obtain ⟨state, cut, -, record⟩ := openCapture_same r q a c s
  have none := h.free_entries free
  refine h.record c _ (by rw [openCapture_rest]) (fun c' => ?_)
    ((congrArg Capture.entries record).trans none.symm) fun owns => absurd none owns
  split
  · next same => rw [same]
  · next other => exact openCapture_ne r q a c c' s other

/-- An entry leaves the map and its owner counts one less (R90, R101). -/
theorem dropped_keeps_map (e : MapEntry) (s : State) (mem : e ∈ s.pool.map) (h : s.MapSound) :
    ({ s with pool := { s.pool with map      := dropEntry s.pool.map e.ring e.block
                                    freeList := s.pool.freeList ++ [e.slot] } }.putCapture
      e.capture { s.capture e.capture with
        entries := (s.capture e.capture).entries - 1 }).MapSound where
  owner e' mem' := by
    rw [capture_putCapture]
    have owner := h.owner e' (List.mem_of_mem_filter mem')
    split
    · next same => rw [same] at owner; exact owner
    · exact owner
  keys := h.keys.sublist (List.filter_sublist.map _)
  count c := by
    have total := (dropEntry_perm s.pool.map e h.keys mem).countP_eq fun e' => decide (e'.capture = c)
    rw [List.countP_cons, ← h.count] at total
    rw [capture_putCapture]
    split
    · next same =>
      subst same
      rw [if_pos (decide_eq_true rfl)] at total
      exact Nat.sub_eq_of_eq_add total.symm
    · next other =>
      rw [if_neg (by simpa using Ne.symm other)] at total
      exact total.symm

/-- A new entry is owned by the capture that holds its block, which counts one more (R90, R107). -/
theorem allocated_keeps_map (e : MapEntry) (rest : List Nat) (s : State)
    (new : s.entry e.ring e.block = none) (owner : s.coveredBy e.ring e.block = some e.capture) (n : Nat)
    (h : s.MapSound) :
    ({ s with pool := { s.pool with map := s.pool.map ++ [e], freeList := rest } }.putCapture
      e.capture { s.capture e.capture with
        entries := (s.capture e.capture).entries + 1, divertedBlocks := n }).MapSound where
  owner e' mem' := by
    have was : (s.capture e'.capture).state ≠ .free ∧ (s.capture e'.capture).ring = e'.ring := by
      rcases List.mem_append.mp mem' with old | last
      · exact h.owner e' old
      · obtain ⟨inUse, ring, -⟩ := coveredBy_mem owner
        rw [List.mem_singleton.mp last]
        exact ⟨inUse, ring⟩
    rw [capture_putCapture]
    split
    · next same => rw [same] at was; exact was
    · exact was
  keys := keys_append h.keys new
  count c := by
    show _ = (s.pool.map ++ [e]).countP fun e' => decide (e'.capture = c)
    rw [capture_putCapture, List.countP_append, List.countP_singleton, ← h.count]
    split
    · next same => rw [same, if_pos (decide_eq_true rfl)]
    · next other => rw [if_neg (by simpa using Ne.symm other)]; rfl

/-- Entries that change keep their owners (R98). -/
theorem remapped_keeps_map (r : Fin 8) (b : Nat) (f : MapEntry → MapEntry) (s : State)
    (keep : ∀ e, (f e).ring = e.ring ∧ (f e).block = e.block ∧ (f e).capture = e.capture ∧
      (f e).slot = e.slot) (h : s.MapSound) :
    { s with pool := { s.pool with map := changeEntry s.pool.map r b f } }.MapSound where
  owner e mem := by
    have same := changeEntry_map s.pool.map r b f (fun e => (e.capture, e.ring)) fun e =>
      Prod.ext (keep e).2.2.1 (keep e).1
    obtain ⟨e', mem', eq⟩ := List.mem_map.mp (same ▸ List.mem_map_of_mem mem)
    obtain ⟨owner, ring⟩ := Prod.mk.inj eq
    have was := h.owner e' mem'
    rw [owner, ring] at was
    exact was
  keys := by
    rw [changeEntry_map s.pool.map r b f (fun e => (e.ring, e.block)) fun e =>
      Prod.ext (keep e).1 (keep e).2.1]
    exact h.keys
  count c := by
    have same := changeEntry_map s.pool.map r b f (fun e => e.capture) fun e => (keep e).2.2.1
    have counts := congrArg (List.countP fun owner => decide (owner = c)) same
    rw [List.countP_map, List.countP_map] at counts
    exact (h.count c).trans counts.symm

theorem Core.keeps_map {s t : State} (move : Core A s t) (h : s.MapSound) : t.MapSound := by
  cases move with
  | tally c x s state ring first trigger last entries =>
    exact h.record c x rfl (fun c' => capture_putCapture s c c' x) entries fun owns =>
      ⟨state ▸ mt h.free_entries owns, ring⟩
  | held c k s =>
    exact h.record c _ rfl (fun c' => capture_becomeHeld c c' k s) rfl fun _ => ⟨nofun, rfl⟩
  | opened r q a c s armed addr clear free => exact opened_keeps_map r q a c s free h
  | released c s =>
    exact h.record c _ rfl (fun c' => capture_putCapture s c c' _) rfl fun _ => ⟨nofun, rfl⟩
  | taken c rest s =>
    exact h.record c _ rfl (fun c' => capture_takeCapture c c' rest s) rfl fun _ => ⟨nofun, rfl⟩
  | freed c s merging none =>
    exact h.record c _ rfl (fun c' => capture_becomeFree c c' s) rfl fun owns => absurd none owns
  | dropped e s mem => exact dropped_keeps_map e s mem h
  | allocated e rest s slot new owner n => exact allocated_keeps_map e rest s new owner n h
  | remapped r b f s keep => exact remapped_keeps_map r b f s keep h
  | aside s t rings caps pool => exact h.of_caps (by rw [pool]) (by rw [caps])
  | _ => exact h.of_caps rfl rfl

theorem Move.keeps_map {s t : State} (move : Move A s t) (h : s.MapSound) : t.MapSound := by
  cases move with
  | flow flow =>
    cases flow with
    | core core => exact core.keeps_map h
    | _ => exact h.of_caps rfl rfl
  | reset s =>
    refine ⟨fun e mem => absurd mem List.not_mem_nil, List.nodup_nil, fun c => ?_⟩
    rw [capture_inReset]
    rfl
  | _ => exact h.of_caps rfl rfl

/-- Settles O55: move by move. Slots pass between the free list and the map; an entry comes and goes with
its owner's count, and only a capture that counts none becomes FREE or opens anew. -/
theorem stepKeepsMapSound : Obligations.StepKeepsMapSound := by
  intro s t h
  constructor
  · exact step_keeps (P := fun s => s.pool.Sound) (fun s rest sound => sound)
      (fun i s t h => (exec_moves_anyWord i s t h).keeps fun _ _ move => move.keeps_pool) h
  · exact step_keeps (P := State.MapSound)
      (fun s rest sound => sound.of_caps rfl rfl)
      (fun i s t h => (exec_moves_anyWord i s t h).keeps fun _ _ move => move.keeps_map) h

end Sys2Proof.Machine
end

section
/-! PROOFS. The span of a capture that opens, the hold state of a block, post counting. -/

namespace Sys2Proof.Machine

/-! ### The two walks of an opening (R77, R78) -/

theorem inSpan_iff (x : Capture) (size b : Nat) : x.inSpan size b = true ↔
    forward size x.firstBlock b ≤ forward size x.firstBlock x.lastBlock := by
  simp [Capture.inSpan]

theorem blockOf_lt {c : RingConfig} {a : Addr} (h : c.holdsAddr a) : blockOf c a < c.sizeBlocks := by
  obtain ⟨above, below⟩ := h
  unfold blockOf
  omega

/-- Record x has its span around block tb of ring r, p blocks back of `pre` and j blocks on of d: what each
walk passed is in no span, and where it stopped short (R77, R78). -/
structure SpanWalks (s : State) (r : Fin 8) (size tb pre d p j : Nat) (x : Capture) : Prop where
  room      : p + j < size
  first     : x.firstBlock = stepBack size tb p
  last      : x.lastBlock = stepOn size tb j
  back      : ∀ i, 1 ≤ i → i ≤ p → s.coveredBy r (stepBack size tb i) = none
  on        : ∀ i, 1 ≤ i → i ≤ j → s.coveredBy r (stepOn size tb i) = none
  stopsBack : p = pre ∨ p < pre ∧ (p + 1 = size ∨ s.coveredBy r (stepBack size tb (p + 1)) ≠ none)
  stopsOn   : j = d ∨ j < d ∧
    (stepOn size tb (j + 1) = x.firstBlock ∨ s.coveredBy r (stepOn size tb (j + 1)) ≠ none)
  cut       : x.cut = true ↔ p < pre ∨ j < d

/-- The post walk stops before it comes round to the first block. -/
theorem walks_room {size tb p j : Nat} (short : p < size)
    (on : ∀ i, 1 ≤ i → i ≤ j → stepOn size tb i ≠ stepBack size tb p) : p + j < size := by
  by_contra round
  refine on (size - p) (by omega) (by omega) ?_
  unfold stepOn stepBack
  congr 1
  omega

/-- The pre count, then the post walk up to the block that the pre count reached. -/
theorem walks_of_counts {s : State} {r : Fin 8} {size tb pre d : Nat} {x : Capture} (inRing : tb < size)
    (first : x.firstBlock = stepBack size tb (preCount s r size tb pre 0))
    (last : x.lastBlock = (postWalk s r size tb x.firstBlock d 0).1)
    (cut : x.cut = (decide (preCount s r size tb pre 0 < pre) ||
      (postWalk s r size tb x.firstBlock d 0).2)) :
    ∃ p j, SpanWalks s r size tb pre d p j x := by
  obtain ⟨short, back⟩ := preCount_spec s r size tb pre 0 (by omega) fun i _ _ => by omega
  have stopsBack := preCount_stop s r size tb pre 0
  obtain ⟨j, reached, on, stopsOn⟩ := postWalk_stop s r size tb x.firstBlock d 0 fun i _ _ => by omega
  rw [Nat.zero_add] at stopsBack stopsOn
  refine ⟨preCount s r size tb pre 0, j, walks_room short fun i low high => first ▸ (on i low high).1,
    first, last.trans reached, back, fun i low high => (on i low high).2, ?_, ?_, ?_⟩
  · exact stopsBack.imp_right fun ⟨less, why⟩ => ⟨less, why.imp_left fun round => by omega⟩
  · exact stopsOn.imp And.right And.right
  · rw [cut, Bool.or_eq_true, decide_eq_true_eq]
    refine or_congr_right ?_
    rcases stopsOn with ⟨flag, whole⟩ | ⟨flag, less, -⟩ <;> simp [flag] <;> omega

/-- The record of a capture that opens walks from its trigger block. -/
theorem openRecord_walks {s : State} {r : Fin 8} {a : Addr} (t : TriggerReq)
    (region : (s.ring r).cfg.holdsAddr a) :
    ∃ p j, SpanWalks s r (s.ring r).cfg.sizeBlocks (blockOf (s.ring r).cfg a) (s.ring r).cfg.preBlocks
      ((wordPos a + (s.ring r).cfg.postWords) / 16) p j (openRecord s r t a) :=
  walks_of_counts (blockOf_lt region) rfl rfl rfl

section Walked

variable {s : State} {r : Fin 8} {size tb pre d p j : Nat} {x : Capture}

/-- The distances of a walked span: trigger block and last block from the first, and between them (R68). -/
theorem SpanWalks.distances (w : SpanWalks s r size tb pre d p j x) (inRing : tb < size) :
    forward size x.firstBlock tb = p ∧ forward size tb x.lastBlock = j ∧
      forward size x.firstBlock x.lastBlock = p + j := by
  obtain ⟨firstIn, first⟩ := stepBack_spec size tb p inRing (by have := w.room; omega)
  obtain ⟨lastIn, last⟩ := stepOn_spec size tb j inRing (by have := w.room; omega)
  rw [← w.first] at firstIn first
  rw [← w.last] at lastIn last
  have room := w.room
  have toTrigger := forward_spec size x.firstBlock tb firstIn inRing
  have fromTrigger := forward_spec size tb x.lastBlock inRing lastIn
  have whole := forward_spec size x.firstBlock x.lastBlock firstIn lastIn
  omega

/-- One block further back than the walk is the block before the span's first. -/
theorem SpanWalks.before (w : SpanWalks s r size tb pre d p j x) (inRing : tb < size)
    (room : p + 1 < size) : stepBack size tb (p + 1) = stepBack size x.firstBlock 1 := by
  obtain ⟨firstIn, first⟩ := stepBack_spec size tb p inRing (by omega)
  rw [← w.first] at firstIn first
  obtain ⟨beforeIn, before⟩ := stepBack_spec size x.firstBlock 1 firstIn (by omega)
  exact stepBack_eq size tb (p + 1) _ inRing room beforeIn (by omega)

/-- One block further on than the walk is the block after the span's last. -/
theorem SpanWalks.after (w : SpanWalks s r size tb pre d p j x) :
    stepOn size tb (j + 1) = stepOn size x.lastBlock 1 := by
  rw [w.last]
  exact (Nat.mod_add_mod (tb + j) size 1).symm

/-- Where no block is covered and the distances fit, both walks go all the way. -/
theorem SpanWalks.whole (w : SpanWalks s r size tb pre d p j x) (inRing : tb < size)
    (clear : ∀ b, s.coveredBy r b = none) (fits : pre + d < size) : p = pre ∧ j = d := by
  have room := w.room
  have back : p = pre := by
    rcases w.stopsBack with whole | ⟨less, round | covered⟩
    · exact whole
    · omega
    · exact absurd (clear _) covered
  refine ⟨back, ?_⟩
  rcases w.stopsOn with whole | ⟨less, round | covered⟩
  · exact whole
  · have := stepBack_spec size tb p inRing (by omega)
    have := stepOn_spec size tb (j + 1) inRing (by omega)
    rw [round, w.first] at this
    omega
  · exact absurd (clear _) covered

/-- Every block of a walked span is in no other span: it is the trigger block or one that was passed. -/
theorem SpanWalks.uncovered (w : SpanWalks s r size tb pre d p j x) (inRing : tb < size)
    (clear : s.coveredBy r tb = none) {b : Nat} (hb : b < size) (inSpan : x.inSpan size b = true) :
    s.coveredBy r b = none := by
  obtain ⟨firstIn, first⟩ := stepBack_spec size tb p inRing (by have := w.room; omega)
  rw [← w.first] at firstIn first
  obtain ⟨-, -, whole⟩ := w.distances inRing
  rw [inSpan_iff, whole] at inSpan
  have room := w.room
  obtain ⟨near, place⟩ := forward_spec size x.firstBlock b firstIn hb
  generalize forward size x.firstBlock b = f at *
  rcases Nat.lt_trichotomy f p with before | atTrigger | after
  · rw [← stepBack_eq size tb (p - f) b inRing (by omega) hb (by omega)]
    exact w.back _ (by omega) (by omega)
  · rw [show b = tb by omega]
    exact clear
  · rw [← stepOn_eq size tb (f - p) b inRing (by omega) hb (by omega)]
    exact w.on _ (by omega) (by omega)

end Walked

/-- Settles O35: both walks stop at covered blocks, so nothing they passed is in another span. -/
theorem openingSpanClear : Obligations.OpeningSpanClear := by
  intro r t a s x size tb p j d region clear hx hsize htb hp hj hd
  subst hsize
  have inRing : tb < (s.ring r).cfg.sizeBlocks := htb ▸ blockOf_lt region
  obtain ⟨p', j', w⟩ := openRecord_walks t region
  rw [← hx, show blockOf (s.ring r).cfg a = tb from htb.symm,
    show (wordPos a + (s.ring r).cfg.postWords) / 16 = d from hd.symm] at w
  obtain ⟨toTrigger, fromTrigger, whole⟩ := w.distances inRing
  obtain rfl : p = p' := hp.trans toTrigger
  obtain rfl : j = j' := hj.trans fromTrigger
  refine ⟨by rw [hx, htb]; rfl, ?_, fun c b used ring hb inSpan => ?_, ?_, ?_, w.cut⟩
  · rw [inSpan_iff, toTrigger, whole]
    exact Nat.le_add_right p j
  · have free := w.uncovered inRing (htb ▸ clear) hb inSpan
    exact inSpan_of_not_covered free c used ring
  · refine w.stopsBack.imp_right fun ⟨less, why⟩ => ⟨less, ?_⟩
    rcases Nat.lt_or_ge (p + 1) (s.ring r).cfg.sizeBlocks with room | round
    · rw [w.before inRing room] at why
      exact Or.inr (inSpan_of_covered (why.resolve_left room.ne))
    · exact Or.inl (by have := w.room; omega)
  · refine w.stopsOn.imp_right fun ⟨less, why⟩ => ⟨less, ?_⟩
    rw [w.after] at why
    exact why.imp_right inSpan_of_covered

/-- A ring without captures in use has no covered block (R70). -/
theorem coveredBy_none {s : State} {r : Fin 8} {b : Nat}
    (free : ∀ c, (s.capture c).ring = r →
      (s.capture c).inSpan (s.ring r).cfg.sizeBlocks b = true → (s.capture c).state = .free) :
    s.coveredBy r b = none := by
  by_contra covered
  obtain ⟨c, used, ring, inSpan⟩ := inSpan_of_covered covered
  exact used (free c ring inSpan)

/-- Settles O36: with nothing in the way both walks go all the way. -/
theorem openingSpanNominal : Obligations.OpeningSpanNominal := by
  intro r t a d s region free hd fits
  obtain ⟨p, j, w⟩ := openRecord_walks t region
  rw [show (wordPos a + (s.ring r).cfg.postWords) / 16 = d from hd.symm] at w
  obtain ⟨rfl, rfl⟩ := w.whole (blockOf_lt region)
    (fun b => coveredBy_none fun c ring _ => free c ring) fits
  refine ⟨rfl, w.first, w.last, Bool.eq_false_iff.mpr fun cut => ?_⟩
  have := w.cut.mp cut
  omega

/-! ### Hold states (R69) -/

/-- Spans being apart, a capture in use in whose span a block lies is the one that covers it (R70). -/
theorem coveredBy_of_inSpan {s : State} {r : Fin 8} {b : Nat} {c : Fin 16} (apart : s.SpansDisjoint)
    (hb : b < (s.ring r).cfg.sizeBlocks) (used : (s.capture c).state ≠ .free)
    (ring : (s.capture c).ring = r)
    (inSpan : (s.capture c).inSpan (s.ring r).cfg.sizeBlocks b = true) : s.coveredBy r b = some c := by
  cases covered : s.coveredBy r b with
  | none =>
    rw [inSpan_of_not_covered covered c used ring] at inSpan
    cases inSpan
  | some c' =>
    obtain ⟨used', ring', inSpan'⟩ := coveredBy_mem covered
    by_contra other
    subst ring
    have := apart c c' b (fun same => other (congrArg some same.symm)) used used' ring'.symm hb inSpan
    rw [inSpan'] at this
    cases this

/-- Settles O38: the covering capture is the one named, and its state answers. -/
theorem holdStates : Obligations.HoldStates := by
  intro r b s apart hb
  refine ⟨fun free => ?_, fun c before ring inSpan hbefore => ?_⟩
  · simp only [State.holdOf, coveredBy_none free]
  · have covered (used : (s.capture c).state ≠ .free) : s.coveredBy r b = some c :=
      coveredBy_of_inSpan apart hb used ring inSpan
    have pre : (s.capture c).inPre (s.ring r).cfg.sizeBlocks b = decide (before <
        forward (s.ring r).cfg.sizeBlocks (s.capture c).firstBlock (s.capture c).triggerBlock) := by
      rw [hbefore]; rfl
    refine ⟨?_, fun merging => ?_, fun post early => ?_, fun post late => ?_⟩
    · rintro (held | releasing)
      · simp only [State.holdOf, covered (by simp [held]), held]
      · simp only [State.holdOf, covered (by simp [releasing]), releasing]
    · simp only [State.holdOf, covered (by simp [merging]), merging]
    · simp only [State.holdOf, covered (by simp [post]), post, pre, decide_eq_true early, if_true]
    · simp [State.holdOf, covered (by simp [post]), post, pre, late]

/-! ### Post counting (R81 to R84) -/

/-- A capture becomes HELD with a CAPTURE_READY whose CUT its cause sets or keeps (R84). -/
theorem becomeHeld_eq {s : State} {r : Fin 8} {c : Fin 16} (ring : (s.capture c).ring = r)
    (cause : ReadyCause) : becomeHeld c cause s =
      raise ⟨.captureReady, some r, some c, some (homeOf (s.ring r).cfg (s.capture c).firstBlock),
          some ((s.capture c).spanLength (s.ring r).cfg.sizeBlocks : Int), cause.code⟩
        (s.putCapture c { s.capture c with state := .held, cut := (s.capture c).cut || cause.cuts }) := by
  subst ring
  rfl

/-- Settles O37: the capture in POST is the one found, and each outcome is a branch of its count. -/
theorem postCounting : Obligations.PostCounting := by
  intro r c a s post
  have held := becomeHeld_eq (postOn_post post).2
  refine ⟨fun outside sample => ?_, fun inside => ⟨?_, ?_⟩, fun done => ?_, fun more => ?_⟩
  · simp only [postWord, post, outside, held, ReadyCause.cuts, Bool.or_true]
    rfl
  · simp [postWord, post, inside]
  · simp [postWord, post, inside]
  · simp only [postDone, post, done, if_true, held, ReadyCause.cuts, Bool.or_false]
    rfl
  · simp only [postDone, post, more, if_false]

end Sys2Proof.Machine
end

section
/-! PROOFS. Spans of captures in use stay apart, whatever the step. -/

namespace Sys2Proof.Machine

/-! ### What the invariant reads (R70) -/

/-- Spans stay apart when no ring that holds a capture in use changes its size and every capture in use was
so before, its ring and its span the same. -/
theorem State.SpansDisjoint.of_same {s t : State} (h : s.SpansDisjoint)
    (size : ∀ c, (s.capture c).state ≠ .free →
      (t.ring (s.capture c).ring).cfg.sizeBlocks = (s.ring (s.capture c).ring).cfg.sizeBlocks)
    (caps : ∀ c, (t.capture c).state ≠ .free → (s.capture c).state ≠ .free ∧
      (t.capture c).ring = (s.capture c).ring ∧ (t.capture c).firstBlock = (s.capture c).firstBlock ∧
      (t.capture c).lastBlock = (s.capture c).lastBlock) : t.SpansDisjoint := by
  intro c c' b other used used' ring hb inSpan
  obtain ⟨was, sameRing, first, last⟩ := caps c used
  obtain ⟨was', sameRing', first', last'⟩ := caps c' used'
  rw [sameRing, sameRing'] at ring
  simp only [Capture.inSpan, sameRing, size c was, first, last, first', last'] at hb inSpan ⊢
  exact h c c' b other was was' ring hb inSpan

/-- The same when no record and no ring's size changes. -/
theorem State.SpansDisjoint.of_caps {s t : State} (h : s.SpansDisjoint)
    (records : t.caps.records = s.caps.records)
    (size : ∀ r, (t.ring r).cfg.sizeBlocks = (s.ring r).cfg.sizeBlocks) : t.SpansDisjoint := by
  have same (c : Fin 16) : t.capture c = s.capture c := by rw [State.capture, records]; rfl
  exact h.of_same (fun c _ => size _) fun c used => by
    rw [same] at used ⊢
    exact ⟨used, rfl, rfl, rfl⟩

/-- The same when one record is written anew with its span kept, and is not in use unless it was. -/
theorem State.SpansDisjoint.record {s t : State} (h : s.SpansDisjoint) (c : Fin 16) (x : Capture)
    (rings : t.rings = s.rings)
    (caps : ∀ c', t.capture c' = if c' = c then x else s.capture c')
    (used : x.state ≠ .free → (s.capture c).state ≠ .free)
    (ring : x.ring = (s.capture c).ring) (first : x.firstBlock = (s.capture c).firstBlock)
    (last : x.lastBlock = (s.capture c).lastBlock) : t.SpansDisjoint := by
  refine h.of_same (fun c _ => by rw [ring_of_rings rings]) fun c' used' => ?_
  rw [caps] at used' ⊢
  split at used'
  · next same => subst same; rw [if_pos rfl]; exact ⟨used used', ring, first, last⟩
  · next other => rw [if_neg other]; exact ⟨used', rfl, rfl, rfl⟩

/-- A span that opens is clear of every span in use on its ring. -/
theorem opened_keeps_spans (r : Fin 8) (q : TriggerReq) (a : Addr) (c : Fin 16) (s : State)
    (region : (s.ring r).cfg.holdsAddr a)
    (clear : s.coveredBy r (blockOf (s.ring r).cfg a) = none) (h : s.SpansDisjoint) :
    (openCapture r q a c s).SpansDisjoint := by
  obtain ⟨p, j, w⟩ := openRecord_walks q region
  obtain ⟨state, cut, -, record⟩ := openCapture_same r q a c s
  have rings (r' : Fin 8) : (openCapture r q a c s).ring r' = s.ring r' := by
    rw [openCapture_rest]; rfl
  have apart (c' : Fin 16) (b : Nat) (used : (s.capture c').state ≠ .free)
      (ring : (s.capture c').ring = r) (hb : b < (s.ring r).cfg.sizeBlocks)
      (inSpan : ((openCapture r q a c s).capture c).inSpan (s.ring r).cfg.sizeBlocks b = true) :
      (s.capture c').inSpan (s.ring r).cfg.sizeBlocks b = false := by
    rw [record] at inSpan
    exact inSpan_of_not_covered (w.uncovered (blockOf_lt region) clear hb inSpan) c' used ring
  have opens : ((openCapture r q a c s).capture c).ring = r := by rw [record]; rfl
  intro c₁ c₂ b other used₁ used₂ ring hb inSpan
  rw [rings] at hb inSpan ⊢
  by_cases first : c₁ = c
  · subst first
    have same := openCapture_ne r q a c₁ c₂ s other.symm
    rw [opens] at ring hb inSpan ⊢
    rw [same] at ring used₂ ⊢
    exact apart c₂ b used₂ ring.symm hb inSpan
  · have same₁ := openCapture_ne r q a c c₁ s first
    rw [same₁] at used₁ ring hb inSpan ⊢
    by_cases second : c₂ = c
    · subst second
      rw [opens] at ring
      rw [ring] at hb inSpan ⊢
      by_contra meets
      rw [apart c₁ b used₁ ring hb (Bool.eq_true_of_not_eq_false meets)] at inSpan
      cases inSpan
    · rw [openCapture_ne r q a c c₂ s second] at used₂ ring ⊢
      exact h c₁ c₂ b other used₁ used₂ ring hb inSpan

/-! ### Moves (R70, R76, R120) -/

variable {A : Fin 8 → Addr → Prop}

/-- A capture opens at a word at hand or at the head, in the ring's region; only one that is RELEASING is
taken from the release queue. -/
theorem Core.keeps_spans {s t : State} (move : Core A s t)
    (region : ∀ r a, A r a → (s.ring r).cfg.holdsAddr a) (rings : s.RingsSound)
    (release : s.ReleaseSound) (h : s.SpansDisjoint) : t.SpansDisjoint := by
  have size (r : Fin 8) : (t.ring r).cfg.sizeBlocks = (s.ring r).cfg.sizeBlocks := by
    rw [(move.ringCfg r).1]
  cases move with
  | tally c x s state ring first trigger last =>
    exact h.record c x rfl (fun c' => capture_putCapture s c c' x) (state ▸ id) ring first last
  | held c k s post =>
    exact h.record c _ rfl (fun c' => capture_becomeHeld c c' k s) (fun _ => by simp [post]) rfl rfl rfl
  | opened r q a c s armed addr clear =>
    refine opened_keeps_spans r q a c s (addr.elim (region r a) fun head => ?_) clear h
    exact (rings.rings r).head (by simp [armed]) a head
  | released c s held =>
    exact h.record c _ rfl (fun c' => capture_putCapture s c c' _) (fun _ => by simp [held]) rfl rfl rfl
  | taken c rest s queue =>
    exact h.record c _ rfl (fun c' => capture_takeCapture c c' rest s)
      (fun _ => by simp [release.head queue]) rfl rfl rfl
  | freed c s =>
    exact h.record c _ rfl (fun c' => capture_becomeFree c c' s) (absurd rfl) rfl rfl rfl
  | dropped e s =>
    exact h.record e.capture _ rfl (fun c' => capture_putCapture _ _ c' _) id rfl rfl rfl
  | allocated e rest s =>
    exact h.record e.capture _ rfl (fun c' => capture_putCapture _ _ c' _) id rfl rfl rfl
  | aside s t same caps => exact h.of_caps (by rw [caps]) size
  | _ => exact h.of_caps rfl size

/-- What keeps spans apart: the rings' regions hold their heads, the release queue holds what is RELEASING,
a ring that is OFF has no captures. -/
structure State.SpansSound (s : State) : Prop where
  rings   : s.RingsSound
  release : s.ReleaseSound
  off     : s.OffSound
  spans   : s.SpansDisjoint

theorem Flow.keeps_spansSound {s t : State} (flow : Flow A s t)
    (region : ∀ r a, A r a → (s.ring r).cfg.holdsAddr a) (h : s.SpansSound) : t.SpansSound where
  rings   := flow.keeps_rings region h.rings
  release := (Move.flow flow).keeps_release h.release
  off     := (Move.flow flow).keeps_off h.release h.off
  spans   := by
    cases flow with
    | core core => exact core.keeps_spans region h.rings h.release h.spans
    | _ => exact h.spans.of_caps rfl fun _ => rfl

/-- A chain of an event's changes: the regions are those of its start throughout. -/
theorem Flows.keeps_spansSound {s t : State} (flows : Flows A s t)
    (region : ∀ r a, A r a → (s.ring r).cfg.holdsAddr a) (h : s.SpansSound) : t.SpansSound := by
  refine (flows.keeps (P := fun u => (∀ r, (u.ring r).cfg = (s.ring r).cfg) ∧ u.SpansSound)
    (fun u v flow ⟨cfg, sound⟩ => ?_) ⟨fun _ => rfl, h⟩).2
  exact ⟨fun r => (flow.cfg r).trans (cfg r),
    flow.keeps_spansSound (fun r a ok => cfg r ▸ region r a ok) sound⟩

/-- A ring that is OFF holds no capture in use, so a new size concerns no span (R25). -/
theorem ringSet_keeps_spans (r : Fin 8) (cfg : RingConfig) (s : State) (off : (s.ring r).mode = .off)
    (rest : s.OffSound) (h : s.SpansDisjoint) :
    (s.putRing r { s.ring r with cfg := cfg }).SpansDisjoint := by
  refine h.of_same (fun c used => ?_) fun c used => ⟨used, rfl, rfl, rfl⟩
  rw [ring_putRing_ne _ _ _ _ fun same => used (rest r c off same)]

/-- A ring written anew with its configuration leaves spans where they are. -/
theorem putRing_keeps_spans (r : Fin 8) (x : Ring) (s : State) (cfg : x.cfg = (s.ring r).cfg)
    (h : s.SpansDisjoint) : (s.putRing r x).SpansDisjoint := by
  refine h.of_caps rfl fun r' => ?_
  rw [ring_putRing]
  split
  · next same => rw [cfg, same]
  · rfl

theorem withMode_cfg (x : Ring) (target : Mode) : (x.withMode target).cfg = x.cfg := by
  unfold Ring.withMode
  split <;> rfl

/-- A link command or a reset brings no word. -/
theorem Move.keeps_spansSound {s t : State} (move : Move noWord s t) (h : s.SpansSound) :
    t.SpansSound where
  rings   := move.keeps_rings h.rings
  release := move.keeps_release h.release
  off     := move.keeps_off h.release h.off
  spans   := by
    cases move with
    | flow flow => exact (flow.keeps_spansSound (fun _ _ none => none.elim) h).spans
    | ringSet r p cfg s off => exact ringSet_keeps_spans r cfg s off h.off h.spans
    | ringMode r target s => exact putRing_keeps_spans r _ s (withMode_cfg _ target) h.spans
    | cleared s => exact h.spans.of_caps rfl fun r => by rw [ring_clear]; rfl
    | extremes r e p s => exact putRing_keeps_spans r _ s rfl h.spans
    | reset s =>
      intro c c' b _ used
      rw [capture_inReset] at used
      exact absurd rfl used
    | _ => exact h.spans.of_caps rfl fun _ => rfl

/-- Settles O58: a capture opens at an address of its ring, clear of the spans in use there, and an OFF ring
takes a new size only without captures. -/
theorem stepKeepsSpansDisjoint : Obligations.StepKeepsSpansDisjoint := by
  intro s t h rings release off spans
  refine (step_keeps (P := State.SpansSound) (fun s rest hs => ?_) (fun i s t h hs => ?_) h
    ⟨rings, release, off, spans⟩).spans
  · exact ⟨hs.rings.of_same rfl rfl, hs.release.of_same rfl fun _ => Iff.rfl,
      hs.off.of_same (fun _ => id) fun _ => ⟨rfl, id⟩, hs.spans.of_caps rfl fun _ => rfl⟩
  · have brings : bringsOnly (fun r a => (s.ring r).cfg.holdsAddr a) i s :=
      ⟨fun q _ wf => atHand_region wf hs.rings,
        fun q mem => atHand_region (hs.rings.waiting q mem) hs.rings⟩
    rcases exec_flows i s t brings h with flows | moves
    · exact flows.keeps_spansSound (fun _ _ => id) hs
    · exact moves.keeps (fun _ _ move => move.keeps_spansSound) hs

end Sys2Proof.Machine
end

section
/-! PROOFS. The merge engine's choices: the next entry, the words of a home write, the take of queued
captures. -/

namespace Sys2Proof.Machine

/-! ### The next entry (R121) -/

/-- The head of the list is chosen where it is within the limit and nothing in the rest is nearer. -/
theorem nearestEntry_cons (r : Fin 8) (size cursor limit : Nat) (e : MapEntry) (rest : List MapEntry) :
    nearestEntry r size cursor limit (e :: rest) = nearestEntry r size cursor limit rest ∧
        (e.ring = r → forward size cursor e.block ≤ limit →
          ∃ e', nearestEntry r size cursor limit rest = some e' ∧
            forward size cursor e'.block < forward size cursor e.block) ∨
      nearestEntry r size cursor limit (e :: rest) = some e ∧ e.ring = r ∧
        forward size cursor e.block ≤ limit ∧
        ∀ e', nearestEntry r size cursor limit rest = some e' →
          forward size cursor e.block ≤ forward size cursor e'.block := by
  rw [nearestEntry]
  split
  · next within =>
    cases chosen : nearestEntry r size cursor limit rest with
    | none => exact Or.inr ⟨rfl, within.1, within.2, nofun⟩
    | some e' =>
      dsimp only
      split
      · next nearer => exact Or.inl ⟨rfl, fun _ _ => ⟨e', rfl, nearer⟩⟩
      · next farther =>
        exact Or.inr ⟨rfl, within.1, within.2, fun _ same =>
          Option.some.inj same ▸ Nat.not_lt.mp farther⟩
  · next outside => exact Or.inl ⟨rfl, fun ring near => absurd ⟨ring, near⟩ outside⟩

/-- None is chosen exactly when the ring has none within the limit. -/
theorem nearestEntry_none (r : Fin 8) (size cursor limit : Nat) (map : List MapEntry) :
    nearestEntry r size cursor limit map = none ↔
      ∀ e ∈ map, e.ring = r → limit < forward size cursor e.block := by
  induction map with
  | nil => simp [nearestEntry]
  | cons e rest ih =>
    rw [List.forall_mem_cons, ← ih]
    rcases nearestEntry_cons r size cursor limit e rest with
      ⟨chosen, nearer⟩ | ⟨chosen, ring, near, -⟩
    · rw [chosen]
      refine ⟨fun unchosen => ⟨fun ring => ?_, unchosen⟩, And.right⟩
      by_contra near
      obtain ⟨e', chosen', -⟩ := nearer ring (Nat.not_lt.mp near)
      rw [unchosen] at chosen'
      cases chosen'
    · rw [chosen]
      exact iff_of_false (Option.some_ne_none e) fun all => absurd (all.1 ring) (Nat.not_lt.mpr near)

/-- The entry chosen is one of the ring's within the limit, and none of the ring's is nearer. -/
theorem nearestEntry_some (r : Fin 8) (size cursor limit : Nat) (map : List MapEntry) :
    ∀ e, nearestEntry r size cursor limit map = some e →
      e ∈ map ∧ e.ring = r ∧ forward size cursor e.block ≤ limit ∧
      ∀ e' ∈ map, e'.ring = r → forward size cursor e.block ≤ forward size cursor e'.block := by
  induction map with
  | nil => exact fun _ => nofun
  | cons x rest ih =>
    intro e found
    rcases nearestEntry_cons r size cursor limit x rest with
      ⟨chosen, nearer⟩ | ⟨chosen, ring, near, first⟩
    · rw [chosen] at found
      obtain ⟨mem, ring, near, least⟩ := ih e found
      refine ⟨List.mem_cons_of_mem x mem, ring, near,
        List.forall_mem_cons.mpr ⟨fun ringX => ?_, least⟩⟩
      rcases Nat.lt_or_ge limit (forward size cursor x.block) with far | within
      · omega
      · obtain ⟨e', found', less⟩ := nearer ringX within
        obtain rfl := Option.some.inj (found.symm.trans found')
        exact less.le
    · obtain rfl := Option.some.inj (chosen.symm.trans found)
      refine ⟨List.mem_cons_self, ring, near,
        List.forall_mem_cons.mpr ⟨fun _ => le_rfl, fun e' mem ring' => ?_⟩⟩
      cases chosen' : nearestEntry r size cursor limit rest with
      | none => exact near.trans ((nearestEntry_none ..).mp chosen' e' mem ring').le
      | some y =>
        obtain ⟨-, -, -, least⟩ := ih y chosen'
        exact (first y chosen').trans (least e' mem ring')

/-! ### The words of a home write (R124) -/

theorem homeWriteWords_getElem (k : CopyRecord) (n i : Nat) (w : WriteWord)
    (h : (homeWriteWords k n)[i]? = some w) :
    w = if k.copySet.getLsbD i then ⟨k.slotData.getD i (Config.freeWord (n + i)), 15#4⟩
      else ⟨Config.freeWord (n + i), 0#4⟩ := by
  unfold homeWriteWords at h
  rw [List.getElem?_map] at h
  obtain ⟨i', at_i, rfl⟩ := Option.map_eq_some_iff.mp h
  obtain ⟨-, rfl⟩ := List.getElem?_eq_some_iff.mp at_i
  rw [List.getElem_range]

/-! ### The take of queued captures (R90, R120, R122) -/

/-- A queued capture without entries becomes FREE at its take (R90, R120). -/
theorem becomeFree_taken (c : Fin 16) (rest : List (Fin 16)) (s : State) :
    becomeFree c (takeCapture c rest s) = { s.putCapture c { s.capture c with state := .free } with
      engine := { s.engine with queue := rest }
      queue := arrive (freeEvent c (s.capture c)) s.queue } := by
  unfold becomeFree
  rw [capture_takeCapture, if_pos rfl]
  simp only [takeCapture, State.putCapture, Vector.set_set]
  rfl

/-- The copy of the first entry of a queued capture begins at its take (R120 to R122). -/
theorem copyEntry_taken (c : Fin 16) (rest : List (Fin 16)) (e : MapEntry) (s : State) :
    copyEntry e { takeCapture c rest s with
      engine := { (takeCapture c rest s).engine with merging := some c } } =
    { s.putCapture c { s.capture c with state := .merging } with
      pool := { s.pool with map := changeEntry s.pool.map e.ring e.block fun y =>
        { y with state := .copying, restartPending := s.targets e.ring e.block } }
      engine := { s.engine with
        queue := rest, status := .copying, merging := some c
        cursor := some ((e.block + 1) % (s.ring e.ring).cfg.sizeBlocks)
        copy := some ⟨e.ring, e.block, homeOf (s.ring e.ring).cfg e.block, e.slot, .readWait, [],
                      0#16⟩ }
      dn := { s.dn with shareCount := 0 } } := rfl

theorem takeQueue_frees (c : Fin 16) (rest : List (Fin 16)) (s : State)
    (noEntry : (s.capture c).entries = 0) :
    takeQueue (c :: rest) s = takeQueue rest (becomeFree c (takeCapture c rest s)) := by
  rw [takeQueue]
  dsimp only
  rw [if_pos (by rw [capture_takeCapture, if_pos rfl]; exact noEntry)]

theorem takeQueue_copies (c : Fin 16) (rest : List (Fin 16)) (e : MapEntry) (s : State)
    (owns : (s.capture c).entries ≠ 0) (next : nextEntry s c (s.capture c).firstBlock = some e) :
    takeQueue (c :: rest) s = copyEntry e { takeCapture c rest s with
      engine := { (takeCapture c rest s).engine with merging := some c } } := by
  have record : (takeCapture c rest s).capture c = { s.capture c with state := .merging } := by
    rw [capture_takeCapture, if_pos rfl]
  have chosen : nextEntry (takeCapture c rest s) c (s.capture c).firstBlock = some e :=
    (nextEntry_same (takeCapture c rest s) s c _ (by rw [record]) (by rw [record]) rfl rfl).trans next
  rw [takeQueue]
  simp only [record, owns, if_false, chosen]

/-- Settles O52: the choice by the list of entries, the words position by position, the take by its head. -/
theorem nextEntryAndHomeWords : Obligations.NextEntryAndHomeWords := by
  refine ⟨fun c cursor size reach s hsize hreach => ?_, fun k n i => ⟨?_, fun w hw => ?_⟩,
    fun u => ⟨rfl, fun c rest x hx => ⟨fun noEntry => ?_, fun e owns next => ?_⟩⟩⟩
  · subst hsize hreach
    exact ⟨nearestEntry_none .., nearestEntry_some _ _ _ _ _⟩
  · simp [homeWriteWords]
  · rw [homeWriteWords_getElem k n i w hw]
    refine ⟨fun copied => ?_, fun other => by rw [other]; rfl⟩
    rw [copied]
    exact ⟨rfl, fun d data => by simp [List.getD, data]⟩
  · subst hx
    rw [takeQueue_frees c rest u noEntry, becomeFree_taken, freeEvent_eq]
  · subst hx
    rw [takeQueue_copies c rest e u owns next, copyEntry_taken]

end Sys2Proof.Machine
end

section
/-! PROOFS. RELEASE, RESUME and SKIP. -/

namespace Sys2Proof.Machine

/-! ### The arbiter after a link command -/

/-- A link command after whose execution the arbiter decides: it leaves t, whatever the link, and then the
decision (log 11). -/
theorem exec_decides {i : Instr} {s : State} {status : Status} {data : List Byte} (t : State)
    (start : s.atFrameStart = true) (frame : exec i s = .next (goodFrame i (runCommand i) s))
    (code : encodeCommand i ≠ none) (commit : t.link.commit = s.link.commit)
    (run : ∀ l : Link, runCommand i { s with link := l } =
      (arbitrate { t with link := l }, mkReply status data)) :
    exec i s = .next ((arbitrate t).answers i status data) := by
  refine exec_does (arbitrate t) start frame code ?_ fun l => ?_
  · rw [arbitrate_link]
    exact commit
  · rw [run l, arbitrate_withLink]

theorem rstn_of_frameStart {s : State} (start : s.atFrameStart = true) : s.pins.rstn = true := by
  obtain ⟨selected, -⟩ := (frameStart_iff s).mp start
  unfold State.selected at selected
  exact (Bool.and_eq_true_iff.mp selected).1

/-! ### RELEASE (R86, R87, R118, R120) -/

/-- s with capture c HELD as record x, and q the event queue. -/
def State.heldAs (s : State) (c : Fin 16) (x : Capture) (q : EventQueue) : State :=
  { s.putCapture c { x with state := .held } with queue := q }

theorem heldAs_capture (s : State) (c : Fin 16) (x : Capture) (q : EventQueue) :
    (s.heldAs c x q).capture c = { x with state := .held } :=
  capture_putCapture_same s c _

theorem heldAs_putCapture (s : State) (c : Fin 16) (x y : Capture) (q : EventQueue) :
    (s.heldAs c x q).putCapture c y = { s.putCapture c y with queue := q } := by
  simp only [State.heldAs, State.putCapture, Vector.set_set]

/-- A RELEASE that is accepted: x is the record of the capture in HELD, or in POST once CUT is set, and q the
events, CAPTURE_READY among them for one in POST (R86, R87). -/
def State.Releases (s : State) (c : Fin 16) (x : Capture) (q : EventQueue) : Prop :=
  (s.capture c).state = .held ∧ x = s.capture c ∧ q = s.queue ∨
  (s.capture c).state = .post ∧ x = { s.capture c with cut := true } ∧
    q = arrive ⟨.captureReady, some x.ring, some c, some (homeOf (s.ring x.ring).cfg x.firstBlock),
      some (x.spanLength (s.ring x.ring).cfg.sizeBlocks : Int), 3#8⟩ s.queue

/-- The record is on the capture's ring, with its span: the entries in it are the same. -/
theorem State.Releases.nextEntry_heldAs {s : State} {c : Fin 16} {x : Capture} {q : EventQueue}
    (h : s.Releases c x q) (n : Nat) : nextEntry (s.heldAs c x q) c n = nextEntry s c n := by
  have span : x.ring = (s.capture c).ring ∧ x.lastBlock = (s.capture c).lastBlock := by
    rcases h with ⟨-, rfl, -⟩ | ⟨-, rfl, -⟩ <;> exact ⟨rfl, rfl⟩
  obtain ⟨ring, last⟩ := span
  exact nextEntry_same (s.heldAs c x q) s c n (by rw [heldAs_capture]; exact ring)
    (by rw [heldAs_capture]; exact last) rfl rfl

/-- Either way the capture is HELD when it enters the release queue. -/
theorem runRelease_accepts {s : State} {c : Fin 16} {x : Capture} {q : EventQueue}
    (h : s.Releases c x q) : runRelease (BitVec.ofNat 8 c.val) s =
      (arbitrate (appendRelease c (s.heldAs c x q)), replyOk []) := by
  unfold runRelease
  rw [captureOf_ofNat]
  rcases h with ⟨held, rfl, rfl⟩ | ⟨post, rfl, rfl⟩
  · have same : s.heldAs c (s.capture c) s.queue = s := by
      have record : { s.capture c with state := .held } = s.capture c := by rw [← held]
      rw [State.heldAs, record, putCapture_capture]
    simp only [held, same]
  · have ready : becomeHeld c .released s = s.heldAs c { s.capture c with cut := true }
        (arrive ⟨.captureReady, some (s.capture c).ring, some c,
          some (homeOf (s.ring (s.capture c).ring).cfg (s.capture c).firstBlock),
          some ((s.capture c).spanLength (s.ring (s.capture c).ring).cfg.sizeBlocks : Int), 3#8⟩
          s.queue) := by
      rw [becomeHeld_eq rfl]
      simp only [ReadyCause.cuts, Bool.or_true]
      rfl
    simp only [post, ready]
    rfl

/-- A HELD capture waits for an engine that is not IDLE (R118). -/
theorem release_busy {c : Fin 16} (x : Capture) (q : EventQueue) (s : State)
    (busy : s.engine.status ≠ .idle) : appendRelease c (s.heldAs c x q) =
      { s.putCapture c { x with state := .releasing } with
        engine := { s.engine with queue := s.engine.queue ++ [c] }
        queue := q } := by
  rw [appendRelease_busy c (s.heldAs c x q) busy, heldAs_putCapture, heldAs_capture]
  rfl

/-- Without entries an IDLE engine sets it FREE (R90, R120). -/
theorem release_frees {c : Fin 16} (x : Capture) (q : EventQueue) (s : State)
    (idle : s.engine.status = .idle) (empty : s.engine.queue = []) (noEntry : x.entries = 0) :
    appendRelease c (s.heldAs c x q) =
      { s.putCapture c { x with state := .free } with queue := arrive (freeEvent c x) q } := by
  have record := heldAs_capture s c x q
  rw [appendRelease_idle c (s.heldAs c x q) idle empty (by rw [record]; exact noEntry),
    heldAs_putCapture, record]
  rfl

/-- With entries an IDLE engine begins the copy of its next one (R120 to R122). -/
theorem release_copies {c : Fin 16} (x : Capture) (q : EventQueue) (e : MapEntry) (s : State)
    (idle : s.engine.status = .idle) (empty : s.engine.queue = []) (owns : x.entries ≠ 0)
    (next : nextEntry (s.heldAs c x q) c x.firstBlock = some e) :
    appendRelease c (s.heldAs c x q) = { s.putCapture c { x with state := .merging } with
      pool := { s.pool with map := changeEntry s.pool.map e.ring e.block fun y =>
        { y with state := .copying, restartPending := s.targets e.ring e.block } }
      engine := { s.engine with
        status := .copying, merging := some c
        cursor := some ((e.block + 1) % (s.ring e.ring).cfg.sizeBlocks)
        copy := some ⟨e.ring, e.block, homeOf (s.ring e.ring).cfg e.block, e.slot, .readWait, [],
                      0#16⟩ }
      dn := { s.dn with shareCount := 0 }
      queue := q } := by
  have record := heldAs_capture s c x q
  rw [appendRelease_take c (s.heldAs c x q) e idle empty (by rw [record]; exact owns)
    (by rw [record]; exact next), heldAs_putCapture, record]
  rfl

/-- What the capture's way into the queue leaves, whatever the link, and the arbiter's decision is what
RELEASE leaves. -/
theorem exec_release {s t u : State} {c : Fin 16} {x : Capture} {q : EventQueue}
    (start : s.atFrameStart = true) (h : s.Releases c x q) (decides : arbitrate t = u)
    (commit : t.link.commit = s.link.commit)
    (released : ∀ l : Link, appendRelease c (({ s with link := l } : State).heldAs c x q) =
      { t with link := l }) :
    exec (.release (BitVec.ofNat 8 c.val)) s =
      .next (u.answers (.release (BitVec.ofNat 8 c.val)) .ok []) := by
  subst decides
  refine exec_decides t start rfl (Option.some_ne_none _) commit fun l => ?_
  refine (runRelease_accepts (s := { s with link := l }) h).trans ?_
  rw [released l]
  rfl

/-- Settles O39: the refusals by state; else the capture, HELD by then, goes the way of the release queue. -/
theorem releaseOutcomes : Obligations.ReleaseOutcomes := by
  intro c s start served
  have rstn := rstn_of_frameStart start
  refine ⟨fun capture high => ?_, ?_⟩
  · refine exec_reports start rfl (Option.some_ne_none _) fun l => ?_
    simp only [runCommand, runRelease, captureOf_none capture high, refuse]
  · rintro capture rfl
    have refuses {status : Status}
        (run : ∀ l : Link, runRelease (BitVec.ofNat 8 c.val) { s with link := l } =
          ({ s with link := l }, refuse status)) :
        exec (.release (BitVec.ofNat 8 c.val)) s =
          .next (s.answers (.release (BitVec.ofNat 8 c.val)) status []) :=
      exec_reports start rfl (Option.some_ne_none _) run
    refine ⟨fun free => refuses fun l => ?_, ?_, fun x q h => ⟨fun busy => ?_, fun idle empty noEntry => ?_,
      fun e idle empty owns next => ?_⟩⟩
    · have state : (({ s with link := l } : State).capture c).state = .free := free
      simp only [runRelease, captureOf_ofNat, state]
    · rintro (state | state) <;> refine refuses fun l => ?_
      · have state : (({ s with link := l } : State).capture c).state = .releasing := state
        simp only [runRelease, captureOf_ofNat, state]
      · have state : (({ s with link := l } : State).capture c).state = .merging := state
        simp only [runRelease, captureOf_ofNat, state]
    · exact exec_release start h (arbitrate_of_served _ (served rstn)) rfl fun l =>
        release_busy x q { s with link := l } busy
    · rw [← freeEvent_eq]
      exact exec_release start h (arbitrate_of_served _ (served rstn)) rfl fun l =>
        release_frees x q { s with link := l } idle empty noEntry
    · have chosen (l : Link) : nextEntry (({ s with link := l } : State).heldAs c x q) c x.firstBlock =
          some e :=
        (State.Releases.nextEntry_heldAs (s := { s with link := l }) h x.firstBlock).trans next
      exact exec_release start h rfl rfl fun l =>
        release_copies x q e { s with link := l } idle empty owns (chosen l)

/-! ### RESUME and SKIP (R131, R132) -/

/-- RESUME begins the copy of the faulted entry again, the fault record cleared (R122, R131). -/
theorem runResume_repeats (k : CopyRecord) (e : MapEntry) (s : State)
    (halted : s.engine.status = .halted) (hk : s.engine.copy = some k)
    (he : s.entry k.ring k.block = some e) :
    runResume s = (arbitrate { s with
      pool := { s.pool with map := changeEntry s.pool.map k.ring k.block fun x =>
        { x with state := .copying, restartPending := s.targets k.ring k.block } }
      engine := { s.engine with
        status := .copying, fault := none
        copy := some ⟨k.ring, k.block, homeOf (s.ring k.ring).cfg k.block, e.slot, .readWait, [],
                      0#16⟩ }
      dn := { s.dn with shareCount := 0 } }, replyOk []) := by
  obtain ⟨-, ring, block⟩ := entry_mem he
  rw [runResume_eq s k e halted hk he, ← ring, ← block]
  rfl

/-- The record of the capture whose entry e is skipped: one entry fewer, its words lost (R90, R91, R132). -/
def skippedRecord (e : MapEntry) (x : Capture) : Capture :=
  { x with
    entries := x.entries - 1
    lostWords := min (x.lostWords + (positions e.written).length) 65535
    isPartial := x.isPartial || decide (0 < x.lostWords + (positions e.written).length) }

/-- The map and the free list once entry e is skipped (R101). -/
def skippedPool (e : MapEntry) (p : Pool) : Pool :=
  { p with map := dropEntry p.map e.ring e.block, freeList := p.freeList ++ [e.slot] }

/-- The skip of one of several entries. -/
theorem skip_one (e : MapEntry) (s : State) (more : 2 ≤ (s.capture e.capture).entries) :
    removeEntry e (countLost e s) = { s.putCapture e.capture (skippedRecord e (s.capture e.capture)) with
      pool := skippedPool e s.pool } := by
  unfold countLost
  rw [removeEntry_more e _ (by rw [capture_putCapture_same]; exact more), capture_putCapture_same,
    putCapture_putCapture]
  rfl

/-- The skip of a MERGING capture's last entry sets it FREE. -/
theorem skip_last (e : MapEntry) (s : State) (merging : (s.capture e.capture).state = .merging)
    (last : (s.capture e.capture).entries = 1) :
    removeEntry e (countLost e s) =
      { s.putCapture e.capture { skippedRecord e (s.capture e.capture) with state := .free } with
        pool := skippedPool e s.pool
        queue := arrive (freeEvent e.capture (skippedRecord e (s.capture e.capture))) s.queue } := by
  have record : { skippedRecord e (s.capture e.capture) with state := .free } =
      { skippedRecord e (s.capture e.capture) with state := .free, entries := 0 } := by
    simp only [skippedRecord, last]
  rw [record]
  unfold countLost
  rw [removeEntry_last e _ (by rw [capture_putCapture_same]; exact merging)
    (by rw [capture_putCapture_same]; exact last), capture_putCapture_same, putCapture_putCapture]
  rfl

/-- SKIP of one of several entries begins the copy of the capture's next one (R121, R122). -/
theorem runSkip_next (k : CopyRecord) (e e' : MapEntry) (n : Nat) (s : State)
    (halted : s.engine.status = .halted) (hk : s.engine.copy = some k)
    (he : s.entry k.ring k.block = some e) (merging : (s.capture e.capture).state = .merging)
    (more : 2 ≤ (s.capture e.capture).entries) (hn : s.engine.cursor = some n)
    (next : nextEntry { s with pool := skippedPool e s.pool } e.capture n = some e') :
    runSkip s = (arbitrate { s.putCapture e.capture (skippedRecord e (s.capture e.capture)) with
      pool := { skippedPool e s.pool with
        map := changeEntry (skippedPool e s.pool).map e'.ring e'.block fun y =>
          { y with state := .copying, restartPending := s.targets e'.ring e'.block } }
      engine := { s.engine with
        status := .copying, fault := none
        cursor := some ((e'.block + 1) % (s.ring e'.ring).cfg.sizeBlocks)
        copy := some ⟨e'.ring, e'.block, homeOf (s.ring e'.ring).cfg e'.block, e'.slot, .readWait, [],
                      0#16⟩ }
      dn := { s.dn with shareCount := 0 } }, replyOk []) := by
  have record := capture_putCapture_same s e.capture (skippedRecord e (s.capture e.capture))
  rw [runSkip_eq s k e halted hk he, skip_one e s more, continueMerge_next e.capture _ n e' ?_ ?_ ?_]
  · rfl
  · exact (congrArg Capture.state record).trans merging
  · exact hn
  · rw [← next]
    exact nextEntry_same _ _ _ _ (congrArg Capture.ring record :) (congrArg Capture.lastBlock record :)
      rfl rfl

/-- SKIP of a capture's last entry leaves the engine IDLE to take the queue (R90, R120). -/
theorem runSkip_last (k : CopyRecord) (e : MapEntry) (s : State)
    (halted : s.engine.status = .halted) (hk : s.engine.copy = some k)
    (he : s.entry k.ring k.block = some e) (merging : (s.capture e.capture).state = .merging)
    (last : (s.capture e.capture).entries = 1) :
    runSkip s = (arbitrate (takeQueue s.engine.queue
      { s.putCapture e.capture { skippedRecord e (s.capture e.capture) with state := .free } with
        pool := skippedPool e s.pool
        engine := { s.engine with status := .idle, merging := none, copy := none, fault := none }
        queue := arrive (freeEvent e.capture (skippedRecord e (s.capture e.capture))) s.queue }),
      replyOk []) := by
  have record := capture_putCapture_same s e.capture
    { skippedRecord e (s.capture e.capture) with state := .free }
  rw [runSkip_eq s k e halted hk he, skip_last e s merging last, continueMerge_done e.capture _ ?_]
  · rfl
  · exact fun state => nomatch (congrArg Capture.state record).symm.trans state

/-- Settles O50: each command's state at the engine, whatever the link, then the arbiter's decision. -/
theorem resumeAndSkip : Obligations.ResumeAndSkip := by
  intro s start
  refine ⟨fun running => ⟨?_, ?_⟩, fun k e halted hk he => ⟨?_, ?_⟩⟩
  · exact exec_reports start rfl (Option.some_ne_none _) fun l => if_neg running
  · exact exec_reports start rfl (Option.some_ne_none _) fun l => if_neg running
  · exact exec_decides _ start rfl (Option.some_ne_none _) rfl fun l =>
      runResume_repeats k e { s with link := l } halted hk he
  · obtain ⟨-, ring, block⟩ := entry_mem he
    intro x p merging hx hp
    rw [← ring, ← block] at hp
    subst hx hp
    refine ⟨fun n e' more hn next => ?_, fun u last hu => ?_⟩
    · exact exec_decides _ start rfl (Option.some_ne_none _) rfl fun l =>
        runSkip_next k e e' n { s with link := l } halted hk he merging more hn next
    · rw [← freeEvent_eq] at hu
      have link : (takeQueue s.engine.queue u).link = s.link := by
        rw [(takeQueue_outer _ u).1, hu]
        rfl
      have out : exec .skip s = .next ((arbitrate (takeQueue s.engine.queue u)).answers .skip .ok []) := by
        refine exec_decides _ start rfl (Option.some_ne_none _) (congrArg _ link) fun l => ?_
        refine (runSkip_last k e { s with link := l } halted hk he merging last).trans ?_
        rw [← takeQueue_withLink l, hu]
        rfl
      refine ⟨out, fun empty served => ?_⟩
      have rest : takeQueue s.engine.queue u = u := by
        rw [empty, hu]
        simp only [takeQueue, empty]
      have path : u.pathWaits = s.pathWaits := pathWaits_of_current (by rw [hu]; rfl)
      rw [out, rest, arbitrate_of_served]
      intro free
      have free' : s.dn.outstanding = none := by rw [hu] at free; exact free
      exact ⟨path.trans (served (rstn_of_frameStart start) free').1,
        engineWaits_of_status (by simp [hu])⟩

end Sys2Proof.Machine
end

section
/-! PROOFS. The divert map and the slot pool: the routing of a write, and SET POOL. -/

namespace Sys2Proof.Machine

/-! ### POOL_LOW (R115) -/

/-- The condition is present exactly while the free list is shorter than low_water (R115). -/
theorem pool_low_iff (p : Pool) : p.low = true ↔ p.freeList.length < p.lowWater :=
  decide_eq_true_iff

theorem pool_notLow_iff (p : Pool) : p.low = false ↔ p.lowWater ≤ p.freeList.length :=
  decide_eq_false_iff_not.trans Nat.not_lt

/-- The event queue once the pool is p: POOL_LOW arrives when the condition enters (R115). -/
def State.queueAtPool (s : State) (p : Pool) (r : Option (Fin 8)) (c : Option (Fin 16)) : EventQueue :=
  if s.pool.low = false ∧ p.low = true then arrive (poolLowEvent r c p.freeCount) s.queue else s.queue

theorem queueAtPool_enters {s : State} {p : Pool} (r : Option (Fin 8)) (c : Option (Fin 16))
    (was : s.pool.low = false) (enters : p.low = true) :
    s.queueAtPool p r c = arrive (poolLowEvent r c p.freeCount) s.queue := if_pos ⟨was, enters⟩

theorem queueAtPool_silent {s : State} {p : Pool} (r : Option (Fin 8)) (c : Option (Fin 16))
    (silent : s.pool.low = true ∨ p.low = false) : s.queueAtPool p r c = s.queue := by
  refine if_neg fun ⟨was, enters⟩ => ?_
  rcases silent with low | notLow
  · rw [low] at was; cases was
  · rw [notLow] at enters; cases enters

/-- A new pool changes the pool and the event queue alone. -/
theorem changePool_queued (p : Pool) (r : Option (Fin 8)) (c : Option (Fin 16)) (s : State) :
    changePool p r c s = { s with pool := p, queue := s.queueAtPool p r c } := by
  unfold changePool
  split
  · next entering =>
    obtain ⟨was, enters⟩ : s.pool.low = false ∧ p.low = true := by simpa using entering
    rw [queueAtPool_enters r c was enters]
    rfl
  · next silent =>
    rw [queueAtPool_silent r c (by simpa [or_iff_not_imp_left] using silent)]

/-! ### The rows of a live write (R103 to R109, R113, R114) -/

section LiveWrite

variable {q : UpRequest} {ws : List WriteWord} {r : Fin 8} {b : Nat} {s : State}

theorem routeWrite_noStrobe (none : strobed ws = []) :
    routeWrite q ws .live r b s = (s, routeHome q ws) := if_pos none

theorem routeWrite_entry {e : MapEntry} (strobe : strobed ws ≠ []) (entry : s.entry r b = some e) :
    routeWrite q ws .live r b s = routeToEntry q ws e s := by
  simp only [routeWrite, if_neg strobe, entry]

/-- A block without an entry that no capture holds is written home (R105, R108). -/
theorem routeWrite_unheld (new : s.entry r b = none)
    (unheld : s.holdOf r b = .notHeld ∨ s.holdOf r b = .filling) :
    routeWrite q ws .live r b s = (s, routeHome q ws) := by
  simp only [routeWrite, new]
  rcases unheld with hold | hold <;> simp only [hold, ite_self]

/-- The completing request of R82 is written home, though a capture holds its block (R109). -/
theorem routeWrite_completing {h : Fin 16} (new : s.entry r b = none) (hold : s.holdOf r b = .held h)
    (completing : (s.capture h).state = .post ∧ (s.capture h).postRemaining = 0) :
    routeWrite q ws .live r b s = (s, routeHome q ws) := by
  simp only [routeWrite, new, hold, if_pos completing, ite_self]

/-- A held block takes the head slot of the free list (R107). -/
theorem routeWrite_allocates {h : Fin 16} {slot : Nat} {rest : List Nat} (strobe : strobed ws ≠ [])
    (new : s.entry r b = none) (hold : s.holdOf r b = .held h)
    (incomplete : ¬((s.capture h).state = .post ∧ (s.capture h).postRemaining = 0))
    (free : s.pool.freeList = slot :: rest) :
    routeWrite q ws .live r b s = routeAllocate q ws r b h slot rest s := by
  simp only [routeWrite, if_neg strobe, new, hold, if_neg incomplete, free]

/-- Without a free slot the write to a held block is a spill (R113). -/
theorem routeWrite_spills {h : Fin 16} (strobe : strobed ws ≠ []) (new : s.entry r b = none)
    (hold : s.holdOf r b = .held h)
    (incomplete : ¬((s.capture h).state = .post ∧ (s.capture h).postRemaining = 0))
    (free : s.pool.freeList = []) :
    routeWrite q ws .live r b s = (spill q ws r h s, routeHome q ws) := by
  simp only [routeWrite, if_neg strobe, new, hold, if_neg incomplete, free]

end LiveWrite

/-- The state an allocation leaves: the map entry, the capture's counts and POOL_LOW (R107, R115). -/
theorem routeAllocate_eq (q : UpRequest) (ws : List WriteWord) (r : Fin 8) (b : Nat) (h : Fin 16)
    (slot : Nat) (rest : List Nat) (s : State) (p : Pool)
    (hp : p = { s.pool with map := s.pool.map ++ [newEntry q ws r b h slot], freeList := rest }) :
    routeAllocate q ws r b h slot rest s =
      ({ countEntry h s with pool := p, queue := s.queueAtPool p (some r) (some h) },
       ⟨slotPlan q s.pool.areaBase slot ws (toFill (wordPos q.addr) 0#16 ws), some (r, b)⟩) := by
  subst hp
  exact congrArg (·, _) (changePool_queued _ _ _ _)

/-- Only the first spill of a capture is an event (R91, R113, R114). -/
theorem spill_again {q : UpRequest} {ws : List WriteWord} {r : Fin 8} {h : Fin 16} {s : State}
    (spilled : (s.capture h).spilledWords ≠ 0) :
    spill q ws r h s = s.putCapture h { s.capture h with
      spilledWords := min ((s.capture h).spilledWords + (strobed ws).length) 65535
      isPartial := true } := by
  simp only [spill, spill.raiseSpill, spilled, decide_false, Bool.false_eq_true, if_false, satAdd]

theorem spill_first {q : UpRequest} {ws : List WriteWord} {r : Fin 8} {h : Fin 16} {s : State}
    (unspilled : (s.capture h).spilledWords = 0) :
    spill q ws r h s = raise (spillEvent q r h (strobed ws).length)
      (s.putCapture h { s.capture h with
        spilledWords := min (strobed ws).length 65535, isPartial := true }) := by
  simp only [spill, spill.raiseSpill, unspilled, decide_true, if_true, satAdd, Nat.zero_add]

/-- Settles O19, row by row. -/
theorem routingTable : Obligations.RoutingTable := by
  intro q ws r b s
  refine ⟨rfl, fun n read => ⟨?_, fun new => ?_⟩, ?_, fun e strobe entry => ?_,
    fun h slot rest queue strobe new hold incomplete free queued => ?_,
    fun h strobe new hold incomplete free spilled => ?_,
    fun h strobe new hold incomplete free unspilled => ?_,
    fun h _ new hold post complete => routeWrite_completing new hold ⟨post, complete⟩⟩
  · simp only [routeRead, forwardRead, read, Burst.length]
  · simp only [routeRead, new, forwardRead, read, Burst.length]
  · rintro (none | ⟨new, unheld⟩)
    · exact routeWrite_noStrobe none
    · exact routeWrite_unheld new unheld
  · obtain ⟨-, rfl, rfl⟩ := entry_mem entry
    exact routeWrite_entry strobe entry
  · obtain ⟨p, hp⟩ : ∃ p, p = { s.pool with
      map := s.pool.map ++ [newEntry q ws r b h slot], freeList := rest } := ⟨_, rfl⟩
    have queue_eq : queue = s.queueAtPool p (some r) (some h) := by
      subst hp
      rcases queued with ⟨low, was, arrives⟩ | ⟨silent, same⟩
      · rw [arrives, queueAtPool_enters _ _ ((pool_notLow_iff _).mpr was) ((pool_low_iff _).mpr low)]
        rfl
      · rw [same, queueAtPool_silent]
        exact silent.symm.imp (pool_low_iff _).mpr (pool_notLow_iff _).mpr
    rw [routeWrite_allocates strobe new hold incomplete free, routeAllocate_eq q ws r b h slot rest s p hp,
      queue_eq, hp]
    rfl
  · rw [routeWrite_spills strobe new hold incomplete free, spill_again spilled]
    rfl
  · rw [routeWrite_spills strobe new hold incomplete free, spill_first unspilled]
    rfl

/-! ### SET POOL (R95, R96, R115) -/

theorem hasSlotTarget_iff (s : State) :
    s.hasSlotTarget = true ↔ ∃ q, s.path.current = some q ∧ q.slotTarget ≠ none := by
  unfold State.hasSlotTarget
  split
  · next q current => simp [current, Option.isSome_iff_ne_none]
  · next none => simp [none]

/-- When an area of n slots overlaps (R95). -/
theorem areaOverlaps_iff (s : State) (base n : Nat) : areaOverlaps s base n = true ↔
    n ≠ 0 ∧ (4294967296 < base + 64 * n ∨ ∃ r, (s.ring r).cfg.sizeBlocks ≠ 0 ∧
      base < (s.ring r).cfg.base.toNat + 64 * (s.ring r).cfg.sizeBlocks ∧
      (s.ring r).cfg.base.toNat < base + 64 * n) := by
  unfold areaOverlaps
  simp only [Bool.and_eq_true, Bool.or_eq_true, bne_iff_ne, decide_eq_true_eq, List.any_eq_true,
    regionsMeet_iff, mem_ringIds, true_and]
  refine and_congr_right fun size => ?_
  simp only [ne_eq, size, not_false_eq_true, true_and]

section SetPool

variable {base : BitVec 32} {n low : BitVec 16} {s : State}

/-- SET POOL's three tests in order (R95). -/
theorem runSetPool_busy (busy : s.pool.map ≠ [] ∨ s.hasSlotTarget = true) :
    runSetPool base n low s = (s, refuse .busy) := if_pos busy

theorem runSetPool_range (idle : ¬(s.pool.map ≠ [] ∨ s.hasSlotTarget = true))
    (outside : base.toNat % 64 ≠ 0 ∨ 512 < n.toNat ∨ 512 < low.toNat) :
    runSetPool base n low s = (s, refuse .range) := by
  rw [runSetPool, if_neg idle, if_pos outside]

theorem runSetPool_overlap (idle : ¬(s.pool.map ≠ [] ∨ s.hasSlotTarget = true))
    (inside : ¬(base.toNat % 64 ≠ 0 ∨ 512 < n.toNat ∨ 512 < low.toNat))
    (meets : areaOverlaps s base.toNat n.toNat = true) :
    runSetPool base n low s = (s, refuse .overlap) := by
  rw [runSetPool, if_neg idle, if_neg inside, if_pos meets]

/-- Past them the pool is new; the map was empty and stays so (R95, R96, R115). -/
theorem runSetPool_accepts {p : Pool} (idle : ¬(s.pool.map ≠ [] ∨ s.hasSlotTarget = true))
    (inside : ¬(base.toNat % 64 ≠ 0 ∨ 512 < n.toNat ∨ 512 < low.toNat))
    (clear : ¬areaOverlaps s base.toNat n.toNat = true)
    (hp : p = ⟨base, n.toNat, low.toNat, List.range n.toNat, []⟩) :
    runSetPool base n low s =
      ({ s with pool := p, queue := s.queueAtPool p none none }, replyOk []) := by
  have noEntry : s.pool.map = [] := not_not.mp fun owns => idle (.inl owns)
  rw [runSetPool, if_neg idle, if_neg inside, if_neg clear, hp, ← noEntry]
  exact congrArg (·, replyOk []) (changePool_queued _ none none s)

end SetPool

/-- Settles O45: the three tests in order, then the new pool with POOL_LOW worked out again. -/
theorem setPoolResults : Obligations.SetPoolResults := by
  rintro base n low c busy overlap s rfl start busy_iff overlap_iff
  have tested : s.pool.map ≠ [] ∨ s.hasSlotTarget = true ↔ busy := by
    rw [busy_iff, hasSlotTarget_iff]
  have size : n = 0#16 ↔ n.toNat = 0 := BitVec.toNat_eq
  have overlaps : areaOverlaps s base.toNat n.toNat = true ↔ overlap := by
    rw [overlap_iff, areaOverlaps_iff, ne_eq, ← size]
  refine ⟨fun h => ?_, fun h outside => ?_, fun h aligned slots mark => ?_⟩
  · exact exec_reports start rfl (Option.some_ne_none _) fun l =>
      runSetPool_busy (s := { s with link := l }) (tested.mpr h)
  · exact exec_reports start rfl (Option.some_ne_none _) fun l =>
      runSetPool_range (s := { s with link := l }) (mt tested.mp h) outside
  have inside : ¬(base.toNat % 64 ≠ 0 ∨ 512 < n.toNat ∨ 512 < low.toNat) := by omega
  refine ⟨fun meets => ?_, fun clear => ?_⟩
  · exact exec_reports start rfl (Option.some_ne_none _) fun l =>
      runSetPool_overlap (s := { s with link := l }) (mt tested.mp h) inside (overlaps.mpr meets)
  · obtain ⟨p, hp⟩ : ∃ p : Pool, p = ⟨base, n.toNat, low.toNat, List.range n.toNat, []⟩ := ⟨_, rfl⟩
    have free : p.freeList.length = n.toNat := by rw [hp, List.length_range]
    have lowWater : p.lowWater = low.toNat := by rw [hp]
    refine ⟨s.queueAtPool p none none, fun ⟨was, enters⟩ => ?_, fun silent => ?_, ?_⟩
    · rw [queueAtPool_enters _ _ was ((pool_low_iff p).mpr (by rwa [free, lowWater])), ← free]
      rfl
    · refine queueAtPool_silent _ _ (silent.imp_right fun stays => (pool_notLow_iff p).mpr ?_)
      rwa [free, lowWater]
    · rw [← hp]
      exact exec_does _ start rfl (Option.some_ne_none _) rfl fun l =>
        runSetPool_accepts (s := { s with link := l }) (mt tested.mp h) inside
          (mt overlaps.mp clear) hp

end Sys2Proof.Machine
end

section
/-! PROOFS. Events: the arrival of an event, PEEK EVENT and POP EVENT, the event queue's soundness whatever
the step, and the attention conditions. -/

namespace Sys2Proof.Machine

/-! ### Arrivals (R140 to R142) -/

/-- While an OVERFLOW record is open the event is counted into it (R142). -/
theorem arrive_counts {q : EventQueue} (e : Event) (isOpen : q.overflowOpen = true) :
    arrive e q = ⟨bumpLast q.records, true, q.nextSeq⟩ := by
  rw [arrive, if_pos isOpen, isOpen]

/-- With 62 records or fewer the event is appended (R140). -/
theorem arrive_appends {q : EventQueue} (e : Event) (closed : q.overflowOpen = false)
    (room : q.records.length ≤ 62) :
    arrive e q = ⟨q.records ++ [⟨q.nextSeq, e⟩], false, q.nextSeq + 1#16⟩ := by
  rw [arrive, if_neg (by simp [closed]), if_pos room, closed]

/-- With more an OVERFLOW record is opened in its place (R141). -/
theorem arrive_opens {q : EventQueue} (e : Event) (closed : q.overflowOpen = false)
    (full : 62 < q.records.length) :
    arrive e q = ⟨q.records ++ [⟨q.nextSeq, ⟨.overflow, none, none, none, some 1, 0#8⟩⟩], true,
      q.nextSeq + 1#16⟩ := by
  rw [arrive, if_neg (by simp [closed]), if_neg (Nat.not_le.mpr full)]

/-- Settles O47. -/
theorem arrivalRule : Obligations.ArrivalRule := by
  intro e q
  refine ⟨arrive_appends e, fun closed full => arrive_opens e closed (by omega), ?_⟩
  intro front seq n isOpen last
  rw [arrive_counts e isOpen, last, bumpLast_append]
  rfl

/-! ### What keeps the event queue sound (R139 to R143, R149) -/

/-- An empty queue is sound, whatever the sequence counter. -/
theorem EventQueue.sound_empty (next : BitVec 16) : EventQueue.Sound ⟨[], false, next⟩ where
  length := Nat.zero_le _
  isOpen := iff_of_false Bool.false_ne_true (by simp)
  seqs   := trivial
  last   := nofun

/-- A drop counted into the open record: its count grows and stays at 65535 at most, the rest is kept. -/
theorem EventQueue.Sound.counted {q : EventQueue} (h : q.Sound) (isOpen : q.overflowOpen = true) :
    EventQueue.Sound ⟨bumpLast q.records, true, q.nextSeq⟩ := by
  obtain ⟨e, n, tail, kind, value, low, high⟩ := h.last isOpen
  refine ⟨?_, iff_of_true rfl ?_, seqsRun_bump _ _ h.seqs,
    fun _ => ⟨bumpDropped e, min (n + 1) 65535, ?_, kind, ?_, by omega, by omega⟩⟩
  · exact (bumpLast_length _).trans_le h.length
  · exact (bumpLast_length _).trans (h.isOpen.mp isOpen)
  · rw [bumpLast_getLast, tail]; rfl
  · simp [bumpDropped, value]

/-- A record appended at 62 records or fewer leaves the list short of 64. -/
theorem EventQueue.Sound.appended {q : EventQueue} (e : Event) (h : q.Sound)
    (room : q.records.length ≤ 62) :
    EventQueue.Sound ⟨q.records ++ [⟨q.nextSeq, e⟩], false, q.nextSeq + 1#16⟩ := by
  have length (r : EventRecord) : (q.records ++ [r]).length ≤ 63 := by
    rw [List.length_append]; exact Nat.succ_le_succ room
  exact ⟨(length _).trans (by decide),
    iff_of_false Bool.false_ne_true (Nat.lt_succ_of_le (length _)).ne, seqsRun_append _ _ e h.seqs, nofun⟩

/-- An OVERFLOW record opened at 63 records is the 64th, and counts 1. -/
theorem EventQueue.Sound.opened {q : EventQueue} (h : q.Sound) (full : q.records.length = 63) :
    EventQueue.Sound ⟨q.records ++ [⟨q.nextSeq, ⟨.overflow, none, none, none, some 1, 0#8⟩⟩], true,
      q.nextSeq + 1#16⟩ := by
  have length (r : EventRecord) : (q.records ++ [r]).length = 64 := by
    rw [List.length_append, full]; rfl
  exact ⟨(length _).le, iff_of_true rfl (length _), seqsRun_append _ _ _ h.seqs,
    fun _ => ⟨_, 1, List.getLast?_concat, rfl, rfl, by decide, by decide⟩⟩

/-- An arrival: at 64 records the open record counts on, at 63 one opens, below the event is appended. -/
theorem arrive_keeps_sound {q : EventQueue} (e : Event) (h : q.Sound) : (arrive e q).Sound := by
  cases overflow : q.overflowOpen with
  | true => exact arrive_counts e overflow ▸ h.counted overflow
  | false =>
    by_cases room : q.records.length ≤ 62
    · exact arrive_appends e overflow room ▸ h.appended e room
    · have notFull : q.records.length ≠ 64 := fun full => by simp [h.isOpen.mpr full] at overflow
      have atMost := h.length
      exact arrive_opens e overflow (by omega) ▸ h.opened (by omega)

/-- The seqs after the head run on without it. -/
theorem seqsRun_tail {next : BitVec 16} {l : List EventRecord} (h : seqsRun next l) :
    seqsRun next l.tail := by
  cases l with
  | nil => exact h
  | cons x xs =>
    cases xs with
    | nil => trivial
    | cons y ys => exact h.2

/-- The commit of a POP EVENT leaves at most 63 records, and none of them open (R143). -/
theorem popCommit_keeps_sound {q : EventQueue} (h : q.Sound) : (popCommit q).Sound := by
  have length : q.records.tail.length ≤ 63 := by
    rw [List.length_tail]; exact Nat.sub_le_sub_right h.length 1
  exact ⟨length.trans (by decide),
    iff_of_false Bool.false_ne_true (Nat.lt_succ_of_le length).ne, seqsRun_tail h.seqs, nofun⟩

/-- An opening hands CAPTURE_OPEN to the queue, and CAPTURE_READY when no words are to come. -/
theorem openedQueue_sound {s : State} (r : Fin 8) (t : TriggerReq) (a : Addr) (c : Fin 16)
    (h : s.queue.Sound) : (openedQueue s r t a c).Sound := by
  unfold openedQueue
  split
  · exact arrive_keeps_sound _ (arrive_keeps_sound _ h)
  · exact arrive_keeps_sound _ h

variable {A : Fin 8 → Addr → Prop}

/-- An event changes the queue by arrivals alone. -/
theorem Core.keeps_queue {s t : State} (move : Core A s t) (h : s.queue.Sound) : t.queue.Sound := by
  cases move with
  | raised e s => exact arrive_keeps_sound e h
  | held c k s => exact arrive_keeps_sound _ h
  | opened r q a c s => rw [openCapture_eq]; exact openedQueue_sound r q a c h
  | freed c s => exact arrive_keeps_sound _ h
  | aside s t rings caps pool rq queue => exact queue ▸ h
  | _ => exact h

/-- Besides arrivals, the commit of a POP EVENT takes the head, CLEAR and RSTN empty the list. -/
theorem Move.keeps_queue {s t : State} (move : Move A s t) (h : s.queue.Sound) : t.queue.Sound := by
  cases move with
  | flow flow =>
    cases flow with
    | core core => exact core.keeps_queue h
    | _ => exact h
  | cleared s => exact EventQueue.sound_empty _
  | popped s => exact popCommit_keeps_sound h
  | reset s => exact EventQueue.sound_empty _
  | _ => exact h

/-- Settles O54: move by move. -/
theorem stepKeepsQueueSound : Obligations.StepKeepsQueueSound := by
  intro s t h
  exact step_keeps (P := fun s => s.queue.Sound) (fun _ _ sound => sound)
    (fun i s t h => (exec_moves_anyWord i s t h).keeps (P := fun s => s.queue.Sound)
      fun _ _ move => move.keeps_queue) h

/-! ### PEEK EVENT and POP EVENT (R146, R147, R162, R176) -/

/-- A set of four members as a byte, the last first (R174). -/
theorem bitsByte_four (x y z w : Bool) : bitsByte [x, y, z, w] =
    (if w then 8#8 else 0#8) ||| (if z then 4#8 else 0#8) ||| (if y then 2#8 else 0#8) |||
      (if x then 1#8 else 0#8) := by
  cases x <;> cases y <;> cases z <;> cases w <;> rfl

/-- An absent number reads 00H (R174). -/
theorem optByte_nat8 {α : Type} (x : Option α) (number : α → Nat) :
    optByte (x.map fun i => nat8 (number i)) = BitVec.ofNat 8 ((x.map number).getD 0) := by
  cases x <;> rfl

/-- The head record and the length of the list, byte by byte (R146, R176). -/
theorem headBytes_eq (e : EventRecord) (length : Nat) :
    headBytes e length = bytes16 e.seq ++
      [eventCode e.event.kind,
       (if e.event.value.isSome then 8#8 else 0#8) ||| (if e.event.address.isSome then 4#8 else 0#8) |||
       (if e.event.capture.isSome then 2#8 else 0#8) ||| (if e.event.ring.isSome then 1#8 else 0#8),
       BitVec.ofNat 8 ((e.event.ring.map fun r => r.val).getD 0),
       BitVec.ofNat 8 ((e.event.capture.map fun c => c.val).getD 0)] ++
      bytes32 (e.event.address.getD 0#32) ++ bytes24 (BitVec.ofInt 24 (e.event.value.getD 0)) ++
      [e.event.detail, BitVec.ofNat 8 length] := by
  unfold headBytes eventBytes
  rw [bitsByte_four, optByte_nat8 _ fun r : Fin 8 => r.val, optByte_nat8 _ fun c : Fin 16 => c.val]
  simp only [List.append_assoc]
  rfl

/-- Settles O48. -/
theorem peekAndPop : Obligations.PeekAndPop := by
  intro s start
  refine ⟨fun empty => ⟨?_, ?_⟩, fun e es data head hdata => ⟨?_, ?_⟩⟩
  · refine exec_reports start rfl (Option.some_ne_none _) fun l => ?_
    simp only [runCommand, runPeekEvent, empty, refuse]
  · refine exec_reports start rfl (Option.some_ne_none _) fun l => ?_
    simp only [runCommand, runPopEvent, empty, refuse]
  · refine exec_reports start rfl (Option.some_ne_none _) fun l => ?_
    simp only [runCommand, runPeekEvent, head, replyOk, hdata, headBytes_eq]
  · refine congrArg _ (goodFrame_answers (c := .popEvent) start (Option.some_ne_none _) fun l _ => ?_)
    simp only [runPopEvent, head, replyOk, hdata, headBytes_eq]

/-! ### The attention conditions (R150, R152, R153, R177) -/

/-- The code is the number of the first condition present (R152). -/
theorem CondSet.code_eq_iff (c : CondSet) :
    (c.code = 0 ↔ ¬ c.fault ∧ ¬ c.overflow ∧ ¬ c.poolLow ∧ ¬ c.queue) ∧
    (c.code = 1 ↔ c.fault) ∧ (c.code = 2 ↔ ¬ c.fault ∧ c.overflow) ∧
    (c.code = 3 ↔ ¬ c.fault ∧ ¬ c.overflow ∧ c.poolLow) ∧
    (c.code = 4 ↔ ¬ c.fault ∧ ¬ c.overflow ∧ ¬ c.poolLow ∧ c.queue) := by
  unfold CondSet.code
  split_ifs with fault overflow poolLow queue <;> simp [*]

/-- Two sets meet in one of the four conditions. -/
theorem CondSet.meets_iff (a b : CondSet) : a.meets b = true ↔
    b.fault ∧ a.fault ∨ b.overflow ∧ a.overflow ∨ b.poolLow ∧ a.poolLow ∨ b.queue ∧ a.queue := by
  simp only [CondSet.meets, Bool.or_eq_true, Bool.and_eq_true, or_assoc, and_comm]

/-- FAULT is present while the merge engine is HALTED (R150). -/
theorem conditions_fault (s : State) : s.conditions.fault = true ↔ s.engine.status = .halted :=
  beq_iff_eq

/-- OVERFLOW is present while an OVERFLOW record is open (R150). -/
theorem conditions_overflow (s : State) :
    s.conditions.overflow = true ↔ s.queue.overflowOpen = true := Iff.rfl

/-- POOL_LOW is present while the free list is shorter than low_water (R115, R150). -/
theorem conditions_poolLow (s : State) :
    s.conditions.poolLow = true ↔ s.pool.freeList.length < s.pool.lowWater := pool_low_iff s.pool

/-- QUEUE is present from as many records as the watermark (R150). -/
theorem conditions_queue (s : State) :
    s.conditions.queue = true ↔ s.attn.watermark ≤ s.queue.records.length := decide_eq_true_iff

/-- Settles O49. -/
theorem attentionRules : Obligations.AttentionRules := by
  intro s
  obtain ⟨clear, fault, overflow, poolLow, queue⟩ := s.conditions.code_eq_iff
  have asserted := s.conditions.meets_iff s.attn.mask
  simp only [conditions_fault, conditions_overflow, conditions_poolLow, conditions_queue,
    Bool.not_eq_true, Nat.not_lt, Nat.not_le] at clear fault overflow poolLow queue asserted
  exact ⟨clear, fault, overflow, poolLow, queue, asserted, by simp [State.attnPin]⟩

end Sys2Proof.Machine
end

section
/-! PROOFS. Frames received and cut off: a link command's frame bit by bit, the three refusals of R160, the
frame that an SCS rise drops, the reply that one abandons. -/

namespace Sys2Proof.Machine

/-! ### The bytes of a link command (R174, 9.3, 9.4) -/

/-- A configuration record read back from its bytes, which follow the ring number (9.4). -/
theorem decodeRingParams_encodeRingParams (ring : Byte) (p : RingParams) :
    decodeRingParams (fun i => (ring :: encodeRingParams p).getD i 0#8) = p := by
  simp only [decodeRingParams, encodeRingParams, bytes16, bytes24, bytes32, List.cons_append,
    List.nil_append, List.getD_cons_succ, List.getD_cons_zero, be16_bytes16, be24_bytes24,
    be32_bytes32]

/-- A link command's code and parameter bytes decode to the command. -/
theorem decodeCommand_encodeCommand {c : Instr} {code : Byte} {params : List Byte}
    (h : encodeCommand c = some (code, params)) : decodeCommand code params = some c := by
  cases c with
  | setPath t share =>
    cases h
    exact congrArg (fun t => some (Instr.setPath t share)) (be16_bytes16 t)
  | getMap ring block =>
    cases h
    exact congrArg (fun b => some (Instr.getMap ring b)) (be24_bytes24 block)
  | setRing ring p =>
    cases h
    exact congrArg (fun p => some (Instr.setRing ring p)) (decodeRingParams_encodeRingParams ring p)
  | setPool base slots low =>
    cases h
    have read := congr (congr (congrArg Instr.setPool (be32_bytes32 base)) (be16_bytes16 slots))
      (be16_bytes16 low)
    exact congrArg some read
  | _ => cases h <;> rfl

/-- What decodes has the parameter count of its code (8.6). -/
theorem paramCount_of_decodeCommand {c : Instr} {code : Byte} {params : List Byte}
    (h : decodeCommand code params = some c) : paramCount code = some params.length := by
  unfold decodeCommand at h
  split at h
  · assumption
  · cases h

/-- Every command's parameters fit in the request buffer (R156). -/
theorem paramCount_le {code : Byte} {n : Nat} (h : paramCount code = some n) : n ≤ 40 := by
  unfold paramCount at h
  split at h <;> cases h <;> decide

/-! ### The evaluation of a frame (R156, R160, R161) -/

/-- A link command's row is the receipt of its good frame. -/
theorem exec_linkCommand {c : Instr} (s : State) (h : encodeCommand c ≠ none) :
    exec c s = .next (goodFrame c (runCommand c) s) := by
  cases c with
  | upstreamRequest | dnResponse | dnTimeout | copyTimeout | trigLevelChange | rstnLow | rstnHigh
  | scsFall | requestFrame | replyCommit | scsRise | turnaroundByte => exact absurd rfl h
  | _ => rfl

/-- A bad check byte is the first test (R160). -/
theorem evaluate_check {b : Byte} {s : State} (bad : b ≠ s.link.check) :
    evaluate b s = (s, refuse .check) := if_pos bad

/-- A code not in the table is the second (R160). -/
theorem evaluate_unknown {b code len : Byte} {s : State} (good : b = s.link.check)
    (hcode : s.link.buffer.code = some code) (hlen : s.link.buffer.length = some len)
    (unlisted : paramCount code = none) : evaluate b s = (s, refuse .unknown) := by
  simp only [evaluate, good, ne_eq, not_true_eq_false, if_false, hcode, hlen, unlisted]

/-- A length that is not the command's is the third (R160). -/
theorem evaluate_range {b code len : Byte} {n : Nat} {s : State} (good : b = s.link.check)
    (hcode : s.link.buffer.code = some code) (hlen : s.link.buffer.length = some len)
    (listed : paramCount code = some n) (wrong : 40 < len.toNat ∨ len.toNat ≠ n) :
    evaluate b s = (s, refuse .range) := by
  simp only [evaluate, good, ne_eq, not_true_eq_false, if_false, hcode, hlen, listed]
  exact if_pos wrong

/-- A frame that passes the three tests runs the command its parameters decode to (R160, R161). -/
theorem evaluate_command {b code len : Byte} {c : Instr} {s : State} (good : b = s.link.check)
    (hcode : s.link.buffer.code = some code) (hlen : s.link.buffer.length = some len)
    (fits : len.toNat = s.link.buffer.params.length)
    (decodes : decodeCommand code s.link.buffer.params = some c) :
    evaluate b s = runCommand c s := by
  have listed := paramCount_of_decodeCommand decodes
  have short := paramCount_le listed
  simp only [evaluate, good, ne_eq, not_true_eq_false, if_false, hcode, hlen, listed, decodes]
  exact if_neg (by omega)

/-- A frame's evaluation leaves SCS low and RSTN high, so the falling edge that ends its check byte is
taken: SDO presents the first bit of the turnaround byte (R155). -/
theorem sckFall_evaluated (b : Byte) (s : State) (selected : s.selected = true) :
    sckFall (finishFrame (evaluate b) s) = present (finishFrame (evaluate b) s) := by
  have runs := evaluate_runs b s
  have still : (finishFrame (evaluate b) s).selected = true := by
    show ((evaluate b s).1.pins.rstn && !(evaluate b s).1.pins.scs) = true
    rw [runs.rstn, runs.scs]
    exact selected
  rw [sckFall, if_pos still]

/-- The length byte of a frame that holds as many parameters as it says. -/
theorem nat8_length {params : List Byte} {len : Byte} (h : params.length = len.toNat) :
    nat8 params.length = len := by
  simp [nat8, h]

/-- A whole frame clocked in, good or bad: its evaluation on the link that holds it. -/
theorem exec_frame (code len b : Byte) (params : List Byte) (s : State)
    (start : s.atFrameStart = true) (sound : s.LinkSound) (length : params.length = len.toNat) :
    exec (.requestFrame (clockBytes (code :: len :: (params ++ [b])))) s =
      .next (present (finishFrame (evaluate b)
        { s with link := frameReceived code params s.link })) := by
  obtain ⟨selected, -, -, bits⟩ := (frameStart_iff s).mp start
  have held : frameReceived code params s.link = { s.link with
      buffer := ⟨some code, some len, params.take 40⟩
      byteCount := params.length + 3
      check := crc8 (code :: len :: params) } := by
    rw [frameReceived, nat8_length length, ← bits]
  rw [← sckFall_evaluated b { s with link := frameReceived code params s.link } selected, held]
  exact congrArg _ (clock_frame s code len b params start sound length)

/-- Settles O4: the frame's evaluation passes the three tests and decodes to the command, whose row is the
same execution on the same link. -/
theorem frameRunsItsCommand : Obligations.FrameRunsItsCommand := by
  intro c frame s encodes start sound
  unfold encodeFrame at encodes
  split at encodes
  · next code params bytes =>
    cases encodes
    have decodes := decodeCommand_encodeCommand bytes
    have short := paramCount_le (paramCount_of_decodeCommand decodes)
    have length : params.length = (BitVec.ofNat 8 params.length).toNat := by
      rw [BitVec.toNat_ofNat]; omega
    have whole : params.take 40 = params := List.take_of_length_le short
    have runs : evaluate (crc8 (code :: BitVec.ofNat 8 params.length :: params))
        { s with link := frameReceived code params s.link } =
          runCommand c { s with link := frameReceived code params s.link } :=
      evaluate_command rfl rfl rfl (by rw [frameReceived, whole]; exact length.symm)
        (by rw [frameReceived, whole]; exact decodes)
    refine ⟨goodFrame c (runCommand c) s, ?_, exec_linkCommand s (by simp [bytes]), ?_⟩
    · rw [goodFrame, if_pos start, bytes]
      refine (exec_frame code _ _ params s start sound length).trans ?_
      simp only [finishFrame, runs]
    · rw [goodFrame, if_pos start, bytes]
      rfl
  · cases encodes

/-- A frame whose evaluation refuses it is answered with the status alone. -/
theorem exec_refusedFrame {code len b : Byte} {params : List Byte} {status : Status} {s : State}
    (start : s.atFrameStart = true) (sound : s.LinkSound) (length : params.length = len.toNat)
    (refused : evaluate b { s with link := frameReceived code params s.link } =
      ({ s with link := frameReceived code params s.link }, refuse status)) :
    exec (.requestFrame (clockBytes (code :: len :: (params ++ [b])))) s =
      .next { s with link := s.link.replied code len params status [] } := by
  rw [exec_frame code len b params s start sound length, present_turn _ rfl, finishFrame, refused,
    frameReceived, nat8_length length]
  rfl

/-- Settles O5: the evaluation stops at the first test that fails. -/
theorem refusedFramesChangeNothing : Obligations.RefusedFramesChangeNothing := by
  intro code len b params status s start sound length test
  have check : (frameReceived code params s.link).check = crc8 (code :: len :: params) := by
    rw [frameReceived, nat8_length length]
  have received : (frameReceived code params s.link).buffer.length = some len :=
    congrArg some (nat8_length length)
  refine exec_refusedFrame start sound length ?_
  rcases test with ⟨bad, rfl⟩ | ⟨good, unlisted, rfl⟩ | ⟨good, ⟨n, listed, wrong⟩, rfl⟩
  · exact evaluate_check (by rw [check]; exact bad)
  · exact evaluate_unknown (good.trans check.symm) rfl received unlisted
  · exact evaluate_range (good.trans check.symm) rfl received listed wrong

/-! ### Frames cut off (R155, R163, R166) -/

/-- Bytes that end before a frame's check byte: fewer than code and length byte, or code, length byte and
no more parameters than it says (R156). -/
def endsBeforeCheck (bytes : List Byte) : Prop :=
  bytes.length < 2 ∨ ∃ code len params, bytes = code :: len :: params ∧ params.length ≤ len.toNat

/-- Such bytes are counted and held, and the link goes on in REQUEST. -/
theorem clock_partial {bytes : List Byte} {s : State} (start : s.atFrameStart = true)
    (sound : s.LinkSound) (cut : endsBeforeCheck bytes) :
    ∃ buffer check, clockEdges (clockBytes bytes) s = { s with link := { s.link with
      buffer := buffer, byteCount := bytes.length, check := check } } := by
  obtain ⟨-, -, count, -⟩ := (frameStart_iff s).mp start
  rcases cut with few | ⟨code, len, params, rfl, fits⟩
  · rcases bytes with - | ⟨code, - | ⟨_, _⟩⟩
    · exact ⟨s.link.buffer, s.link.check, by simp [clockBytes, clockEdges, ← count]⟩
    · exact ⟨_, _, by rw [clockBytes_one]; exact clock_code s code start sound⟩
    · simp at few
  · refine ⟨⟨some code, some len, params.take 40⟩, crc8 (code :: len :: params), ?_⟩
    rw [clock_head s code len params start sound fits, Nat.add_comm]
    rfl

/-- Bits of a byte under way in REQUEST are kept, and SDO goes on sending ones (R155, R158). -/
theorem clock_bits_request {bits : List Bool} {s : State} (selected : s.selected = true)
    (request : s.link.phase = .request) (noBits : s.link.bits = []) (ones : s.link.out = some true)
    (few : bits.length < 8) :
    clockEdges (clockBits bits) s = { s with link := { s.link with bits := bits } } := by
  have out : (if bits = [] then s.link.out else
      s.link.sdoByte.map fun b => b.getLsbD (7 - (s.link.bits.length + bits.length))) =
        s.link.out := by
    simp only [Link.sdoByte, request, noBits, List.length_nil, Nat.zero_add, Option.map_some,
      ones_bit few, ones, ite_self]
  rw [clock_bits bits s selected (by simp [request]) (by simpa [noBits] using few), out, noBits]
  rfl

/-- An SCS rise with no READ EXTREMES pending ends the transaction and drops what of it stands (R163,
R164). -/
theorem exec_scsRise (s : State) (rstn : s.pins.rstn = true)
    (commit : s.link.commit = none ∨ s.link.commit = some .popEvent) :
    exec .scsRise s = .next { s with
      pins := { s.pins with scs := true }
      link := { s.link with phase := .idle, commit := none, bits := [], sent := 0, out := none } } := by
  have keeps : dropPending { s with pins := { s.pins with scs := true } } =
      { s with pins := { s.pins with scs := true } } := by
    unfold dropPending
    rcases commit with commit | commit <;> simp only [commit]
  simp only [exec, execScsRise, if_pos rstn, keeps]

/-- With a READ EXTREMES pending its pending record goes too (R38, R164). -/
theorem exec_scsRise_extremes (r : Fin 8) (s : State) (rstn : s.pins.rstn = true)
    (commit : s.link.commit = some (.readExtremes r)) :
    exec .scsRise s = .next { s.putRing r { s.ring r with pendingExtremes := none } with
      pins := { s.pins with scs := true }
      link := { s.link with phase := .idle, commit := none, bits := [], sent := 0, out := none } } := by
  simp only [exec, execScsRise, if_pos rstn, dropPending, commit]
  rfl

/-- Settles O6: the bytes before the cut are held, the bits after them are kept, each while SDO sends ones;
the rise drops both. -/
theorem partialFrameDropped : Obligations.PartialFrameDropped := by
  refine ⟨fun bytes bits s start sound few cut => ?_, fun edges s dead => ?_⟩
  · obtain ⟨selected, request, -, noBits⟩ := (frameStart_iff s).mp start
    obtain ⟨buffer, check, held⟩ := clock_partial start sound cut
    obtain ⟨-, rstn⟩ := sound.selected (by simp [request])
    have idle : s.link.commit = none := sound.noCommit (by simp [request]) (by simp [request])
    have ones := sound.ones request
    have clocked : clockEdges (clockBytes bytes ++ clockBits bits) s = { s with link := { s.link with
        buffer := buffer, byteCount := bytes.length, check := check, bits := bits } } := by
      rw [clockEdges_append, held]
      exact clock_bits_request selected request noBits ones few
    exact ⟨{ s with link := { s.link with
        buffer := buffer, byteCount := bytes.length, check := check, bits := bits } },
      congrArg Host.Outcome.next clocked, request, rfl, rfl, (if_pos selected).trans ones, rfl,
      exec_scsRise _ rstn (Or.inl idle)⟩
  · refine congrArg _ (clockEdges_dead s ?_ edges)
    unfold State.selected
    rcases dead with scs | rstn | idle
    · exact Or.inl (by simp [scs])
    · exact Or.inl (by simp [rstn])
    · exact Or.inr idle

/-- Settles O8: only a READ EXTREMES has something of its own to drop. -/
theorem scsRiseAbandons : Obligations.ScsRiseAbandons := by
  intro s l rstn _ hl
  subst hl
  exact ⟨exec_scsRise s rstn, fun r => exec_scsRise_extremes r s rstn⟩

/-! ### No command stops the part -/

/-- Settles O2: every row's meaning, event and link command alike, is a next state. -/
theorem everyCommandAnswersNext : Obligations.EveryCommandAnswersNext := by
  intro c s
  cases c with
  | _ => exact ⟨_, rfl⟩

end Sys2Proof.Machine
end

section
/-! PROOFS. Link commands: the reports that need no operand and the settings that are written. -/

namespace Sys2Proof.Machine

/-! ### Reports (R59, R93, R116, R167, R170, R173) -/

/-- The pool's byte for POOL_LOW (R115, R116). -/
theorem flagCode_low (p : Pool) :
    flagCode p.low = if p.freeList.length < p.lowWater then 1#8 else 0#8 :=
  if_congr (pool_low_iff p) rfl rfl

/-- The set of attention conditions as a byte, FAULT at bit 0 (9.3, R173). -/
theorem condSetCode_conditions (s : State) : condSetCode s.conditions =
    (if s.engine.status = .halted then 1#8 else 0#8) |||
    (if s.queue.overflowOpen then 2#8 else 0#8) |||
    (if s.pool.freeList.length < s.pool.lowWater then 4#8 else 0#8) |||
    (if s.attn.watermark ≤ s.queue.records.length then 8#8 else 0#8) := by
  rw [← if_congr (conditions_fault s) rfl rfl, ← if_congr (conditions_overflow s) rfl rfl,
    ← if_congr (conditions_poolLow s) rfl rfl, ← if_congr (conditions_queue s) rfl rfl,
    condSetCode, bitsByte_four]
  ac_rfl

/-- Settles O40: each report reads what the statement names; GET POOL and READ ATTENTION work their flags
out from it. -/
theorem reportCommands : Obligations.ReportCommands := by
  intro s start
  refine ⟨?identify, ?getPath, ?getLines, ?getPool, ?readAttention, ?listCaptures⟩
  case getPool =>
    refine exec_reports start rfl (Option.some_ne_none _) fun l => ?_
    simp only [runCommand, runGetPool, poolBytes, flagCode_low]
    rfl
  case readAttention =>
    refine exec_reports start rfl (Option.some_ne_none _) fun l => ?_
    rw [← condSetCode_conditions s]
    rfl
  all_goals exact exec_reports start rfl (Option.some_ne_none _) fun l => rfl

/-! ### SET PATH (R169) -/

theorem runSetPath_range {timeout : BitVec 16} (share : Byte) (s : State)
    (h : 1 ≤ timeout.toNat ∧ timeout.toNat ≤ 255) :
    runSetPath timeout share s = (s, refuse .range) := if_pos h

/-- A timeout is 0 or at least 256. -/
theorem runSetPath_sets {timeout : BitVec 16} (share : Byte) (s : State)
    (h : timeout = 0#16 ∨ 256 ≤ timeout.toNat) :
    runSetPath timeout share s =
      ({ s with path := { s.path with dnTimeout := timeout.toNat, share := share.toNat } },
        replyOk []) := by
  refine if_neg fun range => ?_
  rcases h with rfl | large
  · exact absurd range.1 (by decide)
  · omega

/-! ### SET VIEW (R171) -/

/-- A view number is 0 or 1 (9.3). -/
theorem viewOf_none {b : Byte} (h : 1 < b.toNat) : viewOf b = none := by
  unfold viewOf
  rw [if_neg (by rintro rfl; simp at h), if_neg (by rintro rfl; simp at h)]

theorem runSetView_range {master view : Byte} (s : State)
    (h : 15 < master.toNat ∨ 1 < view.toNat) :
    runSetView master view s = (s, refuse .range) := by
  unfold runSetView
  rcases h with high | high
  · rw [masterOf, indexOf_none 16 master high]
  · rw [viewOf_none high]
    split
    · next none => cases none
    · rfl

theorem runSetView_sets {view : Byte} {v : View} (m : Fin 16) (s : State)
    (named : view = 0#8 ∧ v = .live ∨ view = 1#8 ∧ v = .review) :
    runSetView (BitVec.ofNat 8 m.val) view s =
      ({ s with path := { s.path with views := s.path.views.set m.val v m.isLt } },
        replyOk []) := by
  have hv : viewOf view = some v := by rcases named with ⟨rfl, rfl⟩ | ⟨rfl, rfl⟩ <;> rfl
  simp only [runSetView, masterOf, indexOf_ofNat 16 m (by decide), hv]

/-! ### SET EVENTS (R172) -/

theorem runSetEvents_range {watermark mask : Byte} (s : State)
    (h : watermark = 0#8 ∨ 64 < watermark.toNat ∨ 15 < mask.toNat) :
    runSetEvents watermark mask s = (s, refuse .range) := by
  unfold runSetEvents condSetOf
  split
  · rfl
  · next m named =>
    have small : mask.toNat < 16 := by
      by_contra high
      rw [if_neg high] at named
      cases named
    refine if_pos ?_
    rcases h with rfl | high | high
    · exact Or.inl rfl
    · exact Or.inr high
    · omega

theorem runSetEvents_sets {watermark mask : Byte} (s : State) (nonzero : watermark ≠ 0#8)
    (most : watermark.toNat ≤ 64) (named : mask.toNat ≤ 15) :
    runSetEvents watermark mask s =
      ({ s with attn := ⟨watermark.toNat, ⟨mask.getLsbD 0, mask.getLsbD 1, mask.getLsbD 2,
        mask.getLsbD 3⟩⟩ }, replyOk []) := by
  have inRange : ¬ (watermark.toNat = 0 ∨ 64 < watermark.toNat) := by
    rintro (zero | high)
    · exact nonzero (BitVec.eq_of_toNat_eq zero)
    · omega
  simp only [runSetEvents, condSetOf, if_pos (Nat.lt_succ_of_le named), if_neg inRange]

/-- Settles O46: each command's range test, and the one field or two that it writes. -/
theorem settingsCommands : Obligations.SettingsCommands := by
  intro s start
  refine ⟨fun timeout share => ⟨fun range => ?_, fun ok => ?_⟩,
    fun master view => ⟨fun range => ?_, fun m v hm named => ?_⟩,
    fun watermark mask => ⟨fun range => ?_, fun nonzero most named => ?_⟩⟩
  · exact exec_reports start rfl (Option.some_ne_none _) fun l => runSetPath_range share _ range
  · exact exec_does _ start rfl (Option.some_ne_none _) rfl fun l =>
      runSetPath_sets share { s with link := l } ok
  · exact exec_reports start rfl (Option.some_ne_none _) fun l => runSetView_range _ range
  · subst hm
    refine ⟨{ s with path := { s.path with views := s.path.views.set m.val v m.isLt } }, ?_, rfl,
      Vector.getElem_set_self m.isLt, fun m' other => ?_⟩
    · exact exec_does _ start rfl (Option.some_ne_none _) rfl fun l =>
        runSetView_sets m { s with link := l } named
    · exact Vector.getElem_set_ne m.isLt m'.isLt fun same => other (Fin.ext same.symm)
  · exact exec_reports start rfl (Option.some_ne_none _) fun l => runSetEvents_range _ range
  · exact exec_does _ start rfl (Option.some_ne_none _) rfl fun l =>
      runSetEvents_sets { s with link := l } nonzero most named

end Sys2Proof.Machine
end

section
/-! PROOFS. Link commands: the round trip of a command's bytes. -/

namespace Sys2Proof.Machine

/-- Settles O3: the bytes decode back (9.3, 9.4), what decodes has the parameter count of its code (8.6), and
no code has more than 40 (R156). -/
theorem linkCommandsDecodeBack : Obligations.LinkCommandsDecodeBack := by
  intro c code params encodes
  have decodes : decodeCommand code params = some c := decodeCommand_encodeCommand encodes
  have counted : paramCount code = some params.length := paramCount_of_decodeCommand decodes
  exact ⟨counted, paramCount_le counted, decodes⟩

end Sys2Proof.Machine
end

section
/-! PROOFS. The step by the queue of commands: what waits at its front decides it. -/

namespace Sys2Proof.Machine

/-- On an empty queue the part idles (log 2). -/
theorem step_of_pending_nil {s : State} (empty : s.pending = []) : step s = .next s := by
  simp only [step, empty]

/-- A command at the front of the queue is executed, on the state with the queue's rest. -/
theorem step_of_pending_cons {s : State} {c : Instr} {rest : List Instr} (front : s.pending = c :: rest) :
    step s = exec c { s with pending := rest } := by
  simp only [step, front]

/-- Settles O1: the two shapes of the queue. -/
theorem stepRunsFront : Obligations.StepRunsFront :=
  ⟨fun _ _ _ => step_of_pending_cons rfl, fun _ => step_of_pending_nil rfl⟩

end Sys2Proof.Machine
end
